-- ==== Sys2Proof/Word.lean ====
section
/-! DEFINITION. Word and container types: the word widths the Darion uses, and the keyed and sparse maps the state is made of. -/

namespace Sys2Proof

abbrev Byte := BitVec 8
abbrev W16 := BitVec 16
abbrev W32 := BitVec 32
abbrev W64 := BitVec 64
/-- One bit for each lane of a team: mask words m0 to m31 side by side, bit L for lane L (R44). -/
abbrev LaneMask := BitVec 1024
/-- A lane instruction, word 0 in bits [95:64] (R82). -/
abbrev W96 := BitVec 96
/-- A g register number. -/
abbrev GReg := BitVec 6

/-- A finite map from numbers, kept in rising key order. -/
abbrev KMap (α : Type) := List (Nat × α)

/-- A map from numbers to words that reads zero where it lists nothing: memories and lane registers. -/
abbrev Sparse (w : Nat) := List (Nat × BitVec w)

end Sys2Proof
end

