-- ==== Sys2Proof/Machine/Aes.lean ====
section
/-! DEFINITION. AES-256-GCM without additional data, as SEAL, UNSEAL, save images and dumps use it (R208, R338, R357; the cipher itself log 5). -/

namespace Sys2Proof.Aes

/-- Multiplication by x in the field of AES. -/
def xtime (a : Byte) : Byte := (a <<< 1) ^^^ (if a.getLsbD 7 then 0x1B else 0)

/-- Multiplication in the field of AES, over the low n bits of b. -/
def gmul : Nat → Byte → Byte → Byte
  | 0, _, _ => 0
  | n + 1, a, b => (if b.getLsbD 0 then a else 0) ^^^ gmul n (xtime a) (b >>> 1)

/-- a^n in the field of AES. -/
def gpow (a : Byte) : Nat → Byte
  | 0 => 1
  | n + 1 => gmul 8 a (gpow a n)

/-- The substitution box: the inverse in the field, then the affine map. -/
def sbox (a : Byte) : Byte :=
  let i := gpow a 254
  i ^^^ i.rotateLeft 1 ^^^ i.rotateLeft 2 ^^^ i.rotateLeft 3 ^^^ i.rotateLeft 4 ^^^ 0x63

def xorBytes (a b : List Byte) : List Byte := List.zipWith (· ^^^ ·) a b

/-- Round constants. -/
def rcon : Nat → Byte
  | 0 => 1
  | n + 1 => xtime (rcon n)

/-- The key schedule of a 256-bit key, newest word first. -/
def expand : Nat → List (List Byte) → List (List Byte)
  | 0, ws => ws
  | n + 1, ws =>
    let i := ws.length
    let t := ws.headD []
    let u :=
      if i % 8 = 0 then xorBytes ((t.drop 1 ++ t.take 1).map sbox) [rcon (i / 8 - 1), 0, 0, 0]
      else if i % 8 = 4 then t.map sbox else t
    expand n (xorBytes (ws.getD 7 []) u :: ws)

/-- The sixty round-key words, in order, as fifteen blocks. -/
def roundKeys (key : List Byte) : List (List Byte) :=
  let ws := (expand 52 ((List.range 8).map (fun i => (key.drop (4 * i)).take 4)).reverse).reverse
  (List.range 15).map (fun r => ((ws.drop (4 * r)).take 4).flatten)

/-- The rows of a block, shifted. -/
def shiftRows (b : List Byte) : List Byte := (List.range 16).map (fun i => b.getD ((i + 4 * (i % 4)) % 16) 0)

/-- The columns of a block, mixed. -/
def mixColumns (b : List Byte) : List Byte :=
  (List.range 16).map (fun i =>
    let c := i / 4 * 4
    let x := fun k => b.getD (c + (i + k) % 4) 0
    gmul 8 (x 0) 2 ^^^ gmul 8 (x 1) 3 ^^^ x 2 ^^^ x 3)

/-- One block under the round keys. -/
def rounds : List (List Byte) → List Byte → List Byte
  | [], b => b
  | [k], b => xorBytes (shiftRows (b.map sbox)) k
  | k :: ks, b => rounds ks (xorBytes (mixColumns (shiftRows (b.map sbox))) k)

def encryptBlock (key b : List Byte) : List Byte :=
  match roundKeys key with
  | [] => b
  | k :: ks => rounds ks (xorBytes b k)

/-- A block as a number, its first byte highest. -/
def beBits : List Byte → Nat
  | [] => 0
  | b :: bs => b.toNat * 256 ^ bs.length + beBits bs

/-- The n bytes of a number, highest first. -/
def beBytes : Nat → Nat → List Byte
  | 0, _ => []
  | n + 1, x => BitVec.ofNat 8 (x / 256 ^ n) :: beBytes n x

/-- Multiplication in the field of GHASH, over the top n bits of x. -/
def ghMul : Nat → BitVec 128 → BitVec 128 → BitVec 128
  | 0, _, _ => 0
  | n + 1, x, v =>
    (if x.getLsbD 127 then v else 0) ^^^ ghMul n (x <<< 1) ((v >>> 1) ^^^ (if v.getLsbD 0 then (0xE1 : BitVec 128) <<< 120 else 0))

/-- The 16-byte blocks of a list, the last one filled with zeros. -/
def blocks16 : Nat → List Byte → List (List Byte)
  | 0, _ => []
  | n + 1, bs => if bs.isEmpty then [] else (bs.take 16 ++ List.replicate (16 - min 16 bs.length) 0) :: blocks16 n (bs.drop 16)

def ghash (h : BitVec 128) (bs : List (List Byte)) : BitVec 128 :=
  bs.foldl (fun y b => ghMul 128 (y ^^^ BitVec.ofNat 128 (beBits b)) h) 0

/-- The counter stream from a 96-bit IV: block i uses counter 2 + i. -/
def ctrXor (key iv : List Byte) : Nat → List (List Byte) → List Byte
  | _, [] => []
  | c, b :: bs => xorBytes b (encryptBlock key (iv ++ beBytes 4 c)) ++ ctrXor key iv (c + 1) bs

/-- The key's bytes, highest first, and the 96-bit IV's. -/
def keyBytes (k : BitVec 256) : List Byte := beBytes 32 k.toNat
def ivBytes (iv : BitVec 96) : List Byte := beBytes 12 iv.toNat

/-- The tag of a ciphertext. -/
def tag (k : BitVec 256) (iv : BitVec 96) (cipher : List Byte) : List Byte :=
  let key := keyBytes k
  let h := BitVec.ofNat 128 (beBits (encryptBlock key (List.replicate 16 0)))
  let y := ghash h (blocks16 (cipher.length + 1) cipher ++ [beBytes 8 0 ++ beBytes 8 (8 * cipher.length)])
  xorBytes (beBytes 16 y.toNat) (encryptBlock key (ivBytes iv ++ beBytes 4 1))

/-- The ciphertext of a plaintext; the same function recovers the plaintext. -/
def crypt (k : BitVec 256) (iv : BitVec 96) (bs : List Byte) : List Byte :=
  (ctrXor (keyBytes k) (ivBytes iv) 2 (blocks16 (bs.length + 1) bs)).take bs.length

/-- A sealed segment: ciphertext, then the 16-byte tag. -/
def sealed (k : BitVec 256) (iv : BitVec 96) (bs : List Byte) : List Byte :=
  let c := crypt k iv bs
  c ++ tag k iv c

/-- The IV of R208, R338 and R357: type, context ID and 64 bits. -/
def iv (type ctx : Nat) (low : W64) : BitVec 96 := BitVec.ofNat 8 type ++ BitVec.ofNat 24 ctx ++ low

/-- Segments of 65,520 bytes, each sealed under its own number (R338, R357). -/
def segments (k : BitVec 256) (mk : Nat → BitVec 96) : Nat → Nat → List Byte → List (List Byte)
  | 0, _, _ => []
  | fuel + 1, s, bs => if bs.isEmpty then [] else sealed k (mk s) (bs.take 65520) :: segments k mk fuel (s + 1) (bs.drop 65520)

/-- The plaintext of sealed segments, where every tag is good (R339). -/
def openSegments (k : BitVec 256) (mk : Nat → BitVec 96) : Nat → Nat → List Byte → Option (List Byte)
  | 0, _, bs => if bs.isEmpty then some [] else none
  | fuel + 1, s, bs =>
    if bs.isEmpty then some []
    else
      let g := bs.take 65536
      let c := g.take (g.length - 16)
      if tag k (mk s) c = g.drop (g.length - 16) then (openSegments k mk fuel (s + 1) (bs.drop 65536)).map (fun r => crypt k (mk s) c ++ r) else none

end Sys2Proof.Aes
end

