-- ==== Sys2Proof/Syntax.lean ====
section
/-! DEFINITION. The syntax: scalar words, lane instructions, copy entries, and the part's other indivisible steps, one constructor for each row of spec/opcode_table.json. -/

namespace Sys2Proof

/-- The condition codes of CMP, B and BSPEC (R75). -/
inductive Cond where
  | eq | ne | lt | ge | ltn | gen
  deriving DecidableEq, Repr, Inhabited

/-- Rounding modes (R122). -/
inductive Rm where
  | rne | rz | rd | ru
  deriving DecidableEq, Repr, Inhabited

/-- The access sizes of format SM (R71, R175); code 7 is ILLEGAL. -/
inductive MemSize where
  | i8 | n8 | i16 | n16 | i32 | n32 | d64
  deriving DecidableEq, Repr, Inhabited

/-- The ordering field of an atomic (R77, R179). -/
inductive MemOrder where
  | relaxed | acq | rel | acqRel
  deriving DecidableEq, Repr, Inhabited

/-- The fields of a lane instruction beside its opcode (R82). -/
structure LaneOps where
  ty : BitVec 4
  vd : BitVec 8
  va : BitVec 8
  srcb : BitVec 2
  vb : BitVec 8
  vc : BitVec 8
  pen : Bool
  pneg : Bool
  pidx : BitVec 3
  look : BitVec 4
  rm : BitVec 2
  sat : Bool
  mode : BitVec 4
  imm : W32
  deriving DecidableEq, Repr, Inhabited

/-- The fields of a copy instruction beside its opcode (R196). -/
structure CopyOps where
  dsp : BitVec 2
  ssp : BitVec 2
  kind : BitVec 2
  notify : Bool
  order : Bool
  slot : BitVec 6
  rm : BitVec 2
  sfmt : BitVec 4
  dfmt : BitVec 4
  src : W64
  dst : W64
  yext : W16
  xext : W16
  zext : BitVec 12
  spitch : BitVec 20
  w7 : W32
  deriving DecidableEq, Repr, Inhabited

/-- A host hart's fetch from an executable page with the Darion tag (R310, R312): the context, the hart (8 die + core), its thread, the target, and the registers x1 to x31 and f0 to f31 as g1 to g63. -/
structure HartFetch where
  ctx : Nat
  hart : Nat
  thread : Nat
  target : W64
  regs : List W64
  deriving DecidableEq, Repr, Inhabited

/-- A landing thread reading its queue: the context, and the hart it runs on. -/
structure Landing where
  ctx : Nat
  hart : Nat
  deriving DecidableEq, Repr

/-- A message from another package (R41): the receiving context, the sender's sequence number, its package and context, and the payload. -/
structure Inbound where
  ctx : Nat
  seq : W64
  sender : W32
  payload : List Byte
  deriving DecidableEq, Repr, Inhabited

/-- What an access from outside the dies does (R291, R292): a load, a store, an AMO, and a hart's LR and SC. -/
inductive OuterOp where
  | read (bytes : Nat)
  | write (data : List Byte)
  | atomic (op : BitVec 4) (wide : Bool) (operand : W64)
  | lr (wide : Bool)
  | sc (wide : Bool) (x : W64)
  deriving DecidableEq, Repr, Inhabited

/-- An access of a host hart or of a UALink peer to a context's memory: its operation, its role and the agent that issues it. -/
structure OuterAccess where
  agent : Nat
  ctx : Nat
  addr : W64
  op : OuterOp
  acquire : Bool
  release : Bool
  deriving DecidableEq, Repr, Inhabited

/-- Where an SRAM or HBM error that SECDED cannot correct, or can, is found (R342). -/
inductive SoftPlace where
  | corrected (place : Nat)
  | cleanLine (core : Nat)
  | overlaySlot (core slot : Nat)
  | tlbEntry (core n : Nat)
  | dieTlbEntry (die n : Nat)
  | sliceRow (core col row : Nat)
  | datapath (core entry group : Nat)
  | proofTile (team : Nat)
  | held (ctx : Nat)
  | hbmPage (page : Nat)
  deriving DecidableEq, Repr, Inhabited

/-- A soft error: its place and the team it is reported for, if any. -/
structure SoftError where
  place : SoftPlace
  team : Option Nat
  deriving DecidableEq, Repr, Inhabited

/-- The grant that a DATA from the home carries (R299). -/
inductive Grant where
  | none | e | s | m
  deriving DecidableEq, Repr, Inhabited

/-- A message between dies (R299): line address, source, destination, the source's sequence number, the requester a forward names, the grant, the DIRTY bit, a dirty mask, and the bytes of its data beats. -/
structure Packet where
  line : Nat
  src : Nat
  dst : Nat
  num : Nat
  req : Nat
  grant : Grant
  dirty : Bool
  mask : BitVec 4
  data : List Byte
  deriving DecidableEq, Repr, Inhabited

/-- One constructor for each row of spec/opcode_table.json, in the table's order but for those without operands and those that come from outside, which stand last. -/
inductive Instr where
  /-- ADD (R93). -/
  | add (d a b : GReg) (w : Bool)
  /-- SUB (R93). -/
  | sub (d a b : GReg) (w : Bool)
  /-- MUL (R93). -/
  | mul (d a b : GReg) (w : Bool)
  /-- MULH_I (R93). -/
  | mulhI (d a b : GReg) (w : Bool)
  /-- MULH_N (R93). -/
  | mulhN (d a b : GReg) (w : Bool)
  /-- DIV_I (R93). -/
  | divI (d a b : GReg) (w : Bool)
  /-- DIV_N (R93). -/
  | divN (d a b : GReg) (w : Bool)
  /-- REM_I (R93). -/
  | remI (d a b : GReg) (w : Bool)
  /-- REM_N (R93). -/
  | remN (d a b : GReg) (w : Bool)
  /-- AND (R93). -/
  | and (d a b : GReg) (w : Bool)
  /-- OR (R93). -/
  | or (d a b : GReg) (w : Bool)
  /-- XOR (R93). -/
  | xor (d a b : GReg) (w : Bool)
  /-- ANDN (R93). -/
  | andn (d a b : GReg) (w : Bool)
  /-- SHL (R93). -/
  | shl (d a b : GReg) (w : Bool)
  /-- SHR (R93). -/
  | shr (d a b : GReg) (w : Bool)
  /-- SRA (R93). -/
  | sra (d a b : GReg) (w : Bool)
  /-- ROL (R93). -/
  | rol (d a b : GReg) (w : Bool)
  /-- MIN_I (R93). -/
  | minI (d a b : GReg) (w : Bool)
  /-- MIN_N (R93). -/
  | minN (d a b : GReg) (w : Bool)
  /-- MAX_I (R93). -/
  | maxI (d a b : GReg) (w : Bool)
  /-- MAX_N (R93). -/
  | maxN (d a b : GReg) (w : Bool)
  /-- POPC (R93). -/
  | popc (d a : GReg) (w : Bool)
  /-- CLZ (R93). -/
  | clz (d a : GReg) (w : Bool)
  /-- CTZ (R93). -/
  | ctz (d a : GReg) (w : Bool)
  /-- ADDI (R95). -/
  | addi (d a : GReg) (i : BitVec 14)
  /-- ANDI (R95). -/
  | andi (d a : GReg) (i : BitVec 14)
  /-- ORI (R95). -/
  | ori (d a : GReg) (i : BitVec 14)
  /-- XORI (R95). -/
  | xori (d a : GReg) (i : BitVec 14)
  /-- SHLI (R96). -/
  | shli (d a : GReg) (w : Bool) (n : BitVec 6)
  /-- SHRI (R96). -/
  | shri (d a : GReg) (w : Bool) (n : BitVec 6)
  /-- SRAI (R96). -/
  | srai (d a : GReg) (w : Bool) (n : BitVec 6)
  /-- LIH (R97). -/
  | lih (d : GReg) (i : BitVec 20)
  /-- LIX (R98). -/
  | lix (d : GReg) (i : BitVec 20)
  /-- CMP (R99). -/
  | cmp (d a b : GReg) (w : Bool) (c : Cond)
  /-- FADD (R101). -/
  | fadd (d a b : GReg) (w : Bool) (r : Rm)
  /-- FSUB (R101). -/
  | fsub (d a b : GReg) (w : Bool) (r : Rm)
  /-- FMUL (R101). -/
  | fmul (d a b : GReg) (w : Bool) (r : Rm)
  /-- FDIV (R101). -/
  | fdiv (d a b : GReg) (w : Bool) (r : Rm)
  /-- FSQRT (R101). -/
  | fsqrt (d a : GReg) (w : Bool) (r : Rm)
  /-- FMIN (R103). -/
  | fmin (d a b : GReg) (w : Bool)
  /-- FMAX (R103). -/
  | fmax (d a b : GReg) (w : Bool)
  /-- FMINN (R103). -/
  | fminn (d a b : GReg) (w : Bool)
  /-- FMAXN (R103). -/
  | fmaxn (d a b : GReg) (w : Bool)
  /-- FCMP_EQ (R104). -/
  | fcmpEq (d a b : GReg) (w : Bool)
  /-- FCMP_LT (R104). -/
  | fcmpLt (d a b : GReg) (w : Bool)
  /-- FCMP_LE (R104). -/
  | fcmpLe (d a b : GReg) (w : Bool)
  /-- FCMP_UN (R104). -/
  | fcmpUn (d a b : GReg) (w : Bool)
  /-- FCVT_F (R105). -/
  | fcvtF (d a : GReg) (w : Bool) (r : Rm)
  /-- FCVT_I (R105). -/
  | fcvtI (d a : GReg) (w : Bool) (r : Rm)
  /-- FCVT_N (R105). -/
  | fcvtN (d a : GReg) (w : Bool) (r : Rm)
  /-- ICVT_F (R105). -/
  | icvtF (d a : GReg) (w : Bool) (r : Rm)
  /-- NCVT_F (R105). -/
  | ncvtF (d a : GReg) (w : Bool) (r : Rm)
  /-- FCLASS (R104). -/
  | fclass (d a : GReg) (w : Bool)
  /-- FFMA (R106). -/
  | ffma (d a b : GReg) (w : Bool) (r : Rm)
  /-- LD (R176). -/
  | ld (d a : GReg) (s : MemSize) (p : Bool) (i : BitVec 10)
  /-- ST (R176). -/
  | st (d a : GReg) (s : MemSize) (p : Bool) (i : BitVec 10)
  /-- LD_ACQ (R176). -/
  | ldAcq (d a : GReg) (s : MemSize) (p : Bool) (i : BitVec 10)
  /-- ST_REL (R176). -/
  | stRel (d a : GReg) (s : MemSize) (p : Bool) (i : BitVec 10)
  /-- ATOM_SWAP (R178). -/
  | atomSwap (d a b : GReg) (o : MemOrder) (s w : Bool)
  /-- ATOM_ADD (R178). -/
  | atomAdd (d a b : GReg) (o : MemOrder) (s w : Bool)
  /-- ATOM_AND (R178). -/
  | atomAnd (d a b : GReg) (o : MemOrder) (s w : Bool)
  /-- ATOM_OR (R178). -/
  | atomOr (d a b : GReg) (o : MemOrder) (s w : Bool)
  /-- ATOM_XOR (R178). -/
  | atomXor (d a b : GReg) (o : MemOrder) (s w : Bool)
  /-- ATOM_MIN_I (R178). -/
  | atomMinI (d a b : GReg) (o : MemOrder) (s w : Bool)
  /-- ATOM_MAX_I (R178). -/
  | atomMaxI (d a b : GReg) (o : MemOrder) (s w : Bool)
  /-- ATOM_MIN_N (R178). -/
  | atomMinN (d a b : GReg) (o : MemOrder) (s w : Bool)
  /-- ATOM_MAX_N (R178). -/
  | atomMaxN (d a b : GReg) (o : MemOrder) (s w : Bool)
  /-- ATOM_FADD (R178). -/
  | atomFadd (d a b : GReg) (o : MemOrder) (s : Bool)
  /-- ATOM_FMAX (R178). -/
  | atomFmax (d a b : GReg) (o : MemOrder) (s : Bool)
  /-- CAS (R178). -/
  | cas (d a b : GReg) (o : MemOrder) (s w : Bool)
  /-- B (R108). -/
  | b (c : Cond) (a b : GReg) (o : BitVec 10)
  /-- BZ (R108). -/
  | bz (a : GReg) (o : BitVec 10)
  /-- BNZ (R108). -/
  | bnz (a : GReg) (o : BitVec 10)
  /-- J (R109). -/
  | j (o : BitVec 26)
  /-- JAL (R109). -/
  | jal (o : BitVec 26)
  /-- JALR (R109). -/
  | jalr (d a : GReg) (i : BitVec 14)
  /-- BSPEC (R272). -/
  | bspec (c : Cond) (a b : GReg) (h : Bool) (o : BitVec 9)
  /-- MSPLIT (R111). -/
  | msplit (p : BitVec 3)
  /-- MRD (R112). -/
  | mrd (d : GReg) (k : BitVec 5)
  /-- MWR (R112). -/
  | mwr (k : BitVec 5) (a : GReg)
  /-- MCNT (R112). -/
  | mcnt (d : GReg)
  /-- BMZ (R113). -/
  | bmz (o : BitVec 10)
  /-- BMF (R113). -/
  | bmf (o : BitVec 10)
  /-- LX (R84). -/
  | lx (n : BitVec 4) (i : BitVec 22)
  /-- QSET (R115). -/
  | qset (q : BitVec 2) (a : GReg)
  /-- WAITL (R116). -/
  | waitl (n : BitVec 4)
  /-- OBRES (R263). -/
  | obres (r : BitVec 4) (a : GReg)
  /-- OBREL (R263). -/
  | obrel (r : BitVec 4)
  /-- PANEL (R264). -/
  | panel (p : BitVec 4) (a : GReg)
  /-- MZERO (R265). -/
  | mzero (t : BitVec 5) (n : BitVec 2)
  /-- MMA (R267). -/
  | mma (t : BitVec 5) (r p : BitVec 4) (x : GReg) (f : BitVec 2)
  /-- MDRAIN (R269). -/
  | mdrain (t : BitVec 5) (a : GReg)
  /-- MCOMMIT (R270). -/
  | mcommit (d : GReg)
  /-- MWAIT (R270). -/
  | mwait (a : GReg)
  /-- SYINIT (R226). -/
  | syinit (a : GReg) (s : BitVec 6)
  /-- SYA (R227). -/
  | sya (d : GReg) (s : BitVec 6)
  /-- SYW (R228). -/
  | syw (d a : GReg) (s : BitVec 6)
  /-- SYTEST (R228). -/
  | sytest (d a : GReg) (s : BitVec 6)
  /-- SYEXP (R227). -/
  | syexp (a : GReg) (s : BitVec 6)
  /-- SYWB (R227). -/
  | sywb (d : GReg) (s : BitVec 6)
  /-- SYCLR (R229). -/
  | syclr (a : GReg) (s : BitVec 6)
  /-- RGET (R230). -/
  | rget (d : GReg) (s : BitVec 6)
  /-- RREL (R230). -/
  | rrel (s : BitVec 6)
  /-- RPUT (R230). -/
  | rput (d : GReg) (s : BitVec 6)
  /-- RDONE (R230). -/
  | rdone (s : BitVec 6)
  /-- FENCE_X (R234). -/
  | fenceX (f t : BitVec 4)
  /-- CSRR (R66). -/
  | csrr (d : GReg) (c : BitVec 12)
  /-- CSRW (R66). -/
  | csrw (d a : GReg) (c : BitVec 12)
  /-- CSRS (R66). -/
  | csrs (d a : GReg) (c : BitVec 12)
  /-- CSRC (R66). -/
  | csrc (d a : GReg) (c : BitVec 12)
  /-- TRAP (R325). -/
  | trap (a : GReg)
  /-- FETCHWORK (R57). -/
  | fetchwork (a b : GReg)
  /-- TLBINV (R327). -/
  | tlbinv (a b : GReg)
  /-- WIDEN (R314). -/
  | widen (w : BitVec 11)
  /-- MOV (R140). -/
  | mov (o : LaneOps)
  /-- IADD (R140). -/
  | iadd (o : LaneOps)
  /-- ISUB (R140). -/
  | isub (o : LaneOps)
  /-- IMUL (R140). -/
  | imul (o : LaneOps)
  /-- IMAD (R140). -/
  | imad (o : LaneOps)
  /-- IMULH (R140). -/
  | imulh (o : LaneOps)
  /-- IMIN (R140). -/
  | imin (o : LaneOps)
  /-- IMAX (R140). -/
  | imax (o : LaneOps)
  /-- IABS (R140). -/
  | iabs (o : LaneOps)
  /-- V_AND (R140). -/
  | vAnd (o : LaneOps)
  /-- V_OR (R140). -/
  | vOr (o : LaneOps)
  /-- V_XOR (R140). -/
  | vXor (o : LaneOps)
  /-- NOT (R140). -/
  | not (o : LaneOps)
  /-- V_SHL (R140). -/
  | vShl (o : LaneOps)
  /-- V_SHR (R140). -/
  | vShr (o : LaneOps)
  /-- V_SRA (R140). -/
  | vSra (o : LaneOps)
  /-- V_POPC (R140). -/
  | vPopc (o : LaneOps)
  /-- V_CLZ (R140). -/
  | vClz (o : LaneOps)
  /-- ICMP (R141). -/
  | icmp (o : LaneOps)
  /-- SEL (R140). -/
  | sel (o : LaneOps)
  /-- LANEID (R140). -/
  | laneid (o : LaneOps)
  /-- V_FADD (R142). -/
  | vFadd (o : LaneOps)
  /-- V_FSUB (R142). -/
  | vFsub (o : LaneOps)
  /-- V_FMUL (R142). -/
  | vFmul (o : LaneOps)
  /-- V_FFMA (R142). -/
  | vFfma (o : LaneOps)
  /-- V_FMIN (R142). -/
  | vFmin (o : LaneOps)
  /-- V_FMAX (R142). -/
  | vFmax (o : LaneOps)
  /-- V_FMINN (R142). -/
  | vFminn (o : LaneOps)
  /-- V_FMAXN (R142). -/
  | vFmaxn (o : LaneOps)
  /-- V_FCMP (R143). -/
  | vFcmp (o : LaneOps)
  /-- FRND (R142). -/
  | frnd (o : LaneOps)
  /-- FABS (R142). -/
  | fabs (o : LaneOps)
  /-- FNEG (R142). -/
  | fneg (o : LaneOps)
  /-- V_FDIV (R142). -/
  | vFdiv (o : LaneOps)
  /-- RCP (R144). -/
  | rcp (o : LaneOps)
  /-- RSQ (R144). -/
  | rsq (o : LaneOps)
  /-- SQRT (R144). -/
  | sqrt (o : LaneOps)
  /-- EXP2 (R144). -/
  | exp2 (o : LaneOps)
  /-- LOG2 (R144). -/
  | log2 (o : LaneOps)
  /-- SIN (R144). -/
  | sin (o : LaneOps)
  /-- COS (R144). -/
  | cos (o : LaneOps)
  /-- CVT (R145). -/
  | cvt (o : LaneOps)
  /-- PACKX (R146). -/
  | packx (o : LaneOps)
  /-- UNPACKX (R147). -/
  | unpackx (o : LaneOps)
  /-- DOT4 (R148). -/
  | dot4 (o : LaneOps)
  /-- DOT2 (R148). -/
  | dot2 (o : LaneOps)
  /-- REDUCE (R149). -/
  | reduce (o : LaneOps)
  /-- SCAN (R150). -/
  | scan (o : LaneOps)
  /-- BALLOT (R151). -/
  | ballot (o : LaneOps)
  /-- VOTE (R151). -/
  | vote (o : LaneOps)
  /-- PERM (R152). -/
  | perm (o : LaneOps)
  /-- BCAST (R152). -/
  | bcast (o : LaneOps)
  /-- LSHIFT (R152). -/
  | lshift (o : LaneOps)
  /-- LDG (R184). -/
  | ldg (o : LaneOps)
  /-- STG (R184). -/
  | stg (o : LaneOps)
  /-- LDL (R184). -/
  | ldl (o : LaneOps)
  /-- STL (R184). -/
  | stl (o : LaneOps)
  /-- LDB (R186). -/
  | ldb (o : LaneOps)
  /-- STB (R186). -/
  | stb (o : LaneOps)
  /-- ATOMG (R189). -/
  | atomg (o : LaneOps)
  /-- ATOML (R189). -/
  | atoml (o : LaneOps)
  /-- STO (R188). -/
  | sto (o : LaneOps)
  /-- LDT (R187). -/
  | ldt (o : LaneOps)
  /-- PLOG (R153). -/
  | plog (o : LaneOps)
  /-- PSET (R153). -/
  | pset (o : LaneOps)
  /-- ARCP (R154). -/
  | arcp (o : LaneOps)
  /-- ARSQ (R154). -/
  | arsq (o : LaneOps)
  /-- AEXP (R154). -/
  | aexp (o : LaneOps)
  /-- UCODE (R156). -/
  | ucode (k : BitVec 5) (o : LaneOps)
  /-- BATCH_COMPLETE (R85). -/
  | batchComplete (t : Nat)
  /-- SCALAR_FETCH (R68). -/
  | scalarFetch (t n : Nat)
  /-- SPECULATION_RESOLVE (R272). -/
  | speculationResolve (t : Nat)
  /-- MATRIX_START (R271). -/
  | matrixStart (c n : Nat)
  /-- CHUNK_WRITE (R253). -/
  | chunkWrite (c n g : Nat)
  /-- MATRIX_COMPLETE (R267). -/
  | matrixComplete (c n : Nat)
  /-- RING_PUBLISH (R193). -/
  | ringPublish (b t : Nat)
  /-- NOP (R197). -/
  | cNop (c : CopyOps)
  /-- COPY (R199). -/
  | cCopy (c : CopyOps)
  /-- GATHER (R199). -/
  | cGather (c : CopyOps)
  /-- FILL (R199). -/
  | cFill (c : CopyOps)
  /-- SLOAD (R206). -/
  | cSload (c : CopyOps)
  /-- OVL (R207). -/
  | cOvl (c : CopyOps)
  /-- RESTRICT (R216). -/
  | cRestrict (c : CopyOps)
  /-- PROLONG (R216). -/
  | cProlong (c : CopyOps)
  /-- SEAL (R208). -/
  | cSeal (c : CopyOps)
  /-- UNSEAL (R208). -/
  | cUnseal (c : CopyOps)
  /-- SIGNAL (R209). -/
  | cSignal (c : CopyOps)
  /-- WAITY (R209). -/
  | cWaity (c : CopyOps)
  /-- WAITY_SATISFIED (R209). -/
  | waitySatisfied (b : Nat)
  /-- SUBOP_COMPLETE (R202). -/
  | subopComplete (b i : Nat)
  /-- ENTRY_COMPLETE (R201). -/
  | entryComplete (b i : Nat)
  /-- FETCHWORK_SERVE (R57). -/
  | fetchworkServe (t : Nat)
  /-- WRIDX_OBSERVE (R29). -/
  | wridxObserve (q : Nat)
  /-- TAKE_RECORD (R34). -/
  | takeRecord (q : Nat)
  /-- DEPENDENCE_REREAD (R35). -/
  | dependenceReread (l n : Nat)
  /-- QUEUE_RESUME (R30). -/
  | queueResume (q : Nat)
  /-- QUEUE_DESTROY (R31). -/
  | queueDestroy (q : Nat)
  /-- CTRL_REJECT (R30). -/
  | ctrlReject (q : Nat)
  /-- DESTROY_COMPLETE (R31). -/
  | destroyComplete (q : Nat)
  /-- PLACE_BLOCK (R54). -/
  | placeBlock (l : Nat)
  /-- LAUNCH_COMPLETE (R36). -/
  | launchComplete (l : Nat)
  /-- BLOCK_RETIRE (R238). -/
  | blockRetire (b : Nat)
  /-- TRAP_DELIVERY (R321). -/
  | trapDelivery (t : Nat)
  /-- BLOCK_KILL (R341). -/
  | blockKill (b : Nat)
  /-- CONTEXT_RESET (R341). -/
  | contextReset (x code : Nat)
  /-- FIRMWARE_EVENT (R326). -/
  | firmwareEvent (d : Nat)
  /-- BLOCK_STOP (R332). -/
  | blockStop (b : Nat)
  /-- BLOCK_SAVE (R334). -/
  | blockSave (b : Nat)
  /-- BLOCK_RESTORE (R335). -/
  | blockRestore (b : Nat)
  /-- CALL_POST (R309). -/
  | callPost (t : Nat)
  /-- SYSCALL_POST (R316). -/
  | syscallPost (t : Nat)
  /-- HRETURN_POST (R315). -/
  | hreturnPost (t : Nat)
  /-- RETURN (R310). -/
  | returnRec (x : Nat)
  /-- HCALL (R312). -/
  | hcall (x : Nat)
  /-- RDS (R300). -/
  | msgRds (m : Packet)
  /-- RDX (R300). -/
  | msgRdx (m : Packet)
  /-- UPG (R300). -/
  | msgUpg (m : Packet)
  /-- FWDS (R300). -/
  | msgFwds (m : Packet)
  /-- FWDX (R300). -/
  | msgFwdx (m : Packet)
  /-- INV (R300). -/
  | msgInv (m : Packet)
  /-- IACK (R299). -/
  | msgIack (m : Packet)
  /-- DATA (R299). -/
  | msgData (m : Packet)
  /-- GNT (R300). -/
  | msgGnt (m : Packet)
  /-- DONE (R300). -/
  | msgDone (m : Packet)
  /-- BINV (R302). -/
  | msgBinv (m : Packet)
  /-- WB (R301). -/
  | msgWb (m : Packet)
  /-- BIACK (R299). -/
  | msgBiack (m : Packet)
  /-- EVC (R299). -/
  | msgEvc (m : Packet)
  /-- GONE (R300). -/
  | msgGone (m : Packet)
  /-- SCALAR_RESULT_RETURN (R91). -/
  | scalarResultReturn (t : Nat) (r : GReg)
  /-- LANE_RESULT_WRITE (R88). -/
  | laneResultWrite (t n k : Nat)
  /-- MELSE (R111). -/
  | melse
  /-- MJOIN (R111). -/
  | mjoin
  /-- IFENCE (R70). -/
  | ifence
  /-- SYSCALL (R316). -/
  | syscall
  /-- BKPT (R325). -/
  | bkpt
  /-- YIELD (R237). -/
  | yield
  /-- EXIT (R236). -/
  | exit
  /-- ERET (R326). -/
  | eret
  /-- CFLUSH (R328). -/
  | cflush
  /-- OVERLAY0_RELOAD (R69). -/
  | overlay0Reload (t : Nat)
  /-- SYNC_WAIT_WAKE (R232). -/
  | syncWaitWake (t : Nat)
  /-- MWAIT_WAKE (R270). -/
  | mwaitWake (t : Nat)
  /-- SLICE_RELOAD (R256). -/
  | sliceReload (c col : Nat)
  /-- HEAD_HOLD_TIMEOUT (R54). -/
  | headHoldTimeout (l : Nat)
  /-- ISSUE_STARVATION (R58). -/
  | issueStarvation (t : Nat)
  /-- YIELD_EXPIRY (R237). -/
  | yieldExpiry (t : Nat)
  /-- PREEMPT_TIMEOUT (R331). -/
  | preemptTimeout (l : Nat)
  /-- PARTITION_SWAP (R336). -/
  | partitionSwap (p : Nat) (out : Bool)
  /-- HART_DARION_FETCH (R310). -/
  | hartDarionFetch (f : HartFetch)
  /-- INBOUND_MESSAGE (R41). -/
  | inboundMessage (i : Inbound)
  /-- PEER_ACCESS (R292). -/
  | peerAccess (a : OuterAccess)
  /-- MIGRATION_COMPLETE (R174). -/
  | migrationComplete (page : Nat)
  /-- SOFT_ERROR (R342). -/
  | softError (e : SoftError)
  /-- MICROCODE_INSTALL (R364). -/
  | microcodeInstall
  /-- POWER_UP (R362). -/
  | powerUp
  /-- IMGADDR_WRITE (R362). -/
  | imgaddrWrite (v : W64)
  /-- FWQ_WRITE (R359). -/
  | fwqWrite (v : W64)
  /-- MANAGEMENT_REGISTER_WRITE (R359). -/
  | managementRegisterWrite (off v : W32)
  /-- CREATE_CONTEXT (R361). -/
  | createContext
  /-- RESET_CONTEXT (R361). -/
  | resetContext
  /-- BIND_QUEUE (R28). -/
  | bindQueue
  /-- REGISTER_FP_THRESHOLDS (R132). -/
  | registerFpThresholds
  /-- REGISTER_LANDING (R307). -/
  | registerLanding
  /-- REGISTER_OBSERVATION (R347). -/
  | registerObservation
  /-- REGISTER_INBOUND_QUEUE (R41). -/
  | registerInboundQueue
  /-- EXTERNAL_SHARED_RANGE (R292). -/
  | externalSharedRange
  /-- PAGE_FAULT_RETRY (R330). -/
  | pageFaultRetry
  /-- PAGE_FAULT_REFUSE (R330). -/
  | pageFaultRefuse
  /-- INVALIDATE_TRANSLATION (R294). -/
  | invalidateTranslation
  /-- MIGRATE_PAGE (R174). -/
  | migratePage
  /-- SWAP_CONTEXT (R361). -/
  | swapContext
  /-- SET_PARTITIONS (R168). -/
  | setPartitions
  /-- DEBUG_CONTROL (R361). -/
  | debugControl
  /-- LOAD_MICROCODE (R364). -/
  | loadMicrocode
  /-- ATTEST (R363). -/
  | attest
  /-- UNKNOWN_REQUEST (R361). -/
  | unknownRequest
  /-- CORE_IDLE (R365). -/
  | coreIdle (c : Nat)
  /-- DIE_POWER_OFF (R365). -/
  | diePowerOff (d : Nat)
  /-- DIE_POWER_ON (R365). -/
  | diePowerOn (d : Nat)
  /-- POWER_OFF (R365). -/
  | powerOff
  /-- THERMAL_THROTTLE (R366). -/
  | thermalThrottle (on : Bool)
  /-- THERMAL_SHUTDOWN (R366). -/
  | thermalShutdown
  /-- I3C_READ (R367). -/
  | i3cRead (n : Nat)
  /-- BOUNDARY_SCAN (R367). -/
  | boundaryScan
  /-- ILLEGAL_INSTRUCTION (R72). -/
  | illegalInstruction
  /-- HOST_SLOT_FREED (R316). -/
  | hostSlotFreed (x : Landing)
  /-- LINK_RETRY (R343). -/
  | linkRetry (src dst : Nat)
  /-- HOST_HART_ACCESS (R291). -/
  | hostHartAccess (a : OuterAccess)
  deriving DecidableEq, Repr, Inhabited

end Sys2Proof
end

