-- ==== Sys2Proof/Machine/Fp.lean ====
section
/-! DEFINITION. Floating point: the formats, exact values, the one rounding, and the operations built on it (R118 to R130, R101 to R105, R142 to R144). -/

namespace Sys2Proof.Fp

/-! ## Formats (R119) -/

/-- A floating-point format: exponent bits, fraction bits, bias, the largest finite value as significand and exponent, and whether results saturate instead of becoming infinite. -/
structure Fmt where
  code : Nat
  ebits : Nat
  fbits : Nat
  bias : Nat
  maxSig : Nat
  maxExp : Int
  saturates : Bool
  deriving DecidableEq, Repr

def f32 : Fmt := ⟨8, 8, 23, 127, 2 ^ 24 - 1, 104, false⟩
def f16 : Fmt := ⟨9, 5, 10, 15, 2 ^ 11 - 1, 5, false⟩
def bf16 : Fmt := ⟨10, 8, 7, 127, 2 ^ 8 - 1, 120, false⟩
def f64 : Fmt := ⟨11, 11, 52, 1023, 2 ^ 53 - 1, 971, false⟩
def e4m3 : Fmt := ⟨12, 4, 3, 7, 14, 5, true⟩
def e5m2 : Fmt := ⟨13, 5, 2, 15, 7, 13, false⟩
/-- An element of an e2m1x block, divided by its scale (R122, R125). -/
def e2m1 : Fmt := ⟨14, 2, 1, 1, 3, 1, true⟩

/-- The format of a code; integer codes give f32 and are never asked. -/
def ofCode (c : Nat) : Fmt :=
  if c = 9 then f16 else if c = 10 then bf16 else if c = 11 then f64 else if c = 12 then e4m3
  else if c = 13 then e5m2 else if c = 14 then e2m1 else f32

/-- A code of a floating-point format. -/
def isFloat (c : Nat) : Bool := decide (8 ≤ c) && decide (c ≤ 13)

/-- Width in bits of a value of a format code (R118, R119); format 15 is raw bytes. -/
def width (c : Nat) : Nat :=
  if c = 4 ∨ c = 5 ∨ c = 12 ∨ c = 13 ∨ c = 15 then 8
  else if c = 2 ∨ c = 3 ∨ c = 9 ∨ c = 10 then 16
  else if c = 6 ∨ c = 7 ∨ c = 11 then 64 else 32

/-- The FP event counter block f of a format code (R64). -/
def counterOf (c : Nat) : Nat :=
  if c = 8 then 0 else if c = 9 then 1 else if c = 10 then 2 else if c = 11 then 3 else if c = 12 then 4
  else if c = 13 then 5 else 6

/-- Events (R64, R130). -/
inductive Event where
  | nan | inf | over | under
  deriving DecidableEq, Repr

/-- The number 4 f + e of an event of a format (R64). -/
def Event.num (e : Event) (code : Nat) : Nat :=
  4 * counterOf code + (match e with | .nan => 0 | .inf => 1 | .over => 2 | .under => 3)

/-! ## Values -/

/-- A value: a NaN, an infinity, or (−1)^neg × m × 2^e, zeros included. -/
inductive Num where
  | nan (signalling : Bool)
  | inf (neg : Bool)
  | fin (neg : Bool) (m : Nat) (e : Int)
  deriving DecidableEq, Repr

namespace Fmt

def signBit (f : Fmt) (x : Nat) : Bool := x.testBit (f.ebits + f.fbits)
def expField (f : Fmt) (x : Nat) : Nat := x / 2 ^ f.fbits % 2 ^ f.ebits
def frac (f : Fmt) (x : Nat) : Nat := x % 2 ^ f.fbits
def minExp (f : Fmt) : Int := 1 - (f.bias : Int) - f.fbits

/-- The value that an encoding holds (R119, R120). -/
def decode (f : Fmt) (x : Nat) : Num :=
  let s := f.signBit x
  let e := f.expField x
  let m := f.frac x
  if e = 0 then .fin s m f.minExp
  else if f.code = 12 then (if e = 15 ∧ m = 7 then .nan false else .fin s (m + 8) (f.minExp + e - 1))
  else if f.code = 14 then .fin s (m + 2 ^ f.fbits) (f.minExp + e - 1)
  else if e = 2 ^ f.ebits - 1 then (if m = 0 then .inf s else .nan (!m.testBit (f.fbits - 1)))
  else .fin s (m + 2 ^ f.fbits) (f.minExp + e - 1)

/-- The canonical quiet NaN (R120). -/
def qnan (f : Fmt) : Nat :=
  if f.code = 12 then 0x7F else (2 ^ f.ebits - 1) * 2 ^ f.fbits + 2 ^ (f.fbits - 1)

def signed (f : Fmt) (neg : Bool) (x : Nat) : Nat := (if neg then 2 ^ (f.ebits + f.fbits) else 0) + x

/-- The infinity of a format; a format without one gives its largest value. -/
def infinity (f : Fmt) (neg : Bool) : Nat :=
  f.signed neg (if f.code = 12 then 0x7E else if f.code = 14 then 7 else (2 ^ f.ebits - 1) * 2 ^ f.fbits)

/-- The encoding of n × 2^q, n below 2^(fbits + 1), q the quantum of n's place. -/
def pack (f : Fmt) (neg : Bool) (n : Nat) (q : Int) : Nat :=
  if n < 2 ^ f.fbits then f.signed neg n
  else f.signed neg ((q - f.minExp + 1).toNat * 2 ^ f.fbits + (n - 2 ^ f.fbits))

def largest (f : Fmt) (neg : Bool) : Nat := f.pack neg f.maxSig f.maxExp

end Fmt

/-- Number of bits of a natural number. -/
def bitLen (m : Nat) : Nat := if m = 0 then 0 else m.log2 + 1

/-- m × 2^e compared with n × 2^q. -/
def cmpDyadic (m : Nat) (e : Int) (n : Nat) (q : Int) : Ordering :=
  if e ≤ q then compare m (n <<< (q - e).toNat) else compare (m <<< (e - q).toNat) n

/-- A result with its events. -/
structure Res where
  bits : Nat
  ev : List Event
  deriving DecidableEq, Repr

/-- Whether a mode rounds up in magnitude, from the kept part's parity and the comparison of the rest with one half: rest zero, and rest against half. -/
def roundsUp (rm : Rm) (neg odd exact : Bool) (half : Ordering) : Bool :=
  match rm with
  | .rne => half == .gt || (half == .eq && odd)
  | .rz => false
  | .rd => neg && !exact
  | .ru => !neg && !exact

/-- A magnitude at a quantum: the integer part of m × 2^(e − q), rounded under a mode; `sticky` says the real value lies above m × 2^e by less than 2^e. -/
def toQuantum (rm : Rm) (neg : Bool) (m : Nat) (e : Int) (sticky : Bool) (q : Int) : Nat :=
  if q ≤ e then
    let n := m <<< (e - q).toNat
    n + (if roundsUp rm neg (n % 2 == 1) (!sticky) .lt then 1 else 0)
  else
    let d := (q - e).toNat
    let n := m >>> d
    let r := m % 2 ^ d
    let h := match compare r (2 ^ (d - 1)) with
      | .eq => if sticky then .gt else .eq
      | o => o
    n + (if roundsUp rm neg (n % 2 == 1) (r == 0 && !sticky) h then 1 else 0)

/-- The one rounding of R122, with the events of R130, of a non-zero magnitude. -/
def roundMag (f : Fmt) (rm : Rm) (neg : Bool) (m : Nat) (e : Int) (sticky : Bool) : Res :=
  let q := max ((bitLen m : Int) + e - (f.fbits + 1)) f.minExp
  let n := toQuantum rm neg m e sticky q
  let n' := if n = 2 ^ (f.fbits + 1) then n / 2 else n
  let q' := if n = 2 ^ (f.fbits + 1) then q + 1 else q
  let isOver := match cmpDyadic m e f.maxSig f.maxExp with
    | .gt => true
    | .eq => sticky
    | .lt => false
  let big := cmpDyadic n' q' f.maxSig f.maxExp == .gt
  let evOver := if isOver then [Event.over] else []
  if big then
    let toInf := !f.saturates && (match rm with | .rne => true | .rz => false | .rd => neg | .ru => !neg)
    if toInf then ⟨f.infinity neg, evOver ++ [.inf]⟩ else ⟨f.largest neg, evOver⟩
  else ⟨f.pack neg n' q', evOver ++ (if n' < 2 ^ f.fbits then [.under] else [])⟩

/-- round(x, fmt, rm) of an exact value; a zero keeps its sign (R122 step 4). -/
def round (f : Fmt) (rm : Rm) (neg : Bool) (m : Nat) (e : Int) (sticky : Bool) : Res :=
  if m = 0 ∧ !sticky then ⟨f.signed neg 0, []⟩ else roundMag f rm neg m e sticky

/-- The canonical NaN, counted (R120, R130). -/
def nanRes (f : Fmt) : Res := ⟨f.qnan, [.nan]⟩

/-- A value delivered in a format: rounded when finite; an infinite operand's infinity counts nothing, but OVER where the format has none (R128). -/
def deliver (f : Fmt) (rm : Rm) : Num → Res
  | .nan _ => nanRes f
  | .inf s => ⟨f.infinity s, if f.saturates then [.over] else []⟩
  | .fin s m e => round f rm s m e false

/-! ## Exact operations -/

/-- A signed sum of dyadics, as sign, magnitude and exponent. -/
def addFin (s : Bool) (m : Nat) (e : Int) (t : Bool) (n : Nat) (q : Int) : Int × Int :=
  let k := min e q
  let a : Int := (m <<< (e - k).toNat : Nat)
  let b : Int := (n <<< (q - k).toNat : Nat)
  ((if s then -a else a) + (if t then -b else b), k)

/-- The sign of a sum that is exactly zero (R101). -/
def zeroSign (rm : Rm) (s t : Bool) : Bool := if s = t then s else rm == .rd

/-- The exact sum of two values; NaN for invalid sums. -/
def add (rm : Rm) : Num → Num → Num
  | .nan _, _ => .nan false
  | _, .nan _ => .nan false
  | .inf s, .inf t => if s = t then .inf s else .nan false
  | .inf s, _ => .inf s
  | _, .inf t => .inf t
  | .fin s m e, .fin t n q =>
    let (x, k) := addFin s m e t n q
    if x = 0 then .fin (if m = 0 ∧ n = 0 then zeroSign rm s t else rm == .rd) 0 k else .fin (decide (x < 0)) x.natAbs k

/-- The exact product (R121). -/
def mul : Num → Num → Num
  | .nan _, _ => .nan false
  | _, .nan _ => .nan false
  | .inf s, .inf t => .inf (s != t)
  | .inf s, .fin t n _ => if n = 0 then .nan false else .inf (s != t)
  | .fin s m _, .inf t => if m = 0 then .nan false else .inf (s != t)
  | .fin s m e, .fin t n q => .fin (s != t) (m * n) (e + q)

def neg : Num → Num
  | .nan s => .nan s
  | .inf s => .inf !s
  | .fin s m e => .fin (!s) m e

/-- A quotient with at least n bits: integer part and whether a rest remains. -/
def divBits (n a b : Nat) : Nat × Int × Bool :=
  let k := n + bitLen b
  let x := (a <<< k) / b
  (x, -(k : Int), (a <<< k) % b != 0)

/-- FDIV (R101, R102). -/
def div (f : Fmt) (rm : Rm) : Num → Num → Res
  | .nan _, _ => nanRes f
  | _, .nan _ => nanRes f
  | .inf _, .inf _ => nanRes f
  | .inf s, .fin t _ _ => ⟨f.infinity (s != t), []⟩
  | .fin s _ _, .inf t => ⟨f.signed (s != t) 0, []⟩
  | .fin s m e, .fin t n q =>
    if n = 0 then (if m = 0 then nanRes f else ⟨f.infinity (s != t), [.inf]⟩)
    else if m = 0 then ⟨f.signed (s != t) 0, []⟩
    else
      let (x, k, st) := divBits (f.fbits + 4) m n
      round f rm (s != t) x (e - q + k) st

/-- The integer square root, bit by bit from bit n down. -/
def sqrtBits (x : Nat) : Nat → Nat → Nat
  | 0, r => if (r + 1) * (r + 1) ≤ x then r + 1 else r
  | n + 1, r =>
    let r' := r + 2 ^ (n + 1)
    sqrtBits x n (if r' * r' ≤ x then r' else r)

def isqrt (x : Nat) : Nat := sqrtBits x (bitLen x / 2 + 1) 0

/-- A square root with at least n bits of m × 2^e. -/
def sqrtParts (n m : Nat) (e : Int) : Nat × Int × Bool :=
  let k := 2 * n + (if e % 2 = 0 then 0 else 1)
  let x := m <<< k
  let r := isqrt x
  (r, (e - k) / 2, r * r != x)

/-- FSQRT and the lane SQRT (R101, R102, R144). -/
def sqrt (f : Fmt) (rm : Rm) : Num → Res
  | .nan _ => nanRes f
  | .inf s => if s then nanRes f else ⟨f.infinity false, []⟩
  | .fin s m e =>
    if m = 0 then ⟨f.signed s 0, []⟩
    else if s then nanRes f
    else
      let (x, k, st) := sqrtParts (f.fbits + 4) m e
      round f rm false x k st

/-! ## Comparison, minimum, maximum, class -/

/-- The order of two values that are no NaN. -/
def order : Num → Num → Ordering
  | .inf s, .inf t => if s = t then .eq else if s then .lt else .gt
  | .inf s, _ => if s then .lt else .gt
  | _, .inf t => if t then .gt else .lt
  | .fin s m e, .fin t n q => compare (addFin s m e (!t) n q).1 0
  | _, _ => .eq

def isNan : Num → Bool
  | .nan _ => true
  | _ => false

def isSnan : Num → Bool
  | .nan s => s
  | _ => false

/-- FMIN, FMAX, FMINN and FMAXN (R103): `number` for the forms that ignore a NaN; −0 is below +0. -/
def minMax (f : Fmt) (isMax number : Bool) (x y : Nat) : Res :=
  let a := f.decode x
  let b := f.decode y
  if isNan a ∧ isNan b then nanRes f
  else if isNan a ∨ isNan b then
    if number then ⟨if isNan a then y else x, if isSnan a || isSnan b then [.nan] else []⟩ else nanRes f
  else
    let below := match order a b with
      | .lt => true
      | .gt => false
      | .eq => f.signBit x
    ⟨if below != isMax then x else y, []⟩

/-- FCLASS (R104). -/
def classBit (f : Fmt) (x : Nat) : Nat :=
  let s := f.signBit x
  match f.decode x with
  | .inf _ => if s then 0 else 7
  | .nan sg => if sg then 8 else 9
  | .fin _ m _ =>
    if m = 0 then (if s then 3 else 4)
    else if f.expField x = 0 then (if s then 2 else 5) else (if s then 1 else 6)

/-! ## Integers -/

/-- The integer a value rounds to (R105, R128). -/
def toInt (rm : Rm) (s : Bool) (m : Nat) (e : Int) : Int :=
  let n : Int := toQuantum rm s m e false 0
  if s then -n else n

/-- Float to integer in [lo, hi]: the nearest end out of range, 0 for a NaN, each counting OVER of the source format (R105, R128). -/
def toRange (rm : Rm) (lo hi : Int) : Num → Int × List Event
  | .nan _ => (0, [.over])
  | .inf s => (if s then lo else hi, [.over])
  | .fin s m e =>
    let n := toInt rm s m e
    if n < lo then (lo, [.over]) else if hi < n then (hi, [.over]) else (n, [])

/-- An integer as a value. -/
def ofInt (n : Int) : Num := .fin (decide (n < 0)) n.natAbs 0

/-- Integer to float: an inexact result counts nothing (R105, R128). -/
def fromInt (f : Fmt) (rm : Rm) (n : Int) : Res := deliver f rm (ofInt n)

/-- FRND (R142): the integral value nearest under RM, without OVER or UNDER. -/
def roundInt (f : Fmt) (rm : Rm) : Num → Res
  | .nan _ => nanRes f
  | .inf s => ⟨f.infinity s, []⟩
  | .fin s m e => ⟨(round f .rz s (toQuantum rm s m e false 0) 0 false).bits, []⟩

/-! ## Special functions (R144): fixed point with 320 fraction bits; a result that is not exact lies strictly between two of its numbers (log 11) -/

def prec : Nat := 320
def one320 : Nat := 2 ^ prec

/-- Σ z^(2k+1) / (2k+1) with signs, from term k on, for a power p of z and z squared. -/
def oddSeries (alt : Bool) (zz : Nat) : Nat → Nat → Nat → Int
  | 0, _, _ => 0
  | n + 1, k, p =>
    let t : Int := (p / (2 * k + 1) : Nat)
    (if alt && k % 2 == 1 then -t else t) + oddSeries alt zz n (k + 1) (p * zz / one320)

def atanh (z : Nat) : Int := oddSeries false (z * z / one320) 240 0 z
def atan (z : Nat) : Int := oddSeries true (z * z / one320) 240 0 z

/-- ln 2 and π. -/
def ln2 : Nat := (2 * atanh (one320 / 3)).toNat
def pi : Nat := (16 * atan (one320 / 5) - 4 * atan (one320 / 239)).toNat

/-- Σ x^k / k!, from term k on. -/
def expSeries (x : Nat) : Nat → Nat → Nat → Nat
  | 0, _, _ => 0
  | n + 1, k, t => t + expSeries x n (k + 1) (t * x / one320 / (k + 1))

/-- 2^y for y in [0, 1). -/
def exp2Frac (y : Nat) : Nat := expSeries (y * ln2 / one320) 100 0 one320

/-- Σ (−1)^k x^(2k+j) / (2k+j)!, from the term t with index n on. -/
def trigSeries (xx : Nat) : Nat → Nat → Int → Int
  | 0, _, _ => 0
  | fuel + 1, n, t => t + trigSeries xx fuel (n + 2) (-(t * xx / one320 / ((n + 1) * (n + 2))))

def sinOf (x : Nat) : Nat := (trigSeries (x * x / one320) 60 1 x).toNat
def cosOf (x : Nat) : Nat := (trigSeries (x * x / one320) 60 0 one320).toNat

/-- A fixed-point number as a rounded result; 40 bits are left off below it. -/
def fromFixed (f : Fmt) (rm : Rm) (s : Bool) (x : Nat) (shift : Int) : Res :=
  round f rm s (x >>> 40) (shift - (prec : Int) + 40) true

/-- EXP2. -/
def exp2 (f : Fmt) (rm : Rm) : Num → Res
  | .nan _ => nanRes f
  | .inf s => if s then ⟨f.signed false 0, []⟩ else ⟨f.infinity false, []⟩
  | .fin s m e =>
    if m = 0 then round f rm false 1 0 false
    else if 12 ≤ (bitLen m : Int) + e then
      -- beyond every format's range: far above or far below it
      round f rm false 1 (if s then -4096 else 4096) true
    else
      let n := toInt .rd s m e
      -- the fraction of the operand, in fixed point
      let x : Int := (if 0 ≤ e + prec then (m <<< (e + prec).toNat : Nat) else (m >>> (-(e + prec)).toNat : Nat))
      let y := ((if s then -x else x) - n * one320).toNat
      if y = 0 then round f rm false 1 n false else fromFixed f rm false (exp2Frac y) n

/-- LOG2. -/
def log2 (f : Fmt) (rm : Rm) : Num → Res
  | .nan _ => nanRes f
  | .inf s => if s then nanRes f else ⟨f.infinity false, []⟩
  | .fin s m e =>
    if m = 0 then ⟨f.infinity true, [.inf]⟩
    else if s then nanRes f
    else
      let b := m.log2
      let n : Int := e + b
      if m = 2 ^ b then (if n = 0 then ⟨f.signed false 0, []⟩ else round f rm (decide (n < 0)) n.natAbs 0 false)
      else
        let z := ((m - 2 ^ b) <<< prec) / (m + 2 ^ b)
        let x : Int := n * one320 + 2 * atanh z * one320 / ln2
        fromFixed f rm (decide (x < 0)) x.natAbs 0

/-- sin(π y / 2^320) for y in [0, 2^319]: below a quarter by sine, above by cosine. -/
def sinPi (y : Nat) : Nat := if y ≤ one320 / 4 then sinOf (y * pi / one320) else cosOf ((one320 / 2 - y) * pi / one320)

/-- The operand modulo 2 in fixed point, and whether it is an integer or a half. -/
def mod2 (m : Nat) (e : Int) : Nat :=
  (if 0 ≤ e + prec then m <<< (e + prec).toNat else m >>> (-(e + prec)).toNat) % (2 * one320)

/-- sin(π t) for t in [0, 2): sign, and the distance to the nearest integer in fixed point. -/
def sinParts (t : Nat) : Bool × Nat :=
  let u := t % one320
  (decide (one320 ≤ t), if u ≤ one320 / 2 then u else one320 - u)

/-- SIN and COS. -/
def sinCos (f : Fmt) (rm : Rm) (isCos : Bool) : Num → Res
  | .nan _ => nanRes f
  | .inf _ => nanRes f
  | .fin s m e =>
    let t := mod2 m e
    let (neg, u) := sinParts (if isCos then t + one320 / 2 - (if t + one320 / 2 ≥ 2 * one320 then 2 * one320 else 0) else t)
    let sg := if isCos then neg else neg != s
    if u = 0 then ⟨f.signed (if isCos then false else s) 0, []⟩
    else if u = one320 / 2 then round f rm sg 1 0 false
    else fromFixed f rm sg (sinPi u) 0

/-- RCP. -/
def rcp (f : Fmt) (rm : Rm) (x : Num) : Res := div f rm (.fin false 1 0) x

/-- 1/√(m × 2^e), with more bits than any format: root, exponent, and whether a rest remains. -/
def rsqrtParts (m : Nat) (e : Int) : Nat × Int × Bool :=
  let e' := if e % 2 = 0 then e else e - 1
  let m' := if e % 2 = 0 then m else 2 * m
  let k := 128 + 2 * bitLen m'
  let x := (1 <<< (2 * k)) / m'
  let r := isqrt x
  (r, -(k : Int) - e' / 2, r * r * m' != 1 <<< (2 * k))

/-- RSQ. -/
def rsq (f : Fmt) (rm : Rm) : Num → Res
  | .nan _ => nanRes f
  | .inf s => if s then nanRes f else ⟨f.signed false 0, []⟩
  | .fin s m e =>
    if m = 0 then ⟨f.infinity s, [.inf]⟩
    else if s then nanRes f
    else
      let (r, k, st) := rsqrtParts m e
      round f rm false r k st

/-- An Ardel result: f32 toward zero, fraction bit 0 cleared where it is finite and not zero (R154). -/
def ardel (g : Fmt → Rm → Num → Res) (x : Num) : Res :=
  let r := g f32 .rz x
  match f32.decode r.bits with
  | .fin _ m _ =>
    if m = 0 then r
    else
      let b := r.bits / 2 * 2
      ⟨b, (r.ev.filter (· != .under)) ++ (if f32.expField b = 0 then [.under] else [])⟩
  | _ => r

end Sys2Proof.Fp
end

