-- ==== Sys2Proof/Machine/LaneForm.lean ====
section
/-! DEFINITION. The lane opcode map and the field rules of R83 and of each lane instruction. -/

namespace Sys2Proof

/-- The opcode of a lane instruction (R82). -/
def Instr.laneOp : Instr → Option (Nat × LaneOps)
  | .mov o => some (0x000, o)
  | .iadd o => some (0x001, o)
  | .isub o => some (0x002, o)
  | .imul o => some (0x003, o)
  | .imad o => some (0x004, o)
  | .imulh o => some (0x005, o)
  | .imin o => some (0x006, o)
  | .imax o => some (0x007, o)
  | .iabs o => some (0x008, o)
  | .vAnd o => some (0x009, o)
  | .vOr o => some (0x00A, o)
  | .vXor o => some (0x00B, o)
  | .not o => some (0x00C, o)
  | .vShl o => some (0x00D, o)
  | .vShr o => some (0x00E, o)
  | .vSra o => some (0x00F, o)
  | .vPopc o => some (0x010, o)
  | .vClz o => some (0x011, o)
  | .icmp o => some (0x012, o)
  | .sel o => some (0x013, o)
  | .laneid o => some (0x014, o)
  | .vFadd o => some (0x040, o)
  | .vFsub o => some (0x041, o)
  | .vFmul o => some (0x042, o)
  | .vFfma o => some (0x043, o)
  | .vFmin o => some (0x044, o)
  | .vFmax o => some (0x045, o)
  | .vFminn o => some (0x046, o)
  | .vFmaxn o => some (0x047, o)
  | .vFcmp o => some (0x048, o)
  | .frnd o => some (0x049, o)
  | .fabs o => some (0x04A, o)
  | .fneg o => some (0x04B, o)
  | .vFdiv o => some (0x04C, o)
  | .rcp o => some (0x080, o)
  | .rsq o => some (0x081, o)
  | .sqrt o => some (0x082, o)
  | .exp2 o => some (0x083, o)
  | .log2 o => some (0x084, o)
  | .sin o => some (0x085, o)
  | .cos o => some (0x086, o)
  | .cvt o => some (0x0C0, o)
  | .packx o => some (0x0C1, o)
  | .unpackx o => some (0x0C2, o)
  | .dot4 o => some (0x100, o)
  | .dot2 o => some (0x101, o)
  | .reduce o => some (0x102, o)
  | .scan o => some (0x103, o)
  | .ballot o => some (0x104, o)
  | .vote o => some (0x105, o)
  | .perm o => some (0x140, o)
  | .bcast o => some (0x141, o)
  | .lshift o => some (0x142, o)
  | .ldg o => some (0x180, o)
  | .stg o => some (0x181, o)
  | .ldl o => some (0x182, o)
  | .stl o => some (0x183, o)
  | .ldb o => some (0x184, o)
  | .stb o => some (0x185, o)
  | .atomg o => some (0x186, o)
  | .atoml o => some (0x187, o)
  | .sto o => some (0x188, o)
  | .ldt o => some (0x189, o)
  | .plog o => some (0x1C0, o)
  | .pset o => some (0x1C1, o)
  | .arcp o => some (0x3C0, o)
  | .arsq o => some (0x3C1, o)
  | .aexp o => some (0x3C2, o)
  | .ucode k o => some (0x3E0 + k.toNat, o)
  | _ => none

/-- The lane instruction of an opcode (R82); none for an opcode the map does not list. -/
def laneCtor : Nat → Option (LaneOps → Instr)
  | 0x000 => some .mov
  | 0x001 => some .iadd
  | 0x002 => some .isub
  | 0x003 => some .imul
  | 0x004 => some .imad
  | 0x005 => some .imulh
  | 0x006 => some .imin
  | 0x007 => some .imax
  | 0x008 => some .iabs
  | 0x009 => some .vAnd
  | 0x00A => some .vOr
  | 0x00B => some .vXor
  | 0x00C => some .not
  | 0x00D => some .vShl
  | 0x00E => some .vShr
  | 0x00F => some .vSra
  | 0x010 => some .vPopc
  | 0x011 => some .vClz
  | 0x012 => some .icmp
  | 0x013 => some .sel
  | 0x014 => some .laneid
  | 0x040 => some .vFadd
  | 0x041 => some .vFsub
  | 0x042 => some .vFmul
  | 0x043 => some .vFfma
  | 0x044 => some .vFmin
  | 0x045 => some .vFmax
  | 0x046 => some .vFminn
  | 0x047 => some .vFmaxn
  | 0x048 => some .vFcmp
  | 0x049 => some .frnd
  | 0x04A => some .fabs
  | 0x04B => some .fneg
  | 0x04C => some .vFdiv
  | 0x080 => some .rcp
  | 0x081 => some .rsq
  | 0x082 => some .sqrt
  | 0x083 => some .exp2
  | 0x084 => some .log2
  | 0x085 => some .sin
  | 0x086 => some .cos
  | 0x0C0 => some .cvt
  | 0x0C1 => some .packx
  | 0x0C2 => some .unpackx
  | 0x100 => some .dot4
  | 0x101 => some .dot2
  | 0x102 => some .reduce
  | 0x103 => some .scan
  | 0x104 => some .ballot
  | 0x105 => some .vote
  | 0x140 => some .perm
  | 0x141 => some .bcast
  | 0x142 => some .lshift
  | 0x180 => some .ldg
  | 0x181 => some .stg
  | 0x182 => some .ldl
  | 0x183 => some .stl
  | 0x184 => some .ldb
  | 0x185 => some .stb
  | 0x186 => some .atomg
  | 0x187 => some .atoml
  | 0x188 => some .sto
  | 0x189 => some .ldt
  | 0x1C0 => some .plog
  | 0x1C1 => some .pset
  | 0x3C0 => some .arcp
  | 0x3C1 => some .arsq
  | 0x3C2 => some .aexp
  | op => if 0x3E0 ≤ op ∧ op ≤ 0x3FF then some (.ucode (BitVec.ofNat 5 op)) else none

/-- A format code whose values take a register pair (R118, R119). -/
def wideTy (ty : Nat) : Bool := ty == 6 || ty == 7 || ty == 11

/-- How many registers a register operand takes: none, one, or as the format of TY or of MOD says (R60). -/
inductive Span where
  | one | ty | mode
  deriving DecidableEq, Repr

/-- How an instruction uses its VA, VB, VC or VD field. -/
inductive FieldUse where
  | unused
  /-- A lane register. -/
  | reg (s : Span)
  /-- A lane register pair, whatever TY says. -/
  | pair
  /-- A small number below a bound: a predicate, a block-length code, a flag, a g register. -/
  | below (n : Nat)
  deriving DecidableEq, Repr

/-- What one lane instruction accepts. -/
structure LaneForm where
  tys : List Nat
  a : FieldUse
  b : FieldUse
  c : FieldUse
  d : FieldUse
  modes : List Nat := [0]
  rm : Bool := false
  sat : Bool := false
  /-- SRCB codes accepted when B is used. -/
  srcs : List Nat := [0, 1, 2]
  /-- IMM32 is an offset (R181). -/
  offset : Bool := false
  deriving DecidableEq, Repr

/-- Instructions declared long-latency (R82). -/
def laneLong (op : Nat) : Bool :=
  op == 0x04C || (0x080 ≤ op && op ≤ 0x086) || [0x180, 0x182, 0x184, 0x186, 0x187, 0x189].contains op
    || (0x3C0 ≤ op && op ≤ 0x3C2) || (0x3E0 ≤ op && op ≤ 0x3FF)

/-- The form of each opcode, by its own fields (R140 to R156, R181 to R189). -/
def laneForm (op : Nat) (o : LaneOps) : Option LaneForm :=
  let int4 := [0, 1, 6, 7]
  let any6 := [0, 1, 8, 6, 7, 11]
  let flt4 := [8, 9, 10, 11]
  let ty := o.ty.toNat
  let mode := o.mode.toNat
  let r : FieldUse := .reg .ty
  let r1 : FieldUse := .reg .one
  let gForm : List Nat := [0, 4, 5, 6, 7]
  let gAddr : FieldUse := if 4 ≤ mode then r1 else .pair
  if op = 0x000 then some { tys := any6, a := .unused, b := r, c := .unused, d := r }
  else if op = 0x001 ∨ op = 0x002 ∨ op = 0x003 then some { tys := int4, a := r, b := r, c := .unused, d := r, sat := true }
  else if op = 0x004 then some { tys := int4, a := r, b := r, c := r, d := r, sat := true }
  else if op = 0x008 then some { tys := [0, 6], a := r, b := .unused, c := .unused, d := r, sat := true }
  else if op = 0x00C ∨ op = 0x010 ∨ op = 0x011 then some { tys := int4, a := r, b := .unused, c := .unused, d := r }
  else if op ≤ 0x00F then some { tys := int4, a := r, b := r, c := .unused, d := r }
  else if op = 0x012 then some { tys := int4, a := r, b := r, c := .unused, d := .below 8, modes := [0, 1, 2, 3, 4, 5] }
  else if op = 0x013 then some { tys := any6, a := r, b := r, c := .below 8, d := r }
  else if op = 0x014 then some { tys := [1], a := .unused, b := .unused, c := .unused, d := r }
  else if op = 0x040 ∨ op = 0x041 ∨ op = 0x042 ∨ op = 0x04C then some { tys := flt4, a := r, b := r, c := .unused, d := r, rm := true }
  else if op = 0x043 then some { tys := flt4, a := r, b := r, c := r, d := r, rm := true }
  else if 0x044 ≤ op ∧ op ≤ 0x047 then some { tys := flt4, a := r, b := r, c := .unused, d := r }
  else if op = 0x048 then some { tys := flt4, a := r, b := r, c := .unused, d := .below 8, modes := [0, 1, 2, 3, 4, 5, 6, 7] }
  else if op = 0x049 then some { tys := flt4, a := r, b := .unused, c := .unused, d := r, rm := true }
  else if op = 0x04A ∨ op = 0x04B then some { tys := flt4, a := r, b := .unused, c := .unused, d := r }
  else if 0x080 ≤ op ∧ op ≤ 0x086 then some { tys := [8, 9, 10], a := r, b := .unused, c := .unused, d := r, rm := true }
  else if op = 0x0C0 then
    some { tys := List.range 14, a := .reg .mode, b := .unused, c := .unused, d := r, modes := List.range 14, rm := true,
           sat := decide (ty < 8) && decide (mode < 8) }
  else if op = 0x0C1 then
    some { tys := [2, 3, 4, 5, 9, 10, 12, 13, 14], a := r1, b := .unused, c := if ty = 14 then .below 2 else .unused, d := r1,
           modes := if ty = 14 then [0, 1] else [0], rm := decide (8 ≤ ty), sat := decide (ty < 8) }
  else if op = 0x0C2 then
    some { tys := if mode < 8 then [0] else [8, 9, 10], a := r1, b := .unused, c := if mode = 14 then .below 2 else .unused, d := r1,
           modes := [2, 3, 4, 5, 9, 10, 12, 13, 14], rm := decide (8 ≤ mode) }
  else if op = 0x100 then some { tys := [4, 5, 12, 13], a := r1, b := r1, c := r1, d := r1, rm := decide (8 ≤ ty), sat := decide (ty < 8) }
  else if op = 0x101 then some { tys := [2, 3, 9, 10], a := r1, b := r1, c := r1, d := r1, rm := decide (8 ≤ ty), sat := decide (ty < 8) }
  else if op = 0x102 ∨ op = 0x103 then
    some { tys := [0, 1, 6, 7, 8], a := r, b := .unused, c := if op = 0x103 then .below 2 else .unused,
           d := if op = 0x102 then .below 64 else r, modes := List.range (if ty = 8 then 5 else 6),
           rm := ty == 8 && mode == 0, sat := ty != 8 && mode == 0 }
  else if op = 0x104 then some { tys := [0], a := r1, b := .unused, c := .unused, d := .below 64, modes := List.range 16 }
  else if op = 0x105 then some { tys := [0, 6], a := r, b := .unused, c := .unused, d := .below 64, modes := List.range 4 }
  -- R152's index is the single word of VB for a pair TY as well (DESIGN CHOICE, log 69)
  else if op = 0x140 then some { tys := any6, a := r, b := r1, c := .unused, d := r }
  else if op = 0x141 then some { tys := any6, a := r, b := r1, c := .unused, d := r, srcs := [1, 2] }
  else if op = 0x142 then some { tys := any6, a := r, b := r1, c := .unused, d := r, modes := [0, 1] }
  else if op = 0x180 then some { tys := List.range 14, a := gAddr, b := .unused, c := .unused, d := r, modes := gForm, offset := true }
  else if op = 0x181 ∨ op = 0x188 then
    some { tys := List.range 14, a := gAddr, b := r, c := .unused, d := .unused, modes := gForm, offset := true, srcs := [0, 1] }
  else if op = 0x182 then some { tys := List.range 14, a := r1, b := .unused, c := .unused, d := r, offset := true }
  else if op = 0x183 then some { tys := List.range 14, a := r1, b := r, c := .unused, d := .unused, offset := true, srcs := [0, 1] }
  else if op = 0x184 then some { tys := List.range 14, a := r1, b := .unused, c := .unused, d := r, modes := List.range 16, offset := true }
  else if op = 0x185 then
    some { tys := List.range 14, a := r1, b := r, c := .unused, d := .unused, modes := List.range 16, offset := true, srcs := [0, 1] }
  else if op = 0x186 ∨ op = 0x187 then
    some { tys := if mode = 9 ∨ mode = 10 then [8] else int4, a := if op = 0x186 then .pair else r1, b := r,
           c := if mode = 11 then r else .unused, d := r, modes := List.range 12, rm := true, offset := true, srcs := [0, 1] }
  else if op = 0x189 then some { tys := [0, 1, 8], a := r1, b := .unused, c := .unused, d := r1, offset := true }
  else if op = 0x1C0 then
    some { tys := [0], a := .below 8, b := if mode < 4 then .below 8 else .unused, c := .unused, d := .below 8, modes := List.range 6, srcs := [0] }
  else if op = 0x1C1 then
    some { tys := [0], a := if 2 ≤ mode then r1 else .unused, b := .unused, c := .unused, d := .below 8, modes := List.range 4 }
  else if 0x3C0 ≤ op ∧ op ≤ 0x3C2 then some { tys := [8], a := r, b := .unused, c := .unused, d := r }
  else if 0x3E0 ≤ op ∧ op ≤ 0x3FF then
    some { tys := List.range 15, a := r, b := r, c := r, d := r, modes := List.range 16, rm := true, sat := true }
  else none

/-- Whether a register operand of this use is a pair. -/
def FieldUse.wide (o : LaneOps) : FieldUse → Bool
  | .reg .ty => wideTy o.ty.toNat
  | .reg .mode => wideTy o.mode.toNat
  | .pair => true
  | _ => false

/-- The highest register a field names, none where it names no lane register. -/
def FieldUse.top (o : LaneOps) (u : FieldUse) (x : BitVec 8) : Option Nat :=
  match u with
  | .unused | .below _ => .none
  | _ => some (if u.wide o then x.toNat + 1 else x.toNat)

/-- A field keeps the rule of its use: zero when unused, even for a pair, below its bound. -/
def FieldUse.ok (o : LaneOps) (u : FieldUse) (x : BitVec 8) : Bool :=
  match u with
  | .unused => x == 0
  | .below n => decide (x.toNat < n)
  | _ => !u.wide o || x.toNat % 2 == 0

/-- B comes from a lane register. -/
def LaneOps.bIsReg (o : LaneOps) : Bool := o.srcb == 0

/-- The checks of R83 that depend on the word alone. -/
def laneStatic (op : Nat) (o : LaneOps) : Bool :=
  match laneForm op o with
  | none => false
  | some f =>
    f.tys.contains o.ty.toNat && o.ty != 15 && o.srcb != 3
    && f.modes.contains o.mode.toNat
    && f.a.ok o o.va && f.c.ok o o.vc && f.d.ok o o.vd
    && (if f.b = .unused then o.srcb == 0 && o.vb == 0
        else f.srcs.contains o.srcb.toNat
          && (if o.srcb = 0 then f.b.ok o o.vb else if o.srcb = 1 then o.vb.toNat < 4 else o.vb == 0))
    && (f.rm || o.rm == 0) && (f.sat || !o.sat)
    && (o.pen || (!o.pneg && o.pidx == 0))
    && (laneLong op || o.look == 0)
    && (f.offset || o.srcb == 2 || o.imm == 0)
    && (!(o.srcb == 2 && (o.ty == 9 || o.ty == 10) && op != 0x101) || o.imm.toNat < 65536)
    && (!(op == 0x189) || o.imm.toNat < 32)

/-- What the checks of R83 take from the team: VREGS, Ardel mode, the group size of R138, and the microcode installed (R22). -/
structure LaneEnv where
  vregs : Nat
  ardel : Bool
  group : Nat
  installed : Nat → LaneOps → Bool

/-- The checks of R83 that depend on the team. -/
def laneEnvOk (e : LaneEnv) (op : Nat) (o : LaneOps) : Bool :=
  match laneForm op o with
  | none => false
  | some f =>
    ([f.a.top o o.va, if o.bIsReg then f.b.top o o.vb else none, f.c.top o o.vc, f.d.top o o.vd].all
        (fun t => match t with | none => true | some n => decide (n < e.vregs)))
    && (!(0x3C0 ≤ op && op ≤ 0x3C2) || e.ardel)
    && (!(0x3E0 ≤ op && op ≤ 0x3FF) || e.installed op o)
    && (!((op == 0x0C1 && o.ty == 14) || (op == 0x0C2 && o.mode == 14)) || (16 <<< o.vc.toNat) ≤ e.group)

/-- The sync slot of a copy entry that signals (R196); a SIGNAL and a WAITY name theirs too. -/
def Instr.copySlot : Instr → Option Nat
  | .cCopy c | .cGather c | .cFill c | .cSload c | .cOvl c | .cRestrict c | .cProlong c | .cSeal c | .cUnseal c =>
    if c.kind = 0 then none else some c.slot.toNat
  | .cSignal c | .cWaity c => some c.slot.toNat
  | _ => none

end Sys2Proof
end

