-- ==== Sys2Proof/Config.lean ====
section
/-! DEFINITION. What an implementation fixes and the spec leaves open.  Every constant here has no body, so no proof can see its value (log 2). -/

namespace Sys2Proof.Config

/-- A value the spec leaves open, drawn by the free-value counter of the state (log 2). -/
opaque freeWord : Nat → W64

/-- Whether a racing read finds an older value of a word: by step, word, which of the step's reads of it, and how many writes back (R284, log 2). -/
opaque readsOld : Nat → Nat → Nat → Nat → Bool

/-- Whether an access whose TLB entry and page table differ uses the entry, by step and page (R294, log 2). -/
opaque usesHeld : Nat → Nat → Bool

/-- Arithmetic-clock cycles that pass in one step of the model, by step number: CYCLE reads their sum (R62, log 6). -/
opaque stepCycles : Nat → Nat

/-- The result of an installed microcode operation: minor number, opcode, the fields TY + 16 MOD + 256 RM, and the operands A, B and C (R156, log 12). -/
opaque ucode : Nat → Nat → Nat → W64 → W64 → W64 → W64

/-- The FP events of that result, NAN, INF, OVER and UNDER from bit 0, of the same arguments (R137, R156, log 12). -/
opaque ucodeEvents : Nat → Nat → Nat → W64 → W64 → W64 → BitVec 4

/-- The format codes an installed microcode operation accepts (R156), and the fields that it uses for a format: VA, B, VC, VD, MOD, RM and SAT from bit 0 (R83, R137). -/
opaque ucodeAccepts : Nat → Nat → Nat → Bool
opaque ucodeUses : Nat → Nat → Nat → BitVec 7

/-- The minor number of a microcode image, and whether a minor number adds an opcode of 0x3E0 to 0x3FF: an image brings every operation of the minors up to its own (R22, R364). -/
opaque imageMinor : W64 → Nat
opaque minorAdds : Nat → Nat → Bool

/-- The verdicts of the boot ROM and of firmware on an image at an address, with its length (R362, R364). -/
opaque imageReadable : W64 → Nat → Bool
opaque imageEd25519 : W64 → Nat → Bool
opaque imageMlDsa65 : W64 → Nat → Bool
opaque imageRollbackOk : W64 → Nat → Bool

/-- Training of a die's links and HBM at boot (R362 step 4). -/
opaque dieTrains : Nat → Bool

/-- Byte of the SHA-384 digest of a measured thing: 0 the boot ROM, 1 the firmware image, 2 the installed microcode, 3 the partition and carve configuration, with the numbers that name what is measured (R363). -/
opaque digestByte : Nat → List Nat → Nat → Byte

/-- Byte of a signature of a message under an identity key: 0 Ed25519, 1 ML-DSA-65 (R363). -/
opaque signatureByte : Nat → List Byte → Nat → Byte

/-- The key firmware generates for a protected context: power-up number and context ID (R337). -/
opaque contextKey : Nat → Nat → BitVec 256

/-- The address of the firmware event entry (R326, log 7). -/
opaque firmwareEntry : W64

/-- Whether a physical page is one of the device pages of a protected context, which its host OS and firmware settle: by context ID and page (R340, log 13). -/
opaque devicePage : Nat → Nat → Bool

/-- What board management reads over I3C: power, temperature and certificate bytes by index (R367). -/
opaque i3cByte : Nat → Nat → Byte

end Sys2Proof.Config
end

