-- ==== Sys2Proof/Machine/KMap.lean ====
section
/-! DEFINITION. Operations on keyed maps and on sparse memories, and the canonical form of a memory. -/

namespace Sys2Proof

namespace KMap

variable {α : Type}

/-- The entry of a key, the first one listed. -/
def get? : KMap α → Nat → Option α
  | [], _ => none
  | (k, v) :: m, a => if k = a then some v else get? m a

/-- Set a key: replace its entry, or insert one before the first greater key. -/
def put : KMap α → Nat → α → KMap α
  | [], a, x => [(a, x)]
  | (k, v) :: m, a, x => if k = a then (a, x) :: m else if a < k then (a, x) :: (k, v) :: m else (k, v) :: put m a x

/-- Remove a key. -/
def del (m : KMap α) (a : Nat) : KMap α := m.filter (fun e => e.1 != a)

/-- Apply a function to every value. -/
def mapVals (f : Nat → α → α) (m : KMap α) : KMap α := m.map (fun e => (e.1, f e.1 e.2))

/-- The entries that a test on key and value keeps. -/
def keep (p : Nat → α → Bool) (m : KMap α) : KMap α := m.filter (fun e => p e.1 e.2)

/-- The keys, in order. -/
def keys (m : KMap α) : List Nat := m.map Prod.fst

end KMap

namespace Sparse

variable {w : Nat}

/-- The word at an address; an unlisted address reads zero. -/
def get : Sparse w → Nat → BitVec w
  | [], _ => 0
  | (k, v) :: m, a => if k = a then v else get m a

/-- Write a run of words at consecutive addresses; zeros are not listed. -/
def setRun (m : Sparse w) (a : Nat) (xs : List (BitVec w)) : Sparse w :=
  m.filter (fun e => e.1 < a)
    ++ ((List.range xs.length).map (fun i => (a + i, xs.getD i 0))).filter (fun e => e.2 != 0)
    ++ m.filter (fun e => decide (a + xs.length ≤ e.1))

/-- Write one word. -/
def set (m : Sparse w) (a : Nat) (x : BitVec w) : Sparse w := setRun m a [x]

/-- Write several words, the later ones standing. -/
def setAll (m : Sparse w) (xs : List (Nat × BitVec w)) : Sparse w := xs.foldl (fun m e => set m e.1 e.2) m

/-- Read a run of words. -/
def run (m : Sparse w) (a n : Nat) : List (BitVec w) := (List.range n).map (fun i => get m (a + i))

/-- The addresses rise strictly. -/
def rising : List (Nat × BitVec w) → Bool
  | [] => true
  | [_] => true
  | x :: y :: m => decide (x.1 < y.1) && rising (y :: m)

/-- The canonical form: addresses rise strictly and no entry is zero, which is what an unlisted address reads as. -/
def wf (m : Sparse w) : Bool := rising m && m.all (fun e => e.2 != 0)

/-- The part of a memory in [a, a + n), moved down by a. -/
def slice (m : Sparse w) (a n : Nat) : Sparse w :=
  (m.filter (fun e => decide (a ≤ e.1) && decide (e.1 < a + n))).map (fun e => (e.1 - a, e.2))

/-- Replace the part in [a, a + n) by a memory that is moved up by a. -/
def splice (m : Sparse w) (a n : Nat) (p : Sparse w) : Sparse w :=
  m.filter (fun e => e.1 < a)
    ++ (p.filter (fun e => e.1 < n)).map (fun e => (a + e.1, e.2))
    ++ m.filter (fun e => decide (a + n ≤ e.1))

end Sparse

/-- The natural number that little-endian bytes hold (R3). -/
def leNat : List Byte → Nat
  | [] => 0
  | b :: bs => b.toNat + 256 * leNat bs

/-- The n little-endian bytes of a number (R3). -/
def leBytes : Nat → Nat → List Byte
  | 0, _ => []
  | n + 1, x => BitVec.ofNat 8 x :: leBytes n (x / 256)

/-- The lane's bit of a lane mask. -/
def LaneMask.bit (m : LaneMask) (l : Nat) : Bool := m.getLsbD l

/-- Word k of a lane mask (R44). -/
def LaneMask.word (m : LaneMask) (k : Nat) : W32 := m.extractLsb' (32 * k) 32

/-- A lane mask with word k replaced. -/
def LaneMask.setWord (m : LaneMask) (k : Nat) (x : W32) : LaneMask :=
  let hole : LaneMask := (BitVec.setWidth 1024 (0xFFFFFFFF : W32)) <<< (32 * k)
  (m &&& ~~~hole) ||| (BitVec.setWidth 1024 x <<< (32 * k))

/-- A lane mask from the lanes a test accepts, below n. -/
def LaneMask.ofLanes (n : Nat) (p : Nat → Bool) : LaneMask :=
  BitVec.ofNat 1024 ((List.range n).foldl (fun acc l => if p l then acc + 2 ^ l else acc) 0)

/-- The number of 1 bits of a natural number below 2^n. -/
def popCount : Nat → Nat → Nat
  | 0, _ => 0
  | n + 1, x => x % 2 + popCount n (x / 2)

end Sys2Proof
end

