-- ==== Sys2Proof/Machine/Parts.lean ====
section
/-! DEFINITION. The parts of the state: what a team, a block, a core, a die, a launch, a queue, a context and the package hold. -/

namespace Sys2Proof.Machine

/-! ## Teams -/

/-- A batch of the lane queue: decoded instructions with captured q and m (R84).  `lx` is the PC of its LX, `base` BASE of the overlay, `idx` the lane index of the first of `left`, the instructions not yet performed, `gw` the g results waiting for completion (R86), `order` its place among all batches (R58), and `skips` the instructions of batches with an empty mask that followed it and have completed (R111). -/
structure Batch where
  order : Nat
  lx : W64
  base : W64
  idx : Nat
  left : List Instr
  q : Vector W64 4
  m : LaneMask
  gw : List (GReg × W64)
  skips : Nat
  deriving DecidableEq, Repr

/-- A long-latency lane instruction whose results wait inside its lookahead window (R88): the place of its batch in the queue, its lane index, the instructions of the window left, the instructions passed since it, its destination registers, the words still to be written, keyed by register and lane, and the keys of those written, and the instructions issued before it that are still to be performed.  Once its batch has completed it stands only for its window. -/
structure PendLane where
  own : Nat
  idx : Nat
  window : Nat
  passed : Nat
  dests : List Nat
  vals : KMap W32
  wrote : List Nat
  before : Nat
  deriving DecidableEq, Repr

/-- A cause that waits for delivery (R321, R322): its code, its value, and whether it is a lane cause. -/
structure PendCause where
  code : Nat
  val : W64
  lane : Bool
  deriving DecidableEq, Repr

/-- A speculation (R272 to R274): the BSPEC's PC, the g and q of its checkpoint, the branch it predicted, the other path, the instructions issued, the FP events held back by counter, the terms, term steps, group waits and cycles of speculative MMAs that have completed, the speculative panel copies and the proof tiles by live tile. -/
structure Spec where
  pc : W64
  g : Vector W64 64
  q : Vector W64 4
  cond : Cond
  a : GReg
  b : GReg
  hint : Bool
  other : W64
  count : Nat
  events : List (Nat × Nat)
  terms : List Nat
  panels : KMap W64
  tiles : KMap (Sparse 32)
  /-- A matrix instruction found too few free proof tiles: it waits until the speculation resolves (R273). -/
  full : Bool
  deriving DecidableEq, Repr

/-- Why a team is suspended: the kind of record it posted and the RADDR that its return must carry (R309, R316). -/
structure Suspension where
  raddr : W64
  deriving DecidableEq, Repr

/-- A migration that waits to be posted (R309, R315, R316): the record kind, the target, and the register that takes the link. -/
structure Migration where
  kind : Nat
  target : W64
  link : Option GReg
  deriving DecidableEq, Repr

/-- A FETCHWORK in progress (R57): the mailbox address and the selector. -/
structure FetchReq where
  addr : W64
  sel : W64
  deriving DecidableEq, Repr

/-- What a waiting SYWB has done (R227): its destination, its slot, the phase of its arrival, and the phase at completion once another operation has ended that phase. -/
structure SywbWait where
  d : GReg
  slot : Nat
  phase : Bool
  got : Option Bool
  deriving DecidableEq, Repr

/-- A scalar word fetched ahead (R70): its address, the word, and BASE of the overlay it came from (R84). -/
structure AheadWord where
  pc : W64
  word : W32
  base : W64
  deriving DecidableEq, Repr

/-- What a lane atomic that has reached its homes has done there: the lanes performed, the register words that they receive, and their events (R173, R189). -/
structure LaneDone where
  lanes : List Nat
  regs : List (Nat × W32)
  events : List Nat
  deriving DecidableEq, Repr

/-- What a matrix instruction does (R265 to R269). -/
inductive MatrixOp where
  | mzero (tile n : Nat)
  | mma (tile range panel : Nat) (flags : BitVec 2) (dims res pan : W64)
  | mdrain (tile : Nat) (record : List Byte) (res : W64)
  deriving DecidableEq, Repr

/-- A team (R53, R60 to R66). -/
structure Team where
  /-- The block it belongs to and its index there. -/
  blk : Nat
  idx : Nat
  /-- General registers g0 to g63; g0 is never written (R60). -/
  g : Vector W64 64
  q : Vector W64 4
  /-- Predicates p0 to p7, one bit a lane. -/
  p : Vector LaneMask 8
  /-- Mask words m0 to m31 side by side. -/
  m : LaneMask
  /-- The mask stack, top first: SAVED and COMP (R111). -/
  stack : List (LaneMask × LaneMask)
  pc : W64
  teamid : W32
  /-- Declared width, and the mask of present lanes (R44, R25). -/
  width : Nat
  present : LaneMask
  /-- Lane registers, word of register r in lane L at 1024 r + L. -/
  v : Sparse 32
  /-- Physical register count P, and the pipe and row base of each pass (R45, R49); the teams of a row group share theirs (R46). -/
  pregs : Nat
  rows : List (Nat × Nat)
  tcause : W32
  tval : W64
  tpc : W64
  /-- TBATCH as stored at delivery (R321): SKIP, HELD and the cursor record. -/
  tbatch : W64
  thandler : W64
  termused : W64
  termsteps : W64
  groupwait : W64
  mmacyc : W64
  specdrop : W64
  lacheck : W32
  pcmatch : Vector W64 4
  /-- Ticket counter of the matrix groups (R270). -/
  ticket : W32
  /-- The lane queue, oldest batch first; TBATCH says whether it is held (R84). -/
  lanes : List Batch
  pend : List PendLane
  /-- Its next lane instruction has been issued in a packed pass of its row group (R47). -/
  carried : Bool
  /-- Its lane queue waits at its head for lines, a lock or an earlier write. -/
  laneWaiting : Bool
  /-- A lane atomic that is performed in part. -/
  partDone : LaneDone
  /-- The lane acquires that the scalar stream has not followed yet: the order of the batch, and the words written until then (R189). -/
  laneAcqs : List (Nat × Nat)
  /-- Registers whose scalar result is outstanding (R91, R272). -/
  await : List GReg
  spec : Option Spec
  pending : List PendCause
  /-- Scalar words fetched ahead (R70). -/
  ahead : List AheadWord
  /-- The last 64 scalar PCs issued, newest first (R356). -/
  trail : List W64
  /-- Waiting at the instruction at PC (R232). -/
  waiting : Bool
  /-- The operands that a matrix instruction waiting for a queue entry captured at issue (R263, R267, R269). -/
  captured : Option MatrixOp
  /-- The step of its last turn to issue (R58). -/
  issuedAt : Nat
  sywb : Option SywbWait
  /-- The page-fault handle the scalar instruction waits on, and the lane queue (R329). -/
  faultAt : Option Nat
  laneFaultAt : Option Nat
  /-- Teams that issue before this one after a YIELD, and whether it may be treated as priority 0 (R237, R58). -/
  yieldTo : List Nat
  starved : Bool
  stopped : Bool
  exited : Bool
  suspended : Option Suspension
  migr : Option Migration
  fetchReq : Option FetchReq
  /-- The call token of a host-called team, and whether it is at its first instruction (R312, R315). -/
  token : Option W64
  first : Bool
  /-- The PC-match register that fired last, its PC, and the handlers, its own and those of causes delivered since, whose returning transfer is still to come: with none the last has gone to that PC, and that fetch alone is not matched again (R325). -/
  fired : Option (Nat × W64 × Nat)
  deriving DecidableEq, Repr

/-! ## Blocks -/

/-- A word that a sync slot holds, by mode (R221). -/
inductive Slot where
  | off
  | count (expect arrived : Nat) (phase : Bool)
  | bytes (n : Nat)
  | chunks (bits : W64)
  | ring (size free takenP filled takenC put get : Nat)
  deriving DecidableEq, Repr

/-- A started copy entry (R195, R200): its index, its instruction, the publishing team, the reservations captured, the sub-operations completed and their number, the destination bytes and chunk bits of one that is performed but for writes that wait, the place of a sync ring that it holds, the index list of a GATHER, the transfer record and stencil table of a level transfer, and the page-fault handle it waits on, 1024 for none free. -/
structure Entry where
  idx : Nat
  op : Instr
  team : Nat
  ranges : KMap W64
  pos : Nat
  subs : Nat
  done : Option (Nat × W64)
  place : Option Nat
  list : List W32
  record : List Byte
  faultAt : Option Nat
  deriving DecidableEq, Repr

/-- A block's copy ring (R192 to R205): the latched CONFIG, the PIDX observed, CONS and DONECNT as the engine keeps them, the publishers in order with the first entry not theirs, the publishes that the engine has not observed yet, each with its team and the PIDX that it stored, those that it observed while STATUS.HALT read 1, whether the ring is halted or abandoned (R210), the halts whose STATUS is not stored yet, each with its team, entry index and reason, the entries in progress, and the unsatisfied WAITY that holds the ring, if any. -/
structure Ring where
  latched : Option W32
  pidx : Nat
  cons : Nat
  donecnt : Nat
  publishers : List (Nat × Nat)
  told : List (Nat × Nat)
  idle : List (Nat × Nat)
  halted : Bool
  halting : List (Nat × Nat × Nat)
  dead : Bool
  entries : List Entry
  /-- The page-fault handles on which accesses of the ring itself wait, 1024 for none free, each with the team for which the access was made (R329, R330). -/
  faultAt : List (Nat × Nat)
  waity : Option CopyOps
  deriving DecidableEq, Repr

/-! ## Cores and dies -/

/-- An overlay slot (R65, R67): tag and contents by word offset. -/
structure Overlay where
  asid : Nat
  base : W64
  slen : Nat
  lcount : Nat
  valid : Bool
  loading : Bool
  /-- Order of the last fetch from it (R69). -/
  used : Nat
  words : Sparse 32
  deriving DecidableEq, Repr

/-- A TLB entry (R169, R170): ASID, G, base and size of the page, physical base, and the leaf's permission bits and tag. -/
structure TlbEntry where
  asid : Nat
  glob : Bool
  page : Nat
  size : Nat
  pa : Nat
  pte : W64
  deriving DecidableEq, Repr

/-- A source record of a column slice (R206): first row, rows, source address and context. -/
structure SourceRec where
  row : Nat
  rows : Nat
  src : W64
  ctx : Nat
  deriving DecidableEq, Repr

/-- A piece of an access: bytes of a physical local block, by logical address, of the operand buffer, by block-relative byte, or of physical memory. -/
inductive Piece where
  | loc (off len : Nat)
  | ob (off len : Nat)
  | phys (pa len : Nat)
  deriving DecidableEq, Repr

/-- An entry of the matrix queue (R271). -/
structure MatrixEntry where
  team : Nat
  /-- Batches of the team that were outstanding when it issued and still are (R163). -/
  behind : Nat
  /-- Its instruction word, for its resume record (R275). -/
  word : W32
  op : MatrixOp
  /-- The ticket of its group once closed (R270). -/
  group : Option W32
  spec : Bool
  started : Bool
  /-- An MMA: the next chunk that each column group writes, and twice the chunks that the group has finished stepping, and one more while it steps a chunk (R247, R257). -/
  next : List Nat
  steps : List Nat
  /-- T of the chunks written, by 32 chunk + group (R247, R249). -/
  times : KMap Nat
  /-- A drain that has started: the destinations that it translated then, of its rows and of its amax word, and whether it has written them (R269). -/
  spots : List Piece
  amaxAt : List Piece
  written : Bool
  /-- The step at which it started, and the terms of the chunks whose steps a speculative MMA has begun and which it has not written, by 32 chunk + group (R258, R271). -/
  since : Nat
  begunTerms : KMap Nat
  /-- It started in the last 8 cycles of another MMA of its team; something has added cycles to its schedule; the cycles that MMACYC has taken so far (R249, R258). -/
  overlap : Bool
  disturbed : Bool
  counted : Nat
  /-- The terms used, term steps and group waits, and the FP events, held back while it is speculative. -/
  held : List Nat
  events : List (Nat × Nat)
  /-- The page-fault handle that a drain waits on. -/
  faultAt : Option Nat
  /-- Residue mismatches in a row of each group's chunk (R255). -/
  fails : KMap Nat
  deriving DecidableEq, Repr

/-- A matrix instruction of a saved block: its team, the batches before it, its resume record, and what the term accounting keeps beside it: T of the chunks written and the cycles that MMACYC has taken (R249, R258, R275). -/
structure SavedEntry where
  team : Nat
  behind : Nat
  record : List Byte
  times : KMap Nat
  counted : Nat
  deriving DecidableEq, Repr

/-- Where a block stands: on its core, stopped, saved, or to be killed, on its core or as an image (R331 to R335, R341). -/
inductive BlockPhase where
  | placed | stopping | stopped | saved | killed (asImage : Bool)
  deriving DecidableEq, Repr

/-- A block (R44 to R53). -/
structure Block where
  ctx : Nat
  launch : Nat
  /-- Linear index and coordinates (R53, R54). -/
  lin : Nat
  x : Nat
  y : Nat
  z : Nat
  core : Nat
  teams : List Nat
  /-- The place in the order of placements, for R331. -/
  order : Nat
  phase : BlockPhase
  /-- Physical local blocks of the logical blocks below F; the rest is spill-backed (R50, R51). -/
  ltab : List Nat
  obtab : List Nat
  ttab : List Nat
  /-- Local memory of the physical blocks by logical address, operand buffer by block-relative byte, tiles by 4096 tile + 256 row + column. -/
  loc : Sparse 8
  ob : Sparse 8
  tiles : Sparse 32
  /-- Operand-buffer ranges and panels (R263, R264). -/
  ranges : KMap W64
  panels : KMap W64
  ring : Ring
  /-- Blocks withdrawn by FETCHWORK: launch and linear index (R57). -/
  withdrawn : List (Nat × Nat)
  /-- Increases of the five term counters, for the profile block (R349). -/
  terms : List Nat
  /-- The resume records saved with the block, in queue order (R275). -/
  savedMatrix : List SavedEntry
  /-- It has been the head for 8 µs as a saved block, and holds its partition (R54). -/
  holds : Bool
  /-- Its save image as it is stored, while it has one, and the bytes that the image takes of each die's carve units: none of one in the context's save area in HBM (R333, R334, R344). -/
  image : List Byte
  shadow : List (Nat × Nat)
  deriving DecidableEq, Repr

/-- What earlier holders left in storage that R52 lets a later block of the same context read: the context that held each unit last, and contents. -/
structure Residue (w : Nat) where
  owner : KMap Nat
  data : Sparse w
  deriving DecidableEq, Repr

/-- Power states of a core (R365).  A core of a die that is off, or of a package that is down, is off (`State.corePower`). -/
inductive Power where
  | active | idle | off
  deriving DecidableEq, Repr

/-- A core (R62, R67, R206, R271). -/
structure Core where
  slots : List Overlay
  /-- Generation of each team slot (R53). -/
  gens : KMap Nat
  lcbase : Vector W64 16
  /-- Lane-cycle counts by 5 bin + class; the bin of the last pass of each pipe, where that pass was counted in one; and the bins that were so when the counts were cleared (R350). -/
  lcyc : KMap Nat
  lastBins : KMap Nat
  idleBins : List Nat
  watch : Vector W32 4
  /-- The context that the lane-cycle bins serve (R350). -/
  binCtx : Nat
  fstatus : W64
  fcause : W32
  fepc : W64
  fval : W64
  fscratch : W64
  fasid : W32
  fctx : W32
  fcore : W32
  ftsel : W32
  fseal : W32
  /-- Column slices, byte at 32 (1024 column + row) + offset, and source records by column. -/
  slices : Sparse 8
  sources : KMap (List SourceRec)
  queue : List MatrixEntry
  /-- The team slot from which the matrix queue took its last instruction (R271). -/
  matrixTurn : Nat
  /-- Reloads of column slices in progress, by column: the records still to be read, and the page-fault handle that the reload waits on (R256). -/
  reloads : KMap (List SourceRec × Option Nat)
  tlb : List TlbEntry
  /-- Contents left by earlier holders: register rows (1024 pipe + row), local blocks, operand-buffer KiB and tiles (R52). -/
  rowRes : Residue 32
  locRes : Residue 8
  obRes : Residue 8
  tileRes : Residue 32
  /-- Firmware events that wait for ERET, cause and value (R326). -/
  events : List (Nat × W64)
  /-- An event has entered firmware, and no ERET has followed (R326). -/
  inEvent : Bool
  power : Power
  /-- Lines in the core's L1, most recently used first, with the words that are valid and those that the core owns (R164, R288). -/
  l1 : List (Nat × BitVec 64 × BitVec 64)
  /-- The team slot whose scalar instruction issued last (R58). -/
  turn : Nat
  deriving DecidableEq, Repr

/-- A page-fault handle (R329, R330): context, page, access kind, faulting address, and the queue and TEAMID that its notification names. -/
structure FaultHandle where
  ctx : Nat
  page : Nat
  kind : Nat
  addr : W64
  queue : Nat
  teamid : W32
  deriving DecidableEq, Repr

/-- A die. -/
structure Die where
  handles : KMap FaultHandle
  tlb : List TlbEntry
  /-- Carved units (R168). -/
  carved : Nat
  on : Bool
  /-- Minor number of the microcode installed, and the minor number that brought each installed opcode (R22, R364). -/
  minor : Nat
  ops : KMap Nat
  deriving DecidableEq, Repr

/-! ## Launches, queues and contexts -/

/-- A kernel header after its checks (R12, R13). -/
structure Header where
  ardel : Bool
  spill : Bool
  zero : Bool
  width : Nat
  teams : Nat
  vregs : Nat
  lblk : Nat
  slots : Nat
  tiles : Nat
  obkb : Nat
  entry : Nat
  deriving DecidableEq, Repr

/-- An overlay table entry (R15). -/
structure OverlayRef where
  base : W64
  slen : Nat
  lcount : Nat
  deriving DecidableEq, Repr

/-- A launch (R32 to R36, R131 to R133, R313). -/
structure Launch where
  ctx : Nat
  queue : Nat
  index : Nat
  /-- Made by an HCALL (R313): TARGET and G of its record. -/
  call : Option (W64 × List W64)
  token : W64
  /-- The word at TARGET is a valid WIDEN (R312). -/
  widened : Bool
  hdr : Header
  ovs : List OverlayRef
  prio : Nat
  kof : Bool
  notify : Bool
  args : W64
  gx : Nat
  gy : Nat
  gz : Nat
  spillBase : W64
  deps : List (W64 × W64)
  /-- Dependences met so far, by number, and those whose re-read faulted and waits for the queue to be ACTIVE (R30, R34). -/
  met : List Nat
  depHeld : List Nat
  /-- The line of each dependence word as last read, and the write count then (R35). -/
  depRead : KMap (Nat × Nat)
  caddr : W64
  cval : W64
  tag : W64
  kdesc : W64
  thr : List W64
  /-- The profile block and the trace queue that were registered as the header was read (R361). -/
  profBlock : W64
  traceQ : W64
  fev : List Nat
  posted : List Nat
  /-- Next linear index to place, blocks withdrawn and not yet retired, blocks retired. -/
  next : Nat
  retired : Nat
  /-- The blocks placed, for what the completion store covers (R238). -/
  blks : List Nat
  killed : Bool
  faultSeq : W64
  /-- Order in which it became ready, for R54; whether its next block has been the head for 8 µs and holds the partition (R54). -/
  ready : Option Nat
  holds : Bool
  completed : Bool
  deriving DecidableEq, Repr

/-- Queue states (R27, R30). -/
inductive QueueState where
  | active | faulted | destroying | destroyed
  deriving DecidableEq, Repr

/-- A queue context of a front end (R26 to R31). -/
structure QueueCtx where
  ctx : Nat
  desc : W64
  base : W64
  log2n : Nat
  prio : Nat
  nq : W64
  state : QueueState
  reason : Nat
  kill : Bool
  /-- The write count up to which stores to CTRL have been acted on (R26, R30). -/
  ctrlSeen : Nat
  wridx : W64
  rdidx : W64
  /-- Completion value of its destroy sequence (R31, R341). -/
  endval : W64
  deriving DecidableEq, Repr

/-- A context (R42, R361). -/
structure Ctx where
  asid : Nat
  root : W64
  part : Nat
  prot : Bool
  key : BitVec 256
  counter : Nat
  thrAddr : W64
  hostLanding : W64
  devLanding : W64
  threads : Nat
  service : W64
  profile : W64
  profileWord : W64
  profBlock : W64
  traceQ : W64
  dumpBuf : W64
  dumpLen : Nat
  inbound : W64
  refused : W64
  shared : List (W64 × W64)
  /-- The register backing store of the context: word of register r in lane L of team slot t at 2^20 t + 1024 r + L (R49, R52). -/
  backing : Sparse 32
  /-- Teardown has begun; the context is dead. -/
  teardown : Bool
  dead : Bool
  /-- Inbound messages refused during teardown (R41). -/
  lateMsgs : Nat
  /-- The CODE of the reset in progress (R341), 0 for none. -/
  resetCode : Nat
  swapped : Bool
  /-- Call-token stacks of landing threads: thread, then team ID and RADDR, top first (R310). -/
  tokens : KMap (List (W32 × W64))
  /-- Landing threads that wait for a reply, with their token (R310). -/
  calls : KMap W64
  deriving DecidableEq, Repr

/-! ## The package -/

/-- An agent of R278, by its access path: a team on path L, a team's lane queue, which may see what its scalar stream does not yet (R189), the matrix engine acting for a team on path M, the copy engine acting for a block's ring and the distributor writing a block's mailbox on path C, a host hart and a peer on path H, and the device's own agents (front end, notification poster, firmware's answers) acting for a context on path L. -/
inductive Path where
  | team (t : Nat)
  | lanes (t : Nat)
  | matrix (t : Nat)
  | copy (b : Nat)
  | mail (b : Nat)
  | host (h : Nat)
  | peer (p : Nat)
  | front (x : Nat)
  deriving DecidableEq, Repr

/-- Where a byte lies: physical memory, a block's local memory by logical address, its operand buffer by block-relative byte, or its tiles by 4 times the word at 4096 tile + 256 row + column (R158). -/
inductive Place where
  | phys
  | loc (b : Nat)
  | ob (b : Nat)
  | tile (b : Nat)
  deriving DecidableEq, Repr

/-- A write that is not performed yet: its ownership is not acknowledged, or its page is under migration, or it is a release behind other writes of its agent (R174, R179, R288).  Its agent, the block and the slots whose signals cover it, whether it has a role, the lane batch that it belongs to, its place, address and bytes; with `rmw` an atomic that waits at the home and writes nothing by itself. -/
structure Stalled where
  path : Path
  blk : Nat
  slots : List Nat
  role : Bool
  lane : Option Nat
  place : Place
  pa : Nat
  bytes : List Byte
  rmw : Bool
  deriving DecidableEq, Repr

/-- The package (R359, R362, R42). -/
structure Pkg where
  version : W32
  bootcode : BitVec 8
  bootdie : BitVec 4
  imglen : W32
  imgaddr : W64
  fwq : W64
  fwqLatched : Bool
  /-- Partition of each half-die (R42). -/
  parts : List Nat
  throttled : Bool
  down : Bool
  halted : Bool
  /-- The SHA-384 measurement of the firmware image, taken at boot (R362 step 4, R363). -/
  measured : List Byte
  /-- Microcode images verified and waiting to be installed, oldest first, and the image installed last (R363, R364). -/
  microcode : List W64
  image : Option W64
  /-- Counters firmware keeps: notifications dropped, messages refused, landing records discarded (R40, R41, R308). -/
  dropped : Nat
  refusedMsgs : Nat
  discarded : Nat
  /-- Pages that firmware has retired, and of which it has told the host OS (R342; how the host OS is told the spec leaves open, log 73). -/
  retired : List Nat
  /-- Error log: place, group or storage, and SEQ (R255, R342). -/
  errors : List (Nat × Nat × Nat)
  /-- The step at which the package powered up last: CYCLE counts from it (R62). -/
  poweredAt : Nat
  /-- Power-ups so far, the numbers of blocks and launches made, and the order of placements. -/
  powerups : Nat
  nextBlock : Nat
  nextLaunch : Nat
  nextOrder : Nat
  /-- Save counters recorded for saved blocks (R337). -/
  saves : KMap Nat
  /-- Migrations of pages in progress: old page, new page, and the writes that stall, oldest first (R174). -/
  locks : List (Nat × Nat)
  /-- Partitions swapped out (R336). -/
  partsOut : List Nat
  /-- Writes not performed yet, in the order in which they reached their home (R174, R288). -/
  stalled : List Stalled
  /-- Bytes that a port, or an access from outside the dies, was answered last. -/
  port : List Byte
  /-- Accesses of harts and peers that wait at their home for a page under migration (R174). -/
  outers : List (Path × OuterAccess)
  /-- The last transfer from another package was refused with a negative acknowledgment (R41, R292). -/
  nack : Bool
  deriving DecidableEq, Repr

/-! ## Memory order -/

/-- A performed write of an aligned 4-byte word, newest first in the order of R284: its agent, the word (`Place.word`), the word it replaced, the agents that may read no older one, the agents before whose later accesses of path L, of path M and of path C it is ordered, the agents that it happens before on whatever path (R282), the teams that have observed it complete (R234), the block and the sync slots whose signals cover it, whether it has a role (R280), whether an agent before whose accesses of path L it is ordered has released since, and with path L of path M or of path C, whether one that it happens before has, and whether the completion store of its launch covers it (R293). -/
structure HistWord where
  path : Path
  word : Nat
  old : W32
  seen : List Path
  ord : List Path
  ordM : List Path
  ordC : List Path
  raw : List Path
  obs : List Nat
  blk : Nat
  slots : List Nat
  role : Bool
  pub : Bool
  pubM : Bool
  pubC : Bool
  hb : Bool
  cover : Bool
  /-- The lane batch that made it, while it is not ordered with its team's scalar accesses (R87). -/
  batch : Option Nat
  /-- Its place in the count of all words written. -/
  stamp : Nat
  deriving DecidableEq, Repr

/-- Why an access of a host hart is not performed: it is misaligned, its pages do not permit it, or it may not be made (R340). -/
inductive HartFault where
  | misaligned | page | access
  deriving DecidableEq, Repr

/-- A host hart, one of each of the 32 host cores (R2): the physical pieces that its LR reserved, and the write count then (R291); and the fault of its last access, if that was not performed, with the address (R340). -/
structure Hart where
  reserve : Option (List (Nat × Nat) × Nat)
  fault : Option (HartFault × W64)
  deriving DecidableEq, Repr

/-- States of a line in a die's L2 (R290, R300). -/
inductive LineState where
  | e | s | o | m
  deriving DecidableEq, Repr

/-- A request that the home serves (R300): kind 0 RDS, 1 RDX, 2 UPG. -/
structure Transaction where
  line : Nat
  req : Nat
  kind : Nat
  /-- Holders whose replies are still to come, the owner asked to forward the line, whether the grant has been sent, and the mask of an owner's IACK. -/
  waits : List Nat
  fwd : Option Nat
  granted : Bool
  mask : BitVec 4
  /-- The line of the set that the request evicts first, if any (R302). -/
  evict : Option Nat
  /-- The requester ends as a sharer beside others (R300). -/
  shared : Bool
  deriving DecidableEq, Repr

/-- The message kinds of R299. -/
inductive MsgKind where
  | rds | rdx | upg | fwds | fwdx | inv | iack | data | gnt | done | binv | wb | biack | evc | gone
  deriving DecidableEq, Repr

/-- An access that waits for a line (R289, R290): its agent, the die, the line, whether it needs M, and whether the line has come since it asked. -/
structure Want where
  path : Path
  die : Nat
  line : Nat
  excl : Bool
  got : Bool
  deriving DecidableEq, Repr

/-- The coherence state of the dies' L2s and home directories (R299 to R302).  The newest performed value of every byte stands in `State.mem`; `behind` holds what memory behind a dirty sector still holds. -/
structure Coh where
  /-- State and dirty mask of a line in a die's L2, by 8 line + die; die 4 is the UALink switch (R292). -/
  l2 : KMap (LineState × BitVec 4)
  /-- The 64 bytes that memory holds of a sector whose bit is set in some dirty mask, by sector (R301). -/
  behind : KMap (List Byte)
  /-- Directory: owner and sharers of a line. -/
  owner : KMap Nat
  sharers : KMap (List Nat)
  /-- Lock bits at the home directories, by page (R174). -/
  locked : List Nat
  /-- Transactions in progress, and requests that wait for a busy line: line, requester, kind. -/
  busy : List Transaction
  queued : List (Nat × Nat × Nat)
  /-- Requests a die has sent and not finished: line, die, and kind + 4 where the data has come, + 8 where the grant has, + 16 times the data's mask. -/
  asked : List (Nat × Nat × Nat)
  /-- Accesses that wait for a line. -/
  wants : List Want
  /-- Snoop filter entries, least recently used first. -/
  filter : List Nat
  /-- Lines of the die code and constant cache, a region of 4 MiB of a die's slices, by die, most recently used first (R35, R167). -/
  code : KMap (List Nat)
  /-- The memory-side caches: 64-byte sectors of a die's HBM, by die, most recently used first, each with whether it is dirty (R168). -/
  crust : KMap (List (Nat × Bool))
  /-- Messages in flight, in the order sent, and each source's next sequence number. -/
  net : List (MsgKind × Packet)
  nums : KMap Nat
  /-- Messages and data beats taken on links, by 8 source + destination (R299). -/
  taken : KMap Nat
  beats : KMap Nat
  deriving DecidableEq, Repr

end Sys2Proof.Machine
end

