-- ==== Sys2Proof/Machine/State.lean ====
section
/-! DEFINITION. The state of the machine, the reasons a step can stop, and the state after reset. -/

namespace Sys2Proof.Machine

/-- Whose turn a step is. -/
inductive Turn where
  /-- The scalar stream of a team. -/
  | scalar (t : Nat)
  /-- A team whose instruction waits tries it again, without issuing. -/
  | poll (t : Nat)
  /-- The lane queue of a team. -/
  | lanes (t : Nat)
  /-- The next entry of a block's copy ring. -/
  | ring (b : Nat)
  /-- The next request of the firmware request queue. -/
  | request
  /-- One of the part's other steps. -/
  | ev (i : Instr)
  /-- A write that is not performed yet, by its place in the queue (R288). -/
  | store (n : Nat)
  /-- The steps of a column group of an MMA in a core's matrix queue: core, entry and group (R247, R248). -/
  | step (c n g : Nat)
  /-- A slice reload in progress: core and column (R256). -/
  | reload (c col : Nat)
  /-- A team whose issue is overdue (R58). -/
  | starve (t : Nat)
  /-- A turn none of whose writes is acknowledged before its end (R288). -/
  | late (t : Turn)
  deriving DecidableEq, Repr

/-- The machine.  `cur`, `curBlk`, `agenda`, `tick`, `clock`, `fresh` and `late` are the model's own: the team and the block whose step runs, the turns to come, the arbiter's parity, the steps taken, the counter of free values, and whether the step's writes wait for their acknowledgment (log 1, 2). -/
structure State where
  /-- Physical memory in canonical form: addresses rise, no byte is zero. -/
  mem : List Host.Cell
  hist : List HistWord
  teams : KMap Team
  blocks : KMap Block
  /-- Sync slots by 64 block + slot. -/
  slots : KMap Slot
  cores : KMap Core
  dies : KMap Die
  launches : KMap Launch
  queues : KMap QueueCtx
  ctxs : KMap Ctx
  /-- The host harts, by 8 die + core (R2). -/
  harts : KMap Hart
  pkg : Pkg
  coh : Coh
  /-- The next SEQ (R40). -/
  seq : Nat
  /-- Words written so far. -/
  writes : Nat
  cur : Nat
  curBlk : Nat
  agenda : List Turn
  tick : Nat
  clock : Nat
  fresh : Nat
  late : Bool
  deriving DecidableEq, Repr

/-- Reasons the machine stops: there are none.  Every error that the spec names is a trap, a notification, a status or a discarded request, and a package that is down or halted does nothing (R362, R365, R366). -/
inductive Fault where
  deriving DecidableEq, Repr

/-- Reasons an instruction has no meaning. -/
inductive Refusal where
  /-- An instruction not modelled yet, by its mnemonic: raised by `exec`.  Safe. -/
  | notModelled (mnemonic : String)
  deriving DecidableEq, Repr

namespace State

/-- Registers of a core after power-up (R62). -/
def emptyOverlay : Overlay :=
  { asid := 0, base := 0, slen := 0, lcount := 0, valid := false, loading := false, used := 0, words := [] }

def noResidue {w : Nat} : Residue w := { owner := [], data := [] }

def resetCore : Core :=
  { slots := List.replicate 4 emptyOverlay, gens := [], lcbase := Vector.replicate 16 0, lcyc := [], lastBins := [], idleBins := [],
    watch := Vector.replicate 4 0, binCtx := 0, fstatus := 0, fcause := 0, fepc := 0, fval := 0, fscratch := 0,
    fasid := 0, fctx := 0, fcore := 0, ftsel := 0, fseal := 0, slices := [], sources := [], queue := [], matrixTurn := 0, reloads := [], tlb := [],
    rowRes := noResidue, locRes := noResidue, obRes := noResidue, tileRes := noResidue, events := [], inEvent := false,
    power := .idle, l1 := [], turn := 0 }

def resetDie : Die := { handles := [], tlb := [], carved := 0, on := true, minor := 0, ops := [] }

/-- A team at placement, before R53 gives it its own values. -/
def blankTeam : Team :=
  { blk := 0, idx := 0, g := Vector.replicate 64 0, q := Vector.replicate 4 0, p := Vector.replicate 8 0, m := 0,
    pregs := 0, rows := [],
    stack := [], pc := 0, teamid := 0, width := 0, present := 0, v := [], tcause := 0, tval := 0, tpc := 0,
    tbatch := 0, thandler := 0, termused := 0, termsteps := 0, groupwait := 0, mmacyc := 0, specdrop := 0,
    lacheck := 0, pcmatch := Vector.replicate 4 0, ticket := 0, lanes := [], pend := [], carried := false, laneWaiting := false,
    partDone := { lanes := [], regs := [], events := [] }, laneAcqs := [], await := [],
    spec := none, pending := [], ahead := [], trail := [], waiting := false, captured := none, issuedAt := 0, sywb := none, faultAt := none,
    laneFaultAt := none, yieldTo := [], starved := false, stopped := false, exited := false, suspended := none,
    migr := none, fetchReq := none, token := none, first := false, fired := none }

def blankRing : Ring :=
  { latched := none, pidx := 0, cons := 0, donecnt := 0, publishers := [], told := [], idle := [], halted := false, halting := [], dead := false, entries := [],
    faultAt := [], waity := none }

def blankBlock : Block :=
  { ctx := 0, launch := 0, lin := 0, x := 0, y := 0, z := 0, core := 0, teams := [], order := 0, phase := .placed,
    ltab := [], obtab := [], ttab := [], loc := [], ob := [], tiles := [], ranges := [],
    panels := [], ring := blankRing, withdrawn := [], terms := List.replicate 5 0, savedMatrix := [], holds := false, image := [], shadow := [] }

def blankHeader : Header :=
  { ardel := false, spill := false, zero := false, width := 0, teams := 0, vregs := 0, lblk := 0, slots := 0,
    tiles := 0, obkb := 0, entry := 0 }

def blankLaunch : Launch :=
  { ctx := 0, queue := 0, index := 0, call := none, token := 0, widened := false, hdr := blankHeader, ovs := [], prio := 0, kof := false,
    notify := false, args := 0, gx := 0, gy := 0, gz := 0, spillBase := 0, deps := [], met := [], depHeld := [], depRead := [], caddr := 0,
    cval := 0, tag := 0, kdesc := 0, thr := List.replicate 28 0, profBlock := 0, traceQ := 0, fev := List.replicate 28 0, posted := [], next := 0,
    retired := 0, blks := [], killed := false, faultSeq := 0, ready := none, holds := false, completed := false }

def blankQueue : QueueCtx :=
  { ctx := 0, desc := 0, base := 0, log2n := 4, prio := 0, nq := 0, state := .destroyed, reason := 0, kill := false, ctrlSeen := 0,
    wridx := 0, rdidx := 0, endval := 0 }

def blankCtx : Ctx :=
  { asid := 0, root := 0, part := 0, prot := false, key := 0, counter := 0, thrAddr := 0, hostLanding := 0,
    devLanding := 0, threads := 0, service := 0, profile := 0, profileWord := 0, profBlock := 0, traceQ := 0,
    dumpBuf := 0, dumpLen := 0, inbound := 0, refused := 0, shared := [], backing := [], teardown := false, dead := false,
    lateMsgs := 0, resetCode := 0, swapped := false, tokens := [], calls := [] }

/-- The package at power-up (R20, R359, R362 step 1; log 3 for what the spec gives no reset value).  VERSION is 2.0.0: its patch number, which R1, R20 and R362 leave open, is 0 (DESIGN CHOICE, log 3). -/
def resetPkg : Pkg :=
  { version := 0x02000000, bootcode := 0, bootdie := 0, imglen := 0, imgaddr := 0, fwq := 0, fwqLatched := false,
    parts := List.replicate 8 0, throttled := false, down := false, halted := false, measured := List.replicate 48 0, microcode := [], image := none, dropped := 0,
    refusedMsgs := 0, discarded := 0, retired := [], errors := [], poweredAt := 0, powerups := 0, nextBlock := 1, nextLaunch := 1, nextOrder := 0,
    saves := [], locks := [], partsOut := [], stalled := [], port := [], outers := [], nack := false }

def resetCoh : Coh :=
  { l2 := [], behind := [], owner := [], sharers := [], locked := [], busy := [], queued := [], asked := [], wants := [],
    filter := [], code := [], crust := [], net := [], nums := [], taken := [], beats := [] }

/-- The machine at package power-up: boot has not begun, no context exists, every memory reads zero (R362). -/
def reset : State :=
  { mem := [], hist := [], teams := [], blocks := [], slots := [], cores := [], dies := [], launches := [],
    queues := [], ctxs := [], harts := [], pkg := resetPkg, coh := resetCoh, seq := 0, writes := 0, cur := 0, curBlk := 0, agenda := [],
    tick := 0, clock := 0, fresh := 0, late := false }

end State

end Sys2Proof.Machine
end

