-- ==== Sys2Proof/Machine/Prog.lean ====
section
/-! DEFINITION. The primitive updates of the state, and programs of them: every meaning is a program, so that what a step can do is said once. -/

namespace Sys2Proof.Machine

/-! ## Reading the state -/

namespace State

/-- The state's parts, a blank one where there is none. -/
def team (s : State) (k : Nat) : Team := (s.teams.get? k).getD blankTeam
def block (s : State) (k : Nat) : Block := (s.blocks.get? k).getD blankBlock
def core (s : State) (k : Nat) : Core := (s.cores.get? k).getD resetCore
def die (s : State) (k : Nat) : Die := (s.dies.get? k).getD resetDie
def launch (s : State) (k : Nat) : Launch := (s.launches.get? k).getD blankLaunch
def queue (s : State) (k : Nat) : QueueCtx := (s.queues.get? k).getD blankQueue
def ctx (s : State) (k : Nat) : Ctx := (s.ctxs.get? k).getD blankCtx
def hart (s : State) (k : Nat) : Hart := (s.harts.get? k).getD { reserve := none, fault := none }
def slot (s : State) (b n : Nat) : Slot := (s.slots.get? (64 * b + n)).getD .off

end State

/-! ## Physical memory -/

/-- A byte of physical memory; a byte nothing has written reads zero, as boot leaves it (R362 step 5). -/
def readByte (s : State) (pa : Nat) : Byte := Sparse.get s.mem pa

/-- Bytes of physical memory. -/
def readBytes (s : State) (pa n : Nat) : List Byte := Sparse.run s.mem pa n

/-- A little-endian number in physical memory (R3). -/
def readNat (s : State) (pa n : Nat) : Nat := leNat (readBytes s pa n)

/-- Bytes of a place. -/
def readPlace (s : State) (x : Place) (a n : Nat) : List Byte :=
  match x with
  | .phys => readBytes s a n
  | .loc b => Sparse.run (s.block b).loc a n
  | .ob b => Sparse.run (s.block b).ob a n
  | .tile b => (((List.range (n / 4 + 2)).flatMap (fun i => leBytes 4 (Sparse.get (s.block b).tiles (a / 4 + i)).toNat)).drop (a % 4)).take n

/-- The number of the aligned 4-byte word that holds a byte of a place. -/
def Place.word (x : Place) (a : Nat) : Nat :=
  match x with
  | .phys => a / 4
  | .loc b => 2 ^ 48 + 2 ^ 18 * (4 * b) + a / 4
  | .ob b => 2 ^ 48 + 2 ^ 18 * (4 * b + 1) + a / 4
  | .tile b => 2 ^ 48 + 2 ^ 18 * (4 * b + 2) + a / 4

/-- The numbers of the words that a run of bytes touches. -/
def Place.words (x : Place) (a n : Nat) : List Nat :=
  if n = 0 then [] else (List.range ((a + n - 1) / 4 + 1 - a / 4)).map (fun i => x.word a + i)

/-- A list of agents holds an agent; a lane queue is held with its team. -/
def knows (ps : List Path) (p : Path) : Bool :=
  ps.contains p || (match p with
    | .lanes t => ps.contains (.team t)
    | _ => false)

/-- An agent sees its own writes, and those that it may no longer read past. -/
def HistWord.visible (h : HistWord) (p : Path) : Bool := knows (h.path :: h.seen) p

/-- Agents of path L or H, which form one coherent domain (R293). -/
def Path.coherent : Path → Bool
  | .team _ => true
  | .lanes _ => true
  | .host _ => true
  | .peer _ => true
  | .front _ => true
  | _ => false

/-- A copy's write goes into the record of the same sub-operation's write to the word, so that a reader finds all of them or none (R203). -/
def joins (s : State) (p : Path) (slots : List Nat) (word : Nat) : Bool :=
  match p with
  | .copy _ => !slots.isEmpty && (s.hist.find? (fun h => h.word == word)).any (fun h => h.path == p && h.slots == slots)
  | _ => false

/-- The record a write of bytes leaves for each aligned word it touches (R284); a lane batch's writes stand in team order with the team's scalar accesses once the batch has completed (R279). -/
def histOf (s : State) (p : Path) (x : Place) (blk : Nat) (slots : List Nat) (role : Bool) (lane : Option Nat) (a : Nat) (bs : List Byte) : List HistWord :=
  if bs.isEmpty then []
  else
    ((List.range ((a + bs.length - 1) / 4 + 1 - a / 4)).filter (fun i => !joins s p slots (x.word a + i))).map (fun i =>
      { path := p, word := x.word a + i, old := BitVec.ofNat 32 (leNat (readPlace s x (4 * (a / 4 + i)) 4)), seen := [p], ord := if lane.isSome then [] else [p],
        ordM := [], ordC := [], raw := [], obs := [], blk := blk, slots := slots, role := role, pub := p.coherent, pubM := false, pubC := false, hb := false, cover := false, batch := lane, stamp := s.writes + i })

/-! ## Lines that a write dirties (R300, R301) -/

/-- The die through whose L2 the device's own agents act for a context: the lowest one of its partition (DESIGN CHOICE, log 30). -/
def ctxDie (s : State) (x : Nat) : Nat := ((s.pkg.parts.zipIdx.find? (fun p => p.1 == (s.ctx x).part)).map (fun p => p.2 / 2)).getD 0

/-- The die through whose L2 an agent's accesses go; die 4 is the UALink switch (R290 to R292). -/
def pathDie (s : State) (p : Path) : Nat :=
  match p with
  | .team t => t / 32 / 96 % 4
  | .lanes t => t / 32 / 96 % 4
  | .matrix t => t / 32 / 96 % 4
  | .copy b => (s.block b).core / 96
  | .mail b => (s.block b).core / 96
  | .host h => h / 8 % 4
  | .peer _ => 4
  | .front x => ctxDie s x

namespace Coh

/-- State and dirty mask of a line in a die's L2. -/
def held (c : Coh) (line die : Nat) : Option (LineState × BitVec 4) := c.l2.get? (8 * line + die)

def setHeld (c : Coh) (line die : Nat) (x : LineState) (mask : BitVec 4) : Coh := { c with l2 := c.l2.put (8 * line + die) (x, mask) }

/-- A sector is written by a die that holds its line in M or E: its bit is set in the die's mask, E becomes M, and memory keeps what it held (R300, R301).  What the home writes where no die holds the line goes to memory. -/
def wroteSector (c : Coh) (die : Nat) (k : Nat) (old : List Byte) : Coh :=
  match c.held (k / 4) die with
  | some (.m, m) | some (.e, m) =>
    { c.setHeld (k / 4) die .m (m ||| (1 <<< (k % 4))) with
      behind := if (c.behind.get? k).isSome then c.behind else c.behind.put k old }
  | _ => c

end Coh

/-- The sectors of a run of physical bytes. -/
def sectorsOf (pa n : Nat) : List Nat := if n = 0 then [] else (List.range ((pa + n - 1) / 64 + 1 - pa / 64)).map (fun i => pa / 64 + i)

/-- The lines' masks after a write. -/
def cohWrote (s : State) (p : Path) (pa n : Nat) : Coh :=
  if s.coh.l2.isEmpty then s.coh
  else (sectorsOf pa n).foldl (fun c k => c.wroteSector (pathDie s p) k (readBytes s (64 * k) 64)) s.coh

/-- A byte as the memory behind the caches holds it (R301, R304). -/
def memoryBehind (s : State) (pa : Nat) : Byte :=
  match s.coh.behind.get? (pa / 64) with
  | some bs => bs.getD (pa % 64) 0
  | none => readByte s pa

/-! ## Sync slots -/

/-- The operations that change a slot (R221 to R230). -/
inductive SlotOp where
  | init (s : Slot)
  | arrive
  | expect (e : Nat)
  | withdraw
  | addBytes (n : Nat)
  | setBits (b : W64)
  | clearBits (b : W64)
  | clearBytes
  | put | filled | get | release
  deriving DecidableEq, Repr

/-- A mode's values after SYINIT (R221): nothing but a slot of these values is ever installed. -/
def Slot.fresh : Slot → Slot
  | .off => .off
  | .count e _ _ => .count e 0 false
  | .bytes _ => .bytes 0
  | .chunks _ => .chunks 0
  | .ring s _ _ _ _ _ _ => .ring s s 0 0 0 0 0

/-- The effect of an operation on a slot; an operation that the mode does not accept changes nothing. -/
def SlotOp.apply (op : SlotOp) (x : Slot) : Slot :=
  match op, x with
  | .init y, _ => y.fresh
  | .arrive, .count e a ph => if e ≤ a + 1 then .count e 0 (!ph) else .count e (a + 1) ph
  | .withdraw, .count e a ph => .count e (a - 1) ph
  | .expect e', .count _ a ph => if e' ≤ a then .count e' 0 (!ph) else .count e' a ph
  | .addBytes n, .bytes c => .bytes (min (c + n) (2 ^ 64 - 1))
  | .clearBytes, .bytes _ => .bytes 0
  | .setBits b, .chunks x => .chunks (x ||| b)
  | .clearBits b, .chunks x => .chunks (x &&& ~~~b)
  | .put, .ring s (f + 1) tp fl tc pu ge => .ring s f (tp + 1) fl tc ((pu + 1) % s) ge
  | .filled, .ring s f (tp + 1) fl tc pu ge => .ring s f tp (fl + 1) tc pu ge
  | .get, .ring s f tp (fl + 1) tc pu ge => .ring s f tp fl (tc + 1) pu ((ge + 1) % s)
  | .release, .ring s f tp fl (tc + 1) pu ge => .ring s (f + 1) tp fl tc pu ge
  | _, x => x

/-- The die at which an address is homed, by its range (R159). -/
def addressDie (pa : Nat) : Nat := if pa < 0x10000000000 then pa / 0x4000000000 else (pa - 0x10000000000) / 0x80000000

/-! ## Updates -/

/-- The primitive updates: a meaning changes the state through these alone. -/
inductive Upd where
  | team (k : Nat) (f : Team → Team)
  | block (k : Nat) (f : Block → Block)
  | core (k : Nat) (f : Core → Core)
  | die (k : Nat) (f : Die → Die)
  | launch (k : Nat) (f : Launch → Launch)
  | queue (k : Nat) (f : QueueCtx → QueueCtx)
  | ctx (k : Nat) (f : Ctx → Ctx)
  | hart (k : Nat) (f : Hart → Hart)
  | dropTeam (k : Nat)
  | dropBlock (k : Nat)
  | dropLaunch (k : Nat)
  | dropQueue (k : Nat)
  | dropCtx (k : Nat)
  | slot (b n : Nat) (op : SlotOp)
  | dropSlots (b : Nat)
  /-- A write of bytes by an agent, in a place; a block's engine's is covered by its signals on these slots. -/
  | store (p : Path) (x : Place) (blk : Nat) (slots : List Nat) (role : Bool) (lane : Option Nat) (a : Nat) (bs : List Byte)
  | hist (f : List HistWord → List HistWord)
  | pkg (f : Pkg → Pkg)
  | coh (f : Coh → Coh)
  /-- Draw a SEQ (R40). -/
  | drawSeq
  /-- Use up a free value. -/
  | drawFree
  /-- The writes of this step wait for their acknowledgment (R288). -/
  | late
  | cur (t : Nat)
  | curBlk (b : Nat)
  | agenda (f : List Turn → List Turn)
  | clearMem
  /-- Memory homed at a die is cleared (R362 step 5, R365). -/
  | clearDie (d : Nat)
  /-- Every part of the state begins again, as a power-up or a power-off leaves it. -/
  | power (f : Pkg → Pkg)
  deriving Inhabited

/-- What one update does. -/
def Upd.apply (u : Upd) (s : State) : State :=
  match u with
  | .team k f => { s with teams := s.teams.put k (f (s.team k)) }
  | .block k f => { s with blocks := s.blocks.put k (f (s.block k)) }
  | .core k f => { s with cores := s.cores.put k (f (s.core k)) }
  | .die k f => { s with dies := s.dies.put k (f (s.die k)) }
  | .launch k f => { s with launches := s.launches.put k (f (s.launch k)) }
  | .queue k f => { s with queues := s.queues.put k (f (s.queue k)) }
  | .ctx k f => { s with ctxs := s.ctxs.put k (f (s.ctx k)) }
  | .hart k f => { s with harts := s.harts.put k (f (s.hart k)) }
  | .dropTeam k => { s with teams := s.teams.del k }
  | .dropBlock k => { s with blocks := s.blocks.del k, hist := s.hist.filter (fun h => h.word < 2 ^ 48 || (h.word - 2 ^ 48) / 2 ^ 20 != k) }
  | .dropLaunch k => { s with launches := s.launches.del k }
  | .dropQueue k => { s with queues := s.queues.del k }
  | .dropCtx k => { s with ctxs := s.ctxs.del k }
  | .slot b n op => { s with slots := s.slots.put (64 * b + n) (op.apply (s.slot b n)) }
  | .dropSlots b => { s with slots := s.slots.keep (fun k _ => k / 64 != b) }
  | .store p x blk slots role lane a bs =>
    let h := histOf s p x blk slots role lane a bs ++ s.hist
    let n := s.writes + (x.words a bs.length).length
    match x with
    | .phys => { s with mem := Sparse.setRun s.mem a bs, hist := h, coh := cohWrote s p a bs.length, writes := n }
    | .loc b => { s with blocks := s.blocks.put b { s.block b with loc := Sparse.setRun (s.block b).loc a bs }, hist := h, writes := n }
    | .ob b => { s with blocks := s.blocks.put b { s.block b with ob := Sparse.setRun (s.block b).ob a bs }, hist := h, writes := n }
    | .tile b => { s with blocks := s.blocks.put b { s.block b with tiles := Sparse.setRun (s.block b).tiles (a / 4) ((List.range (bs.length / 4)).map (fun i => BitVec.ofNat 32 (leNat ((bs.drop (4 * i)).take 4)))) }, hist := h, writes := n }
  | .hist f => { s with hist := f s.hist }
  | .pkg f => { s with pkg := f s.pkg }
  | .coh f => { s with coh := f s.coh }
  | .drawSeq => { s with seq := s.seq + 1 }
  | .drawFree => { s with fresh := s.fresh + 1 }
  | .late => { s with late := true }
  | .cur t => { s with cur := t }
  | .curBlk b => { s with curBlk := b }
  | .agenda f => { s with agenda := f s.agenda }
  | .clearMem => { s with mem := [], hist := [], coh := { s.coh with behind := [] } }
  | .clearDie d => { s with mem := s.mem.filter (fun c => addressDie c.1 != d), hist := s.hist.filter (fun h => 2 ^ 46 ≤ h.word || addressDie (4 * h.word) != d), coh := { s.coh with behind := s.coh.behind.keep (fun k _ => addressDie (64 * k) != d) } }
  | .power f => { State.reset with pkg := { f s.pkg with poweredAt := s.clock }, cur := s.cur, curBlk := s.curBlk, agenda := s.agenda, tick := s.tick, clock := s.clock, fresh := s.fresh, late := s.late }

/-- A program: it reads the state, updates it, and ends.  None of the spec's steps stops the machine, so a program cannot. -/
inductive Prog where
  | ret
  | get (k : State → Prog)
  | upd (u : Upd) (k : Prog)

namespace Prog

/-- The state after a program. -/
def final : Prog → State → State
  | .ret, s => s
  | .get k, s => (k s).final s
  | .upd u k, s => k.final (u.apply s)

/-- Running a program. -/
def run (p : Prog) (s : State) : Host.Outcome State Fault Refusal := .next (p.final s)

/-- One program after another. -/
def seq : Prog → Prog → Prog
  | .ret, q => q
  | .get k, q => .get (fun s => (k s).seq q)
  | .upd u k, q => .upd u (k.seq q)

/-- Programs one after another. -/
def all : List Prog → Prog
  | [] => .ret
  | p :: ps => p.seq (all ps)

/-- A program for each element of a list, in order. -/
def each {α : Type} (xs : List α) (f : α → Prog) : Prog := all (xs.map f)

/-- One update. -/
def one (u : Upd) : Prog := .upd u .ret

/-- A program under a condition. -/
def when (c : Bool) (p : Prog) : Prog := if c then p else .ret

end Prog

end Sys2Proof.Machine
end

