-- ==== Sys2Proof/Machine/Coherence.lean ====
section
/-! DEFINITION. The coherence of the dies' L2s: lines, holders, requests, messages and the home directories (R167, R290, R299 to R302). -/

namespace Sys2Proof.Machine

/-! ## Lines, homes and holders -/

/-- The home die of a line (R159). -/
def lineHome (line : Nat) : Nat := addressDie (256 * line)

/-- The snoop-filter set of a line, within its home's slice line mod 48 (R302). -/
def filterSet (line : Nat) : Nat := line / 48 % 2048

/-- What an access needs a line for: a plain read, a read with a role, or a write. -/
inductive LineUse where
  | plain | sync | write
  deriving DecidableEq, Repr

/-- A write needs the line in M. -/
def LineUse.excl (u : LineUse) : Bool := u == .write

/-- Two lines share a set of one slice of one home. -/
def sameSet (a b : Nat) : Bool := lineHome a == lineHome b && a % 48 == b % 48 && filterSet a == filterSet b

namespace Coh

def drop (c : Coh) (line die : Nat) : Coh := { c with l2 := c.l2.del (8 * line + die) }

def sharersOf (c : Coh) (line : Nat) : List Nat := (c.sharers.get? line).getD []

/-- The dies that the directory lists for a line. -/
def holders (c : Coh) (line : Nat) : List Nat :=
  match c.owner.get? line with
  | some o => o :: (c.sharersOf line).filter (· != o)
  | none => c.sharersOf line

/-- The directory forgets a holder; a line that no die but the home holds has no filter entry. -/
def forget (c : Coh) (line die : Nat) : Coh :=
  let c1 := { c with
    owner := if c.owner.get? line = some die then c.owner.del line else c.owner
    sharers := c.sharers.put line ((c.sharersOf line).filter (· != die)) }
  if (c1.holders line).any (· != lineHome line) || c.busy.any (fun t => t.line == line || t.evict == some line) then c1 else { c1 with filter := c1.filter.filter (· != line) }

/-- An entry becomes the most recently used of its set. -/
def touch (c : Coh) (line : Nat) : Coh := { c with filter := c.filter.filter (· != line) ++ [line] }

/-- Sectors of a line go through the memory-side cache of its home, where the line lies in HBM (R168). -/
def crustUse (c : Coh) (line : Nat) (mask : BitVec 4) (dirty : Bool) : Coh :=
  if mask = 0 || decide (0x10000000000 ≤ 256 * line) then c
  else
    let old := (c.crust.get? (lineHome line)).getD []
    let ks := ((List.range 4).filter (fun i => mask.getLsbD i)).map (4 * line + ·)
    { c with crust := c.crust.put (lineHome line) (ks.map (fun k => (k, dirty || old.contains (k, true))) ++ old.filter (fun e => !ks.contains e.1)) }

/-- The memory-side caches within their sizes, of 1,280 MiB less 64 MiB for each carved unit: what goes beyond is written back (R168). -/
def crustFit (c : Coh) (carved : Nat → Nat) : Coh := { c with crust := c.crust.mapVals (fun d l => l.take (2 ^ 20 * (20 - carved d))) }

/-- Memory takes the sectors of a mask: the home writes them through its memory-side cache (R301). -/
def writeBack (c : Coh) (line : Nat) (mask : BitVec 4) : Coh :=
  { c with behind := c.behind.keep (fun k _ => !(k / 4 == line && mask.getLsbD (k % 4))) }.crustUse line mask true

/-- The line comes from memory. -/
def fromMemory (c : Coh) (line : Nat) : Coh := c.crustUse line 0xF false

/-- A line takes part in a transaction or an eviction. -/
def lineBusy (c : Coh) (line : Nat) : Bool := c.busy.any (fun t => t.line == line || t.evict == some line)

/-! ## Messages in flight (R299) -/

/-- A message with nothing but its header. -/
def packet (line src dst : Nat) : Packet := { line := line, src := src, dst := dst, num := 0, req := 0, grant := .none, dirty := false, mask := 0, data := [] }

/-- A message is sent: it takes its source's next number. -/
def send (c : Coh) (k : MsgKind) (p : Packet) : Coh :=
  let n := (c.nums.get? p.src).getD 0
  { c with net := c.net ++ [(k, { p with num := n })], nums := c.nums.put p.src (n + 1) }

/-- The message of a source that a receiver takes next, where it is of this kind and line. -/
def nextOf (c : Coh) (k : MsgKind) (m : Packet) : Option Packet :=
  match c.net.find? (fun e => e.2.src == m.src && e.2.dst == m.dst) with
  | some e => if e.1 = k ∧ e.2.line = m.line then some e.2 else none
  | none => none

/-- Data beats of a message: DATA carries the whole line, WB one 64-byte beat for each dirty sector (R299). -/
def beatsOf (k : MsgKind) (p : Packet) : Nat :=
  match k with
  | .data => 4
  | .wb => popCount 4 p.mask.toNat
  | _ => 0

/-- A message leaves the link. -/
def takeOff (c : Coh) (k : MsgKind) (p : Packet) : Coh :=
  let link := 8 * p.src + p.dst
  let net := c.net.erase (k, p)
  if p.src = p.dst then { c with net := net }
  else { c with
    net := net
    taken := c.taken.put link ((c.taken.get? link).getD 0 + 1)
    beats := if beatsOf k p = 0 then c.beats else c.beats.put link ((c.beats.get? link).getD 0 + beatsOf k p) }

/-- A message of some kind: taken, where it is the next of its source; else sent, where its source may send it on its own. -/
def message (c : Coh) (k : MsgKind) (m : Packet) (take : Packet → Coh → Coh) (may : Bool) (start : Coh → Coh) : Coh :=
  match c.nextOf k m with
  | some p => take p (c.takeOff k p)
  | none => if may then start c else c

/-! ## Requests (R300) -/

/-- A die has a request for a line outstanding. -/
def asking (c : Coh) (line die : Nat) : Option Nat := (c.asked.find? (fun a => a.1 == line && a.2.1 == die)).map (fun a => a.2.2)

/-- A die's outstanding request replaced, or ended. -/
def setAsking (c : Coh) (line die : Nat) (k : Option Nat) : Coh :=
  let rest := c.asked.filter (fun a => !(a.1 == line && a.2.1 == die))
  { c with asked := match k with
      | some n => (line, die, n) :: rest
      | none => rest }

/-- A transaction replaced, by its line. -/
def setBusy (c : Coh) (t : Transaction) : Coh := { c with busy := c.busy.map (fun u => if u.line = t.line then t else u) }

/-- The home sends the line, or the grant, that a request still needs once its replies are in. -/
def answer (c : Coh) (t : Transaction) : Coh :=
  let p := packet t.line (lineHome t.line) t.req
  let alone := (c.holders t.line).filter (· != t.req) == []
  if !t.waits.isEmpty || t.granted then c.setBusy t
  else if t.kind = 0 then
    if t.fwd.isSome then c.setBusy { t with granted := true }
    else ((c.setBusy { t with granted := true, shared := !alone }).fromMemory t.line).send .data { p with grant := if alone then .e else .s }
  else if t.kind = 1 && t.fwd.isNone then ((c.setBusy { t with granted := true }).fromMemory t.line).send .data { p with grant := .m }
  else (c.setBusy { t with granted := true }).send .gnt { p with mask := t.mask }

/-- Send one message to each of some dies. -/
def sendEach (c : Coh) (k : MsgKind) (line : Nat) (req : Nat) (dies : List Nat) : Coh :=
  dies.foldl (fun c d => c.send k { packet line (lineHome line) d with req := req }) c

/-- The home serves a request whose filter entry is there (R300). -/
def serve (c : Coh) (t : Transaction) : Coh :=
  let others := (c.holders t.line).filter (· != t.req)
  let owner := (c.owner.get? t.line).filter (· != t.req)
  let kind := if t.kind = 2 ∧ !(c.holders t.line).contains t.req then 1 else t.kind
  let c := if t.req = lineHome t.line then c else c.touch t.line
  if kind = 0 then
    match owner with
    | some x => (c.setBusy { t with fwd := some x, granted := true }).send .fwds { packet t.line (lineHome t.line) x with req := t.req }
    | none => c.answer t
  else if kind = 1 then
    match owner with
    | some x =>
      let sharers := others.filter (· != x)
      let t := { t with kind := 1, waits := sharers, fwd := some x }
      ((c.send .fwdx { packet t.line (lineHome t.line) x with req := t.req }).sendEach .inv t.line t.req sharers).answer t
    | none => (c.sendEach .inv t.line t.req others).answer { t with kind := 1, waits := others }
  else (c.sendEach .inv t.line t.req others).answer { t with waits := others }

/-- The least recently used entry of a line's set that is not busy. -/
def victim (c : Coh) (line : Nat) : Option Nat := c.filter.find? (fun l => sameSet l line && !c.lineBusy l)

/-- A request waits in its order at the home: its line is busy, an earlier request for it waits, or it asks for M of a line that is locked for migration (R174, R300). -/
def mustQueue (c : Coh) (line kind : Nat) : Bool :=
  c.lineBusy line || c.queued.any (fun q => q.1 == line) || (kind != 0 && c.locked.contains (line / 16))

/-- A request begins: its line is free, and its filter entry is there, is free, or takes the place of another that is evicted first; where all 8 entries of the set are busy it waits (R302). -/
def begin? (c : Coh) (line req kind : Nat) : Coh :=
  let t : Transaction := { line := line, req := req, kind := kind, waits := [], fwd := none, granted := false, mask := 0, evict := none, shared := false }
  let wait := { c with queued := c.queued ++ [(line, req, kind)] }
  if c.mustQueue line kind then wait
  else if req = lineHome line || c.filter.contains line || decide ((c.filter.filter (fun l => sameSet l line)).length < 8) then
    ({ c with busy := c.busy ++ [t] }).serve t
  else match c.victim line with
    | none => wait
    | some v =>
      let dies := (c.holders v).filter (· != lineHome v)
      ({ c with busy := c.busy ++ [{ t with evict := some v, waits := dies }] }).sendEach .binv v 0 dies

/-- The requests that wait are tried again, in the order in which they came. -/
def retryQueued (c : Coh) : Coh :=
  c.queued.foldl (fun c q => c.begin? q.1 q.2.1 q.2.2) { c with queued := [] }

/-- A request arrives at the home. -/
def takeRequest (kind : Nat) (p : Packet) (c : Coh) : Coh := c.begin? p.line p.src kind

/-! ## A die's own L2 (R167; set index and victim log 31) -/

/-- The set of a line within its slice of 2 MiB, 16-way, 256-byte lines. -/
def l2Set (line : Nat) : Nat := line / 48 % 512

/-- Two lines share a set of a slice of a die's L2. -/
def sameWays (a b : Nat) : Bool := a % 48 == b % 48 && l2Set a == l2Set b

/-- The lines of a die that share a line's set. -/
def setLines (c : Coh) (line die : Nat) : List Nat :=
  (c.l2.filter (fun e => e.1 % 8 == die && sameWays (e.1 / 8) line)).map (fun e => e.1 / 8)

/-- The lines of the die code and constant cache that share a line's set. -/
def codeLines (c : Coh) (line die : Nat) : List Nat := ((c.code.get? die).getD []).filter (fun l => sameWays l line)

/-- The lines of a line's set that a die has asked for. -/
def askedLines (c : Coh) (line die : Nat) : List Nat := (c.asked.filter (fun a => a.2.1 == die && sameWays a.1 line)).map (fun a => a.1)

/-- The ways of a line's set that other lines of a die take: held or asked for, or in the die code and constant cache. -/
def waysTaken (c : Coh) (line die : Nat) : Nat :=
  (((c.setLines line die ++ c.askedLines line die).eraseDups).filter (· != line)).length + (c.codeLines line die).length

/-- A die's L2 has a way for a line; the UALink switch has no set to fill. -/
def hasRoom (c : Coh) (line die : Nat) : Bool := decide (4 ≤ die) || (c.held line die).isSome || decide (c.waysTaken line die < 16)

/-- A line leaves the die code and constant cache. -/
def dropCode (c : Coh) (line die : Nat) : Coh := { c with code := c.code.put die (((c.code.get? die).getD []).filter (· != line)) }

/-- A holder evicts its copy: WB where it is dirty, EVC where it is clean; at its home it writes back without a message. -/
def evictLine (c : Coh) (line die : Nat) : Coh :=
  match c.held line die with
  | some (_, mask) =>
    if lineHome line = die then ((c.drop line die).writeBack line mask).forget line die
    else (c.drop line die).send (if mask = 0 then .evc else .wb) { packet line die (lineHome line) with mask := mask }
  | none => c

/-- A full set gives up a line: one that takes part in nothing, else one that the die has not asked for, else one of the die code and constant cache. -/
def makeRoom (c : Coh) (line die : Nat) : Coh :=
  if c.hasRoom line die then c
  else
    let mine := (c.setLines line die).filter (fun l => l != line && (c.asking l die).isNone)
    match mine.find? (fun l => !c.lineBusy l) <|> mine.head? with
    | some v => c.evictLine v die
    | none => match (c.codeLines line die).getLast? with
      | some v => c.dropCode v die
      | none => c

/-- A line comes into a die's L2. -/
def install (c : Coh) (line die : Nat) (x : LineState) (mask : BitVec 4) : Coh := (c.makeRoom line die).setHeld line die x mask

/-- Lines come into the die code and constant cache, of 4 MiB, where the slices have room (R35, R167). -/
def useCode (c : Coh) (die : Nat) (lines : List Nat) : Coh :=
  lines.foldl (fun c l =>
    let c := (c.dropCode l die).makeRoom l die
    if decide (c.waysTaken l die + (c.setLines l die).count l < 16) then { c with code := c.code.put die ((l :: (c.code.get? die).getD []).take 16384) } else c) c

/-- A die asks for a line; its L2 keeps a way for it. -/
def ask (kind : Nat) (k : MsgKind) (m : Packet) (c : Coh) : Coh :=
  ((c.makeRoom m.line m.src).setAsking m.line m.src (some kind)).send k (packet m.line m.src (lineHome m.line))

/-- A die may ask: it has no request for the line outstanding, and its L2 has a way for it. -/
def mayAsk (c : Coh) (m : Packet) : Bool :=
  m.dst == lineHome m.line && decide (m.src ≤ 4) && (c.asking m.line m.src).isNone && (c.makeRoom m.line m.src).hasRoom m.line m.src

/-- RDS and RDX: the die holds no copy. -/
def misses (c : Coh) (m : Packet) : Bool := c.mayAsk m && (c.held m.line m.src).isNone

/-- UPG: the die holds a copy that it may not write. -/
def upgrades (c : Coh) (m : Packet) : Bool :=
  c.mayAsk m && (match c.held m.line m.src with
    | some (.s, _) => true
    | some (.o, _) => true
    | _ => false)

/-! ## Holders (R300, R301) -/

/-- An answer of a holder to the home. -/
def reply (c : Coh) (k : MsgKind) (p : Packet) (mask : BitVec 4) : Coh :=
  c.send k { packet p.line p.dst (lineHome p.line) with mask := mask, req := 1 }

/-- FWDS: an owner in E sends the line clean and holds it in S; one in M or O sends it with DIRTY and its mask and holds it in O. -/
def takeFwds (p : Packet) (c : Coh) : Coh :=
  let data := fun (c : Coh) (dirty : Bool) (mask : BitVec 4) => c.send .data { packet p.line p.dst p.req with dirty := dirty, mask := mask }
  match c.held p.line p.dst with
  | some (.e, _) => data (c.setHeld p.line p.dst .s 0) false 0
  | some (.m, k) => data (c.setHeld p.line p.dst .o k) true k
  | some (.o, k) => data c true k
  | _ => c.reply .gone p 0

/-- A die's copy goes while an UPG of its own waits: the UPG is now an RDX (R300). -/
def lost (c : Coh) (line die : Nat) : Coh :=
  match c.asking line die with
  | some k => if k % 4 = 2 then (c.drop line die).setAsking line die (some (k - 1)) else c.drop line die
  | none => c.drop line die

/-- FWDX: the owner sends the line with its mask and drops it. -/
def takeFwdx (p : Packet) (c : Coh) : Coh :=
  match c.held p.line p.dst with
  | some (x, k) => (c.lost p.line p.dst).send .data { packet p.line p.dst p.req with dirty := x == .m || x == .o, mask := k }
  | none => c.reply .gone p 0

/-- INV: the holder drops the line. -/
def takeInv (p : Packet) (c : Coh) : Coh :=
  match c.held p.line p.dst with
  | some (_, k) => (c.lost p.line p.dst).reply .iack p k
  | none => c.reply .gone p 0

/-- BINV: the holder writes back and drops the line (R302); of a locked line there is no dirty copy (R174). -/
def takeBinv (p : Packet) (c : Coh) : Coh :=
  match c.held p.line p.dst with
  | some (_, k) => (c.lost p.line p.dst).reply (if k = 0 then .biack else .wb) p k
  | none => c.reply .gone p 0

/-! ## The requester -/

/-- The accesses that a line's arrival at a die serves. -/
def arrived (c : Coh) (line die : Nat) (excl : Bool) : Coh :=
  { c with wants := c.wants.map (fun w => if w.line == line && w.die == die && (excl || !w.excl) then { w with got := true } else w) }

/-- The requester holds what its request asked for, and ends the transaction. -/
def finishAsk (c : Coh) (line die : Nat) (x : LineState) (mask : BitVec 4) (dirty : Bool) : Coh :=
  ((((c.setAsking line die none).install line die x mask).arrived line die (x == .m)).send .done { packet line die (lineHome line) with dirty := dirty })

/-- DATA: with a grant it suffices; from an owner it suffices for an RDS, and an RDX needs GNT beside it. -/
def takeData (p : Packet) (c : Coh) : Coh :=
  match c.asking p.line p.dst with
  | none => c
  | some k =>
    match p.grant with
    | .e => c.finishAsk p.line p.dst .e 0 false
    | .s => c.finishAsk p.line p.dst .s 0 false
    | .m => c.finishAsk p.line p.dst .m p.mask true
    | .none =>
      if k % 4 = 0 then c.finishAsk p.line p.dst .s 0 p.dirty
      else if 8 ≤ k % 16 then c.finishAsk p.line p.dst .m p.mask true
      else c.setAsking p.line p.dst (some (k + 4 + 16 * p.mask.toNat))

/-- GNT: an UPG has its line already; an RDX needs DATA beside it. -/
def takeGnt (p : Packet) (c : Coh) : Coh :=
  match c.asking p.line p.dst with
  | none => c
  | some k =>
    let own := if k % 4 = 2 then ((c.held p.line p.dst).map Prod.snd).getD 0 else BitVec.ofNat 4 (k / 16)
    if k % 4 = 2 || 4 ≤ k % 8 then c.finishAsk p.line p.dst .m (own ||| p.mask) true
    else c.setAsking p.line p.dst (some (k + 8))

/-! ## Replies at the home -/

/-- An eviction has all its replies: the home drops its own copy and frees the entry, and the request goes on (R302). -/
def evicted (c : Coh) (t : Transaction) (v : Nat) : Coh :=
  let own := ((c.held v (lineHome v)).map Prod.snd).getD 0
  let c := { ((c.drop v (lineHome v)).writeBack v own) with
    filter := c.filter.filter (· != v), owner := c.owner.del v, sharers := c.sharers.del v,
    busy := c.busy.map (fun (u : Transaction) => if u.line = t.line then { t with evict := none, waits := [] } else u) }
  (c.serve { t with evict := none, waits := [] }).retryQueued

/-- A reply of a holder counts for the transaction that waits for it. -/
def takeReply (p : Packet) (c : Coh) : Coh :=
  match c.busy.find? (fun t => t.evict == some p.line && t.waits.contains p.src) with
  | some t =>
    let t' := { t with waits := t.waits.filter (· != p.src) }
    if t'.waits.isEmpty then c.evicted t' p.line else c.setBusy t'
  | none =>
    match c.busy.find? (fun t => t.line == p.line && t.evict.isNone) with
    | none => c
    | some t => c.answer { t with waits := t.waits.filter (· != p.src), mask := t.mask ||| p.mask }

/-- GONE: the holder had sent WB or EVC before; a forward that it cannot serve is served from memory. -/
def takeGone (p : Packet) (c : Coh) : Coh :=
  match c.busy.find? (fun t => t.line == p.line && t.evict.isNone && t.fwd == some p.src) with
  | some t =>
    -- a grant sent before stands, and the line follows it from memory
    c.answer { t with fwd := none, granted := false }
  | none => c.takeReply p

/-- WB and EVC: the home writes the sectors to memory; an answer to BINV counts as a reply; an eviction makes the directory forget the holder. -/
def takeWriteBack (p : Packet) (c : Coh) : Coh :=
  let c := c.writeBack p.line p.mask
  if p.req = 1 then c.takeReply p else (c.forget p.line p.src).retryQueued

/-- A copy that may be evicted, dirty or clean. -/
def mayEvict (c : Coh) (m : Packet) (dirty : Bool) : Bool :=
  m.dst == lineHome m.line && (c.asking m.line m.src).isNone && (match c.held m.line m.src with
    | some (_, k) => (k != 0) == dirty
    | none => false)

/-- The directory lists a sharer. -/
def addSharers (c : Coh) (line : Nat) (ds : List Nat) : Coh :=
  { c with sharers := c.sharers.put line (ds ++ (c.sharersOf line).filter (fun d => !ds.contains d)) }

/-- The directory after a transaction (R300). -/
def directory (c : Coh) (t : Transaction) (dirty : Bool) : Coh :=
  if t.kind = 0 ∧ t.fwd.isSome then
    match (c.owner.get? t.line).filter (· != t.req) with
    | some x => if dirty then c.addSharers t.line [t.req] else { c with owner := c.owner.del t.line }.addSharers t.line [t.req, x]
    | none => c.addSharers t.line [t.req]
  else if t.kind = 0 ∧ t.shared then c.addSharers t.line [t.req]
  else { c with owner := c.owner.put t.line t.req, sharers := c.sharers.put t.line [] }

/-- DONE: the transaction ends, its line is the most recently used of its set, and what waited for it begins. -/
def takeDone (p : Packet) (c : Coh) : Coh :=
  match c.busy.find? (fun t => t.line == p.line && t.req == p.src) with
  | none => c
  | some t =>
    let c := ({ c with busy := c.busy.filter (fun u => u.line != t.line) }).directory t p.dirty
    let tracked := (c.holders t.line).any (· != lineHome t.line)
    (if tracked then c.touch t.line else { c with filter := c.filter.filter (· != t.line) }).retryQueued

/-! ## Accesses of a die to its lines (R289, R290) -/


/-- The line may be granted by the home to its own die without a message: nothing of it is in progress or waits. -/
def quiet (c : Coh) (line die : Nat) (kind : Nat) : Bool := lineHome line == die && !c.mustQueue line kind && (c.asking line die).isNone

/-- A die holds a line as an access needs it. -/
def has (c : Coh) (line die : Nat) (excl : Bool) : Bool :=
  match c.held line die with
  | some (x, _) => !excl || x == .m
  | none => false

/-- An access of a die goes on at once: it holds the line as the access needs it, or its home, which is the die itself, grants it with no other die to ask. -/
def grab (c : Coh) (line die : Nat) (excl : Bool) : Option Coh :=
  let others := (c.holders line).filter (· != die)
  match c.held line die with
  | some (x, k) =>
    if !excl || x = .m then some c
    else if x = .e then some (c.setHeld line die .m k)
    else if c.quiet line die 2 && others.isEmpty then some { c.setHeld line die .m k with owner := c.owner.put line die, sharers := c.sharers.put line [] }
    else none
  | none =>
    let r := c.makeRoom line die
    if !c.quiet line die (if excl then 1 else 0) || !r.hasRoom line die then none
    else if others.isEmpty then some ({ r.install line die (if excl then .m else .e) 0 with owner := r.owner.put line die, sharers := r.sharers.put line [] }.fromMemory line)
    else if !excl && (c.owner.get? line).isNone then
      some ({ r.install line die .s 0 with sharers := r.sharers.put line (die :: r.sharersOf line) }.fromMemory line |>.touch line)
    else none

/-- An agent waits for a line: its die asks for it unless it has asked already. -/
def request (c : Coh) (p : Path) (line die : Nat) (excl : Bool) : Coh :=
  let w : Want := { path := p, die := die, line := line, excl := excl, got := false }
  let c := if c.wants.any (fun x => x.path == p && x.line == line && x.excl == excl) then c else { c with wants := c.wants ++ [w] }
  if (c.asking line die).isSome || !(c.makeRoom line die).hasRoom line die then c
  else
    let kind := if excl then (if (c.held line die).isSome then 2 else 1) else 0
    ask kind (if kind = 0 then .rds else if kind = 1 then .rdx else .upg) (packet line die (lineHome line)) c

/-- The line has come for an access that waited, though another die may have taken it since. -/
def came (c : Coh) (p : Path) (line : Nat) : Bool := c.wants.any (fun w => w.path == p && w.line == line && w.got)

/-- Every line that an access needs: the state once those that can be had are had and the others asked for, and whether it may perform.  A plain read may have read a line that has gone again; another holds all its lines as it performs (R289, R290). -/
def reach (c : Coh) (p : Path) (die : Nat) (use : LineUse) (lines : List Nat) : Coh × Bool :=
  let r := lines.foldl (fun (r : Coh × Bool) l =>
    match r.1.grab l die use.excl with
    | some c' => (c', r.2)
    | none => if use = .plain && r.1.came p l then r else (r.1.request p l die use.excl, false)) (c, true)
  (r.1, r.2 && (use = .plain || lines.all (fun l => r.1.has l die use.excl)))

/-- A write that the home performs itself, of a line that takes part in nothing: every copy leaves first, and memory takes its sectors. -/
def recallAll (c : Coh) (line : Nat) : Coh :=
  let c := (List.range 5).foldl (fun (c : Coh) d => ((c.lost line d).writeBack line (((c.held line d).map Prod.snd).getD 0)).forget line d) c
  { c with owner := c.owner.del line, sharers := c.sharers.del line, filter := c.filter.filter (· != line) }

/-- An access has performed: it waits for its lines no more. -/
def served (c : Coh) (p : Path) (lines : List Nat) : Coh := { c with wants := c.wants.filter (fun w => !(w.path == p && lines.contains w.line)) }

/-- The bytes of the data beats of messages just sent. -/
def fill (c : Coh) (bytes : Nat → Nat → List Byte) : Coh :=
  { c with net := c.net.map (fun e =>
      if !e.2.data.isEmpty then e
      else match e.1 with
        | .data => (e.1, { e.2 with data := bytes (256 * e.2.line) 256 })
        | .wb => (e.1, { e.2 with data := (List.range 4).flatMap (fun k => if e.2.mask.getLsbD k then bytes (256 * e.2.line + 64 * k) 64 else []) })
        | _ => e) }

end Coh

end Sys2Proof.Machine
end

