-- ==== Sys2Proof/Machine/Mem.lean ====
section
/-! DEFINITION. Addresses, translation, and reads and writes of global memory by the agents of the package. -/

namespace Sys2Proof.Machine

/-! ## Numbers of dies, cores and team slots -/

/-- Team key 32 core + slot, core key 96 die + core. -/
def coreOf (t : Nat) : Nat := t / 32
def slotOf (t : Nat) : Nat := t % 32
def dieOf (c : Nat) : Nat := c / 96

/-- Core 0 of each die runs firmware, in F-mode only (R326, R358). -/
def fMode (c : Nat) : Bool := c % 96 == 0

/-! ## Canonical addresses -/

/-- Bits [63:57] all equal bit 56 (R172). -/
def canonical (a : W64) : Bool := a == (a.setWidth 57).signExtend 64

/-- Every byte of an access, computed modulo 2^64, is canonical, and no access crosses the top of either half (R172). -/
def canonicalRun (a : W64) (n : Nat) : Bool :=
  n == 0 || (canonical a && canonical (a + BitVec.ofNat 64 (n - 1)) && decide (a.toNat + n ≤ 2 ^ 64)
    && (a.getLsbD 56 == (a + BitVec.ofNat 64 (n - 1)).getLsbD 56))

/-! ## Physical ranges -/

/-- The home die of a physical address, if it lies in a range of R159. -/
def homeDie (s : State) (pa : Nat) : Option Nat :=
  if pa < 0x10000000000 then
    let d := pa / 0x4000000000
    if pa % 0x4000000000 < 0x3000000000 then some d else none
  else
    let x := pa - 0x10000000000
    let d := x / 0x80000000
    if d < 4 ∧ x % 0x80000000 / 0x4000000 < (s.die d).carved then some d else none

/-- A physical address lies in a device page of a protected context other than x (R340). -/
def barred (s : State) (x : Option Nat) (pa : Nat) : Bool :=
  s.ctxs.any (fun c => c.2.prot && !c.2.dead && some c.1 != x && Config.devicePage c.1 (pa / 4096))

/-! ## Sv57 (R169, R19; bit places log 4) -/

/-- What an access needs of a leaf. -/
inductive Need where
  | read | write | exec
  deriving DecidableEq, Repr

namespace Pte

def bit (p : W64) (n : Nat) : Bool := p.getLsbD n
def valid (p : W64) : Bool := bit p 0
def leaf (p : W64) : Bool := bit p 1 || bit p 3
def tag (p : W64) : Nat := (p.extractLsb' 54 4).toNat
def frame (p : W64) : Nat := (p.extractLsb' 10 44).toNat * 4096

/-- An entry of a page table is malformed with W and not R, with bits above the tag, or with a tag on a non-leaf entry (R19). -/
def malformed (p : W64) : Bool :=
  (bit p 2 && !bit p 1) || p.extractLsb' 58 6 != 0 || (!leaf p && tag p != 0)

/-- A user access of this kind is permitted: U and A, R for reads, W and D for writes, X and the Darion tag for code (R19, R169). -/
def allows (p : W64) : Need → Bool
  | .read => bit p 4 && bit p 6 && bit p 1
  | .write => bit p 4 && bit p 6 && bit p 2 && bit p 7
  | .exec => bit p 4 && bit p 6 && bit p 3 && tag p == 2

end Pte

/-- A walk from a table at level l down: the level and the leaf. -/
def walkFrom (s : State) (va : W64) : Nat → Nat → Option (Nat × W64)
  | l, table =>
    let p : W64 := BitVec.ofNat 64 (readNat s (table + 8 * ((va.toNat >>> (12 + 9 * l)) % 512)) 8)
    if !Pte.valid p || Pte.malformed p then none
    else if Pte.leaf p then (if (Pte.frame p) % 2 ^ (12 + 9 * l) = 0 then some (l, p) else none)
    else match l with
      | 0 => none
      | l' + 1 => walkFrom s va l' (Pte.frame p)

/-- The translation a walk gives: a leaf above 1 GiB is held as the 1 GiB piece that the access falls in (R170). -/
def walk (s : State) (asid : Nat) (root va : W64) : Option TlbEntry :=
  match walkFrom s va 4 (root.toNat / 4096 * 4096) with
  | none => none
  | some (l, p) =>
    let k := min (12 + 9 * l) 30
    some { asid := asid, glob := Pte.bit p 5, page := va.toNat / 2 ^ k * 2 ^ k, size := 2 ^ k,
           pa := Pte.frame p + (va.toNat / 2 ^ k * 2 ^ k) % 2 ^ (12 + 9 * l), pte := p }

/-- An entry translates an address for an ASID (R169). -/
def TlbEntry.hits (e : TlbEntry) (asid : Nat) (va : W64) : Bool :=
  (e.glob || e.asid == asid) && decide (e.page ≤ va.toNat) && decide (va.toNat < e.page + e.size)

/-- Who translates: a core, with the address space of a context. -/
structure Space where
  core : Nat
  ctx : Nat
  asid : Nat
  root : W64
  deriving DecidableEq, Repr

/-- The translation an access uses: what a TLB holds, or the walk; where the two differ, either (R294). -/
def lookup (s : State) (sp : Space) (va : W64) : Option TlbEntry :=
  let held := ((s.core sp.core).tlb ++ (s.die (dieOf sp.core)).tlb).find? (fun e => e.hits sp.asid va)
  let fresh := walk s sp.asid sp.root va
  match held with
  | none => fresh
  | some h => if fresh = some h then fresh else if Config.usesHeld s.clock (va.toNat / 4096) then some h else fresh

/-- A physical address lies in a range, and in no device page of another context; firmware reaches every page (R159, R340). -/
def Space.reaches (s : State) (sp : Space) (pa : Nat) : Bool := (homeDie s pa).isSome && (fMode sp.core || !barred s (some sp.ctx) pa)

/-- The physical address of one page's access, where the leaf permits it and the address may be reached (R159, R169, R340). -/
def xlateByte (s : State) (sp : Space) (need : Need) (va : W64) : Option (Nat × TlbEntry) :=
  match lookup s sp va with
  | none => none
  | some e =>
    let pa := e.pa + (va.toNat - e.page)
    if Pte.allows e.pte need && sp.reaches s pa then some (pa, e) else none

/-- The 4 KiB pages of a run of bytes: address and length of each piece. -/
def pieces : Nat → W64 → Nat → List (W64 × Nat)
  | 0, _, _ => []
  | fuel + 1, a, n =>
    if n = 0 then []
    else
      let k := min n (4096 - a.toNat % 4096)
      (a, k) :: pieces fuel (a + BitVec.ofNat 64 k) (n - k)

/-- The pieces of an access of n bytes. -/
def pagesOf (a : W64) (n : Nat) : List (W64 × Nat) := pieces (n / 4096 + 2) a n

/-- A run of bytes translated: physical pieces and the entries used. -/
structure Run where
  parts : List (Nat × Nat)
  used : List TlbEntry
  deriving DecidableEq, Repr

/-- Translate every page of a run before any byte is performed (R171); on failure, the first failing page's first address. -/
def xlate (s : State) (sp : Space) (need : Need) : List (W64 × Nat) → Except W64 Run
  | [] => .ok { parts := [], used := [] }
  | (a, n) :: ps =>
    match xlateByte s sp need a with
    | none => .error a
    | some (pa, e) =>
      match xlate s sp need ps with
      | .error x => .error x
      | .ok r => .ok { parts := (pa, n) :: r.parts, used := e :: r.used }

/-- Entries kept within a number of entries, of which `big` at most hold 1 GiB pages, the newest first. -/
def tlbFit : Nat → Nat → List TlbEntry → List TlbEntry
  | _, _, [] => []
  | 0, _, _ => []
  | n + 1, big, e :: es =>
    if e.size = 2 ^ 30 then (match big with
      | 0 => tlbFit (n + 1) 0 es
      | b + 1 => e :: tlbFit n b es)
    else e :: tlbFit n big es

/-- TLBs after a translation: an entry used is held by the core's L1 TLB and the die TLB, up to their sizes (R170; which entry gives way, log 31). -/
def tlbAdd (cap big : Nat) (es held : List TlbEntry) : List TlbEntry :=
  tlbFit cap big ((es.filter (fun e => !held.contains e)).eraseDups ++ held)

/-- Record the entries an access used (R170). -/
def noteTlb (sp : Space) (es : List TlbEntry) : Prog :=
  .get fun s =>
    if es.all (fun e => (s.core sp.core).tlb.contains e && (s.die (dieOf sp.core)).tlb.contains e) then .ret
    else .all [ .one (.core sp.core (fun c => { c with tlb := tlbAdd 128 128 es c.tlb })),
                .one (.die (dieOf sp.core) (fun d => { d with tlb := tlbAdd 8192 256 es d.tlb })) ]

/-! ## L1 (R164) -/

/-- Lines of 256 bytes held in L1, of 64 sets of 16 ways, most recently used first (set index and order log 31). -/
def l1Fit (l : List (Nat × BitVec 64 × BitVec 64)) : List (Nat × BitVec 64 × BitVec 64) :=
  l.foldl (fun acc e => if (acc.filter (fun x => x.1 % 64 == e.1 % 64)).length < 16 then acc ++ [e] else acc) []

/-- A line as an L1 holds it: its valid words, and those that the core owns. -/
def l1Line (l : List (Nat × BitVec 64 × BitVec 64)) (line : Nat) : BitVec 64 × BitVec 64 := ((l.find? (fun e => e.1 == line)).map Prod.snd).getD (0, 0)

/-- A line becomes the most recently used, with these words. -/
def l1Put (l : List (Nat × BitVec 64 × BitVec 64)) (line : Nat) (x : BitVec 64 × BitVec 64) : List (Nat × BitVec 64 × BitVec 64) :=
  (line, x) :: l.filter (fun e => e.1 != line)

/-- A word is read: where it is not valid, its 64-byte sector is fetched. -/
def l1Read (l : List (Nat × BitVec 64 × BitVec 64)) (w : Nat) : List (Nat × BitVec 64 × BitVec 64) :=
  let x := l1Line l (w / 64)
  l1Put l (w / 64) (if x.1.getLsbD (w % 64) then x else (x.1 ||| (0xFFFF <<< (w % 64 / 16 * 16)), x.2))

/-- A word is stored: it is valid, and owned once its write has been performed (R288). -/
def l1Store (owned : Bool) (l : List (Nat × BitVec 64 × BitVec 64)) (w : Nat) : List (Nat × BitVec 64 × BitVec 64) :=
  let x := l1Line l (w / 64)
  l1Put l (w / 64) (x.1 ||| (1 <<< (w % 64)), if owned then x.2 ||| (1 <<< (w % 64)) else x.2)

/-- Ownership of a word moves away; the word stays as a valid copy (R288). -/
def l1Lose (l : List (Nat × BitVec 64 × BitVec 64)) (w : Nat) : List (Nat × BitVec 64 × BitVec 64) :=
  l.map (fun e => if e.1 = w / 64 then (e.1, e.2.1, e.2.2 &&& ~~~((1 : BitVec 64) <<< (w % 64))) else e)

/-- An acquire drops every valid word that the core does not own (R288). -/
def l1Acquire (l : List (Nat × BitVec 64 × BitVec 64)) : List (Nat × BitVec 64 × BitVec 64) :=
  (l.map (fun e => (e.1, e.2.2, e.2.2))).filter (fun e => e.2.1 != 0)

/-- A word of physical memory is valid in a core's L1. -/
def inL1 (s : State) (core w : Nat) : Bool := (l1Line (s.core core).l1 (w / 64)).1.getLsbD (w % 64)

/-- The words of physical pieces. -/
def wordsOfRun (parts : List (Nat × Nat)) : List Nat := parts.flatMap (fun x => Place.phys.words x.1 x.2)

/-- The sectors that a run of physical pieces touches. -/
def sectorsOfRun (parts : List (Nat × Nat)) : List Nat := (parts.flatMap (fun r => sectorsOf r.1 r.2)).eraseDups

/-- The lines that a run of physical pieces touches. -/
def linesOf (parts : List (Nat × Nat)) : List Nat := ((sectorsOfRun parts).map (· / 4)).eraseDups

/-- Words pass through the L1 of a team's core. -/
def throughL1 (f : List (Nat × BitVec 64 × BitVec 64) → Nat → List (Nat × BitVec 64 × BitVec 64)) (p : Path) (ws : List Nat) : Prog :=
  match p with
  | .team t => .when (!ws.isEmpty) (.one (.core (t / 32) (fun c => { c with l1 := l1Fit (ws.foldl f c.l1) })))
  | _ => .ret

/-- A team's plain reads go through its core's L1. -/
def noteL1 (p : Path) (parts : List (Nat × Nat)) : Prog := throughL1 l1Read p (wordsOfRun parts)

/-- The words that a team's stores cover whole are valid in its core's L1 before they are performed. -/
def storeL1 (p : Path) (parts : List (Nat × Nat)) : Prog :=
  throughL1 (l1Store false) p ((wordsOfRun parts).filter (fun w => parts.any (fun x => decide (x.1 ≤ 4 * w) && decide (4 * w + 4 ≤ x.1 + x.2))))

/-- A performed write: its words are owned by the writing team's core, and by no other (R288). -/
def ownWords (p : Path) (pa n : Nat) : Prog :=
  .get fun s =>
    let ws := Place.phys.words pa n
    let writer := match p with
      | .team t => some (t / 32)
      | _ => none
    .all [ .each (s.cores.filter (fun c => some c.1 != writer && ws.any (fun w => (l1Line c.2.l1 (w / 64)).2.getLsbD (w % 64))))
             (fun c => .one (.core c.1 (fun x => { x with l1 := ws.foldl l1Lose x.l1 }))),
           throughL1 (l1Store true) p ws ]

/-- A die's cores drop a line from their L1s. -/
def dropL1 (die line : Nat) : Prog :=
  .get fun s => .each (s.cores.filter (fun c => c.1 / 96 == die && c.2.l1.any (fun e => e.1 == line)))
    (fun c => .one (.core c.1 (fun x => { x with l1 := x.l1.filter (fun e => e.1 != line) })))

/-! ## Reads under the memory order (R284, R288) -/

/-- A plain read of an agent may not read past a record: it sees it, or it is a write of path L or H and the read does not find the word in its core's L1 (R288). -/
def mustSee (s : State) (p : Path) (h : HistWord) : Bool :=
  h.visible p || (h.path.coherent && match p with
    | .team t | .lanes t => decide (h.word < 2 ^ 48) && !inL1 s (t / 32) h.word
    | _ => false)

/-- The records of a word that a plain read may step back over, newest first. -/
def unseen (s : State) (p : Path) (word : Nat) : List HistWord :=
  (s.hist.filter (fun h => h.word == word)).takeWhile (fun h => !mustSee s p h)

/-- The number of unseen writes that a plain read steps back over: any, by free values. -/
def stepsBack (s : State) (word nth : Nat) : Nat → Nat
  | 0 => 0
  | n + 1 => if Config.readsOld s.clock word nth n then 1 + stepsBack s word nth n else 0

/-- A word as an agent's nth plain read of a step finds it: the newest write, or an older one that it has not seen replaced (R284, R288). -/
def wordSeen (s : State) (p : Path) (nth word : Nat) (now : W32) : W32 :=
  let us := unseen s p word
  match stepsBack s word nth us.length with
  | 0 => now
  | k + 1 => ((us[k]?).map HistWord.old).getD now

/-- A byte of a place as a plain read finds it. -/
def byteSeenNth (s : State) (p : Path) (nth : Nat) (x : Place) (a : Nat) : Byte :=
  (wordSeen s p nth (x.word a) (BitVec.ofNat 32 (leNat (readPlace s x (4 * (a / 4)) 4)))).extractLsb' (8 * (a % 4)) 8

/-- Who writes what an agent finds unperformed in its core's L1: the agent, for a lane queue its team. -/
def Path.owner : Path → Path
  | .lanes t => .team t
  | p => p

/-- The new page of a page under migration (R174). -/
def lockedTo (s : State) (pa : Nat) : Option Nat := (s.pkg.locks.find? (fun l => l.1 == pa / 4096)).map Prod.snd

/-- Where a byte of a page under migration will lie. -/
def redirect (s : State) (pa : Nat) : Nat :=
  match lockedTo s pa with
  | some new => 4096 * new + pa % 4096
  | none => pa

/-- A byte of an agent's own last write to it that is not performed yet, which its core's L1 holds (R288). -/
def ownByte (s : State) (p : Path) (x : Place) (a : Nat) : Option Byte :=
  let at' := fun b => if x = .phys then redirect s b else b
  (s.pkg.stalled.reverse.find? (fun e => e.path == p.owner && e.place == x && !e.rmw && decide (at' e.pa ≤ at' a) && decide (at' a < at' e.pa + e.bytes.length))).map
    (fun e => e.bytes.getD (at' a - at' e.pa) 0)

/-- Bytes of a place as plain reads find them, word by word (R177): an agent's own unperformed writes first. -/
def placeSeenNth (s : State) (p : Path) (nth : Nat) (x : Place) (a n : Nat) : List Byte :=
  if s.hist.isEmpty && s.pkg.stalled.isEmpty then readPlace s x a n
  else (List.range n).map (fun i => (ownByte s p x (a + i)).getD (byteSeenNth s p nth x (a + i)))

def placeSeen (s : State) (p : Path) (x : Place) (a n : Nat) : List Byte := placeSeenNth s p 0 x a n

/-- Bytes of physical memory as plain reads find them. -/
def bytesSeen (s : State) (p : Path) (pa n : Nat) : List Byte := placeSeen s p .phys pa n

/-- The records after an agent's read of a word that found it with `skip` later writes unseen: it reads no earlier one (R284). -/
def markRead (p : Path) (word : Nat) : Nat → List HistWord → List HistWord
  | _, [] => []
  | skip, h :: hs =>
    if h.word != word then h :: markRead p word skip hs
    else match skip with
      | k + 1 => h :: markRead p word k hs
      | 0 => (if h.visible p then h else { h with seen := p :: h.seen }) :: markRead p word 0 hs

/-- Note plain reads of words, each with its number among the reads of the step: an agent `p` has read what `r` may see.  One with nothing unseen changes nothing. -/
def noteReads (r p : Path) (ws : List (Nat × Nat)) : Prog :=
  .get fun s =>
    let ws := ws.filter (fun w => s.hist.any (fun h => h.word == w.1 && !h.visible p))
    if ws.isEmpty then .ret
    else .one (.hist (fun hs => ws.foldl (fun hs w => markRead p w.1 (stepsBack s w.1 w.2 (unseen s r w.1).length) hs) hs))

/-- Note a plain read of words. -/
def noteWords (p : Path) (ws : List Nat) : Prog := noteReads p p (ws.map (fun w => (w, 0)))

def noteRead (p : Path) (parts : List (Nat × Nat)) : Prog := noteWords p (wordsOfRun parts)

/-! ## Acquires and releases (R280 to R283, R288, R293) -/

/-- The engines that act for a team. -/
def enginesOf (s : State) (p : Path) : List Path :=
  match p with
  | .team t => [.matrix t, .copy (s.team t).blk]
  | _ => []

/-- An agent may read no value older than a record. -/
def HistWord.show (h : HistWord) (ps : List Path) : HistWord := { h with seen := ps.filter (fun p => !h.visible p) ++ h.seen }

/-- A record is ordered before an agent's later accesses of path L. -/
def HistWord.order (h : HistWord) (p : Path) : HistWord :=
  { (h.show [p]) with ord := if h.ord.contains p then h.ord else p :: h.ord }

/-- An agent joins a list. -/
def joinPath (c : Bool) (p : Path) (ps : List Path) : List Path := if c && !ps.contains p then p :: ps else ps

/-- What an acquire takes over from the releases before it, besides the order of path L: on which further paths the write is ordered, and that it happens before the agent; a matrix write that does is seen by the agent's own matrix instructions, which are on its path (R282, R293). -/
def HistWord.follow (h : HistWord) (p : Path) (eng : List Path) : HistWord :=
  let h := { h with ordM := joinPath h.pubM p h.ordM, ordC := joinPath h.pubC p h.ordC, raw := joinPath h.hb p h.raw }
  let matrix := match h.path with
    | .matrix _ => h.hb
    | _ => h.pubM
  let h := if matrix then h.show (eng.filter (fun e => match e with | .matrix _ => true | _ => false)) else h
  if h.cover then h.show eng else h

/-- An acquire of an agent that reads some words: it sees every performed write of path L or H, the writes of the engines that a release has carried on, the role writes of the words it reads, and behind a mailbox's READY all of the mailbox; what a completion store covers is seen on every path (R57, R288, R293). -/
def acquired (p : Path) (eng : List Path) (ws : List Nat) (hs : List HistWord) : List HistWord :=
  let mails := (hs.filter (fun h => h.role && ws.contains h.word)).map HistWord.path
  hs.map (fun h =>
    let mail := match h.path with
      | .mail _ => mails.contains h.path
      | _ => false
    (if h.path.coherent || h.pub || (h.role && ws.contains h.word) || mail then h.order p else h).follow p eng)

/-- An acquire; the core's L1 drops the words that it does not own (R288). -/
def noteAcquire (p : Path) (ws : List Nat) : Prog :=
  .get fun s =>
    .all [ .when (!s.hist.isEmpty) (.one (.hist (acquired p (enginesOf s p) ws))),
           (match p with
            | .team t | .lanes t => .when (!(s.core (t / 32)).l1.isEmpty) (.one (.core (t / 32) (fun c => { c with l1 := l1Acquire c.l1 })))
            | _ => .ret) ]

/-- A release of an agent carries on what is ordered before its accesses, on which paths, and what happens before it. -/
def released (p : Path) (hs : List HistWord) : List HistWord :=
  hs.map (fun h =>
    let saw := match p with
      | .team t | .lanes t => h.obs.contains t
      | _ => false
    let l := knows h.ord p
    { h with pub := h.pub || l, pubM := h.pubM || (l && knows h.ordM p), pubC := h.pubC || (l && knows h.ordC p), hb := h.hb || l || saw || knows h.raw p })

def noteRelease (p : Path) : Prog := .get fun s => .when (!s.hist.isEmpty) (.one (.hist (released p)))

/-! ## Lines (R289, R290) -/

/-- The messages just sent have their data, and the memory-side caches keep within their sizes (R168, R299). -/
def State.filled (s : State) (c : Coh) : Coh := (c.fill (fun a n => readBytes s a n)).crustFit (fun d => (s.die d).carved)

/-- An access that needs lines goes on once its die holds them, in M where it writes; else the die asks for them and the access waits. -/
def needLines (p : Path) (use : LineUse) (lines : List Nat) (k wait : Prog) : Prog :=
  .get fun s =>
    let d := pathDie s p
    if lines.isEmpty then k
    else if (s.coh.reach p d use lines).2 then .upd (.coh (fun c => s.filled ((c.reach p d use lines).1.served p lines))) k
    else .upd (.coh (fun c => s.filled (c.reach p d use lines).1)) wait

/-- The lines that a plain read must fetch: those with words that it does not find in its core's L1. -/
def missing (s : State) (p : Path) (parts : List (Nat × Nat)) : List Nat :=
  match p with
  | .team t => (((wordsOfRun parts).filter (fun w => !inL1 s (t / 32) w)).map (· / 64)).eraseDups
  | _ => linesOf parts

/-! ## Accesses by the device's own agents -/

/-- The address space of a context as a die's agents see it. -/
def ctxSpace (s : State) (x core : Nat) : Space := { core := core, ctx := x, asid := (s.ctx x).asid, root := (s.ctx x).root }

/-- Translation by the walker alone, for the front ends, firmware and the distributor. -/
def walkRun (s : State) (x : Nat) (need : Need) : List (W64 × Nat) → Except W64 (List (Nat × Nat))
  | [] => .ok []
  | (a, n) :: ps =>
    match walk s (s.ctx x).asid (s.ctx x).root a with
    | none => .error a
    | some e =>
      let pa := e.pa + (a.toNat - e.page)
      if Pte.allows e.pte need && (homeDie s pa).isSome && !barred s (some x) pa then
        match walkRun s x need ps with
        | .error x => .error x
        | .ok r => .ok ((pa, n) :: r)
      else .error a

/-- The physical pieces of a context's run of bytes; a run that is not canonical fails at its first address. -/
def ctxRun (s : State) (x : Nat) (need : Need) (a : W64) (n : Nat) : Except W64 (List (Nat × Nat)) :=
  if canonicalRun a n then walkRun s x need (pagesOf a n) else .error a

/-! ## Writes -/

/-- A write of an agent: its path, the block and the slots whose signals cover it, whether it has a role, the lane batch that makes it, and whether the access has its lines and its turn already. -/
structure Writer where
  path : Path
  blk : Nat := 0
  slots : List Nat := []
  role : Bool := false
  lane : Option Nat := none
  sure : Bool := false

/-- Two runs of bytes of one place touch a common word, on a migrating page where it will lie. -/
def overlap (s : State) (x : Place) (a n : Nat) (e : Stalled) : Bool :=
  let at' := fun b => if x = .phys then redirect s b else b
  e.place == x && (x.words (at' e.pa) e.bytes.length).any (fun w => (x.words (at' a) n).contains w)

/-- Some write of an agent is not performed yet (R174, R288). -/
def pathStalls (s : State) (p : Path) : Bool := s.pkg.stalled.any (fun e => e.path == p)

/-- Some scalar write of an agent is not performed yet: what a scalar release or fence waits for (R179, R234). -/
def scalarStalls (s : State) (p : Path) : Bool := s.pkg.stalled.any (fun e => e.path == p && e.lane.isNone && !e.rmw)

/-- Some write of an agent's lane batch is not performed yet (R85). -/
def laneStalls (s : State) (p : Path) (batch : Nat) : Bool := s.pkg.stalled.any (fun e => e.path == p && e.lane == some batch)

/-- Some write of an agent to a word of a run is not performed yet: a read of the run waits for it (R174). -/
def wordStalls (s : State) (p : Path) (x : Place) (a n : Nat) : Bool := s.pkg.stalled.any (fun e => e.path == p && overlap s x a n e)

/-- A load of a team waits for its own write to a word of a run only where the write waits at its home: an atomic, or at a page under migration (R174); others it finds in its core's L1 (R288). -/
def loadStalls (s : State) (p : Path) (x : Place) (a n : Nat) : Bool :=
  s.pkg.stalled.any (fun e => e.path == p && (e.rmw || (e.place == .phys && (lockedTo s e.pa).isSome)) && overlap s x a n e)

/-- A read of these physical pieces must wait for the agent's own writes. -/
def readStalls (s : State) (p : Path) (parts : List (Nat × Nat)) : Bool := parts.any (fun r => wordStalls s p .phys r.1 r.2)

/-- A write reaches its home and is not performed yet. -/
def enqueueWrite (w : Writer) (x : Place) (a : Nat) (bs : List Byte) : Prog :=
  .one (.pkg (fun g => { g with stalled := g.stalled ++
    [{ path := w.path, blk := w.blk, slots := w.slots, role := w.role, lane := w.lane, place := x, pa := a, bytes := bs, rmw := false }] }))

/-- A write must stay behind: its step's writes are late, its page is under migration, an earlier write of its agent to the word is not performed, or it is a release behind the agent's writes. -/
def staysBehind (s : State) (w : Writer) (x : Place) (a n : Nat) : Bool :=
  (s.late && !w.role && w.path.coherent) || (x == .phys && (lockedTo s a).isSome)
    || wordStalls s w.path x a n || (w.role && pathStalls s w.path)

/-- The release of a write that no wait has made before is made as it is performed: a lane store's, a hart's or a peer's. -/
def Writer.release (w : Writer) : Prog :=
  if !w.role || w.sure then .ret
  else match w.path with
    | .team t => if w.lane.isSome then (noteRelease (.team t)).seq (noteRelease (.lanes t)) else .ret
    | .host h => noteRelease (.host h)
    | .peer p => noteRelease (.peer p)
    | _ => .ret

/-- A write is performed; one to physical memory moves the ownership of its words (R288). -/
def performWrite (w : Writer) (x : Place) (a : Nat) (bs : List Byte) : Prog :=
  .all [ w.release, .one (.store w.path x w.blk w.slots w.role w.lane a bs), if x = .phys then ownWords w.path a bs.length else .ret ]

/-- The home performs a write itself: every copy of its lines leaves first. -/
def homeWrite (w : Writer) (x : Place) (a : Nat) (bs : List Byte) : Prog :=
  (if x = .phys then Prog.one (.coh (fun c => (linesOf [(a, bs.length)]).foldl Coh.recallAll c)) else .ret).seq (performWrite w x a bs)

/-- Write bytes within one line: performed where the agent's die holds the line in M, else once it does (R288, R290). -/
def putLine (w : Writer) (x : Place) (a : Nat) (bs : List Byte) : Prog :=
  .get fun s =>
    if bs.isEmpty then .ret
    else if w.sure then performWrite w x a bs
    else if staysBehind s w x a bs.length then enqueueWrite w x a bs
    else if x = .phys then needLines w.path .write (linesOf [(a, bs.length)]) (performWrite w x a bs) (enqueueWrite w x a bs)
    else performWrite w x a bs

/-- The pieces of a run of bytes by line: address and bytes. -/
def linePieces : Nat → Nat → List Byte → List (Nat × List Byte)
  | 0, _, _ => []
  | fuel + 1, a, bs =>
    if bs.isEmpty then []
    else
      let k := 256 - a % 256
      (a, bs.take k) :: linePieces fuel (a + k) (bs.drop k)

/-- Write bytes of a place, then go on. -/
def putBytes (w : Writer) (x : Place) (a : Nat) (bs : List Byte) (k : Prog) : Prog :=
  (if x = .phys then Prog.each (linePieces (bs.length / 256 + 2) a bs) (fun r => putLine w x r.1 r.2) else putLine w x a bs).seq k

/-- Who makes a write that waits. -/
def Stalled.writer (e : Stalled) : Writer := { path := e.path, blk := e.blk, slots := e.slots, role := e.role, lane := e.lane }

/-- The context of a write's block is under a reset: the write is not performed any more (R343). -/
def underReset (s : State) (e : Stalled) : Bool := e.blk != 0 && (s.ctx (s.block e.blk).ctx).resetCode != 0

/-- A write that waits is performed, if nothing holds it back: no lock, no earlier write to the word, for a release no earlier write of its agent, and its line in M; under a reset of its context it is dropped.  `forced`: the home performs it itself, of a line that takes part in nothing. -/
def performEntry (forced : Bool) (e : Stalled) : Prog :=
  .get fun s =>
    let before := s.pkg.stalled.takeWhile (fun x => x != e)
    let held := e.rmw || (e.place == .phys && (lockedTo s e.pa).isSome) || before.any (overlap s e.place e.pa e.bytes.length)
      || (e.role && before.any (fun x => x.path == e.path))
    let leave := Prog.one (.pkg (fun g => { g with stalled := g.stalled.erase e }))
    let lines := linesOf [(e.pa, e.bytes.length)]
    if !s.pkg.stalled.contains e then .ret
    else if underReset s e then leave
    else if held then .ret
    else if e.place = .phys && forced && !lines.any s.coh.lineBusy then .all [ leave, homeWrite e.writer .phys e.pa e.bytes ]
    else if e.place = .phys then needLines e.path .write lines (.all [ leave, performWrite e.writer .phys e.pa e.bytes ]) .ret
    else .all [ leave, performWrite e.writer e.place e.pa e.bytes ]

/-- The writes that a migration holds back: to its page, behind one of those to the word, or a release behind one of its agent's (R174). -/
def heldBack (s : State) : List Stalled :=
  s.pkg.stalled.foldl (fun acc e =>
    if (e.place == .phys && (lockedTo s e.pa).isSome) || acc.any (fun x => overlap s e.place e.pa e.bytes.length x || (e.role && x.path == e.path)) then acc ++ [e] else acc) []

/-- A write to memory whose page is translated is still to be performed, and no migration holds it back (R294, R327). -/
def writesDue (s : State) : Bool := s.pkg.stalled.any (fun e => e.place == .phys && !(heldBack s).contains e)

/-- Write bytes over physical pieces. -/
def writeParts (w : Writer) : List (Nat × Nat) → List Byte → Prog
  | [], _ => .ret
  | (pa, n) :: ps, bs => putBytes w .phys pa (bs.take n) (writeParts w ps (bs.drop n))

/-- Some write to a run of physical pieces, whichever agent's, is not performed yet. -/
def anyStalls (s : State) (ps : List (Nat × Nat)) : Bool := ps.any (fun r => s.pkg.stalled.any (overlap s .phys r.1 r.2))

/-- A byte of physical memory with an agent's own writes that are not performed yet. -/
def byteOwn (s : State) (p : Path) (pa : Nat) : Byte := (ownByte s p .phys pa).getD (readByte s pa)

/-- Bytes a device agent reads with acquire, with its own writes to the context's memory in them. -/
def ctxBytes (s : State) (x : Nat) (a : W64) (n : Nat) : Except W64 (List Byte) :=
  match ctxRun s x .read a n with
  | .error e => .error e
  | .ok ps => .ok (if pathStalls s (.front x) then ps.flatMap (fun r => (List.range r.2).map (fun i => byteOwn s (.front x) (r.1 + i)))
      else ps.flatMap (fun r => readBytes s r.1 r.2))

/-- A little-endian number a device agent reads. -/
def ctxNat (s : State) (x : Nat) (a : W64) (n : Nat) : Except W64 Nat := (ctxBytes s x a n).map leNat

/-- An agent's write to a context's memory, plain or a release, or what follows where it faults. -/
def agentStore (p : Path) (role : Bool) (x : Nat) (a : W64) (bs : List Byte) (ok : Prog) (bad : W64 → Prog) : Prog :=
  .get fun s =>
    match ctxRun s x .write a bs.length with
    | .error e => bad e
    | .ok ps => (writeParts { path := p, role := role } ps bs).seq ok

/-- A write of the device's own agents. -/
def ctxStore (role : Bool) (x : Nat) (a : W64) (bs : List Byte) (ok : Prog) (bad : W64 → Prog) : Prog := agentStore (.front x) role x a bs ok bad

/-- The 64-bit and 32-bit little-endian bytes of a word. -/
def bytes8 (x : W64) : List Byte := leBytes 8 x.toNat
def bytes4 (x : Nat) : List Byte := leBytes 4 x
def bytes2 (x : Nat) : List Byte := leBytes 2 x

/-- A number out of a list of bytes, at an offset. -/
def field (bs : List Byte) (off n : Nat) : Nat := leNat ((bs.drop off).take n)
def field64 (bs : List Byte) (off : Nat) : W64 := BitVec.ofNat 64 (field bs off 8)

/-! ## Notifications (R38 to R40) -/

/-- A ring of records in a context's memory, as its descriptor gives it (R38).  `ok`: its reserved fields are zero, LOG2N lies from 4 to 20 and BASE is 32-byte aligned. -/
structure Desc where
  pidx : W64
  cidx : W64
  base : W64
  log2n : Nat
  ok : Bool
  deriving DecidableEq, Repr

/-- A descriptor out of its bytes; the reserved ones begin at `spare` (R6, R38). -/
def descOf (spare : Nat) (b : List Byte) : Desc :=
  let n := field b 24 4
  { pidx := field64 b 0, cidx := field64 b 8, base := field64 b 16, log2n := n % 32,
    ok := decide (4 ≤ n ∧ n ≤ 20) && decide (field b 28 4 ≤ 1) && field b 16 8 % 32 == 0 && field b spare (64 - spare) == 0 }

/-- The descriptor at an address, read with acquire. -/
def readDesc (s : State) (x : Nat) (a : W64) (spare : Nat := 32) : Except W64 Desc := (ctxBytes s x a 64).map (descOf spare)

def Desc.full (d : Desc) : Bool := d.pidx - d.cidx == BitVec.ofNat 64 (2 ^ d.log2n)

def Desc.slot (d : Desc) (size : Nat) : W64 := d.base + BitVec.ofNat 64 (size * (d.pidx.toNat % 2 ^ d.log2n))

/-- Firmware counts a posting that is dropped because an access faulted. -/
def countDrop : Prog := .one (.pkg (fun k => { k with dropped := k.dropped + 1 }))

/-- A posting is dropped: OVF is set where its store succeeds, and firmware counts it where an access faulted (R40). -/
def dropRecord (x : Nat) (a : W64) (counted : Bool) : Prog :=
  .all [ .when counted countDrop, ctxStore false x (a + 0x1C) (bytes4 1) .ret (fun _ => .when (!counted) countDrop) ]

/-- Post a record that carries its SEQ in its first 8 bytes (R40, R351): the slot, then PIDX + 1 with release.  `mk` makes the record from the SEQ.  An invalid descriptor drops it as a fault does (log 32). -/
def postRecord (x : Nat) (a : W64) (size : Nat) (mk : W64 → List Byte) : Prog :=
  .get fun s =>
    let q := BitVec.ofNat 64 s.seq
    .upd .drawSeq
      (match readDesc s x a with
       | .error _ => dropRecord x a true
       | .ok d =>
         if !d.ok then dropRecord x a true
         else if d.full then dropRecord x a false
         else ctxStore false x (d.slot size) (mk q)
           (ctxStore true x a (bytes8 (d.pidx + 1)) .ret (fun _ => dropRecord x a true))
           (fun _ => dropRecord x a true))

/-- The bytes of a notification record (R39). -/
def noteBytes (q : W64) (type code source : Nat) (info0 info1 : W64) : List Byte :=
  bytes8 q ++ bytes2 type ++ bytes2 code ++ bytes4 source ++ bytes8 info0 ++ bytes8 info1

/-- SOURCE (R39): the die, the queue context and the context ID. -/
def sourceOf (q x : Nat) : Nat := (q / 64 % 4) * 2 ^ 30 + (q % 64) * 2 ^ 24 + x % 2 ^ 24

/-- Post a notification to a queue's notification queue; a queue with NQ = 0 drops it and nothing else happens (R28). -/
def notify (q type code : Nat) (info0 info1 : W64) : Prog :=
  .get fun s =>
    let k := s.queue q
    if k.nq = 0 then .ret
    else postRecord k.ctx k.nq 32 (fun sq => noteBytes sq type code (sourceOf q k.ctx) info0 info1)

/-! ## FP events (R130 to R133) -/

/-- A count holds at 2^64 − 1 (R131). -/
def satAdd (a b : Nat) : Nat := min (a + b) (2 ^ 64 - 1)

/-- Add events to one count of a launch; the first add that reaches its threshold posts one FPEVENT (R133). -/
def addEvent (l n k : Nat) : Prog :=
  .get fun s =>
    let x := s.launch l
    let c := satAdd (x.fev.getD n 0) k
    let t := (x.thr.getD n 0).toNat
    .all [ .one (.launch l (fun y => { y with fev := y.fev.set n c })),
           .when (decide (t ≠ 0 ∧ t ≤ c ∧ n ∉ x.posted))
             (.all [ .one (.launch l (fun y => { y with posted := n :: y.posted })),
                     notify x.queue 4 n (BitVec.ofNat 64 c) x.tag ]) ]

/-- Events gathered by counter number (R64). -/
def gather (es : List Nat) : List (Nat × Nat) :=
  (List.range 28).filterMap (fun n => let k := es.count n; if k = 0 then none else some (n, k))

/-- Add events, by counter, to a launch. -/
def addEvents (l : Nat) (es : List (Nat × Nat)) : Prog := .each es (fun e => addEvent l e.1 e.2)

end Sys2Proof.Machine
end

