-- ==== Sys2Proof/Machine/Ops.lean ====
section
/-! DEFINITION. Named operations on registers and masks, the issue of a scalar instruction, and taking a trap. -/

namespace Sys2Proof.Machine

/-! ## Registers and masks -/

/-- The next lane instruction lies in a result's lookahead window (R88). -/
def PendLane.inWindow (p : PendLane) : Bool := p.before == 0 && decide (p.passed < p.window)

/-- A result's lookahead window is open, or will be. -/
def PendLane.stands (p : PendLane) : Bool := decide (p.passed < p.window)

/-- n lane instructions have been performed: those before the result first. -/
def PendLane.pass (p : PendLane) (n : Nat) : PendLane := { p with before := p.before - n, passed := p.passed + (n - p.before) }

/-- A result that has been written: it stands only for its window. -/
def PendLane.settled (p : PendLane) : PendLane := { p with vals := [], wrote := p.wrote ++ p.vals.map Prod.fst }

namespace Team

/-- g0 reads zero (R60). -/
def reg (t : Team) (r : GReg) : W64 := if r = 0 then 0 else t.g[r.toNat]

/-- A write to g0 is discarded (R60). -/
def setReg (t : Team) (r : GReg) (x : W64) : Team := if r = 0 then t else { t with g := t.g.set r.toNat x }

/-- The lane queue is held (R65, R84). -/
def held (t : Team) : Bool := t.tbatch.getLsbD 30

/-- Mask words of a team of width W (R61). -/
def words (t : Team) : Nat := (t.width + 31) / 32

/-- Mask bits of absent lanes stay zero (R61). -/
def setMask (t : Team) (m : LaneMask) : Team := { t with m := m &&& t.present }

/-- Mask word k; at or above the word count it reads zero (R61). -/
def maskWord (t : Team) (k : Nat) : W32 := if k < t.words then LaneMask.word t.m k else 0

/-- MSUM (R62, R89). -/
def msum (t : Team) : W32 :=
  BitVec.ofNat 32 ((List.range 32).foldl (fun a k => if LaneMask.word t.m k = 0 then a else a + 2 ^ k) 0)

/-- Lane register word of a lane; absent lanes and unwritten registers read zero. -/
def vreg (t : Team) (r l : Nat) : W32 := Sparse.get t.v (1024 * r + l)

/-- Registers that an outstanding batch will write (R86): results that wait for completion, and destinations of instructions not yet performed. -/
def laneDests (t : Team) : List GReg :=
  t.lanes.flatMap (fun b =>
    b.gw.map Prod.fst ++ b.left.filterMap (fun i =>
      match i.laneOp with
      | some (op, o) => if op = 0x102 ∨ op = 0x104 ∨ op = 0x105 then some (o.vd.setWidth 6) else none
      | none => none))

/-- Write a waiting result into the lane registers. -/
def settle (t : Team) (p : PendLane) : Team := { t with v := Sparse.setAll t.v p.vals }

/-- Every waiting result is written. -/
def settleAll (t : Team) : Team := { t.pend.foldl settle t with pend := (t.pend.filter PendLane.stands).map PendLane.settled }

/-- The windows of lookahead move on by n lane instructions; one that has closed over a written result goes. -/
def passBy (t : Team) (n : Nat) : Team :=
  { t with pend := (t.pend.map (fun p => p.pass n)).filter (fun p => p.stands || !p.vals.isEmpty) }

/-- The cursor record of the lane queue in the layout of TBATCH (R65): LIDX, LEFT, LATER and HELD. -/
def cursor (t : Team) (hold : Bool) : W64 :=
  match t.lanes.filter (fun b => !b.left.isEmpty) with
  | [] => 0
  | b :: bs =>
    BitVec.ofNat 64 (b.idx % 2 ^ 22 + 2 ^ 22 * (b.left.length % 16) + 2 ^ 26 * (bs.length % 16) + (if hold then 2 ^ 30 else 0))

end Team

/-! ## Issue of a scalar instruction -/

/-- The g registers a scalar instruction reads and writes, whether it runs in speculative mode (R91, R117), and whether its result is outstanding for a time: a load, an atomic, or a long operation of the divider (R91, R92, R272). -/
structure Use where
  reads : List GReg := []
  writes : List GReg := []
  spec : Bool := false
  long : Bool := false

namespace Team

/-- An instruction waits: for a lane result that will write its destination (R86), or for the end of a speculation that it may not join, or that has 32 instructions (R117, R272). -/
def mustWait (t : Team) (u : Use) : Bool :=
  u.writes.any (fun r => r != 0 && t.laneDests.contains r)
    || (match t.spec with
        | none => false
        | some p => !u.spec || decide (32 ≤ p.count))

/-- An instruction has completed: the PC moves, the registers it waited for have arrived (R91), and it counts toward the speculation's limit (R117).  The handler's returning transfer, the first after TCAUSE is 0, may go back to the PC where a PC-match register fired; the handlers of causes delivered before it return first; once the instruction there has issued, every fetch is matched again (R325). -/
def retire (t : Team) (u : Use) (pc : W64) : Team :=
  { t with
    pc := pc
    waiting := false
    sywb := none
    faultAt := none
    migr := none
    captured := none
    first := false
    yieldTo := []
    starved := false
    fired := match t.fired with
      | some (n, f, k + 1) => if t.tcause != 0 || pc == t.pc + 4 then t.fired else if 0 < k then some (n, f, k) else if pc = f then some (n, f, 0) else none
      | _ => none
    ahead := t.ahead.filter (fun w => w.pc != t.pc)
    await := t.await.filter (fun r => !(u.reads.contains r || u.writes.contains r)) ++ (if u.long then u.writes.filter (· != 0) else [])
    spec := t.spec.map (fun p => { p with count := p.count + 1 })
    trail := (t.pc :: t.trail).take 64 }

end Team

/-- The current team's part of a program. -/
def onTeam (k : Team → Prog) : Prog := .get fun s => k (s.team s.cur)

/-- A step of a team; none where there is no such team. -/
def ofTeam (t : Nat) (p : Prog) : Prog := .get fun s => .when (s.teams.get? t).isSome p

/-- Update the current team. -/
def setTeam (f : Team → Team) : Prog := .get fun s => .one (.team s.cur f)

/-- The instruction waits: nothing of it is visible, and the PC stands (R91, R232). -/
def waitHere : Prog := setTeam (fun t => { t with waiting := true })

/-- A scalar instruction, once nothing makes it wait. -/
def scalar (u : Use) (body : Team → Prog) : Prog := onTeam fun t => if t.mustWait u then waitHere else body t

/-- Complete with an update of the team, at the next word. -/
def finish (u : Use) (f : Team → Team) : Prog := setTeam (fun t => (f t).retire u (t.pc + 4))

/-- Complete with an update of the team, elsewhere. -/
def finishAt (u : Use) (pc : W64) (f : Team → Team) : Prog := setTeam (fun t => (f t).retire u pc)

/-! ## A team's block, launch and context -/

def State.blockOf (s : State) (t : Nat) : Block := s.block (s.team t).blk
def State.launchOf (s : State) (t : Nat) : Launch := s.launch (s.blockOf t).launch
def State.ctxIdOf (s : State) (t : Nat) : Nat :=
  if fMode (coreOf t) then (s.core (coreOf t)).fctx.toNat % 2 ^ 24 else (s.blockOf t).ctx
def State.ctxOf (s : State) (t : Nat) : Ctx := s.ctx (s.ctxIdOf t)

/-- The address space of a team's accesses; firmware's are those that FASID and FCTX select (R358). -/
def State.spaceOf (s : State) (t : Nat) : Space :=
  let c := coreOf t
  { core := c, ctx := s.ctxIdOf t, asid := if fMode c then (s.core c).fasid.toNat % 2 ^ 16 else (s.ctxOf t).asid, root := (s.ctxOf t).root }

/-! ## The register backing store (R49) -/

/-- A team's registers of the backing store as they stand in it. -/
def leaveBacking (store : Sparse 32) (t : Nat) (m : Team) (vregs : Nat) : Sparse 32 :=
  let n := 1024 * (vregs - m.pregs)
  Sparse.splice store (2 ^ 20 * t + 1024 * m.pregs) n (Sparse.slice m.v (1024 * m.pregs) n)

/-- The registers of a team that lie in the backing store are stored there (R49). -/
def syncBacking (t : Nat) : Prog :=
  .get fun s =>
    let m := s.team t
    let n := (s.launchOf t).hdr.vregs
    .when (m.pregs < n) (.one (.ctx (s.ctxIdOf t) (fun c => { c with backing := leaveBacking c.backing t m n })))

/-- The place that the model gives register r of team slot t in the backing store of a context, for its lines in L1: outside every physical range, since firmware assigns the region (log 15). -/
def backingAddr (x t r : Nat) : Nat := 2 ^ 60 + 2 ^ 44 * x + 4 * (2 ^ 20 * t + 1024 * r)

/-- A team's accesses to registers of the backing store go through its core's L1 (R49, R164). -/
def noteBacking (t : Nat) (rs : List Nat) : Prog :=
  .get fun s =>
    let m := s.team t
    noteL1 (.team t) ((rs.filter (fun r => decide (m.pregs ≤ r) && decide (r < (s.launchOf t).hdr.vregs))).map (fun r => (backingAddr (s.ctxIdOf t) t r, 4 * m.width)))

/-! ## Speculation ends other than by keep (R274) -/

/-- A team's speculative entries in the matrix queue. -/
def specEntries (s : State) (t : Nat) : List MatrixEntry :=
  (s.core (coreOf t)).queue.filter (fun e => e.team == t && e.spec)

/-- A trace record to a trace queue of a context (R351): its kind, cause and info, and the TEAMID, PC, BATCH and MSUM it names; none where no queue is registered. -/
def postTrace (x : Nat) (a : W64) (kind cause : Nat) (info : W64) (teamid : W32) (pc batch : W64) (msum : W32) : Prog :=
  if a = 0 then .ret
  else postRecord x a 64 (fun q =>
    bytes8 q ++ bytes2 kind ++ bytes2 cause ++ bytes4 teamid.toNat ++ bytes8 pc ++ bytes8 batch ++ bytes4 msum.toNat ++ bytes4 0 ++ bytes8 info ++ leBytes 16 0)

/-- A trace record that names a team, to the trace queue that its launch took with its header (R351, R361). -/
def trace (t : Nat) (kind cause : Nat) (info : W64) : Prog :=
  .get fun s =>
    let m := s.team t
    postTrace (s.ctxIdOf t) (s.launchOf t).traceQ kind cause info m.teamid m.pc (m.cursor m.held) m.msum

/-- A trace record of an event without a team (R351): the trace queue of every context that is not dead receives one (DESIGN CHOICE, log 72: R351 does not say whose). -/
def traceAll (kind : Nat) (info : W64) : Prog :=
  .get fun s => .each (s.ctxs.filter (fun c => !c.2.dead)) (fun c => postTrace c.1 c.2.traceQ kind 0 info 0 0 0 0)

/-- Terms of the chunks that a speculative MMA has finished stepping and not written. -/
def MatrixEntry.steppedTerms (e : MatrixEntry) : Nat :=
  ((e.begunTerms.filter (fun k => decide (2 * (k.1 / 32) + 2 ≤ e.steps.getD (k.1 % 32) 0))).map Prod.snd).sum

/-- Of each of these chunks, in whose steps a discard comes, some of the terms have been processed: a free number (log 25). -/
def freeParts (n : Nat) : List Nat → Nat
  | [] => 0
  | x :: xs => (Config.freeWord (n + 1)).toNat % (x + 1) + freeParts (n + 1) xs

/-- The speculation of a team ends without keep: its matrix instructions leave the queue, the terms that they have processed go to SPECDROP, registers and q take their checkpoint, and the PC goes where given; a trace record follows (R272, R274, R258). -/
def dropSpec (t : Nat) (pc : Spec → W64) : Prog :=
  .get fun s =>
    match (s.team t).spec with
    | none => .ret
    | some p =>
      let es := specEntries s t
      let mid := es.flatMap (fun e => (e.begunTerms.map (fun k => if e.steps.getD (k.1 % 32) 0 = 2 * (k.1 / 32) + 1 then some k.2 else none)).filterMap id)
      let terms := es.foldl (fun a e => a + e.held.getD 0 0 + e.steppedTerms) (p.terms.getD 0 0) + freeParts s.fresh mid
      let cycles := es.foldl (fun a e => if e.started then a + (Config.freeWord s.fresh).toNat % 2 ^ 32 else a) (p.terms.getD 3 0)
      .all [ trace t 1 0x16 (BitVec.ofNat 64 terms),
             .one (.core (coreOf t) (fun c => { c with queue := c.queue.filter (fun e => !(e.team == t && e.spec)) })),
             .when (es.any (·.started)) (.each (List.range (1 + mid.length)) (fun _ => .one .drawFree)),
             .one (.team t (fun m =>
               { m with
                 g := p.g
                 q := p.q
                 pc := pc p
                 spec := none
                 captured := none
                 waiting := false
                 specdrop := BitVec.ofNat 64 (satAdd m.specdrop.toNat terms)
                 mmacyc := BitVec.ofNat 64 (satAdd m.mmacyc.toNat cycles) })),
             .one (.block (s.team t).blk (fun b =>
               { b with terms := (b.terms.set 4 (b.terms.getD 4 0 + terms)).set 3 (b.terms.getD 3 0 + cycles) })) ]

/-! ## Acquires through slots (R231, R293) -/

/-- A copy write that a signal on a slot of a block covers. -/
def HistWord.signalled (h : HistWord) (blk n : Nat) : Bool :=
  match h.path with
  | .copy _ => h.blk == blk && h.slots.contains n
  | _ => false

/-- An acquire through a slot: what a signal on it covers is observed complete and ordered for path L; and as every acquire (R203, R231). -/
def slotAcquire (t blk n : Nat) : Prog :=
  .get fun s =>
    .all [ .when (s.hist.any (fun h => h.signalled blk n)) (.one (.hist (fun hs => hs.map (fun h =>
             if h.signalled blk n then { h.order (.team t) with obs := if h.obs.contains t then h.obs else t :: h.obs } else h)))),
           noteAcquire (.team t) [] ]

/-- PHASE as a register value. -/
def phaseWord (p : Bool) : W64 := if p then 1 else 0

/-! ## Waiting instructions end without effect (R232) -/

/-- A waiting instruction ends without effect: a SYWB's arrival in a phase still open is withdrawn (log 20), an atomic leaves its home, the lines it asked for are its no more.  A SYWB whose phase has completed has completed (R227, R232). -/
def endWait (t : Nat) : Prog :=
  .get fun s =>
    let m := s.team t
    .all [ (match m.sywb with
            | some { d := _, slot := n, phase := _, got := none } => .one (.slot m.blk n .withdraw)
            | some { d := d, slot := n, phase := _, got := some p } =>
              (slotAcquire t m.blk n).seq (.one (.team t (fun m => (m.setReg d (phaseWord p)).retire { writes := [d] } (m.pc + 4))))
            | none => .ret),
           .when (s.pkg.stalled.any (fun e => e.rmw && e.path == .team t && e.lane.isNone))
             (.one (.pkg (fun g => { g with stalled := g.stalled.filter (fun e => !(e.rmw && e.path == .team t && e.lane.isNone)) }))),
           .when (s.coh.wants.any (fun w => w.path == .team t)) (.one (.coh (fun c => { c with wants := c.wants.filter (fun w => w.path != .team t) }))),
           .one (.team t (fun m => { m with waiting := false, sywb := none, faultAt := none, migr := none, captured := none })) ]

/-! ## Unhandled faults (R322, R36, R356, R357) -/

/-- The layout of a dump (R356); the places inside the fault record are log 21. -/
def dumpBytes (s : State) (t c : Nat) (v tpc : W64) (sq : W64) : List Byte :=
  let m := s.team t
  let h := (s.launchOf t).hdr
  let record := bytes4 m.teamid.toNat ++ bytes4 c ++ bytes8 v ++ bytes8 tpc ++ bytes8 (m.cursor m.held)
    ++ bytes4 m.msum.toNat ++ bytes4 0 ++ bytes8 sq ++ bytes8 (s.launchOf t).tag
  record ++ List.replicate (256 - record.length) 0
    ++ m.g.toList.flatMap bytes8
    ++ m.q.toList.flatMap bytes8 ++ List.replicate 32 0
    ++ leBytes 128 m.m.toNat
    ++ (List.range 64).flatMap (fun i => bytes8 (m.trail.getD i 0))
    ++ List.replicate 64 0
    ++ m.p.toList.flatMap (fun x => leBytes 128 x.toNat)
    ++ (List.range h.vregs).flatMap (fun r => (List.range m.width).flatMap (fun l => bytes4 (m.vreg r l).toNat))

/-- Write what fits of a run of bytes, page by page, up to the first page that faults; `k` receives the number of bytes written and whether a write faulted. -/
def writePrefix (x : Nat) : List (W64 × Nat) → List Byte → Nat → (Nat → Bool → Prog) → Prog
  | [], _, n, k => k n false
  | (a, len) :: ps, bs, n, k =>
    ctxStore false x a (bs.take len) (writePrefix x ps (bs.drop len) (n + len) k) (fun _ => k n true)

/-- The whole segments that fit a buffer, up to the first that does not (R357). -/
def fitSegments : Nat → List (List Byte) → List Byte
  | _, [] => []
  | n, g :: gs => if g.length ≤ n then g ++ fitSegments (n - g.length) gs else []

/-- The dump of a faulting team to its context's buffer, sealed for a protected context, and the DUMP notification (R356, R357). -/
def dump (t c : Nat) (v tpc sq : W64) : Prog :=
  .get fun s =>
    let id := s.ctxIdOf t
    let x := s.ctx id
    if x.dumpBuf = 0 then .ret
    else
      let whole := dumpBytes s t c v tpc sq
      let segs := Aes.segments x.key (fun i => Aes.iv 3 id (BitVec.ofNat 48 sq.toNat ++ BitVec.ofNat 16 i)) (whole.length + 1) 0 whole
      let out := if x.prot then fitSegments x.dumpLen segs else whole.take x.dumpLen
      let full := if x.prot then out.length == segs.flatten.length else out.length == whole.length
      writePrefix id (pagesOf x.dumpBuf out.length) out 0 fun n bad =>
        notify (s.launchOf t).queue 6 ((if x.prot then 0x100 else 0) + (if bad then 2 else if full then 0 else 1))
          (BitVec.ofNat 64 n) (s.launchOf t).tag

/-- A block to be killed. -/
def BlockPhase.condemned : BlockPhase → BlockPhase
  | .saved => .killed true
  | .killed k => .killed k
  | _ => .killed false

/-- Blocks are to be killed (R36, R341): their teams issue nothing more. -/
def condemn (p : Block → Bool) : Prog :=
  .get fun s => .each (s.blocks.filter (fun b => p b.2)) (fun b => .one (.block b.1 (fun y => { y with phase := y.phase.condemned })))

/-- A fault that no handler takes (R322): it draws its SEQ, a dump is made, and the launch is killed when its KOF is 1, or the context is reset with CODE 1. -/
def unhandled (t c : Nat) (v tpc : W64) : Prog :=
  .get fun s =>
    let l := (s.blockOf t).launch
    let id := s.ctxIdOf t
    if fMode (coreOf t) then .one (.team t (fun m => { m with stopped := true }))
    else if (s.launch l).killed || (s.ctx id).resetCode != 0 then .one (.team t (fun m => { m with waiting := true }))
    else
      let sq := BitVec.ofNat 64 s.seq
      .upd .drawSeq
        (.all [ dump t c v tpc sq,
                if (s.launch l).kof then
                  .all [ .one (.launch l (fun y => { y with killed := true, faultSeq := sq, call := y.call.map (fun c => (c.1, (s.team t).g.toList)) })), condemn (fun b => b.launch == l) ]
                else
                  .all [ .one (.ctx id (fun y => { y with teardown := true, resetCode := 1 })), condemn (fun b => b.ctx == id) ] ])

/-! ## Taking a trap (R320, R321) -/

/-- The lane queue stops at its cursor: every earlier lane instruction has completed, and the queue is held (R84). -/
def holdLanes (t : Nat) : Prog := (Prog.one (.team t (fun m => { m.settleAll with tbatch := m.cursor true }))).seq (syncBacking t)

/-- A cause delivered to a team: `v` goes to TVAL, `tpc` to TPC; a lane cause records the cursor in TBATCH and holds the lane queue, whose earlier instructions complete, whether or not a handler takes it (R84).  An asynchronous cause waits while the team is in its handler, suspended or stopped (R321, R322). -/
def takeTrap (t c : Nat) (v tpc : W64) (lane async : Bool) : Prog :=
  .get fun s =>
    let m := s.team t
    if m.exited then (if c = 0x10 then .ret else unhandled t c v tpc)
    else if async && (m.tcause != 0 || m.suspended.isSome || m.stopped) then
      .one (.team t (fun m => { m with pending := m.pending ++ [{ code := c, val := v, lane := lane }] }))
    else if m.thandler = 0 || m.tcause != 0 then (Prog.when lane (holdLanes t)).seq (unhandled t c v tpc)
    else
      .all [ endWait t,
             dropSpec t (fun p => p.pc),
             .get fun s' =>
               let done := m.spec.isSome || m.sywb.any (fun w => w.got.isSome)
               let resume := if done then (s'.team t).pc else tpc
               .one (.team t (fun m =>
                 { (if lane then m.settleAll else m) with
                   tcause := BitVec.ofNat 32 c
                   tval := v
                   tpc := resume
                   tbatch := if lane then m.cursor true else 0
                   fired := m.fired.bind (fun f => if f.2.2 = 0 then none else some (f.1, f.2.1, f.2.2 + 1))
                   pc := m.thandler })),
             .when lane (syncBacking t) ]

/-! ## Pending causes (R322) -/

/-- The cause with the lowest code (R322). -/
def lowestCause (cs : List PendCause) : Option PendCause :=
  cs.foldl (fun m c => match m with
    | some b => if c.code < b.code then some c else m
    | none => some c) none

/-- TRAP_DELIVERY: at an instruction boundary with TCAUSE zero, the pending cause with the lowest code is delivered. -/
def deliverPending (t : Nat) : Prog :=
  .get fun s =>
    let m := s.team t
    match lowestCause m.pending with
    | none => .ret
    | some c =>
      if m.tcause != 0 || m.exited || m.stopped || m.suspended.isSome then .ret
      else .all [ .one (.team t (fun y => { y with pending := y.pending.erase c })),
                  takeTrap t c.code c.val m.pc c.lane true ]

/-- The instruction at the PC has issued (R356). -/
def noteIssued : Prog := setTeam (fun t => { t with trail := (t.pc :: t.trail).take 64 })

/-- A synchronous cause of the current instruction, with TPC its PC. -/
def trapHere (c : Nat) (v : W64) : Prog :=
  noteIssued.seq (.get fun s => takeTrap s.cur c v (s.team s.cur).pc false false)

/-- ILLEGAL of a scalar instruction: TPC and TVAL are its PC (R72). -/
def illegal : Prog := onTeam fun t => trapHere 0x01 t.pc

/-- PRIV: TVAL is the instruction's PC (R320). -/
def privileged : Prog := onTeam fun t => trapHere 0x02 t.pc

/-- A trap that a speculative instruction would raise waits until the speculation resolves, where its rule says so (R117, R191). -/
def trapOrWait (c : Nat) (v : W64) : Prog := onTeam fun t => if t.spec.isSome then waitHere else trapHere c v

/-! ## Page faults (R329) -/

/-- The open handle that a fault of a context on a page with an access kind shares. -/
def sharedHandle (d : Die) (ctx page kind : Nat) : Option Nat :=
  (d.handles.find? (fun h => h.2.ctx == ctx && h.2.page == page && h.2.kind == kind)).map Prod.fst

/-- The lowest free handle slot of 256. -/
def freeHandle (d : Die) : Option Nat := (List.range 256).find? (fun i => (d.handles.get? i).isNone)

/-- A page fault goes to firmware of the core's die: it joins an open handle or opens one; `wait` marks the waiter with the handle's number 256 die + slot.  With no free slot the agent tries again at its next turn. -/
def openFault (core x t kind : Nat) (va : W64) (wait : Nat → Prog) : Prog :=
  .get fun s =>
    let die := dieOf core
    let d := s.die die
    let page := va.toNat / 4096
    match sharedHandle d x page kind with
    | some i => wait (256 * die + i)
    | none =>
      match freeHandle d with
      | none => wait 1024
      | some i =>
        .all [ .one (.die die (fun d => { d with handles := d.handles.put i { ctx := x, page := page, kind := kind, addr := va, queue := (s.launchOf t).queue, teamid := (s.team t).teamid } })),
               .one (.core (96 * die) (fun c => { c with events := c.events ++ [(0x05, BitVec.ofNat 64 (256 * die + i))] })),
               wait (256 * die + i) ]

/-- A page fault of a team's access. -/
def pageFault (t kind : Nat) (va : W64) (wait : Nat → Prog) : Prog :=
  .get fun s => openFault (coreOf t) (s.ctxIdOf t) t kind va wait

/-- A scalar instruction's page fault: the team waits at the instruction (R329); in speculative mode it waits until the speculation resolves (R191).  Handle number 1024 stands for no free slot. -/
def scalarFault (kind : Nat) (va : W64) : Prog :=
  onTeam fun t =>
    if t.spec.isSome then waitHere
    else .get fun s => pageFault s.cur kind va (fun h =>
      .one (.team s.cur (fun t => { t with waiting := true, faultAt := if h = 1024 then none else some h })))

/-! ## FP events of scalar instructions (R107) -/

/-- Count events of the current team's launch; in speculative mode they are held until the speculation is kept. -/
def countEvents (t : Nat) (es : List Nat) : Prog :=
  if es.isEmpty then .ret
  else .get fun s =>
    match (s.team t).spec with
    | some _ => .one (.team t (fun m => { m with spec := m.spec.map (fun p => { p with events := p.events ++ gather es }) }))
    | none => addEvents (s.blockOf t).launch (gather es)

end Sys2Proof.Machine
end

