-- ==== Sys2Proof/Machine/Fetch.lean ====
section
/-! DEFINITION. Instruction memory: overlay slots, the fetch of a scalar word, and the check of a transfer's target (R67 to R70, R110, R309). -/

namespace Sys2Proof.Machine

/-! ## Overlay slots (R67, R68) -/

/-- An overlay slot holds, or is loading, an overlay whose scalar section holds the address. -/
def Overlay.covers (o : Overlay) (asid : Nat) (pc : W64) : Bool :=
  o.asid == asid && decide (o.base.toNat ≤ pc.toNat) && decide (pc.toNat < o.base.toNat + o.slen)

/-- The VALID slot that an address hits, for a team. -/
def slotOf? (s : State) (t : Nat) (pc : W64) : Option Nat :=
  (List.range 4).find? (fun i =>
    match (s.core (coreOf t)).slots[i]? with
    | some o => o.valid && o.covers (s.spaceOf t).asid pc
    | none => false)

/-- A LOADING slot that an address would hit. -/
def loadingHit (s : State) (t : Nat) (pc : W64) : Bool :=
  (s.core (coreOf t)).slots.any (fun o => o.loading && o.covers (s.spaceOf t).asid pc)

/-- The overlay 0 of a team's kernel. -/
def overlay0 (s : State) (t : Nat) : OverlayRef := ((s.launchOf t).ovs[0]?).getD { base := 0, slen := 0, lcount := 0 }

/-- The address lies in overlay 0 of the team's kernel. -/
def inOverlay0 (s : State) (t : Nat) (pc : W64) : Bool :=
  let o := overlay0 s t
  decide (o.base.toNat ≤ pc.toNat) && decide (pc.toNat < o.base.toNat + o.slen)

/-- Fetch order: one more than the last fetch from any slot of the core (R69). -/
def nextUse (c : Core) : Nat := (c.slots.map (·.used)).foldl max 0 + 1

/-- A word of an overlay slot at a byte offset. -/
def Overlay.word (o : Overlay) (off : Nat) : W32 := Sparse.get o.words (off / 4)

/-- A fetch from a slot is its most recent use. -/
def Core.touch (c : Core) (i : Nat) : Core :=
  { c with slots := c.slots.modify i (fun o => { o with used := nextUse c }) }

/-- The instruction-set tag of the page of an address, where it is executable by some instruction set: X, U and A are 1 (R19). -/
def pageTag (s : State) (sp : Space) (pc : W64) : Option Nat :=
  match lookup s sp pc with
  | none => none
  | some e =>
    if Pte.bit e.pte 3 && Pte.bit e.pte 4 && Pte.bit e.pte 6 && sp.reaches s (e.pa + (pc.toNat - e.page)) then
      some (Pte.tag e.pte)
    else none

/-! ## Targets of transfers (R110, R309) -/

/-- What the check of a target finds. -/
inductive Target where
  | good | misaligned | notCanonical | migrates | bad
  deriving DecidableEq, Repr

/-- The check of R110, in the order of its table. -/
def checkTarget (s : State) (t : Nat) (pc : W64) : Target :=
  if pc.toNat % 4 ≠ 0 then .misaligned
  else if !canonical pc then .notCanonical
  else if (slotOf? s t pc).isSome || loadingHit s t pc || inOverlay0 s t pc then .good
  else match pageTag s (s.spaceOf t) pc with
    | some 2 => .good
    | some 1 => .migrates
    | _ => .bad

/-- A team waits to post a migration record (R309, R315, R316); nothing of it is visible before. -/
def migrate (m : Migration) : Prog := setTeam (fun t => { t with waiting := true, migr := some m })

/-- Migration of a transfer to a RISC-V page (R309, R315): a host-called team that transfers to its caller's return address returns to it. -/
def migrateTo (pc : W64) (link : Option GReg) : Prog :=
  .get fun s =>
    let t := s.team s.cur
    if (s.ctxOf s.cur).threads = 0 then trapOrWait 0x12 pc
    else if t.spec.isSome then waitHere
    else
      let back := match (s.launchOf s.cur).call with
        | some (_, g) => t.token.isSome && g.getD 1 0 == pc
        | none => false
      migrate { kind := if back then 4 else 1, target := pc, link := link }

/-- transfer(t): the PC moves, with the link written, or the instruction traps, migrates or waits (R110). -/
def transfer (u : Use) (pc : W64) (link : Option GReg) : Prog :=
  .get fun s =>
    match checkTarget s s.cur pc with
    | .good => finishAt u pc (fun t => match link with | some r => t.setReg r (t.pc + 4) | none => t)
    | .misaligned => trapOrWait 0x03 pc
    | .notCanonical => trapOrWait 0x07 pc
    | .migrates => migrateTo pc link
    | .bad => trapOrWait 0x04 pc

/-! ## Overlay 0 (R17, R69) -/

/-- A VALID slot holds overlay 0: its whole tag is overlay 0's (R67, R69). -/
def Overlay.holds (x : Overlay) (asid : Nat) (o : OverlayRef) : Bool :=
  x.valid && x.asid == asid && x.base == o.base && x.slen == o.slen && x.lcount == o.lcount

/-- The slot that the core picks for its own reload of overlay 0; none while all four load. -/
def reloadSlot (s : State) (t : Nat) : Option Nat :=
  let c := s.core (coreOf t)
  let o := overlay0 s t
  let asid := (s.spaceOf t).asid
  let at? := fun (p : Overlay → Bool) => (List.range 4).find? (fun i => match c.slots[i]? with | some x => p x | none => false)
  match at? (fun x => x.holds asid o) with
  | some i => some i
  | none =>
    match at? (fun x => !x.valid && !x.loading) with
    | some i => some i
    | none =>
      let oldest := (c.slots.filter (fun x => !x.loading)).foldl (fun m x => min m x.used) (nextUse c)
      at? (fun x => !x.loading && x.used == oldest)

/-- The words of a run of bytes, keyed by word. -/
def overlayWords (bs : List Byte) : Sparse 32 :=
  Sparse.setRun [] 0 ((List.range (bs.length / 4)).map (fun i => BitVec.ofNat 32 (field bs (4 * i) 4)))

/-- LOFF: the offset of the lane section (R15). -/
def laneOffset (slen : Nat) : Nat := (slen + 15) / 16 * 16

/-- The bytes of an overlay in memory: the scalar section, then the lane section (R15). -/
def overlaySize (o : OverlayRef) : Nat := laneOffset o.slen + 12 * o.lcount

/-- Teams that have fetched words ahead keep them until their IFENCE (R70); a reload of the same contents gives them the same words. -/
def installOverlay (c i : Nat) (asid : Nat) (o : OverlayRef) (words : Sparse 32) : Prog :=
  .one (.core c (fun x =>
    let slot : Overlay := { asid := asid, base := o.base, slen := o.slen, lcount := o.lcount, valid := true, loading := false, used := nextUse x, words := words }
    { x with slots := x.slots.set i slot }))

/-- A slot of a team's core holds overlay 0 of its kernel.  DESIGN CHOICE, log 33: a slot filled before its pages lost the Darion tag is hit as R68 says, though R18 has a first fetch from pages without the tag raise FETCH. -/
def resident (s : State) (t : Nat) : Bool := (s.core (coreOf t)).slots.any (fun x => x.holds (s.spaceOf t).asid (overlay0 s t))

/-- OVERLAY0_RELOAD: the core makes overlay 0 of a team's kernel resident (R17, R68, R69); its pages must be executable Darion pages, and a page that is not raises FETCH at the team's fetch (R18, R19). -/
def reload0 (t : Nat) : Prog :=
  .get fun s =>
    let o := overlay0 s t
    let sp := s.spaceOf t
    match reloadSlot s t with
    | none => .ret
    | some i =>
      match (s.core (coreOf t)).slots[i]? with
      | some x => if x.holds sp.asid o then .ret else
        match xlate s sp .exec (pagesOf o.base (overlaySize o)) with
        | .error _ => takeTrap t 0x04 (s.team t).pc (s.team t).pc false false
        | .ok r =>
          let p := Path.team t
          .all [ noteTlb sp r.used,
                 installOverlay (coreOf t) i sp.asid o (overlayWords (r.parts.flatMap (fun q => bytesSeen s p q.1 q.2))),
                 noteRead p r.parts ]
      | none => .ret

def execOverlay0Reload (t : Nat) (s : State) : Host.Outcome State Fault Refusal := (ofTeam t (reload0 t)).run s

/-! ## SCALAR_FETCH (R68, R70, R325) -/

/-- The words a fetch ahead brings to a team: those from the PC on in the slot that the PC hits (R70). -/
def aheadWords (o : Overlay) (pc : W64) (n : Nat) : List AheadWord :=
  (List.range n).filterMap (fun i =>
    let a := pc + BitVec.ofNat 64 (4 * i)
    if o.covers o.asid a then some { pc := a, word := o.word (a.toNat - o.base.toNat), base := o.base } else none)

/-- The lowest PC-match register that a fetch at a team's PC fires; not the one that fired here, at the fetch that its handler's return makes (R325, R353). -/
def pcMatched (m : Team) : Option Nat :=
  (List.range 4).find? (fun n =>
    let r := m.pcmatch.toList.getD n 0
    r.getLsbD 63 && r.extractLsb' 2 55 == m.pc.extractLsb' 2 55 && m.fired != some (n, m.pc, 0))

/-- A PC-match register fires: BKPT, with TVAL 1 + n (R325). -/
def firePcMatch (t n : Nat) : Prog :=
  .get fun s => (takeTrap t 0x0F (BitVec.ofNat 64 (1 + n)) (s.team t).pc false false).seq
    (.one (.team t (fun x => { x with fired := some (n, (s.team t).pc, 1) })))

/-- A team fetches the word at its PC and up to n − 1 words after it ahead of use; a word fetched is executed even where its slot is patched, until an IFENCE (R70).  A miss acts as R68 gives, on the word at the PC alone; a cause that waits for delivery comes before any that the fetch raises (R322). -/
def fetchAhead (t n : Nat) : Prog :=
  .get fun s =>
    let m := s.team t
    if m.tcause == 0 && !m.pending.isEmpty then deliverPending t
    else match pcMatched m with
    | some k => firePcMatch t k
    | none =>
      match slotOf? s t m.pc with
      | some i =>
        (match (s.core (coreOf t)).slots[i]? with
         | some o => .all [ .one (.core (coreOf t) (fun c => c.touch i)),
                            .one (.team t (fun x => { x with ahead := aheadWords o m.pc n })) ]
         | none => .ret)
      | none =>
        if loadingHit s t m.pc then .ret
        else if inOverlay0 s t m.pc then reload0 t
        else match pageTag s (s.spaceOf t) m.pc with
          | some 2 => takeTrap t 0x0C m.pc m.pc false false
          | some 1 =>
            if (s.ctxOf t).threads = 0 then takeTrap t 0x12 m.pc m.pc false false
            else if m.spec.isSome then .one (.team t (fun x => { x with waiting := true }))
            else .one (.team t (fun x => { x with waiting := true, migr := some { kind := 1, target := m.pc, link := none } }))
          | _ => takeTrap t 0x04 m.pc m.pc false false

/-- The scalar word at a team's PC: one fetched ahead, or the one in the slot that the PC hits (R68, R70). -/
def wordAt (s : State) (k : Nat) : Option W32 :=
  let m := s.team k
  match m.ahead.find? (fun w => w.pc == m.pc) with
  | some w => some w.word
  | none =>
    match slotOf? s k m.pc with
    | some i => ((s.core (coreOf k)).slots[i]?).map (fun o => o.word (m.pc.toNat - o.base.toNat))
    | none => none

def execScalarFetch (t n : Nat) (s : State) : Host.Outcome State Fault Refusal := (ofTeam t (fetchAhead t (min n 16))).run s

end Sys2Proof.Machine
end

