-- ==== Sys2Proof/Machine/ScalarInt.lean ====
section
/-! DEFINITION. Scalar integer instructions (R93 to R99). -/

namespace Sys2Proof.Machine

/-- Two operands at the width that `w` selects, 64 or 32 bits; the 32-bit form reads low halves and sign-extends its result (R93). -/
def atWidth2 (w : Bool) (f : (n : Nat) → BitVec n → BitVec n → BitVec n) (x y : W64) : W64 :=
  if w then f 64 x y else (f 32 (x.setWidth 32) (y.setWidth 32)).signExtend 64

/-- One operand at the width that `w` selects. -/
def atWidth1 (w : Bool) (f : (n : Nat) → BitVec n → BitVec n) (x : W64) : W64 :=
  if w then f 64 x else (f 32 (x.setWidth 32)).signExtend 64

/-- What a two-operand integer instruction reads and writes. -/
def use2 (d a b : GReg) : Use := { reads := [a, b], writes := [d], spec := true }
def use1 (d a : GReg) : Use := { reads := [a], writes := [d], spec := true }

/-- A two-operand integer instruction. -/
def intOp (d a b : GReg) (w : Bool) (f : (n : Nat) → BitVec n → BitVec n → BitVec n) : Prog :=
  scalar (use2 d a b) fun _ => finish (use2 d a b) (fun t => t.setReg d (atWidth2 w f (t.reg a) (t.reg b)))

/-- A division or a remainder: a long operation (R92, R93). -/
def divOp (d a b : GReg) (w : Bool) (f : (n : Nat) → BitVec n → BitVec n → BitVec n) : Prog :=
  let u := { use2 d a b with long := true }
  scalar u fun _ => finish u (fun t => t.setReg d (atWidth2 w f (t.reg a) (t.reg b)))

/-- A one-operand instruction with a 64-bit result. -/
def unaryOp (d a : GReg) (f : W64 → W64) : Prog :=
  scalar (use1 d a) fun _ => finish (use1 d a) (fun t => t.setReg d (f (t.reg a)))

/-! ## The operations of R93, at any width -/

/-- The high half of a product (R93). -/
def mulHighI (n : Nat) (x y : BitVec n) : BitVec n := BitVec.ofInt n (x.toInt * y.toInt / 2 ^ n)
def mulHighN (n : Nat) (x y : BitVec n) : BitVec n := BitVec.ofNat n (x.toNat * y.toNat / 2 ^ n)

/-- Division and remainder toward zero, with the cases of R93 for a zero divisor. -/
def divSigned (n : Nat) (x y : BitVec n) : BitVec n := if y = 0 then BitVec.allOnes n else x.sdiv y
def remSigned (n : Nat) (x y : BitVec n) : BitVec n := if y = 0 then x else x.srem y
def divNatural (n : Nat) (x y : BitVec n) : BitVec n := if y = 0 then BitVec.allOnes n else x / y
def remNatural (n : Nat) (x y : BitVec n) : BitVec n := if y = 0 then x else x % y

/-- Rotate left by the amount modulo the width. -/
def rotLeft (n : Nat) (x y : BitVec n) : BitVec n := (x <<< (y.toNat % n)) ||| (x >>> (n - y.toNat % n))

/-- Minimum and maximum, signed and natural. -/
def minSigned (n : Nat) (x y : BitVec n) : BitVec n := if y.slt x then y else x
def maxSigned (n : Nat) (x y : BitVec n) : BitVec n := if x.slt y then y else x
def minNatural (n : Nat) (x y : BitVec n) : BitVec n := if y.ult x then y else x
def maxNatural (n : Nat) (x y : BitVec n) : BitVec n := if x.ult y then y else x

/-- The number of 1 bits, and of leading and trailing 0 bits. -/
def countOnes (n : Nat) (x : BitVec n) : BitVec n := BitVec.ofNat n (popCount n x.toNat)
def leadingZeros (n : Nat) (x : BitVec n) : BitVec n := BitVec.ofNat n (n - (if x = 0 then 0 else x.toNat.log2 + 1))
def trailingZeros (n : Nat) (x : BitVec n) : BitVec n :=
  BitVec.ofNat n (((List.range n).find? (fun i => x.getLsbD i)).getD n)

/-! ## ALU.R (R93) -/

def execAdd (d a b : GReg) (w : Bool) (s : State) : Host.Outcome State Fault Refusal :=
  (intOp d a b w (fun _ x y => x + y)).run s
def execSub (d a b : GReg) (w : Bool) (s : State) : Host.Outcome State Fault Refusal :=
  (intOp d a b w (fun _ x y => x - y)).run s
def execMul (d a b : GReg) (w : Bool) (s : State) : Host.Outcome State Fault Refusal :=
  (intOp d a b w (fun _ x y => x * y)).run s
def execMulhI (d a b : GReg) (w : Bool) (s : State) : Host.Outcome State Fault Refusal := (intOp d a b w mulHighI).run s
def execMulhN (d a b : GReg) (w : Bool) (s : State) : Host.Outcome State Fault Refusal := (intOp d a b w mulHighN).run s
def execDivI (d a b : GReg) (w : Bool) (s : State) : Host.Outcome State Fault Refusal := (divOp d a b w divSigned).run s
def execDivN (d a b : GReg) (w : Bool) (s : State) : Host.Outcome State Fault Refusal := (divOp d a b w divNatural).run s
def execRemI (d a b : GReg) (w : Bool) (s : State) : Host.Outcome State Fault Refusal := (divOp d a b w remSigned).run s
def execRemN (d a b : GReg) (w : Bool) (s : State) : Host.Outcome State Fault Refusal := (divOp d a b w remNatural).run s
def execAnd (d a b : GReg) (w : Bool) (s : State) : Host.Outcome State Fault Refusal :=
  (intOp d a b w (fun _ x y => x &&& y)).run s
def execOr (d a b : GReg) (w : Bool) (s : State) : Host.Outcome State Fault Refusal :=
  (intOp d a b w (fun _ x y => x ||| y)).run s
def execXor (d a b : GReg) (w : Bool) (s : State) : Host.Outcome State Fault Refusal :=
  (intOp d a b w (fun _ x y => x ^^^ y)).run s
def execAndn (d a b : GReg) (w : Bool) (s : State) : Host.Outcome State Fault Refusal :=
  (intOp d a b w (fun _ x y => x &&& ~~~y)).run s
def execShl (d a b : GReg) (w : Bool) (s : State) : Host.Outcome State Fault Refusal :=
  (intOp d a b w (fun n x y => x <<< (y.toNat % n))).run s
def execShr (d a b : GReg) (w : Bool) (s : State) : Host.Outcome State Fault Refusal :=
  (intOp d a b w (fun n x y => x >>> (y.toNat % n))).run s
def execSra (d a b : GReg) (w : Bool) (s : State) : Host.Outcome State Fault Refusal :=
  (intOp d a b w (fun n x y => x.sshiftRight (y.toNat % n))).run s
def execRol (d a b : GReg) (w : Bool) (s : State) : Host.Outcome State Fault Refusal := (intOp d a b w rotLeft).run s
def execMinI (d a b : GReg) (w : Bool) (s : State) : Host.Outcome State Fault Refusal := (intOp d a b w minSigned).run s
def execMinN (d a b : GReg) (w : Bool) (s : State) : Host.Outcome State Fault Refusal := (intOp d a b w minNatural).run s
def execMaxI (d a b : GReg) (w : Bool) (s : State) : Host.Outcome State Fault Refusal := (intOp d a b w maxSigned).run s
def execMaxN (d a b : GReg) (w : Bool) (s : State) : Host.Outcome State Fault Refusal := (intOp d a b w maxNatural).run s
def execPopc (d a : GReg) (w : Bool) (s : State) : Host.Outcome State Fault Refusal :=
  (unaryOp d a (atWidth1 w countOnes)).run s
def execClz (d a : GReg) (w : Bool) (s : State) : Host.Outcome State Fault Refusal :=
  (unaryOp d a (atWidth1 w leadingZeros)).run s
def execCtz (d a : GReg) (w : Bool) (s : State) : Host.Outcome State Fault Refusal :=
  (unaryOp d a (atWidth1 w trailingZeros)).run s

/-! ## Immediates (R95 to R98) -/

def execAddi (d a : GReg) (i : BitVec 14) (s : State) : Host.Outcome State Fault Refusal :=
  (unaryOp d a (fun x => x + i.signExtend 64)).run s
def execAndi (d a : GReg) (i : BitVec 14) (s : State) : Host.Outcome State Fault Refusal :=
  (unaryOp d a (fun x => x &&& i.setWidth 64)).run s
def execOri (d a : GReg) (i : BitVec 14) (s : State) : Host.Outcome State Fault Refusal :=
  (unaryOp d a (fun x => x ||| i.setWidth 64)).run s
def execXori (d a : GReg) (i : BitVec 14) (s : State) : Host.Outcome State Fault Refusal :=
  (unaryOp d a (fun x => x ^^^ i.setWidth 64)).run s

/-- SHLI, SHRI and SRAI: here `w` is imm14[11], 1 for the 32-bit form; the amount is modulo the width (R96). -/
def execShli (d a : GReg) (w : Bool) (n : BitVec 6) (s : State) : Host.Outcome State Fault Refusal :=
  (unaryOp d a (atWidth1 (!w) (fun k x => x <<< (n.toNat % k)))).run s
def execShri (d a : GReg) (w : Bool) (n : BitVec 6) (s : State) : Host.Outcome State Fault Refusal :=
  (unaryOp d a (atWidth1 (!w) (fun k x => x >>> (n.toNat % k)))).run s
def execSrai (d a : GReg) (w : Bool) (n : BitVec 6) (s : State) : Host.Outcome State Fault Refusal :=
  (unaryOp d a (atWidth1 (!w) (fun k x => x.sshiftRight (n.toNat % k)))).run s

/-- LIH: imm20 above 12 zero bits, sign-extended (R97). -/
def execLih (d : GReg) (i : BitVec 20) (s : State) : Host.Outcome State Fault Refusal :=
  (unaryOp d 0 (fun _ => (i ++ (0 : BitVec 12)).signExtend 64)).run s

/-- LIX: gd shifted left by 20, imm20 below (R98). -/
def execLix (d : GReg) (i : BitVec 20) (s : State) : Host.Outcome State Fault Refusal :=
  (unaryOp d d (fun x => (x <<< 20) ||| i.setWidth 64)).run s

/-! ## CMP (R99) and the conditions of R75 -/

/-- Whether a condition holds between two values of one width. -/
def Cond.holds (c : Cond) (n : Nat) (x y : BitVec n) : Bool :=
  match c with
  | .eq => x == y
  | .ne => x != y
  | .lt => x.slt y
  | .ge => !x.slt y
  | .ltn => x.ult y
  | .gen => !x.ult y

/-- A comparison's result at the width that `w` selects: 1 or 0. -/
def cmpResult (w : Bool) (c : Cond) (x y : W64) : W64 :=
  if (if w then Cond.holds c 64 x y else Cond.holds c 32 (x.setWidth 32) (y.setWidth 32)) then 1 else 0

def execCmp (d a b : GReg) (w : Bool) (c : Cond) (s : State) : Host.Outcome State Fault Refusal :=
  (scalar (use2 d a b) fun _ => finish (use2 d a b) (fun t => t.setReg d (cmpResult w c (t.reg a) (t.reg b)))).run s

end Sys2Proof.Machine
end

