-- ==== Sys2Proof/Machine/Control.lean ====
section
/-! DEFINITION. Control transfers and the start of a speculation (R108 to R110, R113, R272). -/

namespace Sys2Proof.Machine

/-- Branch displacement: sext(off) × 4. -/
def disp {n : Nat} (o : BitVec n) : W64 := o.signExtend 64 * 4

/-- A branch on a condition of the team. -/
def branch (u : Use) (taken : Team → Bool) (off : W64) : Prog :=
  scalar u fun t => if taken t then transfer u (t.pc + off) none else finish u id

/-- What a branch reads. -/
def useBranch (rs : List GReg) : Use := { reads := rs, spec := true }

def execB (c : Cond) (a b : GReg) (o : BitVec 10) (s : State) : Host.Outcome State Fault Refusal :=
  (branch (useBranch [a, b]) (fun t => Cond.holds c 64 (t.reg a) (t.reg b)) (disp o)).run s
def execBz (a : GReg) (o : BitVec 10) (s : State) : Host.Outcome State Fault Refusal :=
  (branch (useBranch [a]) (fun t => t.reg a == 0) (disp o)).run s
def execBnz (a : GReg) (o : BitVec 10) (s : State) : Host.Outcome State Fault Refusal :=
  (branch (useBranch [a]) (fun t => t.reg a != 0) (disp o)).run s

/-- J (R109). -/
def execJ (o : BitVec 26) (s : State) : Host.Outcome State Fault Refusal :=
  (branch (useBranch []) (fun _ => true) (disp o)).run s

/-- JAL links into g1 (R109). -/
def execJal (o : BitVec 26) (s : State) : Host.Outcome State Fault Refusal :=
  (scalar { writes := [1], spec := true } fun t => transfer { writes := [1], spec := true } (t.pc + disp o) (some 1)).run s

/-- JALR reads ga before it links into gd (R109). -/
def execJalr (d a : GReg) (i : BitVec 14) (s : State) : Host.Outcome State Fault Refusal :=
  (scalar (use1 d a) fun t => transfer (use1 d a) (t.reg a + i.signExtend 64) (some d)).run s

/-- BMZ: every mask word is zero.  BMF: every present lane has its bit set (R113). -/
def execBmz (o : BitVec 10) (s : State) : Host.Outcome State Fault Refusal :=
  (branch (useBranch []) (fun t => t.m == 0) (disp o)).run s
def execBmf (o : BitVec 10) (s : State) : Host.Outcome State Fault Refusal :=
  (branch (useBranch []) (fun t => t.m == t.present) (disp o)).run s

end Sys2Proof.Machine
end

