-- ==== Sys2Proof/WellFormed.lean ====
section
/-! DEFINITION. Well-formed instructions: those that some word encodes and decoding accepts. -/

namespace Sys2Proof

/-- A store of a zero-extended size is ILLEGAL (R175). -/
def MemSize.storable : MemSize → Bool
  | .n8 | .n16 | .n32 => false
  | _ => true

/-- The instructions that decoding accepts: every scalar word its encoding admits but stores of natural sizes, every lane instruction that keeps R83, every copy entry. -/
def WellFormed (i : Instr) : Bool :=
  match i.laneOp with
  | some (op, o) => laneStatic op o
  | none =>
    match i with
    | .st _ _ s _ _ | .stRel _ _ s _ _ => s.storable
    | _ => true

end Sys2Proof
end

