-- ==== Sys2Proof/Decode.lean ====
section
/-! DEFINITION. Decoding of scalar words, lane instructions and copy entries, total on any bits and rejecting by name, and the encoder. -/

namespace Sys2Proof

/-- Why a word is no instruction. -/
inductive Reject where
  /-- A major opcode that R73 does not list, or an OPC that R82 or R197 does not list. -/
  | opcode
  /-- A function code outside its table. -/
  | function
  /-- A field the instruction does not use is not zero (R72). -/
  | unused
  /-- A lane instruction that breaks R83. -/
  | laneField
  deriving DecidableEq, Repr

/-- Bits lo to lo + n - 1 of a word. -/
def fld {w : Nat} (x : BitVec w) (lo n : Nat) : BitVec n := x.extractLsb' lo n

/-- An instruction whose unused fields are zero. -/
def need (c : Bool) (i : Instr) : Except Reject Instr := if c then .ok i else .error .unused

def Rm.ofBits (x : BitVec 2) : Rm :=
  match x.toNat with
  | 0 => .rne | 1 => .rz | 2 => .rd | _ => .ru

def Rm.bits : Rm → BitVec 2
  | .rne => 0 | .rz => 1 | .rd => 2 | .ru => 3

def MemOrder.ofBits (x : BitVec 2) : MemOrder :=
  match x.toNat with
  | 0 => .relaxed | 1 => .acq | 2 => .rel | _ => .acqRel

def MemOrder.bits : MemOrder → BitVec 2
  | .relaxed => 0 | .acq => 1 | .rel => 2 | .acqRel => 3

/-- Condition codes 0 to 5 (R75). -/
def Cond.ofCode : Nat → Option Cond
  | 0 => some .eq | 1 => some .ne | 2 => some .lt | 3 => some .ge | 4 => some .ltn | 5 => some .gen | _ => none

def Cond.code : Cond → Nat
  | .eq => 0 | .ne => 1 | .lt => 2 | .ge => 3 | .ltn => 4 | .gen => 5

/-- The sz field of format SM (R71). -/
def MemSize.ofBits (x : BitVec 3) : Option MemSize :=
  match x.toNat with
  | 0 => some .i8 | 1 => some .n8 | 2 => some .i16 | 3 => some .n16 | 4 => some .i32 | 5 => some .n32 | 6 => some .d64 | _ => none

def MemSize.bits : MemSize → BitVec 3
  | .i8 => 0 | .n8 => 1 | .i16 => 2 | .n16 => 3 | .i32 => 4 | .n32 => 5 | .d64 => 6

/-- The fields of format SR, into which every scalar word splits (R71). -/
structure Sr where
  maj : BitVec 6
  d : BitVec 6
  a : BitVec 6
  b : BitVec 6
  fn : BitVec 8
  deriving DecidableEq, Repr

def Sr.of (w : W32) : Sr := ⟨fld w 26 6, fld w 20 6, fld w 14 6, fld w 8 6, fld w 0 8⟩

def Sr.word (x : Sr) : W32 := x.maj ++ x.d ++ x.a ++ x.b ++ x.fn

/-- The 14-bit immediate of format SI. -/
def Sr.imm14 (x : Sr) : BitVec 14 := x.b ++ x.fn

/-- A word of format SI. -/
def Sr.si (maj d a : BitVec 6) (i : BitVec 14) : Sr := ⟨maj, d, a, fld i 8 6, fld i 0 8⟩

/-- The 20-bit immediate of format SU. -/
def Sr.imm20 (x : Sr) : BitVec 20 := x.a ++ x.b ++ x.fn

def Sr.su (maj d : BitVec 6) (i : BitVec 20) : Sr := ⟨maj, d, fld i 14 6, fld i 8 6, fld i 0 8⟩

/-- The low 26 bits, which formats SB, SJ and the words of a format of their own divide. -/
def Sr.low26 (x : Sr) : BitVec 26 := x.d ++ x.a ++ x.b ++ x.fn

def Sr.sj (maj : BitVec 6) (i : BitVec 26) : Sr := ⟨maj, fld i 20 6, fld i 14 6, fld i 8 6, fld i 0 8⟩

/-- A word of format SB: cc, ga, gb, off10 (R71). -/
def Sr.sb (maj : BitVec 6) (c : BitVec 4) (a b : BitVec 6) (o : BitVec 10) : Sr := Sr.sj maj (c ++ a ++ b ++ o)

/-- ALU.R operations by fn[5:0] (R74). -/
def decodeAlu (d a b : GReg) (w : Bool) (op : Nat) : Except Reject Instr :=
  match op with
  | 0 => .ok (.add d a b w)
  | 1 => .ok (.sub d a b w)
  | 2 => .ok (.mul d a b w)
  | 3 => .ok (.mulhI d a b w)
  | 4 => .ok (.mulhN d a b w)
  | 5 => .ok (.divI d a b w)
  | 6 => .ok (.divN d a b w)
  | 7 => .ok (.remI d a b w)
  | 8 => .ok (.remN d a b w)
  | 9 => .ok (.and d a b w)
  | 10 => .ok (.or d a b w)
  | 11 => .ok (.xor d a b w)
  | 12 => .ok (.andn d a b w)
  | 13 => .ok (.shl d a b w)
  | 14 => .ok (.shr d a b w)
  | 15 => .ok (.sra d a b w)
  | 16 => .ok (.rol d a b w)
  | 17 => .ok (.minI d a b w)
  | 18 => .ok (.minN d a b w)
  | 19 => .ok (.maxI d a b w)
  | 20 => .ok (.maxN d a b w)
  | 21 => need (b == 0) (.popc d a w)
  | 22 => need (b == 0) (.clz d a w)
  | 23 => need (b == 0) (.ctz d a w)
  | _ => .error .function

/-- FPU.R operations by fn[4:0] (R76). -/
def decodeFpu (d a b : GReg) (w : Bool) (r : BitVec 2) (op : Nat) : Except Reject Instr :=
  match op with
  | 0 => .ok (.fadd d a b w (Rm.ofBits r))
  | 1 => .ok (.fsub d a b w (Rm.ofBits r))
  | 2 => .ok (.fmul d a b w (Rm.ofBits r))
  | 3 => .ok (.fdiv d a b w (Rm.ofBits r))
  | 4 => need (b == 0) (.fsqrt d a w (Rm.ofBits r))
  | 5 => need (r == 0) (.fmin d a b w)
  | 6 => need (r == 0) (.fmax d a b w)
  | 7 => need (r == 0) (.fminn d a b w)
  | 8 => need (r == 0) (.fmaxn d a b w)
  | 9 => need (r == 0) (.fcmpEq d a b w)
  | 10 => need (r == 0) (.fcmpLt d a b w)
  | 11 => need (r == 0) (.fcmpLe d a b w)
  | 12 => need (r == 0) (.fcmpUn d a b w)
  | 13 => need (b == 0) (.fcvtF d a w (Rm.ofBits r))
  | 14 => need (b == 0) (.fcvtI d a w (Rm.ofBits r))
  | 15 => need (b == 0) (.fcvtN d a w (Rm.ofBits r))
  | 16 => need (b == 0) (.icvtF d a w (Rm.ofBits r))
  | 17 => need (b == 0) (.ncvtF d a w (Rm.ofBits r))
  | 18 => need (b == 0 && r == 0) (.fclass d a w)
  | _ => .error .function

/-- Atomics by fn[3:0] (R77). -/
def decodeAtom (d a b : GReg) (o : MemOrder) (s w : Bool) (op : Nat) : Except Reject Instr :=
  match op with
  | 0 => .ok (.atomSwap d a b o s w)
  | 1 => .ok (.atomAdd d a b o s w)
  | 2 => .ok (.atomAnd d a b o s w)
  | 3 => .ok (.atomOr d a b o s w)
  | 4 => .ok (.atomXor d a b o s w)
  | 5 => .ok (.atomMinI d a b o s w)
  | 6 => .ok (.atomMaxI d a b o s w)
  | 7 => .ok (.atomMinN d a b o s w)
  | 8 => .ok (.atomMaxN d a b o s w)
  | 9 => if w then .error .function else .ok (.atomFadd d a b o s)
  | 10 => if w then .error .function else .ok (.atomFmax d a b o s)
  | _ => .error .function

/-- The MASK functions (R78). -/
def decodeMask (x : Sr) : Except Reject Instr :=
  match x.fn.toNat with
  | 0 => need (x.d == 0 && x.a == 0 && fld x.b 3 3 == 0) (.msplit (fld x.b 0 3))
  | 1 => need (x.d == 0 && x.a == 0 && x.b == 0) .melse
  | 2 => need (x.d == 0 && x.a == 0 && x.b == 0) .mjoin
  | 3 => need (fld x.a 5 1 == 0 && x.b == 0) (.mrd x.d (fld x.a 0 5))
  | 4 => need (fld x.d 5 1 == 0 && x.b == 0) (.mwr (fld x.d 0 5) x.a)
  | 5 => need (x.a == 0 && x.b == 0) (.mcnt x.d)
  | _ => .error .function

/-- The SYNC functions (R80, R224). -/
def decodeSync (x : Sr) : Except Reject Instr :=
  match x.fn.toNat with
  | 0 => need (x.d == 0) (.syinit x.a x.b)
  | 1 => need (x.a == 0) (.sya x.d x.b)
  | 2 => .ok (.syw x.d x.a x.b)
  | 3 => .ok (.sytest x.d x.a x.b)
  | 4 => need (x.d == 0) (.syexp x.a x.b)
  | 5 => need (x.a == 0) (.sywb x.d x.b)
  | 6 => need (x.d == 0) (.syclr x.a x.b)
  | 7 => need (x.a == 0) (.rget x.d x.b)
  | 8 => need (x.d == 0 && x.a == 0) (.rrel x.b)
  | 9 => need (x.a == 0) (.rput x.d x.b)
  | 10 => need (x.d == 0 && x.a == 0) (.rdone x.b)
  | _ => .error .function

/-- FENCE.X and IFENCE (R73). -/
def decodeFence (x : Sr) : Except Reject Instr :=
  if fld x.fn 7 1 == 1 then need (x.d == 0 && x.a == 0 && x.b == 0 && fld x.fn 0 7 == 0) .ifence
  else need (fld x.d 4 2 == 0 && fld x.a 4 2 == 0 && x.b == 0 && fld x.fn 0 7 == 0)
    (.fenceX (fld x.d 0 4) (fld x.a 0 4))

/-- The CSR instruction (R66): the operation in imm14[13:12], the number in imm14[11:0]. -/
def decodeCsr (x : Sr) : Except Reject Instr :=
  match (fld x.imm14 12 2).toNat with
  | 0 => need (x.a == 0) (.csrr x.d (fld x.imm14 0 12))
  | 1 => .ok (.csrw x.d x.a (fld x.imm14 0 12))
  | 2 => .ok (.csrs x.d x.a (fld x.imm14 0 12))
  | _ => .ok (.csrc x.d x.a (fld x.imm14 0 12))

/-- The SYS functions (R81, R55). -/
def decodeSys (x : Sr) : Except Reject Instr :=
  match x.fn.toNat with
  | 0 => need (x.d == 0 && x.a == 0 && x.b == 0) .syscall
  | 1 => need (x.d == 0 && x.b == 0) (.trap x.a)
  | 2 => need (x.d == 0 && x.a == 0 && x.b == 0) .bkpt
  | 3 => need (x.d == 0 && x.a == 0 && x.b == 0) .yield
  | 4 => need (x.d == 0 && x.a == 0 && x.b == 0) .exit
  | 5 => need (x.d == 0) (.fetchwork x.a x.b)
  | 7 => need (x.d == 0 && x.a == 0 && x.b == 0) .eret
  | 8 => need (x.d == 0) (.tlbinv x.a x.b)
  | 9 => need (x.d == 0 && x.a == 0 && x.b == 0) .cflush
  | _ => .error .function

/-- SHI (R73, R96): imm14[13:12] the operation, [11] the width, [10:6] zero, [5:0] the amount. -/
def decodeShi (x : Sr) : Except Reject Instr :=
  let w := fld x.imm14 11 1 == 1
  let n := fld x.imm14 0 6
  match (fld x.imm14 12 2).toNat with
  | 0 => need (fld x.imm14 6 5 == 0) (.shli x.d x.a w n)
  | 1 => need (fld x.imm14 6 5 == 0) (.shri x.d x.a w n)
  | 2 => need (fld x.imm14 6 5 == 0) (.srai x.d x.a w n)
  | _ => .error .function

/-- Branches of format SB by major and cc. -/
def decodeBranch (x : Sr) : Except Reject Instr :=
  let l := x.low26
  let cc := (fld l 22 4).toNat
  let a := fld l 16 6
  let b := fld l 10 6
  let o := fld l 0 10
  match x.maj.toNat with
  | 0x18 => match Cond.ofCode cc with
    | some c => .ok (.b c a b o)
    | none => .error .function
  | 0x19 => match cc with
    | 0 => need (b == 0) (.bz a o)
    | 1 => need (b == 0) (.bnz a o)
    | _ => .error .function
  | 0x1D => match Cond.ofCode cc with
    | some c => .ok (.bspec c a b (fld l 9 1 == 1) (fld l 0 9))
    | none => .error .function
  | _ => match cc with
    | 0 => need (a == 0 && b == 0) (.bmz o)
    | 1 => need (a == 0 && b == 0) (.bmf o)
    | _ => .error .function

/-- Loads and stores of format SM; a store of a zero-extended size is ILLEGAL (R175). -/
def decodeMem (x : Sr) : Except Reject Instr :=
  let p := fld x.imm14 10 1 == 1
  let i := fld x.imm14 0 10
  match MemSize.ofBits (fld x.imm14 11 3) with
  | none => .error .function
  | some z =>
    match x.maj.toNat with
    | 0x10 => .ok (.ld x.d x.a z p i)
    | 0x11 => if z.storable then .ok (.st x.d x.a z p i) else .error .function
    | 0x12 => .ok (.ldAcq x.d x.a z p i)
    | _ => if z.storable then .ok (.stRel x.d x.a z p i) else .error .function

/-- A scalar word (R71 to R81). -/
def decodeScalar (w : W32) : Except Reject Instr :=
  let x := Sr.of w
  let l := x.low26
  match x.maj.toNat with
  | 0x01 => if fld x.fn 7 1 == 1 then .error .function else decodeAlu x.d x.a x.b (fld x.fn 6 1 == 1) (fld x.fn 0 6).toNat
  | 0x02 => .ok (.addi x.d x.a x.imm14)
  | 0x03 => .ok (.andi x.d x.a x.imm14)
  | 0x04 => .ok (.ori x.d x.a x.imm14)
  | 0x05 => .ok (.xori x.d x.a x.imm14)
  | 0x06 => decodeShi x
  | 0x07 => .ok (.lih x.d x.imm20)
  | 0x08 => .ok (.lix x.d x.imm20)
  | 0x0A => if fld x.fn 7 1 == 1 then .error .function else
      match Cond.ofCode (fld x.fn 0 6).toNat with
      | some c => .ok (.cmp x.d x.a x.b (fld x.fn 6 1 == 1) c)
      | none => .error .function
  | 0x0C => decodeFpu x.d x.a x.b (fld x.fn 7 1 == 1) (fld x.fn 5 2) (fld x.fn 0 5).toNat
  | 0x0D => need (fld x.fn 0 5 == 0) (.ffma x.d x.a x.b (fld x.fn 7 1 == 1) (Rm.ofBits (fld x.fn 5 2)))
  | 0x10 | 0x11 | 0x12 | 0x13 => decodeMem x
  | 0x14 => decodeAtom x.d x.a x.b (MemOrder.ofBits (fld x.fn 6 2)) (fld x.fn 5 1 == 1) (fld x.fn 4 1 == 1) (fld x.fn 0 4).toNat
  | 0x15 => need (fld x.fn 0 4 == 0) (.cas x.d x.a x.b (MemOrder.ofBits (fld x.fn 6 2)) (fld x.fn 5 1 == 1) (fld x.fn 4 1 == 1))
  | 0x18 | 0x19 | 0x1D | 0x21 => decodeBranch x
  | 0x1A => .ok (.j l)
  | 0x1B => .ok (.jal l)
  | 0x1C => .ok (.jalr x.d x.a x.imm14)
  | 0x20 => decodeMask x
  | 0x22 => .ok (.lx (fld l 22 4) (fld l 0 22))
  | 0x23 => need (fld x.d 0 4 == 0 && x.b == 0 && x.fn == 0) (.qset (fld x.d 4 2) x.a)
  | 0x24 => need (fld l 4 22 == 0) (.waitl (fld l 0 4))
  | 0x28 => need (fld x.d 4 2 == 0 && x.b == 0 && x.fn == 0) (.obres (fld x.d 0 4) x.a)
  | 0x29 => need (fld x.d 4 2 == 0 && x.a == 0 && x.b == 0 && x.fn == 0) (.obrel (fld x.d 0 4))
  | 0x2A => need (fld x.d 4 2 == 0 && x.b == 0 && x.fn == 0) (.panel (fld x.d 0 4) x.a)
  | 0x2B => need (fld l 0 19 == 0) (.mzero (fld l 21 5) (fld l 19 2))
  | 0x2C => need (fld l 2 5 == 0) (.mma (fld l 21 5) (fld l 17 4) (fld l 13 4) (fld l 7 6) (fld l 0 2))
  | 0x2D => need (fld l 20 1 == 0 && fld l 0 14 == 0) (.mdrain (fld l 21 5) x.a)
  | 0x2E => need (x.imm20 == 0) (.mcommit x.d)
  | 0x2F => need (x.d == 0 && x.b == 0 && x.fn == 0) (.mwait x.a)
  | 0x30 => decodeSync x
  | 0x31 => decodeFence x
  | 0x32 => decodeCsr x
  | 0x33 => decodeSys x
  | 0x34 => need (fld l 11 15 == 0) (.widen (fld l 0 11))
  | _ => .error .opcode

/-- The fields of a lane instruction beside its opcode (R82). -/
def LaneOps.of (w : W96) : LaneOps :=
  { ty := fld w 82 4, vd := fld w 74 8, va := fld w 66 8, srcb := fld w 64 2, vb := fld w 56 8, vc := fld w 48 8,
    pen := fld w 47 1 == 1, pneg := fld w 46 1 == 1, pidx := fld w 43 3, look := fld w 39 4, rm := fld w 37 2,
    sat := fld w 36 1 == 1, mode := fld w 32 4, imm := fld w 0 32 }

/-- One bit of a word. -/
def bit1 (b : Bool) : BitVec 1 := BitVec.ofBool b

def LaneOps.word (op : BitVec 10) (o : LaneOps) : W96 :=
  op ++ o.ty ++ o.vd ++ o.va ++ o.srcb ++ o.vb ++ o.vc ++ bit1 o.pen ++ bit1 o.pneg ++ o.pidx ++ o.look ++ o.rm
    ++ bit1 o.sat ++ o.mode ++ o.imm

/-- A lane instruction (R82, R83); what R83 takes from the team is checked at the LX. -/
def decodeLane (w : W96) : Except Reject Instr :=
  let op := (fld w 86 10).toNat
  let o := LaneOps.of w
  match laneCtor op with
  | none => .error .opcode
  | some f => if laneStatic op o then .ok (f o) else .error .laneField

/-- The fields of a copy instruction (R196), its word 0 in bits [31:0]. -/
def CopyOps.of (w : BitVec 256) : CopyOps :=
  { dsp := fld w 22 2, ssp := fld w 20 2, kind := fld w 18 2, notify := fld w 17 1 == 1, order := fld w 16 1 == 1,
    slot := fld w 10 6, rm := fld w 8 2, sfmt := fld w 4 4, dfmt := fld w 0 4, src := fld w 32 64, dst := fld w 96 64,
    xext := fld w 160 16, yext := fld w 176 16, spitch := fld w 192 20, zext := fld w 212 12, w7 := fld w 224 32 }

def CopyOps.word (op : BitVec 8) (c : CopyOps) : BitVec 256 :=
  c.w7 ++ c.zext ++ c.spitch ++ c.yext ++ c.xext ++ c.dst ++ c.src ++ op ++ c.dsp ++ c.ssp ++ c.kind ++ bit1 c.notify
    ++ bit1 c.order ++ c.slot ++ c.rm ++ c.sfmt ++ c.dfmt

/-- The opcode of a copy entry (R197). -/
def Instr.copyOp : Instr → Option (Nat × CopyOps)
  | .cNop c => some (0, c)
  | .cCopy c => some (1, c)
  | .cGather c => some (2, c)
  | .cFill c => some (3, c)
  | .cSload c => some (4, c)
  | .cOvl c => some (5, c)
  | .cRestrict c => some (6, c)
  | .cProlong c => some (7, c)
  | .cSeal c => some (8, c)
  | .cUnseal c => some (9, c)
  | .cSignal c => some (10, c)
  | .cWaity c => some (11, c)
  | _ => none

/-- A copy entry (R197). -/
def decodeCopy (w : BitVec 256) : Except Reject Instr :=
  let c := CopyOps.of w
  match (fld w 24 8).toNat with
  | 0 => .ok (.cNop c)
  | 1 => .ok (.cCopy c)
  | 2 => .ok (.cGather c)
  | 3 => .ok (.cFill c)
  | 4 => .ok (.cSload c)
  | 5 => .ok (.cOvl c)
  | 6 => .ok (.cRestrict c)
  | 7 => .ok (.cProlong c)
  | 8 => .ok (.cSeal c)
  | 9 => .ok (.cUnseal c)
  | 10 => .ok (.cSignal c)
  | 11 => .ok (.cWaity c)
  | _ => .error .opcode

/-- The word of a scalar instruction (R71 to R81); none for the other steps. -/
def encodeScalar : Instr → Option W32
  | .add d a b w => some (Sr.word ⟨0x01, d, a, b, 0#1 ++ bit1 w ++ 0#6⟩)
  | .sub d a b w => some (Sr.word ⟨0x01, d, a, b, 0#1 ++ bit1 w ++ 1#6⟩)
  | .mul d a b w => some (Sr.word ⟨0x01, d, a, b, 0#1 ++ bit1 w ++ 2#6⟩)
  | .mulhI d a b w => some (Sr.word ⟨0x01, d, a, b, 0#1 ++ bit1 w ++ 3#6⟩)
  | .mulhN d a b w => some (Sr.word ⟨0x01, d, a, b, 0#1 ++ bit1 w ++ 4#6⟩)
  | .divI d a b w => some (Sr.word ⟨0x01, d, a, b, 0#1 ++ bit1 w ++ 5#6⟩)
  | .divN d a b w => some (Sr.word ⟨0x01, d, a, b, 0#1 ++ bit1 w ++ 6#6⟩)
  | .remI d a b w => some (Sr.word ⟨0x01, d, a, b, 0#1 ++ bit1 w ++ 7#6⟩)
  | .remN d a b w => some (Sr.word ⟨0x01, d, a, b, 0#1 ++ bit1 w ++ 8#6⟩)
  | .and d a b w => some (Sr.word ⟨0x01, d, a, b, 0#1 ++ bit1 w ++ 9#6⟩)
  | .or d a b w => some (Sr.word ⟨0x01, d, a, b, 0#1 ++ bit1 w ++ 10#6⟩)
  | .xor d a b w => some (Sr.word ⟨0x01, d, a, b, 0#1 ++ bit1 w ++ 11#6⟩)
  | .andn d a b w => some (Sr.word ⟨0x01, d, a, b, 0#1 ++ bit1 w ++ 12#6⟩)
  | .shl d a b w => some (Sr.word ⟨0x01, d, a, b, 0#1 ++ bit1 w ++ 13#6⟩)
  | .shr d a b w => some (Sr.word ⟨0x01, d, a, b, 0#1 ++ bit1 w ++ 14#6⟩)
  | .sra d a b w => some (Sr.word ⟨0x01, d, a, b, 0#1 ++ bit1 w ++ 15#6⟩)
  | .rol d a b w => some (Sr.word ⟨0x01, d, a, b, 0#1 ++ bit1 w ++ 16#6⟩)
  | .minI d a b w => some (Sr.word ⟨0x01, d, a, b, 0#1 ++ bit1 w ++ 17#6⟩)
  | .minN d a b w => some (Sr.word ⟨0x01, d, a, b, 0#1 ++ bit1 w ++ 18#6⟩)
  | .maxI d a b w => some (Sr.word ⟨0x01, d, a, b, 0#1 ++ bit1 w ++ 19#6⟩)
  | .maxN d a b w => some (Sr.word ⟨0x01, d, a, b, 0#1 ++ bit1 w ++ 20#6⟩)
  | .popc d a w => some (Sr.word ⟨0x01, d, a, 0, 0#1 ++ bit1 w ++ 21#6⟩)
  | .clz d a w => some (Sr.word ⟨0x01, d, a, 0, 0#1 ++ bit1 w ++ 22#6⟩)
  | .ctz d a w => some (Sr.word ⟨0x01, d, a, 0, 0#1 ++ bit1 w ++ 23#6⟩)
  | .addi d a i => some (Sr.word (Sr.si 0x02 d a i))
  | .andi d a i => some (Sr.word (Sr.si 0x03 d a i))
  | .ori d a i => some (Sr.word (Sr.si 0x04 d a i))
  | .xori d a i => some (Sr.word (Sr.si 0x05 d a i))
  | .shli d a w n => some (Sr.word (Sr.si 0x06 d a (0#2 ++ bit1 w ++ 0#5 ++ n)))
  | .shri d a w n => some (Sr.word (Sr.si 0x06 d a (1#2 ++ bit1 w ++ 0#5 ++ n)))
  | .srai d a w n => some (Sr.word (Sr.si 0x06 d a (2#2 ++ bit1 w ++ 0#5 ++ n)))
  | .lih d i => some (Sr.word (Sr.su 0x07 d i))
  | .lix d i => some (Sr.word (Sr.su 0x08 d i))
  | .cmp d a b w c => some (Sr.word ⟨0x0A, d, a, b, 0#1 ++ bit1 w ++ BitVec.ofNat 6 c.code⟩)
  | .fadd d a b w r => some (Sr.word ⟨0x0C, d, a, b, bit1 w ++ r.bits ++ 0#5⟩)
  | .fsub d a b w r => some (Sr.word ⟨0x0C, d, a, b, bit1 w ++ r.bits ++ 1#5⟩)
  | .fmul d a b w r => some (Sr.word ⟨0x0C, d, a, b, bit1 w ++ r.bits ++ 2#5⟩)
  | .fdiv d a b w r => some (Sr.word ⟨0x0C, d, a, b, bit1 w ++ r.bits ++ 3#5⟩)
  | .fsqrt d a w r => some (Sr.word ⟨0x0C, d, a, 0, bit1 w ++ r.bits ++ 4#5⟩)
  | .fmin d a b w => some (Sr.word ⟨0x0C, d, a, b, bit1 w ++ 0#2 ++ 5#5⟩)
  | .fmax d a b w => some (Sr.word ⟨0x0C, d, a, b, bit1 w ++ 0#2 ++ 6#5⟩)
  | .fminn d a b w => some (Sr.word ⟨0x0C, d, a, b, bit1 w ++ 0#2 ++ 7#5⟩)
  | .fmaxn d a b w => some (Sr.word ⟨0x0C, d, a, b, bit1 w ++ 0#2 ++ 8#5⟩)
  | .fcmpEq d a b w => some (Sr.word ⟨0x0C, d, a, b, bit1 w ++ 0#2 ++ 9#5⟩)
  | .fcmpLt d a b w => some (Sr.word ⟨0x0C, d, a, b, bit1 w ++ 0#2 ++ 10#5⟩)
  | .fcmpLe d a b w => some (Sr.word ⟨0x0C, d, a, b, bit1 w ++ 0#2 ++ 11#5⟩)
  | .fcmpUn d a b w => some (Sr.word ⟨0x0C, d, a, b, bit1 w ++ 0#2 ++ 12#5⟩)
  | .fcvtF d a w r => some (Sr.word ⟨0x0C, d, a, 0, bit1 w ++ r.bits ++ 13#5⟩)
  | .fcvtI d a w r => some (Sr.word ⟨0x0C, d, a, 0, bit1 w ++ r.bits ++ 14#5⟩)
  | .fcvtN d a w r => some (Sr.word ⟨0x0C, d, a, 0, bit1 w ++ r.bits ++ 15#5⟩)
  | .icvtF d a w r => some (Sr.word ⟨0x0C, d, a, 0, bit1 w ++ r.bits ++ 16#5⟩)
  | .ncvtF d a w r => some (Sr.word ⟨0x0C, d, a, 0, bit1 w ++ r.bits ++ 17#5⟩)
  | .fclass d a w => some (Sr.word ⟨0x0C, d, a, 0, bit1 w ++ 0#2 ++ 18#5⟩)
  | .ffma d a b w r => some (Sr.word ⟨0x0D, d, a, b, bit1 w ++ r.bits ++ 0#5⟩)
  | .ld d a s p i => some (Sr.word (Sr.si 0x10 d a (s.bits ++ bit1 p ++ i)))
  | .st d a s p i => some (Sr.word (Sr.si 0x11 d a (s.bits ++ bit1 p ++ i)))
  | .ldAcq d a s p i => some (Sr.word (Sr.si 0x12 d a (s.bits ++ bit1 p ++ i)))
  | .stRel d a s p i => some (Sr.word (Sr.si 0x13 d a (s.bits ++ bit1 p ++ i)))
  | .atomSwap d a b o s w => some (Sr.word ⟨0x14, d, a, b, o.bits ++ bit1 s ++ bit1 w ++ 0#4⟩)
  | .atomAdd d a b o s w => some (Sr.word ⟨0x14, d, a, b, o.bits ++ bit1 s ++ bit1 w ++ 1#4⟩)
  | .atomAnd d a b o s w => some (Sr.word ⟨0x14, d, a, b, o.bits ++ bit1 s ++ bit1 w ++ 2#4⟩)
  | .atomOr d a b o s w => some (Sr.word ⟨0x14, d, a, b, o.bits ++ bit1 s ++ bit1 w ++ 3#4⟩)
  | .atomXor d a b o s w => some (Sr.word ⟨0x14, d, a, b, o.bits ++ bit1 s ++ bit1 w ++ 4#4⟩)
  | .atomMinI d a b o s w => some (Sr.word ⟨0x14, d, a, b, o.bits ++ bit1 s ++ bit1 w ++ 5#4⟩)
  | .atomMaxI d a b o s w => some (Sr.word ⟨0x14, d, a, b, o.bits ++ bit1 s ++ bit1 w ++ 6#4⟩)
  | .atomMinN d a b o s w => some (Sr.word ⟨0x14, d, a, b, o.bits ++ bit1 s ++ bit1 w ++ 7#4⟩)
  | .atomMaxN d a b o s w => some (Sr.word ⟨0x14, d, a, b, o.bits ++ bit1 s ++ bit1 w ++ 8#4⟩)
  | .atomFadd d a b o s => some (Sr.word ⟨0x14, d, a, b, o.bits ++ bit1 s ++ 0#1 ++ 9#4⟩)
  | .atomFmax d a b o s => some (Sr.word ⟨0x14, d, a, b, o.bits ++ bit1 s ++ 0#1 ++ 10#4⟩)
  | .cas d a b o s w => some (Sr.word ⟨0x15, d, a, b, o.bits ++ bit1 s ++ bit1 w ++ 0#4⟩)
  | .b c a b o => some (Sr.word (Sr.sb 0x18 (BitVec.ofNat 4 c.code) a b o))
  | .bz a o => some (Sr.word (Sr.sb 0x19 0 a 0 o))
  | .bnz a o => some (Sr.word (Sr.sb 0x19 1 a 0 o))
  | .j o => some (Sr.word (Sr.sj 0x1A o))
  | .jal o => some (Sr.word (Sr.sj 0x1B o))
  | .jalr d a i => some (Sr.word (Sr.si 0x1C d a i))
  | .bspec c a b h o => some (Sr.word (Sr.sb 0x1D (BitVec.ofNat 4 c.code) a b (bit1 h ++ o)))
  | .msplit p => some (Sr.word ⟨0x20, 0, 0, 0#3 ++ p, 0⟩)
  | .melse => some (Sr.word ⟨0x20, 0, 0, 0, 1⟩)
  | .mjoin => some (Sr.word ⟨0x20, 0, 0, 0, 2⟩)
  | .mrd d k => some (Sr.word ⟨0x20, d, 0#1 ++ k, 0, 3⟩)
  | .mwr k a => some (Sr.word ⟨0x20, 0#1 ++ k, a, 0, 4⟩)
  | .mcnt d => some (Sr.word ⟨0x20, d, 0, 0, 5⟩)
  | .bmz o => some (Sr.word (Sr.sb 0x21 0 0 0 o))
  | .bmf o => some (Sr.word (Sr.sb 0x21 1 0 0 o))
  | .lx n i => some (Sr.word (Sr.sj 0x22 (n ++ i)))
  | .qset q a => some (Sr.word ⟨0x23, q ++ 0#4, a, 0, 0⟩)
  | .waitl n => some (Sr.word (Sr.sj 0x24 (0#22 ++ n)))
  | .obres r a => some (Sr.word ⟨0x28, 0#2 ++ r, a, 0, 0⟩)
  | .obrel r => some (Sr.word ⟨0x29, 0#2 ++ r, 0, 0, 0⟩)
  | .panel p a => some (Sr.word ⟨0x2A, 0#2 ++ p, a, 0, 0⟩)
  | .mzero t n => some (Sr.word (Sr.sj 0x2B (t ++ n ++ 0#19)))
  | .mma t r p x f => some (Sr.word (Sr.sj 0x2C (t ++ r ++ p ++ x ++ 0#5 ++ f)))
  | .mdrain t a => some (Sr.word (Sr.sj 0x2D (t ++ 0#1 ++ a ++ 0#14)))
  | .mcommit d => some (Sr.word (Sr.su 0x2E d 0))
  | .mwait a => some (Sr.word ⟨0x2F, 0, a, 0, 0⟩)
  | .syinit a s => some (Sr.word ⟨0x30, 0, a, s, 0⟩)
  | .sya d s => some (Sr.word ⟨0x30, d, 0, s, 1⟩)
  | .syw d a s => some (Sr.word ⟨0x30, d, a, s, 2⟩)
  | .sytest d a s => some (Sr.word ⟨0x30, d, a, s, 3⟩)
  | .syexp a s => some (Sr.word ⟨0x30, 0, a, s, 4⟩)
  | .sywb d s => some (Sr.word ⟨0x30, d, 0, s, 5⟩)
  | .syclr a s => some (Sr.word ⟨0x30, 0, a, s, 6⟩)
  | .rget d s => some (Sr.word ⟨0x30, d, 0, s, 7⟩)
  | .rrel s => some (Sr.word ⟨0x30, 0, 0, s, 8⟩)
  | .rput d s => some (Sr.word ⟨0x30, d, 0, s, 9⟩)
  | .rdone s => some (Sr.word ⟨0x30, 0, 0, s, 10⟩)
  | .fenceX f t => some (Sr.word ⟨0x31, 0#2 ++ f, 0#2 ++ t, 0, 0⟩)
  | .ifence => some (Sr.word ⟨0x31, 0, 0, 0, 0x80⟩)
  | .csrr d c => some (Sr.word (Sr.si 0x32 d 0 (0#2 ++ c)))
  | .csrw d a c => some (Sr.word (Sr.si 0x32 d a (1#2 ++ c)))
  | .csrs d a c => some (Sr.word (Sr.si 0x32 d a (2#2 ++ c)))
  | .csrc d a c => some (Sr.word (Sr.si 0x32 d a (3#2 ++ c)))
  | .syscall => some (Sr.word ⟨0x33, 0, 0, 0, 0⟩)
  | .trap a => some (Sr.word ⟨0x33, 0, a, 0, 1⟩)
  | .bkpt => some (Sr.word ⟨0x33, 0, 0, 0, 2⟩)
  | .yield => some (Sr.word ⟨0x33, 0, 0, 0, 3⟩)
  | .exit => some (Sr.word ⟨0x33, 0, 0, 0, 4⟩)
  | .fetchwork a b => some (Sr.word ⟨0x33, 0, a, b, 5⟩)
  | .eret => some (Sr.word ⟨0x33, 0, 0, 0, 7⟩)
  | .tlbinv a b => some (Sr.word ⟨0x33, 0, a, b, 8⟩)
  | .cflush => some (Sr.word ⟨0x33, 0, 0, 0, 9⟩)
  | .widen w => some (Sr.word (Sr.sj 0x34 (0#15 ++ w)))
  | _ => none

/-- The 96-bit word of a lane instruction (R82). -/
def encodeLane (i : Instr) : Option W96 := i.laneOp.map (fun x => LaneOps.word (BitVec.ofNat 10 x.1) x.2)

/-- The 256 bits of a copy entry (R196). -/
def encodeCopy (i : Instr) : Option (BitVec 256) := i.copyOp.map (fun x => CopyOps.word (BitVec.ofNat 8 x.1) x.2)

/-- The 32-bit words of an instruction, the one at the lowest address first (R3, R16, R196); a step without an encoding has none. -/
def encode (i : Instr) : List W32 :=
  match encodeScalar i, encodeLane i, encodeCopy i with
  | some w, _, _ => [w]
  | _, some w, _ => [fld w 64 32, fld w 32 32, fld w 0 32]
  | _, _, some w => (List.range 8).map (fun k => fld w (32 * k) 32)
  | none, none, none => []

/-- The lane instruction whose three words stand in storage order, word 0 (bits [95:64]) first (R16). -/
def laneOfWords (w0 w1 w2 : W32) : W96 := w0 ++ w1 ++ w2

/-- The first k little-endian words of a number. -/
def wordsOf (k w : Nat) : List W32 := (List.range k).map (fun i => BitVec.ofNat 32 (w >>> (32 * i)))

/-- The instruction this decoder reads from table bits: one scalar word, three lane words or eight copy words, the first word in the low bits. -/
def decodeTableWord (nbits w : Nat) : Option Instr :=
  if nbits ≤ 32 then (decodeScalar (BitVec.ofNat 32 w)).toOption
  else if nbits ≤ 96 then
    (decodeLane (laneOfWords (BitVec.ofNat 32 w) (BitVec.ofNat 32 (w >>> 32)) (BitVec.ofNat 32 (w >>> 64)))).toOption
  else if nbits ≤ 256 then (decodeCopy (BitVec.ofNat 256 w)).toOption
  else none

end Sys2Proof
end

