-- ==== Sys2Proof/Machine/Flags.lean ====
section
/-! DEFINITION. The FP event flags a result sets: which counters a floating-point result adds to (R64, R100, R107, R130). -/

namespace Sys2Proof.Machine

open Sys2Proof.Fp hiding Num

/-- The format of a scalar floating-point width: f32, or f64 (R76). -/
def scalarFmt (w : Bool) : Fmt := if w then f64 else f32

/-- The bits of a g register as a value of a scalar format: an f32 operand ignores the upper half (R100). -/
def fpBits (w : Bool) (x : W64) : Nat := if w then x.toNat else x.toNat % 2 ^ 32

/-- A scalar floating-point result as a g register holds it: an f32 below 32 ones (R100). -/
def fpReg (w : Bool) (n : Nat) : W64 := if w then BitVec.ofNat 64 n else 0xFFFFFFFF00000000 ||| BitVec.ofNat 64 (n % 2 ^ 32)

/-- The counter numbers of a result's events in a format (R64). -/
def countsOf (r : Res) (f : Fmt) : List Nat := r.ev.map (fun e => e.num f.code)

end Sys2Proof.Machine
end

