-- ==== Sys2Proof/Machine/Operands.lean ====
section
/-! DEFINITION. Operand forms: the plans of memory accesses (R50, R51, R171, R172, R176), and the operands, destinations and active lanes of lane instructions (R89, R134 to R138). -/

namespace Sys2Proof.Machine

/-! ## Plans of memory accesses -/

/-- Why an access does not perform: a trap with its TVAL, a page fault with its access kind and address. -/
inductive Stop where
  | trap (code : Nat) (val : W64)
  | page (kind : Nat) (va : W64)
  deriving DecidableEq, Repr

/-- An access that may perform: its pieces in order, and the translations it uses. -/
structure Plan where
  pieces : List Piece
  used : List TlbEntry
  deriving DecidableEq, Repr

/-- The physical pieces of a plan. -/
def Plan.phys (p : Plan) : List (Nat × Nat) :=
  p.pieces.filterMap (fun x => match x with | .phys a n => some (a, n) | .loc _ _ | .ob _ _ => none)

/-- Page-fault kind of a team's access (R329): 0 for a load, 1 for a store or an atomic. -/
def kindOf : Need → Nat
  | .write => 1
  | _ => 0

/-- A run of global bytes: canonical form, then translation of every page (R171, R172). -/
def globalPlan (s : State) (sp : Space) (need : Need) (a : W64) (n : Nat) : Except Stop Plan :=
  if !canonicalRun a n then .error (.trap 0x07 a)
  else match xlate s sp need (pagesOf a n) with
    | .error va => .error (.page (kindOf need) va)
    | .ok r => .ok { pieces := r.parts.map (fun x => .phys x.1 x.2), used := r.used }

/-- Local bytes split at the 16 KiB blocks: offset and length. -/
def blockPieces : Nat → Nat → Nat → List (Nat × Nat)
  | 0, _, _ => []
  | fuel + 1, a, n =>
    if n = 0 then []
    else
      let k := min n (16384 - a % 16384)
      (a, k) :: blockPieces fuel (a + k) (n - k)

/-- The global address of a spill-backed local byte (R51). -/
def spillAddr (s : State) (b : Block) (a : Nat) : W64 :=
  let l := s.launch b.launch
  l.spillBase + BitVec.ofNat 64 ((b.lin * l.hdr.lblk + a / 16384) * 16384 + a % 16384)

/-- The plan of local pieces: blocks with a physical block stay local, the others lie at their spill addresses (R51). -/
def localParts (s : State) (sp : Space) (b : Block) (need : Need) : List (Nat × Nat) → Except Stop Plan
  | [] => .ok { pieces := [], used := [] }
  | (a, n) :: ps =>
    match localParts s sp b need ps with
    | .error e => (if a / 16384 < b.ltab.length then .error e
        else match globalPlan s sp need (spillAddr s b a) n with
          | .error e' => .error e'
          | .ok _ => .error e)
    | .ok r =>
      if a / 16384 < b.ltab.length then .ok { r with pieces := .loc a n :: r.pieces }
      else match globalPlan s sp need (spillAddr s b a) n with
        | .error e => .error e
        | .ok q => .ok { pieces := q.pieces ++ r.pieces, used := q.used ++ r.used }

/-- LOCALRANGE, at or above LBLK × 16 KiB (R50, R176). -/
def localPlan (s : State) (sp : Space) (b : Block) (need : Need) (a : W64) (n : Nat) : Except Stop Plan :=
  if (s.launch b.launch).hdr.lblk * 16384 < a.toNat + n then .error (.trap 0x08 a)
  else localParts s sp b need (blockPieces (n / 16384 + 2) a.toNat n)

/-- The plan of a team's access: global, or local of its block (R176). -/
def accessPlan (s : State) (t : Nat) (loc : Bool) (need : Need) (a : W64) (n : Nat) : Except Stop Plan :=
  if loc then localPlan s (s.spaceOf t) (s.blockOf t) need a n else globalPlan s (s.spaceOf t) need a n

/-- Where a piece of a block's access lies. -/
def Piece.place (blk : Nat) : Piece → Place
  | .loc _ _ => .loc blk
  | .ob _ _ => .ob blk
  | .phys _ _ => .phys

def Piece.addr : Piece → Nat
  | .loc a _ => a
  | .ob a _ => a
  | .phys a _ => a

def Piece.len : Piece → Nat
  | .loc _ n => n
  | .ob _ n => n
  | .phys _ n => n

/-- The bytes of a block's plan as an agent's plain read finds them; `nth` tells the reads of one step apart. -/
def planBytesNth (s : State) (p : Path) (blk nth : Nat) (x : Plan) : List Byte :=
  x.pieces.flatMap (fun y => placeSeenNth s p nth (y.place blk) y.addr y.len)

def planBytes (s : State) (p : Path) (blk : Nat) (x : Plan) : List Byte := planBytesNth s p blk 0 x

/-- A piece cut out of a piece. -/
def Piece.part (y : Piece) (off n : Nat) : Piece :=
  match y with
  | .loc a _ => .loc (a + off) n
  | .ob a _ => .ob (a + off) n
  | .phys a _ => .phys (a + off) n

/-- A plan as its bytes: an unaligned access is performed so (R177). -/
def Plan.bytewise (x : Plan) : List Piece := x.pieces.flatMap (fun y => (List.range y.len).map (fun i => y.part i 1))

/-- The reads of an access: one of its words, or of an unaligned access each byte for itself (R177). -/
def accessReads (aligned : Bool) (x : Plan) : List (Piece × Nat) := if aligned then x.pieces.map (fun y => (y, 0)) else x.bytewise.zipIdx

/-- The bytes that reads find. -/
def readsBytes (s : State) (p : Path) (blk : Nat) (rs : List (Piece × Nat)) : List Byte :=
  rs.flatMap (fun y => placeSeenNth s p y.2 (y.1.place blk) y.1.addr y.1.len)

/-- The words of reads, each with the number of its read. -/
def readsWords (blk : Nat) (rs : List (Piece × Nat)) : List (Nat × Nat) :=
  rs.flatMap (fun y => ((y.1.place blk).words y.1.addr y.1.len).map (fun w => (w, y.2)))

/-- The bytes of a plan as they stand, for an atomic. -/
def planNow (s : State) (blk : Nat) (x : Plan) : List Byte := x.pieces.flatMap (fun y => readPlace s (y.place blk) y.addr y.len)

/-- The words of a plan. -/
def planWords (blk : Nat) (x : Plan) : List Nat := x.pieces.flatMap (fun y => (y.place blk).words y.addr y.len)

/-- A read of a plan waits for the agent's own writes to its words (R174). -/
def planStalls (s : State) (p : Path) (blk : Nat) (x : Plan) : Bool := x.pieces.any (fun y => wordStalls s p (y.place blk) y.addr y.len)

/-- A load of a team waits for its own writes that wait at their home (R174). -/
def loadWaits (s : State) (p : Path) (blk : Nat) (x : Plan) : Bool := x.pieces.any (fun y => loadStalls s p (y.place blk) y.addr y.len)

/-- Note a plain read of a plan. -/
def notePlan (p : Path) (blk : Nat) (x : Plan) : Prog := (noteWords p (planWords blk x)).seq (noteL1 p x.phys)

/-- A plain read of a plan goes on once the lines it misses are there; else it waits. -/
def needRead (p : Path) (x : Plan) (k wait : Prog) : Prog := .get fun s => needLines p .plain (missing s p x.phys) k wait

/-- Write bytes over a plan. -/
def planWrite (w : Writer) : List Piece → List Byte → Prog
  | [], _ => .ret
  | y :: ps, bs => putBytes w (y.place w.blk) y.addr (bs.take y.len) (planWrite w ps (bs.drop y.len))

/-- A list in a free order. -/
def shuffle {α : Type} (f : Nat → Nat) : List α → List α
  | [] => []
  | x :: xs =>
    let ys := shuffle f xs
    let k := f ys.length % (ys.length + 1)
    ys.take k ++ x :: ys.drop k

/-- Write bytes over a plan, or, of an unaligned access, each byte for itself, in a free order (R177). -/
def accessWrite (aligned : Bool) (w : Writer) (x : Plan) (bs : List Byte) : Prog :=
  if aligned then planWrite w x.pieces bs
  else .get fun s =>
    (Prog.one .drawFree).seq (.each (shuffle (fun n => (Config.freeWord s.fresh).toNat / 256 ^ n) (x.bytewise.zip bs)) (fun y => planWrite w [y.1] [y.2]))

/-- A scalar instruction meets a stop (R176, R177); in speculative mode it waits until the speculation resolves (R191). -/
def scalarStop : Stop → Prog
  | .trap c v => trapOrWait c v
  | .page k va => scalarFault k va

/-! ## Lane registers (R134, R135) -/

/-- The value of format code `ty` that a lane's register, or register pair, holds. -/
def Team.lane (t : Team) (ty r l : Nat) : Nat :=
  if wideTy ty then (t.vreg r l).toNat + 2 ^ 32 * (t.vreg (r + 1) l).toNat
  else (t.vreg r l).toNat % 2 ^ Fp.width ty

/-- The register words that a result of format code `ty` writes: signed 8- and 16-bit results sign-extended, the others with zeros above (R135). -/
def laneWords (ty r l x : Nat) : List (Nat × W32) :=
  let w := Fp.width ty
  if w = 64 then [(1024 * r + l, BitVec.ofNat 32 x), (1024 * (r + 1) + l, BitVec.ofNat 32 (x / 2 ^ 32))]
  else if w = 32 then [(1024 * r + l, BitVec.ofNat 32 x)]
  else if ty = 2 ∨ ty = 4 then [(1024 * r + l, (BitVec.ofNat w x).signExtend 32)]
  else [(1024 * r + l, BitVec.ofNat 32 (x % 2 ^ w))]

/-- IMM32 as an operand of TY (R134). -/
def immOperand (ty : Nat) (i : W32) : Nat :=
  if ty = 6 then (i.signExtend 64).toNat
  else if ty = 11 then (Fp.deliver Fp.f64 .rne (Fp.f32.decode i.toNat)).bits
  else i.toNat

/-- The B operand of a lane for TY (R134): a register, the captured q operand, or IMM32. -/
def bOperand (t : Team) (b : Batch) (o : LaneOps) (ty l : Nat) : Nat :=
  if o.srcb = 0 then t.lane ty o.vb.toNat l
  else
    let x := if o.srcb = 1 then (b.q[o.vb.toNat % 4]).toNat else immOperand ty o.imm
    x % 2 ^ Fp.width ty

/-- The B operand as a whole 32-bit register word: packed elements and indices; IMM32 is taken as it stands, where R134 would widen it for TY 11 first (DESIGN CHOICE, log 70), and a register is the single VB for a pair TY too (DESIGN CHOICE, log 69) (R134, R152). -/
def bWord (t : Team) (b : Batch) (o : LaneOps) (l : Nat) : W32 :=
  if o.srcb = 0 then t.vreg o.vb.toNat l else if o.srcb = 1 then (b.q[o.vb.toNat % 4]).setWidth 32 else o.imm

/-! ## Active lanes and groups (R89, R136, R138) -/

/-- The guard is true in a lane. -/
def guardTrue (t : Team) (o : LaneOps) (l : Nat) : Bool :=
  !o.pen || ((LaneMask.bit (t.p[o.pidx.toNat % 8]) l) != o.pneg)

/-- Lanes of the batch's mask, without absent ones. -/
def maskedLanes (t : Team) (b : Batch) : List Nat := (List.range t.width).filter (fun l => LaneMask.bit (b.m &&& t.present) l)

/-- Active lanes, in rising order. -/
def activeLanes (t : Team) (b : Batch) (o : LaneOps) : List Nat := (maskedLanes t b).filter (guardTrue t o)

/-- The group size of PERM, LSHIFT, PACKX and UNPACKX (R138). -/
def groupSize (ardel : Bool) (width : Nat) : Nat := if ardel then 16 else if width < 32 then width else 32

/-- A present lane's value; an absent lane reads zero (R138). -/
def Team.source (t : Team) (ty r l : Nat) : Nat := if LaneMask.bit t.present l then t.lane ty r l else 0

/-! ## Registers that a lane instruction reads and writes (R88) -/

/-- The registers a field names. -/
def fieldRegs (o : LaneOps) (u : FieldUse) (x : BitVec 8) : List Nat :=
  match u with
  | .unused | .below _ => []
  | _ => if u.wide o then [x.toNat, x.toNat + 1] else [x.toNat]

/-- The fields that a lane instruction uses, of those its form gives it: a microcode operation's are what its minor version fixes. -/
def usedFields (op : Nat) (ops : KMap Nat) (o : LaneOps) : BitVec 7 :=
  if op < 0x3E0 then 0x7F else Config.ucodeUses ((ops.get? op).getD 0) op o.ty.toNat

def laneReads (op : Nat) (o : LaneOps) (u : BitVec 7 := 0x7F) : List Nat :=
  match laneForm op o with
  | none => []
  | some f =>
    (if u.getLsbD 0 then fieldRegs o f.a o.va else []) ++ (if u.getLsbD 1 && o.srcb == 0 then fieldRegs o f.b o.vb else [])
      ++ (if u.getLsbD 2 then fieldRegs o f.c o.vc else [])

def laneWrites (op : Nat) (o : LaneOps) (u : BitVec 7 := 0x7F) : List Nat :=
  match laneForm op o with
  | none => []
  | some f => if u.getLsbD 3 then fieldRegs o f.d o.vd else []

/-! ## Lane-cycle classes (R90, R139, R160, R350) -/

/-- Cycles that a pass of an arithmetic instruction holds its pipe (R139). -/
def occupancy (op : Nat) (o : LaneOps) : Nat :=
  let ty := o.ty.toNat
  let wide := wideTy ty
  if op = 0x003 ∨ op = 0x004 ∨ op = 0x005 then (if wide then 4 else 1)
  else if op ≤ 0x014 ∨ (0x140 ≤ op ∧ op ≤ 0x142) then (if wide then 2 else 1)
  else if op = 0x04C then (if wide then 16 else 4)
  else if 0x044 ≤ op ∧ op ≤ 0x04B then (if wide then 2 else 1)
  else if op = 0x0C0 then (if ty = 11 ∨ o.mode = 11 ∨ o.mode = 6 then 4 else 1)
  else if op ≤ 0x043 ∨ op = 0x100 ∨ op = 0x101 then (if wide then 4 else 1)
  else if 0x080 ≤ op ∧ op ≤ 0x086 then (if ty = 8 then 2 else 1)
  else if op = 0x0C1 ∨ op = 0x0C2 ∨ op = 0x103 then 2
  else 1

/-- Extra cycles of a pass for register banks: reads beyond the first in each bank, of registers in the physical file (R160). -/
def bankCycles (op pregs : Nat) (o : LaneOps) (u : BitVec 7 := 0x7F) : Nat :=
  let rs := ((laneReads op o u).filter (· < pregs)).eraseDups
  ((List.range 4).map (fun k => (rs.filter (fun r => r % 4 == k)).length - 1)).sum

/-- The bin of a core that counts a batch's passes: the lowest enabled one whose range holds the PC of its LX (R350). -/
def binOf (c : Core) (lx : W64) : Option Nat :=
  (List.range 16).find? (fun n =>
    match c.lcbase[n]? with
    | some x => x.getLsbD 63 &&
        (lx.toNat % 2 ^ 57 / 2 ^ (x.toNat / 2 ^ 57 % 64) == x.toNat % 2 ^ 57 / 2 ^ (x.toNat / 2 ^ 57 % 64))
    | none => false)

/-- What runs a lane instruction: the team, its cursor batch, and the active lanes. -/
structure LaneRun where
  t : Team
  b : Batch
  lanes : List Nat

/-- The class of a lane in a pass: 0 for A, 1 for D, 2 for P, 3 for X (R90). -/
def LaneRun.class (x : LaneRun) (o : LaneOps) (l : Nat) : Nat :=
  if !LaneMask.bit x.t.present l then 3 else if !LaneMask.bit x.b.m l then 1 else if guardTrue x.t o l then 0 else 2

/-- The classes of the 32 positions of pass k: those of a wide team, or of the narrow teams packed into it by their place in the row group; the places of the others are X (R46, R47). -/
def passClass (w : Nat) (o : LaneOps) (runs : List (Nat × LaneRun)) (k i : Nat) : Nat :=
  if w < 32 then (match runs.find? (fun r => r.1 == i / w) with
    | some r => r.2.class o (i % w)
    | none => 3)
  else match runs with
    | r :: _ => r.2.class o (32 * k + i)
    | [] => 3

/-- Lanes of each class in the passes of an instruction, each times the cycles of its pass (R89, R90). -/
def passClasses (w : Nat) (o : LaneOps) (runs : List (Nat × LaneRun)) (cycles : List LaneRun → Nat → Nat) : List Nat :=
  let ks := (List.range 32).filter (fun k => runs.any (fun r => LaneMask.word r.2.b.m k != 0))
  (List.range 4).map (fun c =>
    (ks.map (fun k => cycles (runs.map Prod.snd) k * ((List.range 32).filter (fun i => passClass w o runs k i == c)).length)).sum)

/-- The pipes of the passes that an instruction issues. -/
def issuedPipes (t : Team) (runs : List (Nat × LaneRun)) : List Nat :=
  (t.rows.zipIdx.filter (fun r => runs.any (fun x => LaneMask.word x.2.b.m r.2 != 0))).map (fun r => r.1.1)

/-- The bin of a batch's passes, for the context that the core's bins serve. -/
def countBin (c : Core) (x : Nat) (lx : W64) : Option Nat := if c.binCtx = x then binOf c lx else none

/-- Add an instruction's passes to its core's lane-cycle record, and keep each pipe's last bin, for its I cycles (R90, R350). -/
def countPasses (t : Nat) (b : Batch) (o : LaneOps) (runs : List (Nat × LaneRun)) (cycles : List LaneRun → Nat → Nat) : Prog :=
  .get fun s =>
    let ps := issuedPipes (s.team t) runs
    let xs := passClasses (s.team t).width o runs cycles
    match countBin (s.core (coreOf t)) (s.ctxIdOf t) b.lx with
    | none => .when (ps.any (fun p => ((s.core (coreOf t)).lastBins.get? p).isSome))
        (.one (.core (coreOf t) (fun c => { c with lastBins := ps.foldl (fun m p => m.del p) c.lastBins })))
    | some n =>
      .one (.core (coreOf t) (fun c =>
        { c with
          lcyc := (List.range 4).foldl (fun m k => m.put (5 * n + k) ((m.get? (5 * n + k)).getD 0 + xs.getD k 0)) c.lcyc
          lastBins := ps.foldl (fun m p => m.put p n) c.lastBins }))

end Sys2Proof.Machine
end

