-- ==== Sys2Proof/Machine/LaneIssue.lean ====
section
/-! DEFINITION. The lane queue: QSET, WAITL, the lookahead window, and the frame every lane instruction runs in (R84 to R90, R114 to R116). -/

namespace Sys2Proof.Machine

/-! ## The words of a batch (R83, R84, R114) -/

/-- The microcode operation `op` is installed on a die for the format of a lane word, which leaves the fields that the operation does not use zero (R22, R83, R156). -/
def installed (d : Die) (op : Nat) (o : LaneOps) : Bool :=
  match d.ops.get? op with
  | none => false
  | some m =>
    let u := Config.ucodeUses m op o.ty.toNat
    Config.ucodeAccepts m op o.ty.toNat
      && (u.getLsbD 0 || o.va == 0) && (u.getLsbD 1 || (o.srcb == 0 && o.vb == 0)) && (u.getLsbD 2 || o.vc == 0) && (u.getLsbD 3 || o.vd == 0)
      && (u.getLsbD 4 || o.mode == 0) && (u.getLsbD 5 || o.rm == 0) && (u.getLsbD 6 || !o.sat)

/-- What R83 takes from a team. -/
def laneEnv (s : State) (t : Nat) : LaneEnv :=
  let h := (s.launchOf t).hdr
  { vregs := h.vregs, ardel := h.ardel, group := groupSize h.ardel h.width, installed := installed (s.die (dieOf (coreOf t))) }

/-- The three words of a lane instruction in an overlay slot's lane section (R15, R16). -/
def laneWord (o : Overlay) (i : Nat) : W96 :=
  let at? := fun k => o.word (laneOffset o.slen + 12 * i + 4 * k)
  laneOfWords (at? 0) (at? 1) (at? 2)

/-- Decode a lane instruction, with the checks of R83 that depend on the team. -/
def decodeFor (e : LaneEnv) (w : W96) : Option Instr :=
  match decodeLane w with
  | .error _ => none
  | .ok i =>
    match i.laneOp with
    | some (op, o) => if laneEnvOk e op o then some i else none
    | none => none

/-- Decode a run of lane instructions; on failure, the index of the first that breaks R83. -/
def decodeRun (e : LaneEnv) (o : Overlay) : Nat → Nat → Except Nat (List Instr)
  | _, 0 => .ok []
  | i, n + 1 =>
    match decodeFor e (laneWord o i) with
    | none => .error i
    | some x =>
      match decodeRun e o (i + 1) n with
      | .error j => .error j
      | .ok xs => .ok (x :: xs)

/-- ILLEGAL at an LX carries a lane index (R84). -/
def illegalLane (i : Nat) : Prog := trapHere 0x01 (BitVec.ofNat 64 i)

/-- The slot that holds the LX is the overlay it was fetched from: a word fetched ahead names its overlay (R70, R84). -/
def sameOverlay (t : Team) (o : Overlay) : Bool := t.ahead.all (fun w => w.pc != t.pc || w.base == o.base)

/-- QSET qn, ga (R115). -/
def execQset (q : BitVec 2) (a : GReg) (s : State) : Host.Outcome State Fault Refusal :=
  (scalar { reads := [a], spec := true } fun _ =>
    finish { reads := [a], spec := true } (fun t => { t with q := t.q.set q.toNat (t.reg a) })).run s

/-- A record after the scalar stream of a team follows what its lane queue had acquired until `w` words were written (R189). -/
def HistWord.caughtUp (h : HistWord) (t w : Nat) (eng : List Path) : HistWord :=
  let has := fun (ps : List Path) => decide (h.stamp < w) && ps.contains (.lanes t)
  let h1 := if has h.ord then h.order (.team t) else h
  { h1 with ordM := joinPath (has h.ordM) (.team t) h1.ordM, ordC := joinPath (has h.ordC) (.team t) h1.ordC, raw := joinPath (has h.raw) (.team t) h1.raw }.show
    (eng.filter (fun e => (has h.ord && h.cover) || (match e, h.path with
      | .matrix _, .matrix _ => has h.raw
      | .matrix _, _ => has h.ordM
      | _, _ => false)))

/-- The scalar stream follows the lane acquires of the batches that are no longer outstanding (R189). -/
def followLanes (t : Nat) : Prog :=
  .get fun s =>
    let m := s.team t
    let past := m.laneAcqs.filter (fun a => !m.lanes.any (fun b => b.order == a.1))
    let w := (past.map Prod.snd).foldl max 0
    .when (!past.isEmpty) (.all [
      .when (!s.hist.isEmpty) (.one (.hist (fun hs => hs.map (fun h => h.caughtUp t w (enginesOf s (.team t)))))),
      .one (.team t (fun m => { m with laneAcqs := m.laneAcqs.filter (fun a => !past.contains a) })) ])

/-- WAITL n: at most n batches outstanding (R116); a lane acquire of a batch that it waits for orders the scalar accesses from now on (R189). -/
def execWaitl (n : BitVec 4) (s : State) : Host.Outcome State Fault Refusal :=
  (scalar { spec := true } fun t =>
    if t.lanes.length ≤ n.toNat then .get fun s => (finish { spec := true } id).seq (followLanes s.cur) else waitHere).run s

/-! ## The lane queue (R84) -/

/-- The next lane instruction of a team: the first of the oldest batch that has any left. -/
def nextLane (m : Team) : Option Instr :=
  match m.lanes.find? (fun b => !b.left.isEmpty) with
  | some b => b.left.head?
  | none => none

/-- A lane queue may go on: not held, no lane cause pending, no page fault unanswered, its block running. -/
def lanesRun (s : State) (k : Nat) : Bool :=
  match s.teams.get? k with
  | none => false
  | some m =>
    !m.held && !m.pending.any (·.lane) && m.laneFaultAt.isNone && !m.stopped && !m.exited
      && ((s.block m.blk).phase == .placed || (s.block m.blk).phase == .stopping)

/-- A lane instruction has been performed: its batch holds one instruction less. -/
def advanceBatches : List Batch → List Batch
  | [] => []
  | b :: bs => if b.left.isEmpty then b :: advanceBatches bs else { b with idx := b.idx + 1, left := b.left.tail } :: bs

/-! ## The lookahead window (R88) -/

/-- Waiting results whose window an instruction lies in and whose destination it reads or writes. -/
def violates (p : PendLane) (regs : List Nat) : Bool := p.inWindow && regs.any p.dests.contains

/-- Results past their window that an instruction needs: it waits for them, so they are written first (R88). -/
def needs (p : PendLane) (regs : List Nat) : Bool := !p.inWindow && !p.vals.isEmpty && regs.any p.dests.contains

/-- The place of the cursor batch in the queue. -/
def cursorPlace (t : Team) : Nat := (t.lanes.takeWhile (fun b => b.left.isEmpty)).length

/-- What a lane instruction writes: lane register words, predicate bits of one predicate by lane, and one g register at completion. -/
structure LaneOut where
  regs : List (Nat × W32) := []
  pred : Option (BitVec 3 × List (Nat × Bool)) := none
  g : Option (GReg × W64) := none
  events : List Nat := []

/-- Predicate bits of lanes replaced. -/
def setPred (m : LaneMask) (xs : List (Nat × Bool)) : LaneMask :=
  xs.foldl (fun m x => if x.2 then m ||| ((1 : LaneMask) <<< x.1) else m &&& ~~~((1 : LaneMask) <<< x.1)) m

/-- The register words of an instruction that are written: inside an earlier result's window that result stands, whether it has been written already or this instruction's result waits as well (R88). -/
def standing (t : Team) (look : Nat) (regs : List (Nat × W32)) : List (Nat × W32) :=
  let ps := t.pend.filter PendLane.inWindow
  regs.filter (fun e => !ps.any (fun p => p.wrote.contains e.1 || (look != 0 && p.vals.any (fun v => v.1 == e.1))))

/-- The team after a lane instruction: its results written, or waiting in a window of `look` instructions. -/
def Team.laneDone (t : Team) (o : LaneOps) (dests : List Nat) (r : LaneOut) : Team :=
  let k := cursorPlace t
  let b := t.lanes[k]?
  let skips := match b with
    | some b => if b.left.length = 1 then b.skips else 0
    | none => 0
  let regs := standing t o.look.toNat r.regs
  let entry : PendLane := { own := k, idx := (b.map (·.idx)).getD 0, window := o.look.toNat, passed := skips, dests := dests, vals := regs, wrote := [], before := 0 }
  let t0 := t.passBy (1 + skips)
  let t1 := if o.look = 0 then { t0 with v := Sparse.setAll t.v regs } else { t0 with pend := t0.pend ++ [entry] }
  let t2 := match r.pred with
    | some (n, xs) => { t1 with p := t1.p.set n.toNat (setPred t1.p[n.toNat] xs) }
    | none => t1
  let bs := match r.g with
    | some x => t2.lanes.modify k (fun b => { b with gw := b.gw ++ [x] })
    | none => t2.lanes
  { t2 with lanes := advanceBatches bs, laneFaultAt := none, carried := false, laneWaiting := false }

/-- A lane cause at the cursor (R84): the queue is held and the scalar stream goes to the handler. -/
def laneTrap (c : Nat) (v : W64) : Prog :=
  (setTeam (fun t => { t with carried := false, laneWaiting := false })).seq (.get fun s => takeTrap s.cur c v (s.team s.cur).pc true true)

/-- The lane queue waits with this instruction at its head: for lines, for earlier writes, or at a page under migration. -/
def laneWait : Prog := setTeam (fun t => { t with laneWaiting := true })

/-- The lane queue waits on a page-fault handle with this instruction at its head (R329). -/
def laneFault (kind : Nat) (va : W64) : Prog :=
  .get fun s => pageFault s.cur kind va (fun h =>
    .one (.team s.cur (fun t => { t with laneFaultAt := if h = 1024 then none else some h })))

/-- A lane instruction meets a stop. -/
def laneStop : Stop → Prog
  | .trap c v => laneTrap c v
  | .page k va => laneFault k va

/-- The frame of every lane instruction, for the team whose lane turn it is: the lookahead check (R88), then the instruction's own effect. -/
def laneFrame (i : Instr) (body : LaneRun → Prog) : Prog :=
  .get fun s =>
    let t := s.team s.cur
    match i.laneOp, (t.lanes.find? (fun b => !b.left.isEmpty)) with
    | some (op, o), some b =>
      let u := usedFields op (s.die (dieOf (coreOf s.cur))).ops o
      let regs := laneReads op o u ++ laneWrites op o u
      match t.pend.find? (fun p => violates p regs) with
      | some p =>
        if t.lacheck.getLsbD 0 then laneTrap 0x0D (BitVec.ofNat 64 (p.idx + 2 ^ 32 * (p.passed + 1)))
        else run s o regs b
      | none => run s o regs b
    | _, _ => .ret
where
  /-- Results past their window are written first. -/
  run (s : State) (o : LaneOps) (regs : List Nat) (b : Batch) : Prog :=
    (setTeam (fun t =>
      let ready := t.pend.filter (fun p => needs p regs)
      { ready.foldl Team.settle t with pend := t.pend.filter (fun p => !needs p regs) })).seq <| (syncBacking s.cur).seq
      (.get fun s' => body { t := s'.team s'.cur, b := b, lanes := activeLanes (s.team s.cur) b o })

/-! ## Packing (R46, R47) -/

/-- How many narrow teams share a pass. -/
def packSpan (w : Nat) : Nat := if w < 32 then 32 / max w 1 else 1

/-- A team's place in its row group. -/
def packPlace (t : Team) : Nat := t.idx % packSpan t.width

/-- The lane instruction at the head of a team's queue, as it would run. -/
def headRun (s : State) (k : Nat) (o : LaneOps) : Option LaneRun :=
  ((s.team k).lanes.find? (fun b => !b.left.isEmpty)).map (fun b => { t := s.team k, b := b, lanes := activeLanes (s.team k) b o })

/-- A team's lane instruction that uses these registers waits for none of its earlier results, and violates no window that is checked (R88). -/
def Team.free (t : Team) (regs : List Nat) : Bool := t.pend.all (fun p => !needs p regs && !(t.lacheck.getLsbD 0 && violates p regs))

/-- A team may be carried in the pass of another: the same instruction at its head, from the same overlay and lane index, the same captured q operand where it uses one, and no wait or lookahead trap of its own (R47). -/
def packsWith (s : State) (i : Instr) (o : LaneOps) (b : Batch) (k : Nat) : Bool :=
  match headRun s k o with
  | none => false
  | some x =>
    let op := (i.laneOp.map Prod.fst).getD 0
    let u := usedFields op (s.die (dieOf (coreOf k))).ops o
    x.t.free (laneReads op o u ++ laneWrites op o u) && lanesRun s k && !x.t.laneWaiting && !x.t.carried && x.b.left.head? == some i && x.b.base == b.base && x.b.idx == b.idx && x.b.m != 0
      && (o.srcb != 1 || x.b.q[o.vb.toNat % 4] == b.q[o.vb.toNat % 4])

/-- The other teams of the row group that the pass carries. -/
def packMates (s : State) (i : Instr) (o : LaneOps) (b : Batch) : List Nat :=
  let t := s.team s.cur
  if 32 ≤ t.width then []
  else (s.block t.blk).teams.filter (fun k =>
    k != s.cur && (s.team k).idx / packSpan t.width == t.idx / packSpan t.width && packsWith s i o b k)

/-- Finish a lane instruction: its passes, counted once for all the teams that they carry, in the bin of the LX of the team that issues them (DESIGN CHOICE, log 68), then results, events (R137) and the queue. -/
def laneFinish (i : Instr) (o : LaneOps) (x : LaneRun) (cycles : List LaneRun → Nat → Nat) (r : LaneOut) : Prog :=
  .get fun s =>
    let op := (i.laneOp.map Prod.fst).getD 0
    let u := usedFields op (s.die (dieOf (coreOf s.cur))).ops o
    let t := s.team s.cur
    let ms := packMates s i o x.b
    let runs := (packPlace t, x) :: ms.filterMap (fun k => (headRun s k o).map (fun y => (packPlace y.t, y)))
    .all [ .when (!t.carried) (.all [
             countPasses s.cur x.b o runs (fun xs k => cycles xs k + bankCycles op t.pregs o u),
             .each ms (fun k => .one (.team k (fun m => { m with carried := true }))) ]),
           setTeam (fun t => t.laneDone o (laneWrites op o u) r),
           syncBacking s.cur,
           noteBacking s.cur (laneReads op o u ++ laneWrites op o u),
           addEvents (s.blockOf s.cur).launch (gather r.events) ]

/-- A lane instruction that computes in registers alone. -/
def laneCompute (i : Instr) (f : State → LaneRun → LaneOut) : Prog :=
  laneFrame i fun x => .get fun s =>
    match i.laneOp with
    | some (op, o) => laneFinish i o x (fun _ _ => occupancy op o) (f s x)
    | none => .ret

/-! ## Completion (R85, R86, R88) -/

/-- LANE_RESULT_WRITE: pass k of waiting result n is written, all its lanes and registers at once (DESIGN CHOICE, log 67: R88 lets them differ); in-window readers of those lanes see it from now on (R88). -/
def writeWaiting (t n k : Nat) : Prog :=
  .one (.team t (fun m =>
    match m.pend[n]? with
    | none => m
    | some p =>
      let now := p.vals.filter (fun e => e.1 % 1024 / 32 == k)
      { m with v := Sparse.setAll m.v now, pend := m.pend.set n { p with vals := p.vals.filter (fun e => e.1 % 1024 / 32 != k), wrote := p.wrote ++ now.map Prod.fst } }))

def execLaneResultWrite (t n k : Nat) (s : State) : Host.Outcome State Fault Refusal := (ofTeam t ((writeWaiting t n k).seq (syncBacking t))).run s

/-- The g results of a batch, written under R86; a speculation's checkpoint takes them too, since they are no work of the speculation. -/
def Team.takeResults (t : Team) (gw : List (GReg × W64)) : Team :=
  let put := fun (g : Vector W64 64) (x : GReg × W64) => if x.1 = 0 then g else g.set x.1.toNat x.2
  { t with g := gw.foldl put t.g, spec := t.spec.map (fun p => { p with g := gw.foldl put p.g }) }

/-- The writes of a batch that has completed are ordered with its team's scalar accesses (R87). -/
def orderBatch (t n : Nat) : Prog :=
  .get fun s => .when (s.hist.any (fun h => h.path == .team t && h.batch == some n))
    (.one (.hist (fun hs => hs.map (fun h => if h.path = .team t ∧ h.batch = some n then { h.order (.team t) with batch := none } else h))))

/-- BATCH_COMPLETE: the oldest batch, all of whose instructions have been performed, with its writes, completes: its waiting results and its g results are written (R85, R86); a lookahead window stays open across batches (R88). -/
def completeBatch (t : Nat) : Prog :=
  .get fun s =>
    match (s.team t).lanes with
    | [] => .ret
    | b :: bs =>
      if !b.left.isEmpty || laneStalls s (.team t) b.order then .ret
      else .all [
        .one (.team t (fun m =>
          let mine := m.pend.filter (fun p => p.own == 0)
          let rest := m.pend.filterMap (fun p =>
            if p.own != 0 then some { p with own := p.own - 1 } else if p.stands then some p.settled else none)
          ({ mine.foldl Team.settle m with pend := rest, lanes := bs }).takeResults b.gw)),
        syncBacking t,
        orderBatch t b.order,
        .when ((s.core (coreOf t)).queue.any (fun e => e.team == t && e.behind != 0))
          (.one (.core (coreOf t) (fun c =>
            { c with queue := c.queue.map (fun e => if e.team = t then { e with behind := e.behind - 1 } else e) }))) ]

def execBatchComplete (t : Nat) (s : State) : Host.Outcome State Fault Refusal := (completeBatch t).run s

end Sys2Proof.Machine
end

