-- ==== Sys2Proof/Machine/ScalarMem.lean ====
section
/-! DEFINITION. Scalar loads, stores and atomics (R175 to R180, R191). -/

namespace Sys2Proof

/-! ## Sizes (R175) -/

/-- Bytes of an access. -/
def MemSize.bytes : MemSize → Nat
  | .i8 | .n8 => 1
  | .i16 | .n16 => 2
  | .i32 | .n32 => 4
  | .d64 => 8

/-- A loaded value, sign- or zero-extended to 64 bits. -/
def MemSize.extend (z : MemSize) (x : Nat) : W64 :=
  match z with
  | .i8 => (BitVec.ofNat 8 x).signExtend 64
  | .i16 => (BitVec.ofNat 16 x).signExtend 64
  | .i32 => (BitVec.ofNat 32 x).signExtend 64
  | _ => BitVec.ofNat 64 x

/-! ## Roles of an ordering (R179) -/

def MemOrder.acquires : MemOrder → Bool
  | .acq | .acqRel => true
  | _ => false

def MemOrder.releases : MemOrder → Bool
  | .rel | .acqRel => true
  | _ => false

end Sys2Proof

namespace Sys2Proof.Machine

/-- The address of format SM: g[ga] plus the scaled offset (R71, R176). -/
def memAddress (t : Team) (a : GReg) (z : MemSize) (i : BitVec 10) : W64 :=
  t.reg a + i.signExtend 64 * BitVec.ofNat 64 z.bytes

/-- The team whose turn it is, as an agent. -/
def State.path (s : State) : Path := .team s.cur

/-! ## Loads and stores (R176) -/

/-- Perform a planned load: the register takes the extended value, and the team has an outstanding result (R91). -/
def performLoad (u : Use) (d : GReg) (z : MemSize) (aligned : Bool) (p : Plan) : Prog :=
  .get fun s =>
    let rs := accessReads aligned p
    let x := z.extend (leNat (readsBytes s s.path (s.team s.cur).blk rs))
    .all [ finish u (fun t => t.setReg d x),
           noteTlb (s.spaceOf s.cur) p.used,
           noteReads s.path s.path (readsWords (s.team s.cur).blk rs),
           noteL1 s.path p.phys ]

/-- The current team's writes. -/
def State.writer (s : State) (role sure : Bool) : Writer := { path := s.path, blk := (s.team s.cur).blk, role := role, sure := sure }

/-- Perform a planned store; a release has its lines and its turn. -/
def performStore (u : Use) (role aligned : Bool) (p : Plan) (bs : List Byte) : Prog :=
  .get fun s =>
    .all [ finish u id,
           noteTlb (s.spaceOf s.cur) p.used,
           accessWrite aligned (s.writer role role) p bs,
           storeL1 s.path p.phys ]

/-- A scalar access: alignment where the instruction asks for it, then the checks of R176. -/
def scalarAccess (aligned loc : Bool) (need : Need) (a : W64) (n : Nat) (k : Plan → Prog) : Prog :=
  if aligned && a.toNat % n != 0 then trapHere 0x03 a
  else .get fun s =>
    match accessPlan s s.cur loc need a n with
    | .error e => scalarStop e
    | .ok p => k p

def useLoad (d a : GReg) (spec : Bool) : Use := { reads := [a], writes := [d], spec := spec, long := true }
def useStore (d a : GReg) : Use := { reads := [a, d] }

/-- LD; a load g0 is performed in full (R176).  It waits for the team's own writes to the words it reads that wait at their home, and for the lines that its core's L1 lacks; an unaligned one is performed as its bytes (R177). -/
def execLd (d a : GReg) (z : MemSize) (p : Bool) (i : BitVec 10) (s : State) : Host.Outcome State Fault Refusal :=
  (scalar (useLoad d a true) fun t =>
    scalarAccess false p .read (memAddress t a z i) z.bytes fun x =>
      .get fun s =>
        if loadWaits s s.path t.blk x then waitHere
        else needRead s.path x (performLoad (useLoad d a true) d z ((memAddress t a z i).toNat % z.bytes == 0) x) waitHere).run s

/-- LD.ACQ: naturally aligned, and an acquire, which reads its word at the die's L2 (R176, R179, R289). -/
def execLdAcq (d a : GReg) (z : MemSize) (p : Bool) (i : BitVec 10) (s : State) : Host.Outcome State Fault Refusal :=
  (scalar (useLoad d a false) fun t =>
    scalarAccess true p .read (memAddress t a z i) z.bytes fun x =>
      .get fun s =>
        if planStalls s s.path t.blk x then waitHere
        else needLines s.path .sync (linesOf x.phys)
          ((noteAcquire s.path (planWords t.blk x)).seq (performLoad (useLoad d a false) d z true x)) waitHere).run s

/-- The bytes a store writes (R176). -/
def storeBytes (t : Team) (d : GReg) (z : MemSize) : List Byte := leBytes z.bytes (t.reg d).toNat

def execSt (d a : GReg) (z : MemSize) (p : Bool) (i : BitVec 10) (s : State) : Host.Outcome State Fault Refusal :=
  (scalar (useStore d a) fun t =>
    scalarAccess false p .write (memAddress t a z i) z.bytes fun x =>
      performStore (useStore d a) false ((memAddress t a z i).toNat % z.bytes == 0) x (storeBytes t d z)).run s

/-- A publish: a releasing 4-byte write of a team to logical local address 0, with the PIDX that it stores (R193). -/
def publish (loc word release : Bool) (a : W64) (pidx : Nat) : Prog :=
  .get fun s => .when (loc && word && release && a == 0)
    (.one (.block (s.team s.cur).blk (fun b => { b with ring := { b.ring with told := b.ring.told ++ [(s.cur, pidx % 2 ^ 32)] } })))

/-- Sizes of 4 bytes. -/
def isWord (z : MemSize) : Bool := z.bytes == 4

/-- Some page of a plan is under migration (R174). -/
def planLocked (s : State) (p : Plan) : Bool := p.phys.any (fun x => (lockedTo s x.1).isSome)

/-! ## Writes that wait at their home (R174) -/

/-- The pieces of an atomic or a release that waits at its home (R174): they were translated as it reached the home, and are not translated again. -/
def waitingAtomic (s : State) (p : Path) (lane : Bool) : List Stalled := s.pkg.stalled.filter (fun e => e.path == p && e.rmw && e.lane.isSome == lane)

/-- An atomic or a release reaches its home, where a piece of it is locked for migration. -/
def enqueueAtomic (w : Writer) (x : Plan) : Prog :=
  .one (.pkg (fun g => { g with stalled := g.stalled ++ x.pieces.map (fun y =>
    ({ path := w.path, blk := w.blk, slots := [], role := false, lane := w.lane, place := y.place w.blk, pa := y.addr, bytes := List.replicate y.len 0, rmw := true } : Stalled)) }))

/-- The plan of an access that waits at its home. -/
def planOf (es : List Stalled) : Plan :=
  { pieces := es.map (fun e => match e.place with
      | .phys => Piece.phys e.pa e.bytes.length
      | .loc _ | .tile _ => Piece.loc e.pa e.bytes.length
      | .ob _ => Piece.ob e.pa e.bytes.length), used := [] }

/-- An access leaves its home. -/
def leaveHome (p : Path) (lane : Bool) : Prog :=
  .get fun s => .when (s.pkg.stalled.any (fun e => e.path == p && e.rmw && e.lane.isSome == lane))
    (.one (.pkg (fun g => { g with stalled := g.stalled.filter (fun e => !(e.path == p && e.rmw && e.lane.isSome == lane)) })))

/-- An earlier write to a word of a plan is not performed yet: of any agent before an access that waits at the home, of the agent itself before another. -/
def behindWrites (s : State) (p : Path) (blk : Nat) (x : Plan) (es : List Stalled) : Bool :=
  match es with
  | [] => planStalls s p blk x
  | e :: _ => (s.pkg.stalled.takeWhile (· != e)).any (fun w => x.pieces.any (fun y => overlap s (y.place blk) y.addr y.len w))

/-- A scalar release or atomic comes to its word: one that waits at its home goes on from there, in its order and not translated again; one whose page is under migration waits there from now on; `stays` holds it at the instruction (R174). -/
def atHome (aligned loc : Bool) (a : W64) (n : Nat) (stays : State → Bool) (k : Plan → Prog) : Prog :=
  onTeam fun t => .get fun s =>
    let es := waitingAtomic s s.path false
    let go := fun (x : Plan) => Prog.get fun s =>
      if planLocked s x || behindWrites s s.path t.blk x es || stays s then waitHere else needLines s.path .write (linesOf x.phys) (k x) waitHere
    if es.isEmpty then
      scalarAccess aligned loc .write a n fun x => .get fun s =>
        if planLocked s x && !stays s then (enqueueAtomic (s.writer false false) x).seq waitHere else go x
    else go (planOf es)

/-- ST.REL: naturally aligned, and a release: it waits for the team's own writes, and for its line in M (R174, R179, R289). -/
def execStRel (d a : GReg) (z : MemSize) (p : Bool) (i : BitVec 10) (s : State) : Host.Outcome State Fault Refusal :=
  (scalar (useStore d a) fun t =>
    atHome true p (memAddress t a z i) z.bytes (fun s => scalarStalls s s.path) fun x =>
      .get fun s => .all [ leaveHome s.path false, noteRelease s.path, performStore (useStore d a) true true x (storeBytes t d z),
                           publish p (isWord z) true (memAddress t a z i) (t.reg d).toNat ]).run s

/-! ## Atomics (R77, R178, R179) -/

/-- Signed value of the low w bits. -/
def signedOf (w x : Nat) : Int := if x % 2 ^ w < 2 ^ (w - 1) then (x % 2 ^ w : Nat) else (x % 2 ^ w : Nat) - 2 ^ w

/-- The new word and the f32 events of an atomic operation, by its code (R178). -/
def atomicOp (code w old x : Nat) : Nat × List Nat :=
  let f := Fp.f32
  let fp := fun (r : Fp.Res) => (r.bits, countsOf r f)
  if code = 1 then ((old + x) % 2 ^ w, [])
  else if code = 2 then (Nat.land old x, [])
  else if code = 3 then (Nat.lor old x, [])
  else if code = 4 then (Nat.xor old x, [])
  else if code = 5 then (if signedOf w x < signedOf w old then x else old, [])
  else if code = 6 then (if signedOf w old < signedOf w x then x else old, [])
  else if code = 7 then (min old x, [])
  else if code = 8 then (max old x, [])
  else if code = 9 then fp (Fp.deliver f .rne (Fp.add .rne (f.decode old) (f.decode x)))
  else if code = 10 then fp (Fp.minMax f true false old x)
  else (x, [])

/-- A scalar atomic that has its place: `f` gives the new word, if one is written, from the old word; the old word goes to gd (R178). -/
def atomicNow (u : Use) (d a : GReg) (o : MemOrder) (loc w fp : Bool) (f : Team → Nat → Option Nat × List Nat) (t : Team) (x : Plan) : Prog :=
  .get fun s =>
    .all [ leaveHome s.path false,
           .when o.releases (noteRelease s.path),
           .when o.acquires (noteAcquire s.path (planWords t.blk x)),
           .get fun s =>
             let old := leNat (planNow s t.blk x)
             let (new, ev) := f t old
             .all [ finish u (fun t => t.setReg d
                      (if fp then fpReg false old else if w then BitVec.ofNat 64 old else (BitVec.ofNat 32 old).signExtend 64)),
                    noteTlb (s.spaceOf s.cur) x.used,
                    .one (.hist (fun hs => (planWords t.blk x).foldl (fun hs k => markRead s.path k 0 hs) hs)),
                    (match new with
                     | some v => planWrite (s.writer (o.acquires || o.releases) true) x.pieces (leBytes (if w then 8 else 4) v)
                     | none => .ret),
                    countEvents s.cur ev,
                    (match new with
                     | some v => publish loc (!w) o.releases (t.reg a) v
                     | none => .ret) ] ]

/-- A scalar atomic (R178): at a page under migration it waits at the home in its order, and is then performed where the page has gone (R174); a release waits for the team's writes. -/
def atomic (u : Use) (d a : GReg) (o : MemOrder) (loc w fp : Bool) (f : Team → Nat → Option Nat × List Nat) : Prog :=
  scalar u fun t =>
    atHome true loc (t.reg a) (if w then 8 else 4) (fun s => o.releases && scalarStalls s s.path) (atomicNow u d a o loc w fp f t)

/-- ATOM: the operand is the low bits of g[gb]. -/
def atomRun (code : Nat) (d a b : GReg) (o : MemOrder) (loc w : Bool) : Prog :=
  atomic { reads := [a, b], writes := [d], long := true } d a o loc w (code == 9 || code == 10) (fun t old =>
    let k := if w then 64 else 32
    let r := atomicOp code k old ((t.reg b).toNat % 2 ^ k)
    (some r.1, r.2))

def execAtomSwap (d a b : GReg) (o : MemOrder) (p w : Bool) (s : State) : Host.Outcome State Fault Refusal :=
  (atomRun 0 d a b o p w).run s
def execAtomAdd (d a b : GReg) (o : MemOrder) (p w : Bool) (s : State) : Host.Outcome State Fault Refusal :=
  (atomRun 1 d a b o p w).run s
def execAtomAnd (d a b : GReg) (o : MemOrder) (p w : Bool) (s : State) : Host.Outcome State Fault Refusal :=
  (atomRun 2 d a b o p w).run s
def execAtomOr (d a b : GReg) (o : MemOrder) (p w : Bool) (s : State) : Host.Outcome State Fault Refusal :=
  (atomRun 3 d a b o p w).run s
def execAtomXor (d a b : GReg) (o : MemOrder) (p w : Bool) (s : State) : Host.Outcome State Fault Refusal :=
  (atomRun 4 d a b o p w).run s
def execAtomMinI (d a b : GReg) (o : MemOrder) (p w : Bool) (s : State) : Host.Outcome State Fault Refusal :=
  (atomRun 5 d a b o p w).run s
def execAtomMaxI (d a b : GReg) (o : MemOrder) (p w : Bool) (s : State) : Host.Outcome State Fault Refusal :=
  (atomRun 6 d a b o p w).run s
def execAtomMinN (d a b : GReg) (o : MemOrder) (p w : Bool) (s : State) : Host.Outcome State Fault Refusal :=
  (atomRun 7 d a b o p w).run s
def execAtomMaxN (d a b : GReg) (o : MemOrder) (p w : Bool) (s : State) : Host.Outcome State Fault Refusal :=
  (atomRun 8 d a b o p w).run s
def execAtomFadd (d a b : GReg) (o : MemOrder) (p : Bool) (s : State) : Host.Outcome State Fault Refusal :=
  (atomRun 9 d a b o p false).run s
def execAtomFmax (d a b : GReg) (o : MemOrder) (p : Bool) (s : State) : Host.Outcome State Fault Refusal :=
  (atomRun 10 d a b o p false).run s

/-- CAS compares bit patterns; gd is the expected value, then the old one (R178). -/
def execCas (d a b : GReg) (o : MemOrder) (p w : Bool) (s : State) : Host.Outcome State Fault Refusal :=
  (atomic { reads := [a, b, d], writes := [d], long := true } d a o p w false (fun t old =>
    let k := if w then 64 else 32
    (if old = (t.reg d).toNat % 2 ^ k then some ((t.reg b).toNat % 2 ^ k) else none, []))).run s

/-- SCALAR_RESULT_RETURN: the result of an outstanding load, atomic or long operation arrives; no reader waits for it any more (R91). -/
def execScalarResultReturn (t : Nat) (r : GReg) (s : State) : Host.Outcome State Fault Refusal :=
  (ofTeam t (.one (.team t (fun m => { m with await := m.await.filter (fun x => x != r) })))).run s

end Sys2Proof.Machine
end

