-- ==== Sys2Proof/Machine/LaneInt.lean ====
section
/-! DEFINITION. Lane integer instructions, movement and predicates (R140, R141, R152, R153). -/

namespace Sys2Proof.Machine

/-- A result in VD for every active lane, in format code `ty`, with its event counts. -/
def laneResults (x : LaneRun) (o : LaneOps) (ty : Nat) (f : Nat → Nat × List Nat) : LaneOut :=
  let rs := x.lanes.map (fun l => (l, f l))
  { regs := rs.flatMap (fun r => laneWords ty o.vd.toNat r.1 r.2.1), events := rs.flatMap (fun r => r.2.2) }

/-- A predicate bit in every active lane, to predicate VD[2:0]. -/
def lanePredicate (x : LaneRun) (o : LaneOps) (f : Nat → Bool) : LaneOut :=
  { pred := some (o.vd.setWidth 3, x.lanes.map (fun l => (l, f l))) }

/-- Format codes of signed integers: i32, i16, i8, i64. -/
def signedTy (ty : Nat) : Bool := ty == 0 || ty == 2 || ty == 4 || ty == 6

/-- The integer that a w-bit pattern holds, by the signedness of TY (R140). -/
def intOf (ty x : Nat) : Int := if signedTy ty then signedOf (Fp.width ty) x else (x % 2 ^ Fp.width ty : Nat)

/-- The range of an integer format. -/
def loOf (ty : Nat) : Int := if signedTy ty then -2 ^ (Fp.width ty - 1) else 0
def hiOf (ty : Nat) : Int := if signedTy ty then 2 ^ (Fp.width ty - 1) - 1 else 2 ^ Fp.width ty - 1

/-- An exact integer in a format: wrapped, or clamped with `.sat` (R140). -/
def toTy (ty : Nat) (sat : Bool) (n : Int) : Nat :=
  let m := if sat then max (loOf ty) (min (hiOf ty) n) else n
  (m % 2 ^ Fp.width ty).toNat

/-- An integer instruction computed from the exact operand values a, b and c. -/
def laneInt (i : Instr) (o : LaneOps) (f : (ty : Nat) → Int → Int → Int → Int) : Prog :=
  laneCompute i (fun _ x =>
    let ty := o.ty.toNat
    laneResults x o ty (fun l =>
      (toTy ty o.sat (f ty (intOf ty (x.t.lane ty o.va.toNat l)) (intOf ty (bOperand x.t x.b o ty l)) (intOf ty (x.t.lane ty o.vc.toNat l))), [])))

/-- A bitwise instruction computed from the operand patterns at the width of TY. -/
def laneBits (i : Instr) (o : LaneOps) (f : (w : Nat) → BitVec w → BitVec w → BitVec w) : Prog :=
  laneCompute i (fun _ x =>
    let ty := o.ty.toNat
    let w := Fp.width ty
    laneResults x o ty (fun l =>
      ((f w (BitVec.ofNat w (x.t.lane ty o.va.toNat l)) (BitVec.ofNat w (bOperand x.t x.b o ty l))).toNat, [])))

def execMov (o : LaneOps) (s : State) : Host.Outcome State Fault Refusal :=
  (laneBits (.mov o) o (fun _ _ y => y)).run s
def execIadd (o : LaneOps) (s : State) : Host.Outcome State Fault Refusal := (laneInt (.iadd o) o (fun _ a b _ => a + b)).run s
def execIsub (o : LaneOps) (s : State) : Host.Outcome State Fault Refusal := (laneInt (.isub o) o (fun _ a b _ => a - b)).run s
def execImul (o : LaneOps) (s : State) : Host.Outcome State Fault Refusal := (laneInt (.imul o) o (fun _ a b _ => a * b)).run s
def execImad (o : LaneOps) (s : State) : Host.Outcome State Fault Refusal :=
  (laneInt (.imad o) o (fun _ a b c => a * b + c)).run s
/-- IMULH: the product shifted right by the width, by s() or u() (R140). -/
def execImulh (o : LaneOps) (s : State) : Host.Outcome State Fault Refusal :=
  (laneInt (.imulh o) o (fun ty a b _ => a * b / 2 ^ Fp.width ty)).run s
def execImin (o : LaneOps) (s : State) : Host.Outcome State Fault Refusal := (laneInt (.imin o) o (fun _ a b _ => min a b)).run s
def execImax (o : LaneOps) (s : State) : Host.Outcome State Fault Refusal := (laneInt (.imax o) o (fun _ a b _ => max a b)).run s
def execIabs (o : LaneOps) (s : State) : Host.Outcome State Fault Refusal :=
  (laneInt (.iabs o) o (fun _ a _ _ => (a.natAbs : Int))).run s
def execVAnd (o : LaneOps) (s : State) : Host.Outcome State Fault Refusal := (laneBits (.vAnd o) o (fun _ a b => a &&& b)).run s
def execVOr (o : LaneOps) (s : State) : Host.Outcome State Fault Refusal := (laneBits (.vOr o) o (fun _ a b => a ||| b)).run s
def execVXor (o : LaneOps) (s : State) : Host.Outcome State Fault Refusal := (laneBits (.vXor o) o (fun _ a b => a ^^^ b)).run s
def execNot (o : LaneOps) (s : State) : Host.Outcome State Fault Refusal := (laneBits (.not o) o (fun _ a _ => ~~~a)).run s
def execVShl (o : LaneOps) (s : State) : Host.Outcome State Fault Refusal :=
  (laneBits (.vShl o) o (fun w a b => a <<< (b.toNat % w))).run s
def execVShr (o : LaneOps) (s : State) : Host.Outcome State Fault Refusal :=
  (laneBits (.vShr o) o (fun w a b => a >>> (b.toNat % w))).run s
def execVSra (o : LaneOps) (s : State) : Host.Outcome State Fault Refusal :=
  (laneBits (.vSra o) o (fun w a b => a.sshiftRight (b.toNat % w))).run s
def execVPopc (o : LaneOps) (s : State) : Host.Outcome State Fault Refusal :=
  (laneBits (.vPopc o) o (fun w a _ => countOnes w a)).run s
def execVClz (o : LaneOps) (s : State) : Host.Outcome State Fault Refusal :=
  (laneBits (.vClz o) o (fun w a _ => leadingZeros w a)).run s

/-- The conditions of ICMP (R141). -/
def icmpHolds (mode : Nat) (a b : Int) : Bool :=
  if mode = 0 then a == b else if mode = 1 then a != b else if mode = 2 then decide (a < b)
  else if mode = 3 then decide (a ≤ b) else if mode = 4 then decide (b < a) else decide (b ≤ a)

def execIcmp (o : LaneOps) (s : State) : Host.Outcome State Fault Refusal :=
  (laneCompute (.icmp o) (fun _ x =>
    let ty := o.ty.toNat
    lanePredicate x o (fun l =>
      icmpHolds o.mode.toNat (intOf ty (x.t.lane ty o.va.toNat l)) (intOf ty (bOperand x.t x.b o ty l))))).run s

/-- SEL: A where predicate VC[2:0] is 1, else B (R140). -/
def execSel (o : LaneOps) (s : State) : Host.Outcome State Fault Refusal :=
  (laneCompute (.sel o) (fun _ x =>
    let ty := o.ty.toNat
    laneResults x o ty (fun l =>
      (if LaneMask.bit (x.t.p[o.vc.toNat % 8]) l then x.t.lane ty o.va.toNat l else bOperand x.t x.b o ty l, [])))).run s

/-- LANEID: the lane's own index (R140). -/
def execLaneid (o : LaneOps) (s : State) : Host.Outcome State Fault Refusal :=
  (laneCompute (.laneid o) (fun _ x => laneResults x o 1 (fun l => (l, [])))).run s

/-! ## Movement (R152) -/

/-- Whether a team's kernel runs in Ardel mode (R25). -/
def State.ardel (s : State) : Bool := (s.launchOf s.cur).hdr.ardel

/-- A movement: for a lane, the team lane that it reads, if any; a lane that reads none gets zero. -/
def laneMove (i : Instr) (o : LaneOps) (src : State → LaneRun → Nat → Option Nat) : Prog :=
  laneCompute i (fun s x =>
    let ty := o.ty.toNat
    laneResults x o ty (fun l =>
      (match src s x l with
       | some k => x.t.source ty o.va.toNat k
       | none => 0, [])))

/-- PERM: position u(B) mod G of the lane's group. -/
def execPerm (o : LaneOps) (s : State) : Host.Outcome State Fault Refusal :=
  (laneMove (.perm o) o (fun s x l =>
    let g := groupSize s.ardel x.t.width
    some (l / g * g + (bWord x.t x.b o l).toNat % g))).run s

/-- BCAST: native, team lane u(B), zero at or above W; Ardel, position u(B) mod 16 of the lane's own half. -/
def execBcast (o : LaneOps) (s : State) : Host.Outcome State Fault Refusal :=
  (laneMove (.bcast o) o (fun s x l =>
    let k := (bWord x.t x.b o l).toNat
    if s.ardel then some (l / 16 * 16 + k % 16) else if x.t.width ≤ k then none else some k)).run s

/-- LSHIFT: position P − s(B); out of range, zero for MOD 0 and the position modulo G for MOD 1. -/
def execLshift (o : LaneOps) (s : State) : Host.Outcome State Fault Refusal :=
  (laneMove (.lshift o) o (fun s x l =>
    let g := groupSize s.ardel x.t.width
    let p : Int := (l % g : Nat) - (bWord x.t x.b o l).toInt
    if o.mode = 1 then some (l / g * g + (p % g).toNat)
    else if 0 ≤ p ∧ p < g then some (l / g * g + p.toNat) else none)).run s

/-! ## Predicates (R153) -/

def execPlog (o : LaneOps) (s : State) : Host.Outcome State Fault Refusal :=
  (laneCompute (.plog o) (fun _ x =>
    lanePredicate x o (fun l =>
      let a := LaneMask.bit (x.t.p[o.va.toNat % 8]) l
      let b := LaneMask.bit (x.t.p[o.vb.toNat % 8]) l
      if o.mode = 0 then a && b else if o.mode = 1 then a || b else if o.mode = 2 then a != b
      else if o.mode = 3 then a && !b else if o.mode = 4 then !a else a))).run s

def execPset (o : LaneOps) (s : State) : Host.Outcome State Fault Refusal :=
  (laneCompute (.pset o) (fun _ x =>
    lanePredicate x o (fun l =>
      if o.mode = 0 then false else if o.mode = 1 then true
      else if o.mode = 2 then (x.t.vreg o.va.toNat l).getLsbD 0 else x.t.vreg o.va.toNat l != 0))).run s

end Sys2Proof.Machine
end

