-- ==== Sys2Proof/Machine/Convert.lean ====
section
/-! DEFINITION. Conversions between formats and the e2m1x block format (R123 to R129). -/

namespace Sys2Proof.Machine

open Sys2Proof.Fp hiding Num

/-- Counter numbers of events in a format code (R64). -/
def eventNums (code : Nat) (es : List Event) : List Nat := es.map (fun e => e.num code)

/-- A converted bit pattern with its event counts. -/
structure Conv where
  bits : Nat
  counts : List Nat
  deriving DecidableEq, Repr

/-- Convert a value between the format codes 0 to 13 (R128, R145): a copy within one format, except for a NaN; a wider float counts nothing else. -/
def convert (src dst : Nat) (rm : Rm) (sat : Bool) (x : Nat) : Conv :=
  if isFloat src && isFloat dst then
    let v := (ofCode src).decode x
    if src = dst && !isNan v then ⟨x, []⟩
    else
      let r := deliver (ofCode dst) rm v
      ⟨r.bits, if Fp.width src < Fp.width dst && !isNan v then [] else eventNums dst r.ev⟩
  else if isFloat src then
    let (n, ev) := toRange rm (loOf dst) (hiOf dst) ((ofCode src).decode x)
    ⟨toTy dst false n, eventNums src ev⟩
  else if isFloat dst then
    let r := fromInt (ofCode dst) rm (intOf src x)
    ⟨r.bits, eventNums dst r.ev⟩
  else ⟨toTy dst sat (intOf src x), []⟩

/-! ## e2m1x blocks -/

/-- A value divided by 2^k. -/
def scaleDown (k : Int) : Fp.Num → Fp.Num
  | .fin s m e => .fin s m (e - k)
  | v => v

/-- The magnitude of a value, as an unsigned dyadic. -/
def magnitude : Fp.Num → Nat × Int
  | .fin _ m e => (m, e)
  | _ => (0, 0)

/-- The greater of two magnitudes. -/
def maxMagnitude (a b : Nat × Int) : Nat × Int := if cmpDyadic a.1 a.2 b.1 b.2 = .lt then b else a

/-- A block in the e2m1x format: element codes and the side word (R123, R124). -/
structure PackedBlock where
  codes : List Nat
  side : Nat
  /-- Event counts, element by element. -/
  counts : List (List Nat)
  deriving DecidableEq, Repr

/-- SCALE of a block by its largest magnitude (R126). -/
def blockScale (amax : Nat × Int) : Nat :=
  if amax.1 = 0 then 0 else (min 254 (max 0 ((amax.1.log2 : Int) + amax.2 - 2 + 127))).toNat

/-- One element of a block, divided by the block's scale, under EXTRA (R127); 0 disables EXTRA. -/
def packElement (rm : Rm) (extra : Nat) (v : Fp.Num) : Nat × List Nat :=
  let (m, e) := magnitude v
  let big := cmpDyadic m e 6 0 == .gt
  let ext := deliver e4m3 rm v
  if extra ≠ 0 && big && ext.bits == extra then (8, eventNums 14 ext.ev)
  else
    let r := deliver e2m1 rm v
    (if r.bits % 8 = 0 then 0 else r.bits, eventNums 14 r.ev)

/-- Pack values into one block (R126, R127). -/
def packBlock (rm : Rm) (xtra : Bool) (vs : List Fp.Num) : PackedBlock :=
  if vs.any (fun v => match v with | .fin _ _ _ => false | _ => true) then
    { codes := vs.map (fun _ => 0), side := 0xFF00, counts := vs.mapIdx (fun i _ => if i = 0 then eventNums 14 [.nan] else []) }
  else
    let amax := (vs.map magnitude).foldl maxMagnitude (0, 0)
    let e := blockScale amax
    let us := vs.map (scaleDown ((e : Int) - 127))
    let top := us.find? (fun u => let (m, k) := magnitude u; cmpDyadic m k amax.1 (amax.2 - ((e : Int) - 127)) == .eq)
    let extra := match top with
      | some u => (let (m, k) := magnitude u
        if xtra && cmpDyadic m k 6 0 == .gt then (deliver e4m3 rm u).bits else 0)
      | none => 0
    let cs := us.map (packElement rm extra)
    { codes := cs.map Prod.fst, side := 256 * e + extra, counts := cs.map Prod.snd }

/-- The value of an element code under a side word (R125). -/
def blockValue (side code : Nat) : Fp.Num :=
  let scale := side / 256 % 256
  let extra := side % 256
  if scale = 255 then .nan false
  else
    let v := if code = 8 then (if extra % 128 = 0 then Fp.Num.fin false 0 0 else e4m3.decode extra) else e2m1.decode code
    scaleDown (127 - (scale : Int)) v

/-- The low bits of a list of codes packed side by side, w bits each. -/
def packBits (w : Nat) : List Nat → Nat
  | [] => 0
  | c :: cs => c % 2 ^ w + 2 ^ w * packBits w cs

end Sys2Proof.Machine
end

