-- ==== Sys2Proof/Machine/LaneMem.lean ====
section
/-! DEFINITION. Lane memory instructions (R171, R173, R181 to R189). -/

namespace Sys2Proof.Machine

/-! ## Addresses (R182) -/

/-- A register pair as a 64-bit address. -/
def Team.pair (t : Team) (r l : Nat) : W64 := (t.vreg (r + 1) l) ++ (t.vreg r l)

/-- The G form, by MOD[2]; ATOMG always uses the pair. -/
def globalLane (x : LaneRun) (o : LaneOps) (pairOnly : Bool) (l : Nat) : W64 :=
  let off := o.imm.signExtend 64
  if pairOnly || o.mode.toNat < 4 then x.t.pair o.va.toNat l + off
  else x.b.q[o.mode.toNat % 4] + (x.t.vreg o.va.toNat l).signExtend 64 + off

/-- The L and B forms: a 32-bit address or offset. -/
def shortLane (x : LaneRun) (o : LaneOps) (l : Nat) : Nat := (x.t.vreg o.va.toNat l + o.imm).toNat

/-! ## Operand-buffer ranges (R260) -/

/-- The fields of a reservation record. -/
def rrBase (r : W64) : Nat := r.toNat / 2 ^ 6 % 512
def rrLen (r : W64) : Nat := r.toNat / 2 ^ 15 % 512

/-- The block-relative byte of an offset in a reserved range. -/
def obByte (r : W64) (off : Nat) : Nat := rrBase r * 1024 + off

/-! ## The checks of R171, step by step over every active lane -/

/-- The first lane that a check fails for. -/
def firstFail (lanes : List Nat) (p : Nat → Bool) (stop : Nat → Stop) : Option Stop := (lanes.find? p).map stop

/-- The plans of every active lane, or the first page fault. -/
def lanePlans (plan : Nat → Except Stop Plan) : List Nat → Except Stop (List (Nat × Plan))
  | [] => .ok []
  | l :: ls =>
    match plan l with
    | .error e => .error e
    | .ok p =>
      match lanePlans plan ls with
      | .error e => .error e
      | .ok ps => .ok ((l, p) :: ps)

/-- Alignment, range, translation: each for every lane before the next (R171). -/
def laneAccess (lanes : List Nat) (align range : Nat → Bool) (alignStop rangeStop : Nat → Stop) (plan : Nat → Except Stop Plan) :
    Except Stop (List (Nat × Plan)) :=
  match firstFail lanes (fun l => !align l) alignStop with
  | some e => .error e
  | none =>
    match firstFail lanes (fun l => !range l) rangeStop with
    | some e => .error e
    | none => lanePlans plan lanes

/-- The plans of a global access of n bytes (R172, R184). -/
def globalLanes (s : State) (lanes : List Nat) (need : Need) (addr : Nat → W64) (n : Nat) : Except Stop (List (Nat × Plan)) :=
  laneAccess lanes (fun l => (addr l).toNat % n == 0) (fun l => canonicalRun (addr l) n)
    (fun l => .trap 0x03 (addr l)) (fun l => .trap 0x07 (addr l))
    (fun l => globalPlan s (s.spaceOf s.cur) need (addr l) n)

/-- The plans of a local access of n bytes (R184). -/
def localLanes (s : State) (lanes : List Nat) (need : Need) (addr : Nat → Nat) (n : Nat) : Except Stop (List (Nat × Plan)) :=
  laneAccess lanes (fun l => addr l % n == 0)
    (fun l => decide (addr l + n ≤ (s.launchOf s.cur).hdr.lblk * 16384))
    (fun l => .trap 0x03 (BitVec.ofNat 64 (addr l))) (fun l => .trap 0x08 (BitVec.ofNat 64 (addr l)))
    (fun l => localPlan s (s.spaceOf s.cur) (s.blockOf s.cur) need (BitVec.ofNat 64 (addr l)) n)

/-- The plans of an operand-buffer access: the block's range MOD as it is reserved now (R184, R186). -/
def obLanes (s : State) (lanes : List Nat) (o : LaneOps) (addr : Nat → Nat) (n : Nat) : Except Stop (List (Nat × Plan)) :=
  let val := fun l => BitVec.ofNat 64 (addr l + 2 ^ 32 * o.mode.toNat)
  match firstFail lanes (fun l => addr l % n != 0) (fun l => .trap 0x03 (val l)) with
  | some e => .error e
  | none =>
    match (s.blockOf s.cur).ranges.get? o.mode.toNat with
    | none => (match lanes with
      | [] => .ok []
      | l :: _ => .error (.trap 0x09 (val l)))
    | some r =>
      match firstFail lanes (fun l => decide (rrLen r * 1024 < addr l + n)) (fun l => .trap 0x09 (val l)) with
      | some e => .error e
      | none => .ok (lanes.map (fun l => (l, { pieces := [.ob (obByte r (addr l)) n], used := [] })))

/-! ## Cycles (R161, R164) -/

/-- The lanes of pass k of the teams that it carries. -/
def passLanes (xs : List LaneRun) (k : Nat) : List (LaneRun × Nat) := xs.flatMap (fun x => (x.lanes.filter (fun l => l / 32 == k)).map (fun l => (x, l)))

/-- Half the distinct 256-byte lines of a pass; a pass holds its pipe for a cycle at least. -/
def lineCycles (lines : List Nat) : Nat := max 1 ((lines.eraseDups.length + 1) / 2)

def globalCycles (addr : LaneRun → Nat → W64) (xs : List LaneRun) (k : Nat) : Nat :=
  lineCycles ((passLanes xs k).map (fun x => (addr x.1 x.2).toNat / 256))

/-- The most distinct words of a pass in one bank of the physical local blocks, and the line rule for what is spill-backed; where a pass has both, the greater (log 34). -/
def localCycles (f : Nat) (addr : LaneRun → Nat → Nat) (n : Nat) (xs : List LaneRun) (k : Nat) : Nat :=
  let ls := (passLanes xs k).map (fun x => addr x.1 x.2)
  let words := ((ls.filter (fun a => a / 16384 < f)).flatMap (fun a => (List.range ((n + 3) / 4)).map (fun i => a / 4 + i))).eraseDups
  max (((List.range 32).map (fun b => (words.filter (fun w => w % 32 == b)).length)).foldl max 0)
    (lineCycles ((ls.filter (fun a => f ≤ a / 16384)).map (fun a => a / 256)))

/-! ## Loads and stores -/

/-- Bytes of an access of format code TY (R183). -/
def tyBytes (o : LaneOps) : Nat := Fp.width o.ty.toNat / 8

/-- The register words of a value loaded from bytes. -/
def loadedWords (o : LaneOps) (l : Nat) (bs : List Byte) : List (Nat × W32) := laneWords o.ty.toNat o.vd.toNat l (leNat bs)

/-- The accesses of an instruction as one plan. -/
def wholePlan (ps : List (Nat × Plan)) : Plan := { pieces := ps.flatMap (fun p => p.2.pieces), used := ps.flatMap (fun p => p.2.used) }

/-- The lane memory instruction's translations are used, and its words go through L1, read or stored. -/
def noteLanes (stores : Bool) (ps : List (Nat × Plan)) : Prog :=
  .get fun s => .all [ noteTlb (s.spaceOf s.cur) (wholePlan ps).used, (if stores then storeL1 else noteL1) s.path (wholePlan ps).phys ]

/-- Planned loads in every active lane: they wait for the team's own writes to their words that wait at their home (R174), and for the lines that L1 lacks.  Lanes that read one word receive one value (R185); they see what a lane acquire has ordered before them (R189). -/
def laneLoad (i : Instr) (plans : State → LaneRun → Except Stop (List (Nat × Plan))) (cycles : State → List LaneRun → Nat → Nat) : Prog :=
  laneFrame i fun x => .get fun s =>
    match i.laneOp, plans s x with
    | some (_, o), .ok ps =>
      let b := (s.team s.cur).blk
      if loadWaits s s.path b (wholePlan ps) then laneWait
      else needRead s.path (wholePlan ps)
        (.all [ laneFinish i o x (cycles s) { regs := ps.flatMap (fun p => loadedWords o p.1 (planBytes s (.lanes s.cur) b p.2)) },
                noteReads (.lanes s.cur) s.path ((planWords b (wholePlan ps)).map (fun w => (w, 0))),
                noteLanes false ps ]) laneWait
    | some _, .error e => laneStop e
    | none, _ => .ret

/-- The bytes a lane stores (R183). -/
def laneStoreBytes (x : LaneRun) (o : LaneOps) (l : Nat) : List Byte := leBytes (tyBytes o) (bOperand x.t x.b o o.ty.toNat l)

/-- The bytes that stay of writes in lane order: the highest lane's (R185). -/
def finalBytes (xs : List (Nat × List Byte)) : KMap Byte :=
  xs.foldl (fun m x => (x.2.zipIdx).foldl (fun m b => m.put (x.1 + b.2) b.1) m) []

/-- Bytes in rising order as runs. -/
def byteRuns : KMap Byte → List (Nat × List Byte)
  | [] => []
  | (a, b) :: m =>
    match byteRuns m with
    | (a', bs) :: rs => if a' = a + 1 then (a, b :: bs) :: rs else (a, [b]) :: (a', bs) :: rs
    | [] => [(a, [b])]

/-- The pieces of planned writes with their bytes. -/
def splitBytes : List Piece → List Byte → List (Piece × List Byte)
  | [], _ => []
  | y :: ps, bs => (y, bs.take y.len) :: splitBytes ps (bs.drop y.len)

/-- Write lanes' bytes, each word once with its final value (R173, R185). -/
def writeLanes (w : Writer) (xs : List (Plan × List Byte)) : Prog :=
  let ys := xs.flatMap (fun x => splitBytes x.1.pieces x.2)
  .each [Place.phys, .loc w.blk, .ob w.blk] (fun p =>
    .each (byteRuns (finalBytes ((ys.filter (fun y => y.1.place w.blk == p)).map (fun y => (y.1.addr, y.2)))))
      (fun r => putBytes w p r.1 r.2 .ret))

/-- The writes of a lane instruction of a batch. -/
def State.laneWriter (s : State) (b : Batch) (role sure : Bool) : Writer :=
  { path := s.path, blk := (s.team s.cur).blk, role := role, lane := some b.order, sure := sure }

/-- Planned stores: the highest lane's value stands in each word (R185). -/
def laneStore (i : Instr) (plans : State → LaneRun → Except Stop (List (Nat × Plan))) (cycles : State → List LaneRun → Nat → Nat) : Prog :=
  laneFrame i fun x => .get fun s =>
    match i.laneOp, plans s x with
    | some (_, o), .ok ps =>
      .all [ laneFinish i o x (cycles s) {},
             writeLanes (s.laneWriter x.b false false) (ps.map (fun p => (p.2, laneStoreBytes x o p.1))),
             noteLanes true ps ]
    | some _, .error e => laneStop e
    | none, _ => .ret

def execLdg (o : LaneOps) (s : State) : Host.Outcome State Fault Refusal :=
  (laneLoad (.ldg o) (fun s x => globalLanes s x.lanes .read (globalLane x o false) (tyBytes o))
    (fun _ => globalCycles (fun x l => globalLane x o false l))).run s
def execStg (o : LaneOps) (s : State) : Host.Outcome State Fault Refusal :=
  (laneStore (.stg o) (fun s x => globalLanes s x.lanes .write (globalLane x o false) (tyBytes o))
    (fun _ => globalCycles (fun x l => globalLane x o false l))).run s

/-- STO: a lane store that is a release: none of its lanes is performed before the team's writes ahead of it; its lanes wait at their homes for those, for a page under migration, and for their lines in M (R174, R188). -/
def execSto (o : LaneOps) (s : State) : Host.Outcome State Fault Refusal :=
  (laneFrame (.sto o) fun x => .get fun s =>
    match globalLanes s x.lanes .write (globalLane x o false) (tyBytes o) with
    | .error e => laneStop e
    | .ok ps =>
      .all [ laneFinish (.sto o) o x (globalCycles (fun x l => globalLane x o false l)) {},
             writeLanes (s.laneWriter x.b true false) (ps.map (fun p => (p.2, laneStoreBytes x o p.1))),
             noteLanes true ps ]).run s

/-- Physical local blocks of the block whose team runs. -/
def State.physBlocks (s : State) : Nat := (s.blockOf s.cur).ltab.length

def execLdl (o : LaneOps) (s : State) : Host.Outcome State Fault Refusal :=
  (laneLoad (.ldl o) (fun s x => localLanes s x.lanes .read (shortLane x o) (tyBytes o))
    (fun s => localCycles s.physBlocks (fun x l => shortLane x o l) (tyBytes o))).run s
def execStl (o : LaneOps) (s : State) : Host.Outcome State Fault Refusal :=
  (laneStore (.stl o) (fun s x => localLanes s x.lanes .write (shortLane x o) (tyBytes o))
    (fun s => localCycles s.physBlocks (fun x l => shortLane x o l) (tyBytes o))).run s

/-- LDB reads the block's range MOD (R186). -/
def execLdb (o : LaneOps) (s : State) : Host.Outcome State Fault Refusal :=
  (laneLoad (.ldb o) (fun s x => obLanes s x.lanes o (shortLane x o) (tyBytes o)) (fun _ _ _ => 1)).run s

/-- STB writes the block's range MOD (R185, R186). -/
def execStb (o : LaneOps) (s : State) : Host.Outcome State Fault Refusal :=
  (laneStore (.stb o) (fun s x => obLanes s x.lanes o (shortLane x o) (tyBytes o)) (fun _ _ _ => 1)).run s

/-! ## LDT (R163, R187) -/

/-- The tile, row and column that a lane's element value names. -/
def tileOf (o : LaneOps) (e : W32) : Nat := o.imm.toNat % 32 + e.toNat / 4096 % 16
def tileWord (o : LaneOps) (e : W32) : Nat := 4096 * tileOf o e + e.toNat % 4096

/-- A tile word of a block as a plain read of an agent finds it (R286). -/
def tileSeen (s : State) (p : Path) (blk w : Nat) : W32 := wordSeen s p 0 ((Place.tile blk).word (4 * w)) (Sparse.get (s.block blk).tiles w)

/-- Tiles that a matrix operation writes. -/
def MatrixOp.tiles : MatrixOp → List Nat
  | .mzero t n => (List.range n).map (t + ·)
  | .mma t _ _ _ d _ _ => (List.range (((d.toNat / 2 ^ 16 % 256) + 15) / 16)).map (t + ·)
  | .mdrain t _ _ => [t]

def MatrixOp.isDrain : MatrixOp → Bool
  | .mdrain _ _ _ => true
  | _ => false

/-- LDT: a tile word is read as any word is (R286). -/
def execLdt (o : LaneOps) (s : State) : Host.Outcome State Fault Refusal :=
  (laneFrame (.ldt o) fun x => .get fun s =>
    let e := fun l => x.t.vreg o.va.toNat l
    let bad := fun l => decide (65536 ≤ (e l).toNat) || decide ((s.launchOf s.cur).hdr.tiles ≤ tileOf o (e l))
    match firstFail x.lanes bad (fun l => .trap 0x0A (BitVec.ofNat 64 ((e l).toNat + 2 ^ 32 * (o.imm.toNat % 32)))) with
    | some st => laneStop st
    | none =>
      let tiles := x.lanes.map (fun l => tileOf o (e l))
      -- an MMA or MZERO of the team on a tile read, issued before the batch, has not completed
      let early := (s.core (coreOf s.cur)).queue.any (fun m =>
        m.team == s.cur && !m.op.isDrain && decide (m.behind ≤ cursorPlace x.t) && m.op.tiles.any tiles.contains)
      if early then laneWait
      else .all [ laneFinish (.ldt o) o x (fun _ _ => 1)
                    { regs := x.lanes.map (fun l => (1024 * o.vd.toNat + l, tileSeen s (.lanes s.cur) (s.team s.cur).blk (tileWord o (e l)))) },
                  noteReads (.lanes s.cur) s.path (x.lanes.map (fun l => ((Place.tile (s.team s.cur).blk).word (4 * tileWord o (e l)), 0))) ]).run s

/-! ## Lane atomics (R173, R189) -/

/-- One lane's step: the new word, if any, and its events. -/
def laneAtomicStep (x : LaneRun) (o : LaneOps) (l old : Nat) : Option Nat × List Nat :=
  let ty := o.ty.toNat
  let b := bOperand x.t x.b o ty l
  if o.mode = 11 then (if old = b then some (x.t.lane ty o.vc.toNat l) else none, [])
  else
    let r := atomicOp o.mode.toNat (Fp.width ty) old b
    (some r.1, r.2)

/-- A byte that the lanes before left, or as it stands. -/
def laneOld (s : State) (blk : Nat) (done : KMap Byte) (y : Piece) : List Byte :=
  (List.range y.len).map (fun i => (done.get? (y.addr + i)).getD ((readPlace s (y.place blk) (y.addr + i) 1).getD 0 0))

/-- The lanes of an atomic, one after another in lane order, each on the word as the lanes before left it: the bytes left, by address, of pieces that `mine` holds of, and what the lanes receive. -/
def laneAtomics (s : State) (x : LaneRun) (o : LaneOps) (blk : Nat) : List (Nat × Plan) → (Place → KMap Byte) → LaneOut → (Place → KMap Byte) × LaneOut
  | [], m, r => (m, r)
  | (l, q) :: ps, m, r =>
    let old := leNat (q.pieces.flatMap (fun y => laneOld s blk (m (y.place blk)) y))
    let (new, ev) := laneAtomicStep x o l old
    let m' := match new with
      | some v => (fun p => (splitBytes q.pieces (leBytes (tyBytes o) v)).foldl (fun k y =>
          if y.1.place blk = p then (y.2.zipIdx).foldl (fun k b => k.put (y.1.addr + b.2) b.1) k else k) (m p))
      | none => m
    laneAtomics s x o blk ps m' { r with regs := r.regs ++ laneWords o.ty.toNat o.vd.toNat l old, events := r.events ++ ev }

/-- Writes of the team that a lane release waits for, or releases that a lane acquire waits for, are not performed: those before its own place at a home, if it waits there (R179, R289). -/
def laneStays (s : State) (ord : MemOrder) (es : List Stalled) : Bool :=
  let before := match es with
    | e :: _ => s.pkg.stalled.takeWhile (· != e)
    | [] => s.pkg.stalled
  before.any (fun e => e.path == s.path && !e.rmw && (ord.releases || (ord.acquires && e.role && e.lane.isSome)))

/-- The lanes' plans of an access that waits at its home: one place a lane, where each access lies now. -/
def waitingPlans (lanes : List Nat) (es : List Stalled) : List (Nat × Plan) := (lanes.zip es).map (fun e => (e.1, planOf [e.2]))

/-- Lanes performed, with what they receive. -/
def LaneDone.add (d : LaneDone) (lanes : List Nat) (r : LaneOut) : LaneDone :=
  { lanes := d.lanes ++ lanes, regs := d.regs ++ r.regs, events := d.events ++ r.events }

/-- Some lanes of an atomic are performed at their words; the acquire orders the team's later lane instructions (R189). -/
def atomicLanes (x : LaneRun) (o : LaneOps) (ps : List (Nat × Plan)) : Prog :=
  .get fun s =>
    let ord := MemOrder.ofBits o.rm
    let blk := (s.team s.cur).blk
    let w := wholePlan ps
    .all [ .when (!(waitingAtomic s s.path true).isEmpty) (.one (.pkg (fun g => { g with stalled := g.stalled.filter (fun e =>
             !(e.path == s.path && e.rmw && e.lane.isSome && w.pieces.any (fun y => y.place blk == e.place && y.addr == e.pa))) }))),
           .when ord.releases ((noteRelease s.path).seq (noteRelease (.lanes s.cur))),
           .when ord.acquires ((noteAcquire (.lanes s.cur) (planWords blk w)).seq
             (setTeam (fun t => { t with laneAcqs := t.laneAcqs ++ [(x.b.order, s.writes)] }))),
           .get fun s =>
             let r := laneAtomics s x o blk ps (fun _ => []) {}
             .all [ .one (.hist (fun hs => (planWords blk w).foldl (fun hs k => markRead s.path k 0 hs) hs)),
                    .each [Place.phys, .loc blk] (fun p => .each (byteRuns (r.1 p)) (fun q =>
                      putBytes (s.laneWriter x.b (ord.acquires || ord.releases) true) p q.1 q.2 .ret)),
                    noteTlb (s.spaceOf s.cur) w.used,
                    setTeam (fun t => { t with partDone := t.partDone.add (ps.map Prod.fst) r.2 }) ] ]

/-- Every lane of an atomic has been performed. -/
def atomicEnd (i : Instr) (o : LaneOps) (x : LaneRun) (cycles : State → List LaneRun → Nat → Nat) : Prog :=
  .get fun s =>
    let d := (s.team s.cur).partDone
    (laneFinish i o x (cycles s) { regs := d.regs, events := d.events }).seq (setTeam (fun t => { t with partDone := { lanes := [], regs := [], events := [] } }))

/-- Lanes by the line of their words. -/
def byLine (ps : List (Nat × Plan)) : List (List (Nat × Plan)) :=
  ((ps.map (fun p => linesOf p.2.phys)).eraseDups).map (fun k => ps.filter (fun p => linesOf p.2.phys == k))

/-- ATOMG and ATOML; RM holds the ordering (R189).  With every line in M the lanes are performed at once; else, and at a page under migration, they wait at their homes in their order (R174), and each line's lanes are performed once it can be. -/
def laneAtomic (i : Instr) (plans : State → LaneRun → Except Stop (List (Nat × Plan))) (cycles : State → List LaneRun → Nat → Nat) : Prog :=
  laneFrame i fun x => .get fun s =>
    match i.laneOp with
    | none => .ret
    | some (_, o) =>
      let ord := MemOrder.ofBits o.rm
      let blk := (s.team s.cur).blk
      let es := waitingAtomic s s.path true
      let rest := x.lanes.filter (fun l => !x.t.partDone.lanes.contains l)
      if laneStays s ord es then laneWait
      else if es.isEmpty then
        (match plans s { x with lanes := rest } with
         | .error e => laneStop e
         | .ok ps =>
           let w := wholePlan ps
           let queue := (enqueueAtomic (s.laneWriter x.b false false) w).seq laneWait
           if planLocked s w then queue
           else if behindWrites s s.path blk w es then laneWait
           else needLines s.path .write (linesOf w.phys) ((atomicLanes x o ps).seq (atomicEnd i o x cycles)) queue)
      else
        (Prog.each (byLine (waitingPlans rest es)) (fun ps => .get fun s =>
          let w := wholePlan ps
          let mine := es.filter (fun e => w.pieces.any (fun y => y.place blk == e.place && y.addr == e.pa))
          if planLocked s w || behindWrites s s.path blk w mine then .ret else needLines s.path .write (linesOf w.phys) (atomicLanes x o ps) .ret)).seq
        (.get fun s => if (waitingAtomic s s.path true).isEmpty then atomicEnd i o x cycles else laneWait)

def execAtomg (o : LaneOps) (s : State) : Host.Outcome State Fault Refusal :=
  (laneAtomic (.atomg o) (fun s x => globalLanes s x.lanes .write (globalLane x o true) (tyBytes o))
    (fun _ => globalCycles (fun x l => globalLane x o true l))).run s
def execAtoml (o : LaneOps) (s : State) : Host.Outcome State Fault Refusal :=
  (laneAtomic (.atoml o) (fun s x => localLanes s x.lanes .write (shortLane x o) (tyBytes o))
    (fun s => localCycles s.physBlocks (fun x l => shortLane x o l) (tyBytes o))).run s

end Sys2Proof.Machine
end

