-- ==== Sys2Proof/Machine/Matrix.lean ====
section
/-! DEFINITION. Matrix instructions at issue, groups, and speculation (R260 to R274). -/

namespace Sys2Proof.Machine

/-! ## Records (R260, R261) -/

/-- The remaining fields of a reservation record. -/
def rrPitch (r : W64) : Nat := r.toNat / 2 ^ 52
def rrSidePitch (r : W64) : Nat := r.toNat / 2 ^ 42 % 1024
def rrSide (r : W64) : Nat := r.toNat / 2 ^ 24 % 2 ^ 18
def recBlen (r : W64) : Nat := r.toNat / 16 % 4
def recFmt (r : W64) : Nat := r.toNat % 16

/-- Elements of an e2m1x block: 16, 32 or 64. -/
def blockLen (r : W64) : Nat := 16 * 2 ^ recBlen r

/-- The value ranges of R260. -/
def rrValid (r : W64) : Bool :=
  let f := recFmt r
  rrPitch r != 0 && rrLen r != 0 && decide (rrLen r ≤ 256) && [4, 8, 9, 10, 12, 13, 14].contains f
    && (if f = 14 then recBlen r != 3 && rrSide r % 16 == 0 else recBlen r == 0 && rrSide r == 0 && rrSidePitch r == 0)

/-- The fields of a panel record. -/
def panK (r : W64) : Nat := r.toNat / 2 ^ 42 % 2 ^ 16
def panSideRow (r : W64) : Nat := r.toNat / 2 ^ 32 % 1024
def panRow (r : W64) : Nat := r.toNat / 2 ^ 22 % 1024

/-- Width in bits of an element of a matrix format. -/
def elemBits (f : Nat) : Nat := if f = 14 then 4 else Fp.width f

/-- Slice rows of the weights and of the side words (R261). -/
def panRows (r : W64) : Nat := (panK r * elemBits (recFmt r) + 255) / 256
def panSideRows (r : W64) : Nat := (2 * ((panK r + blockLen r - 1) / blockLen r) + 31) / 32

/-- The checks of PANEL (R264). -/
def panValid (r : W64) : Bool :=
  let f := recFmt r
  r.toNat / 2 ^ 58 == 0 && r.toNat / 2 ^ 6 % 2 ^ 16 == 0 && [4, 9, 10, 12, 13, 14].contains f && panK r != 0
    && decide (panRow r + panRows r ≤ 1024)
    && (if f = 14 then recBlen r != 3 && decide (panSideRow r + panSideRows r ≤ 1024) else recBlen r == 0 && panSideRow r == 0)

/-- OBRANGE of a matrix instruction (R262). -/
def obTrap (kind range : Nat) : Prog := trapHere 0x09 (BitVec.ofNat 64 (kind * 2 ^ 16 + range))

/-! ## Ranges and panels (R263, R264) -/

/-- An operation captured a range. -/
def MatrixOp.uses (range : Nat) : MatrixOp → Bool
  | .mma _ r _ _ _ _ _ => r == range
  | _ => false

/-- A matrix instruction of a block that captured a range still reads it: one in the queue, or one that waits for an entry (R263, R267). -/
def captures (s : State) (blk range : Nat) : Bool :=
  let b := s.block blk
  (s.core b.core).queue.any (fun (e : MatrixEntry) => b.teams.contains e.team && e.op.uses range)
    || b.teams.any (fun t => (s.team t).captured.any (MatrixOp.uses range))

/-- Two reservations share a KiB. -/
def overlaps (x y : W64) : Bool :=
  decide (rrBase x < rrBase y + rrLen y) && decide (rrBase y < rrBase x + rrLen x)

def execObres (n : BitVec 4) (a : GReg) (s : State) : Host.Outcome State Fault Refusal :=
  (scalar { reads := [a] } fun t => .get fun s =>
    let r := t.reg a
    let b := s.blockOf s.cur
    if !rrValid r then obTrap 2 n.toNat
    else if (s.launchOf s.cur).hdr.obkb < rrBase r + rrLen r || b.ranges.any (fun e => e.1 != n.toNat && overlaps r e.2) then
      obTrap 1 n.toNat
    else if captures s t.blk n.toNat then waitHere
    else (finish { reads := [a] } id).seq (.one (.block t.blk (fun b => { b with ranges := b.ranges.put n.toNat r })))).run s

def execObrel (n : BitVec 4) (s : State) : Host.Outcome State Fault Refusal :=
  (scalar {} fun t => .get fun s =>
    if ((s.blockOf s.cur).ranges.get? n.toNat).isNone then obTrap 0 n.toNat
    else if captures s t.blk n.toNat then waitHere
    else (finish {} id).seq (.one (.block t.blk (fun b => { b with ranges := b.ranges.del n.toNat })))).run s

/-- PANEL: in speculative mode it writes the team's own copy of the panel. -/
def execPanel (n : BitVec 4) (a : GReg) (s : State) : Host.Outcome State Fault Refusal :=
  let u : Use := { reads := [a], spec := true }
  (scalar u fun t =>
    let r := t.reg a
    if !panValid r then illegal
    else match t.spec with
      | some _ => finish u (fun t => { t with spec := t.spec.map (fun p => { p with panels := p.panels.put n.toNat r }) })
      | none => (finish u id).seq (.one (.block t.blk (fun b => { b with panels := b.panels.put n.toNat r })))).run s

/-! ## The matrix queue at issue (R48, R271, R273) -/

/-- No entry is available to a team: its block's 16 are in use, or the core's 64. -/
def queueFull (s : State) (t : Nat) : Bool :=
  let q := (s.core (coreOf t)).queue
  decide (64 ≤ q.length) || decide (16 ≤ (q.filter (fun e => (s.blockOf t).teams.contains e.team)).length)

/-- Live tiles for which an operation takes a proof tile: an MMA without a column group writes none. -/
def MatrixOp.proofs : MatrixOp → List Nat
  | .mma t r p f d x y => if d.toNat / 2 ^ 32 = 0 then [] else (MatrixOp.mma t r p f d x y).tiles
  | o => o.tiles

/-- Tiles that a team's speculation shadows. -/
def shadowed (s : State) (t : Nat) : List Nat :=
  (match (s.team t).spec with
   | some p => p.tiles.keys ++ (specEntries s t).flatMap (fun (e : MatrixEntry) => e.op.proofs)
   | none => []).eraseDups

/-- The 8 proof tiles of a core do not suffice for these tiles of a team. -/
def lacksProofs (s : State) (t : Nat) (tiles : List Nat) : Bool :=
  let mine := shadowed s t
  let used := ((s.teams.filter (fun m => coreOf m.1 == coreOf t)).map (fun m => (shadowed s m.1).length)).sum
  decide (8 < used + (tiles.filter (fun x => !mine.contains x)).length)

/-- An entry as it joins the queue. -/
def newEntry (t behind : Nat) (word : W32) (op : MatrixOp) (spec : Bool) : MatrixEntry :=
  { team := t, behind := behind, word := word, op := op, group := none, spec := spec, started := false, next := [], steps := [], times := [],
    spots := [], amaxAt := [], written := false, since := 0, begunTerms := [], overlap := false, disturbed := false, counted := 0, held := [0, 0, 0], events := [],
    faultAt := none, fails := [] }

/-- An instruction joins the queue and the team's open group; with no entry, or too few proof tiles, it waits with the operands that it captured (R267, R271, R273). -/
def enqueue (u : Use) (i : Instr) (op : MatrixOp) : Prog :=
  .get fun s =>
    let t := s.team s.cur
    let keep := fun (full : Bool) => setTeam (fun t =>
      { t with waiting := true, captured := some op, spec := t.spec.map (fun p => { p with full := p.full || full }) })
    if t.spec.any (·.full) then keep true
    else if t.spec.isSome && lacksProofs s s.cur op.proofs then keep true
    else if queueFull s s.cur then keep false
    else .all [ .one (.core (coreOf s.cur) (fun c => { c with queue := c.queue ++
                  [newEntry s.cur t.lanes.length ((encodeScalar i).getD 0) op t.spec.isSome] })),
                finish u id ]

/-- A matrix instruction at issue: once it has captured its operands nothing of it is checked or read again. -/
def issueMatrix (u : Use) (i : Instr) (check : Team → Prog) : Prog :=
  scalar u fun t =>
    match t.captured with
    | some op => enqueue u i op
    | none => check t

/-- MZERO (R265). -/
def execMzero (t : BitVec 5) (n : BitVec 2) (s : State) : Host.Outcome State Fault Refusal :=
  (issueMatrix { spec := true } (.mzero t n) fun _ => .get fun s =>
    let top := t.toNat + n.toNat
    if (s.launchOf s.cur).hdr.tiles ≤ top then trapHere 0x0A (BitVec.ofNat 64 top)
    else enqueue { spec := true } (.mzero t n) (.mzero t.toNat (n.toNat + 1))).run s

/-- The combinations of R266: A format, weight format and flags. -/
def combination (a w : Nat) (f : BitVec 2) : Bool :=
  if f = 0 then [4, 8, 9, 10, 12, 13, 14].contains a && [4, 9, 10, 12, 13, 14].contains w
  else if f = 2 then false
  else a == 4 && w == 4

/-- The fields of g-dims. -/
def dimK (d : W64) : Nat := d.toNat % 2 ^ 16
def dimM (d : W64) : Nat := d.toNat / 2 ^ 16 % 2 ^ 8

/-- One past the last byte of A that rows 0 to M − 1 use, side words included. -/
def aEnd (r d : W64) : Nat :=
  let m := dimM d - 1
  let elems := 64 * rrPitch r * m + (dimK d * elemBits (recFmt r) + 7) / 8
  if recFmt r = 14 then max elems (rrSide r + 16 * rrSidePitch r * m + 2 * ((dimK d + blockLen r - 1) / blockLen r)) else elems

/-- MMA at issue (R267). -/
def execMma (t : BitVec 5) (r p : BitVec 4) (x : GReg) (f : BitVec 2) (s : State) : Host.Outcome State Fault Refusal :=
  let u : Use := { reads := [x], spec := true }
  (issueMatrix u (.mma t r p x f) fun m => .get fun s =>
    let d := m.reg x
    let b := s.blockOf s.cur
    let pan := match m.spec.bind (fun q => q.panels.get? p.toNat) with
      | some w => some w
      | none => b.panels.get? p.toNat
    if d.toNat / 2 ^ 24 % 2 ^ 8 ≠ 0 ∨ dimK d = 0 ∨ dimM d = 0 ∨ 64 < dimM d then illegal
    else match pan, b.ranges.get? r.toNat with
      | none, _ => illegal
      | some _, none => obTrap 0 r.toNat
      | some w, some res =>
        let top := t.toNat + (dimM d + 15) / 16 - 1
        if !combination (recFmt res) (recFmt w) f then illegal
        else if (s.launchOf s.cur).hdr.tiles ≤ top then trapHere 0x0A (BitVec.ofNat 64 top)
        else if rrLen res * 1024 < aEnd res d then obTrap 3 r.toNat
        else enqueue u (.mma t r p x f) (.mma t.toNat r.toNat p.toNat f d res w)).run s

/-! ## MDRAIN at issue (R268, R269) -/

namespace Drain

/-- The fields of a drain record. -/
def addr (r : List Byte) : W64 := field64 r 0
def ctl (r : List Byte) : Nat := field r 8 4
def pitch (r : List Byte) : Nat := field r 0xC 4
def amax (r : List Byte) : W64 := field64 r 0x10
def scale (r : List Byte) : Nat := field r 0x18 4
def side (r : List Byte) : Nat := field r 0x1C 4
def rows (r : List Byte) : Nat := ctl r / 2 ^ 16 % 32
def xtra (r : List Byte) : Bool := (ctl r).testBit 15
def sat (r : List Byte) : Bool := (ctl r).testBit 14
def blen (r : List Byte) : Nat := ctl r / 2 ^ 12 % 4
def zero (r : List Byte) : Bool := (ctl r).testBit 11
def scaled (r : List Byte) : Bool := (ctl r).testBit 10
def int (r : List Byte) : Bool := (ctl r).testBit 9
def rm (r : List Byte) : Rm := Rm.ofBits (BitVec.ofNat 2 (ctl r / 2 ^ 6))
def space (r : List Byte) : Nat := ctl r / 16 % 4
def fmt (r : List Byte) : Nat := ctl r % 16

/-- Bytes of 256 elements of the destination format. -/
def rowBytes (r : List Byte) : Nat := if fmt r = 14 then 128 else 256 * (Fp.width (fmt r) / 8)

/-- Bytes of an element; an e2m1x row is addressed by bytes. -/
def elemBytes (r : List Byte) : Nat := if fmt r = 14 then 1 else Fp.width (fmt r) / 8

/-- The record is valid (R268); a pitch is a multiple of the element size. -/
def valid (r : List Byte) : Bool :=
  let f := fmt r
  decide (ctl r / 2 ^ 21 = 0) && !(ctl r).testBit 8 && decide (1 ≤ rows r) && decide (rows r ≤ 16) && space r != 3 && f != 15
    && (f == 14 || (!xtra r && blen r == 0 && side r == 0))
    && !(sat r && Fp.isFloat f || sat r && f == 14)
    && (match Fp.f32.decode (scale r) with | .fin _ _ _ => true | _ => false) && (scaled r || scale r == 0)
    && decide ((addr r).toNat % elemBytes r = 0) && decide (rowBytes r ≤ pitch r) && decide (pitch r % elemBytes r = 0)
    && !(f == 14 && blen r == 3) && decide (side r % 2 = 0)
    && (if space r = 1 then decide ((addr r).toNat < 2 ^ 20) else if space r = 2 then decide ((addr r).toNat < 2 ^ 24) else true)
    && decide ((amax r).toNat % 4 = 0)

/-- The runs a drain writes, from its destination: row elements, then for e2m1x each row's side words. -/
def runs (r : List Byte) : List (Nat × Nat) :=
  (List.range (rows r)).flatMap (fun i =>
    (i * pitch r, rowBytes r) :: (if fmt r = 14 then [(side r + i * (512 / (16 * 2 ^ blen r)), 512 / (16 * 2 ^ blen r))] else []))

end Drain

/-- The check of one run of a space: canonical, within local memory, or within a range (R166). -/
def spotCheck (s : State) (blk space : Nat) (res : Option W64) (range : Nat) (a : W64) (n : Nat) : Option Stop :=
  if space = 0 then (if canonicalRun a n then none else some (.trap 0x07 a))
  else if space = 1 then
    (if (s.launch (s.block blk).launch).hdr.lblk * 16384 < a.toNat + n then some (.trap 0x08 a) else none)
  else match res with
    | none => some (.trap 0x09 (BitVec.ofNat 64 range))
    | some r => if rrLen r * 1024 < a.toNat + n then some (.trap 0x09 (BitVec.ofNat 64 (3 * 2 ^ 16 + range))) else none

/-- The plan of one run of a space. -/
def spotPlan (s : State) (sp : Space) (blk space : Nat) (res : Option W64) (need : Need) (a : W64) (n : Nat) : Except Stop Plan :=
  if space = 0 then globalPlan s sp need a n
  else if space = 1 then localPlan s sp (s.block blk) need a n
  else .ok { pieces := [.ob (obByte (res.getD 0) a.toNat) n], used := [] }

/-- The plans of runs, in order. -/
def spotPlans (s : State) (sp : Space) (blk space : Nat) (res : Option W64) (need : Need) : List (W64 × Nat) → Except Stop Plan
  | [] => .ok { pieces := [], used := [] }
  | (a, n) :: rs =>
    match spotPlan s sp blk space res need a n with
    | .error e => .error e
    | .ok p =>
      match spotPlans s sp blk space res need rs with
      | .error e => .error e
      | .ok q => .ok { pieces := p.pieces ++ q.pieces, used := p.used ++ q.used }

/-- The runs of a drain with their addresses; an operand-buffer address is an offset in its range. -/
def drainSpots (r : List Byte) : List (W64 × Nat) :=
  let base := if Drain.space r = 2 then BitVec.ofNat 64 ((Drain.addr r).toNat % 2 ^ 20) else Drain.addr r
  (Drain.runs r).map (fun x => (base + BitVec.ofNat 64 x.1, x.2))

/-- The first check that a drain's destinations fail. -/
def drainCheck (s : State) (blk : Nat) (r : List Byte) (res : Option W64) : Option Stop :=
  match (drainSpots r).findSome? (fun x => spotCheck s blk (Drain.space r) res ((Drain.addr r).toNat / 2 ^ 20) x.1 x.2) with
  | some e => some e
  | none => if Drain.amax r != 0 && !canonicalRun (Drain.amax r) 4 then some (.trap 0x07 (Drain.amax r)) else none

/-- The plans of a drain: its rows and its amax word. -/
def drainPlans (s : State) (t : Nat) (r : List Byte) (res : Option W64) : Except Stop (Plan × Plan) :=
  match spotPlans s (s.spaceOf t) (s.team t).blk (Drain.space r) res .write (drainSpots r) with
  | .error e => .error e
  | .ok p =>
    if Drain.amax r = 0 then .ok (p, { pieces := [], used := [] })
    else match globalPlan s (s.spaceOf t) .write (Drain.amax r) 4 with
      | .error e => .error e
      | .ok q => .ok (p, q)

/-- The checks of MDRAIN on its record: every byte that it will write is checked and translated. -/
def drainIssue (t : BitVec 5) (a : GReg) (r : List Byte) : Prog :=
  .get fun s =>
    let res := (s.blockOf s.cur).ranges.get? ((Drain.addr r).toNat / 2 ^ 20)
    if !Drain.valid r then illegal
    else if (s.launchOf s.cur).hdr.tiles ≤ t.toNat then trapHere 0x0A (BitVec.ofNat 64 t.toNat)
    else match drainCheck s (s.team s.cur).blk r res with
      | some e => scalarStop e
      | none =>
        match drainPlans s s.cur r res with
        | .error (.page _ va) => scalarFault 4 va
        | .error e => scalarStop e
        | .ok (x, y) =>
          (noteTlb (s.spaceOf s.cur) (x.used ++ y.used)).seq (enqueue { reads := [a] } (.mdrain t a) (.mdrain t.toNat r (res.getD 0)))

/-- MDRAIN at issue: its record is read once. -/
def execMdrain (t : BitVec 5) (a : GReg) (s : State) : Host.Outcome State Fault Refusal :=
  (issueMatrix { reads := [a] } (.mdrain t a) fun m => .get fun s =>
    let at? := m.reg a
    if at?.toNat % 16 ≠ 0 then trapHere 0x03 at?
    else match localPlan s (s.spaceOf s.cur) (s.blockOf s.cur) .read at? 32 with
      | .error e => scalarStop e
      | .ok p =>
        if planStalls s s.path m.blk p then waitHere
        else needRead s.path p
          (.all [ noteTlb (s.spaceOf s.cur) p.used, notePlan s.path m.blk p, drainIssue t a (planBytes s s.path m.blk p) ]) waitHere).run s

/-! ## Groups (R270) -/

/-- The tags of a drain's writes in the memory order: a closed group of its team by ticket, and the open group. -/
def groupTag (t : Nat) (w : W32) : Nat := 2 ^ 33 * (t + 1) + w.toNat
def openTag (t : Nat) : Nat := 2 ^ 33 * (t + 1) + 2 ^ 32

/-- A tag of a closed group of a team, or of its open one. -/
def tagOf (t n : Nat) : Bool := n / 2 ^ 33 == t + 1

/-- A ticket is no later than another, modulo 2^32. -/
def notLater (k w : W32) : Bool := !(w - k).msb

/-- MCOMMIT closes the open group under the next ticket. -/
def execMcommit (d : GReg) (s : State) : Host.Outcome State Fault Refusal :=
  (scalar { writes := [d] } fun t => .get fun s =>
    let w := t.ticket + 1
    .all [ .when ((s.core (coreOf s.cur)).queue.any (fun e => e.team == s.cur && e.group.isNone))
             (.one (.core (coreOf s.cur) (fun c => { c with queue := c.queue.map (fun e =>
               if e.team = s.cur && e.group.isNone then { e with group := some w } else e) }))),
           .when (s.hist.any (fun h => h.slots.contains (openTag s.cur)))
             (.one (.hist (fun hs => hs.map (fun h =>
               { h with slots := h.slots.map (fun n => if n = openTag s.cur then groupTag s.cur w else n) })))),
           .when (s.pkg.stalled.any (fun h => h.slots.contains (openTag s.cur)))
             (.one (.pkg (fun g => { g with stalled := g.stalled.map (fun h =>
               { h with slots := h.slots.map (fun n => if n = openTag s.cur then groupTag s.cur w else n) }) }))),
           finish { writes := [d] } (fun t => { t.setReg d (w.setWidth 64) with ticket := w }) ]).run s

/-- The group that a ticket names: one not yet issued means the newest. -/
def groupOf (ticket : W32) (x : W64) : W32 := if notLater (x.setWidth 32) ticket then x.setWidth 32 else ticket

/-- A group and every group before it have completed. -/
def groupDone (s : State) (t : Nat) (w : W32) : Bool :=
  !(s.core (coreOf t)).queue.any (fun (e : MatrixEntry) => e.team == t && (match e.group with | some k => notLater k w | none => false))

/-- Drain output that an MWAIT covers is observed complete by its team. -/
def observeDrains (t : Nat) (w : W32) (h : HistWord) : HistWord :=
  let covered := h.slots.any (fun n => tagOf t n && n / 2 ^ 32 % 2 == 0 && notLater (BitVec.ofNat 32 n) w)
  (match h.path with
   | .matrix _ => if covered && !h.obs.contains t then { h with obs := t :: h.obs } else h
   | _ => h)

/-- MWAIT: an acquire (R270). -/
def execMwait (a : GReg) (s : State) : Host.Outcome State Fault Refusal :=
  (scalar { reads := [a] } fun t => .get fun s =>
    let w := groupOf t.ticket (t.reg a)
    if groupDone s s.cur w then
      .all [ .when (!s.hist.isEmpty) (.one (.hist (fun hs => hs.map (observeDrains s.cur w)))),
             noteAcquire s.path [],
             finish { reads := [a] } id ]
    else waitHere).run s

/-- MWAIT_WAKE: a team waiting at MWAIT becomes ready to issue it again. -/
def execMwaitWake (t : Nat) (s : State) : Host.Outcome State Fault Refusal :=
  (ofTeam t (.one (.team t (fun m => { m with waiting := false })))).run s

/-! ## BSPEC (R272) -/

/-- An operand of BSPEC awaits a result. -/
def Team.awaits (t : Team) (a b : GReg) : Bool :=
  let open? := t.await ++ t.laneDests
  (a != 0 && open?.contains a) || (b != 0 && open?.contains b)

/-- BSPEC: with its operands there it is B; else it takes a checkpoint and goes on along the predicted path. -/
def execBspec (c : Cond) (a b : GReg) (h : Bool) (o : BitVec 9) (s : State) : Host.Outcome State Fault Refusal :=
  (scalar { spec := true } fun t => .get fun s =>
    let target := t.pc + disp o
    if !t.awaits a b then
      (if Cond.holds c 64 (t.reg a) (t.reg b) then transfer (useBranch [a, b]) target none else finish (useBranch [a, b]) id)
    else if t.spec.isSome then waitHere
    else if h && checkTarget s s.cur target != .good then waitHere
    else
      let p : Spec :=
        { pc := t.pc, g := t.g, q := t.q, cond := c, a := a, b := b, hint := h, other := if h then t.pc + 4 else target, count := 0,
          events := [], terms := [0, 0, 0, 0], panels := [], tiles := [], full := false }
      setTeam (fun t => { t.retire {} (if h then target else t.pc + 4) with spec := some p })).run s

/-- Add to the term counters of a team and its block: TERMUSED, TERMSTEPS, GROUPWAIT and MMACYC (R258, R259). -/
def addTerms (t : Nat) (xs : List Nat) : Prog :=
  .get fun s =>
    let add := fun (x : W64) i => BitVec.ofNat 64 (satAdd x.toNat (xs.getD i 0))
    .all [ .one (.team t (fun m =>
             { m with termused := add m.termused 0, termsteps := add m.termsteps 1, groupwait := add m.groupwait 2, mmacyc := add m.mmacyc 3 })),
           .one (.block (s.team t).blk (fun b => { b with terms := (List.range 5).map (fun i => b.terms.getD i 0 + xs.getD i 0) })) ]

/-- Element-wise sum of two lists of counts. -/
def addCounts (xs ys : List Nat) : List Nat := (List.range (max xs.length ys.length)).map (fun i => xs.getD i 0 + ys.getD i 0)

/-- Tile words of a team's block are written on path M; a word that stays as it was leaves no record (R284, R286). -/
def writeTiles (t : Nat) (slots : List Nat) (ws : List (Nat × W32)) : Prog :=
  .get fun s =>
    let blk := (s.team t).blk
    .each (ws.filter (fun x => Sparse.get (s.block blk).tiles x.1 != x.2)) (fun x => .one (.store (.matrix t) (.tile blk) blk slots false none (4 * x.1) (bytes4 x.2.toNat)))

/-- The words of a tile that takes new contents. -/
def newWords (tile : Nat) (old new : Sparse 32) : List (Nat × W32) :=
  let gone : List (Nat × W32) := (old.filter (fun e => Sparse.get new e.1 == 0)).map (fun e => (e.1, 0))
  (gone ++ new).map (fun (e : Nat × W32) => (4096 * tile + e.1, e.2))

/-- A kept speculation: panels and proof tiles become live, its matrix instructions count as any others, its events are counted (R272, R273, R107). -/
def keepSpec (t : Nat) : Prog :=
  .get fun s =>
    match (s.team t).spec with
    | none => .ret
    | some p =>
      let es := specEntries s t
      .all [ .one (.block (s.team t).blk (fun b =>
               { b with panels := p.panels.foldl (fun m e => m.put e.1 e.2) b.panels })),
             Prog.each (α := Nat × Sparse 32) p.tiles (fun e => writeTiles t [openTag t] (newWords e.1 (Sparse.slice (s.blockOf t).tiles (4096 * e.1) 4096) (e.2.filter (fun x => x.1 < 4096)))),
             .one (.core (coreOf t) (fun c => { c with queue := c.queue.map (fun e =>
               if e.team = t && e.spec then { e with spec := false, held := [0, 0, 0], events := [] } else e) })),
             addTerms t (es.foldl (fun xs e => addCounts xs e.held) p.terms),
             addEvents (s.blockOf t).launch p.events,
             addEvents (s.blockOf t).launch (es.flatMap (·.events)),
             .one (.team t (fun m => { m with spec := none, waiting := false })) ]

/-- SPECULATION_RESOLVE: every awaited result has been written; the condition is that of the operands without the speculation (R272, R274). -/
def execSpeculationResolve (t : Nat) (s : State) : Host.Outcome State Fault Refusal :=
  (Prog.get fun s =>
    let m := s.team t
    match m.spec with
    | none => .ret
    | some p =>
      if m.awaits p.a p.b then .ret
      else
        let x := fun (r : GReg) => if r = 0 then 0 else p.g[r.toNat]
        if Cond.holds p.cond 64 (x p.a) (x p.b) == p.hint then keepSpec t else dropSpec t (fun p => p.other)).run s

end Sys2Proof.Machine
end

