-- ==== Sys2Proof/Machine/Sync.lean ====
section
/-! DEFINITION. Sync slots: the SYNC functions, watchpoints, and the wake of waiting teams (R221 to R233, R352, R354, R355). -/

namespace Sys2Proof.Machine

/-! ## Modes -/

/-- The mode code of a slot (R221). -/
def Slot.mode : Slot → Nat
  | .off => 0
  | .count _ _ _ => 1
  | .bytes _ => 2
  | .chunks _ => 3
  | .ring _ _ _ _ _ _ _ => 4

/-- SLOTRANGE of a slot, by KIND (R225). -/
def slotTrap (kind n : Nat) (x : Slot) : Prog := trapHere 0x0B (BitVec.ofNat 64 (kind * 2 ^ 16 + x.mode * 2 ^ 8 + n))

/-- A SYNC function on slot n: SLOTRANGE KIND 0, then a wait while unconfigured, then KIND 1, then the function (R224, R225). -/
def slotFn (u : Use) (n : BitVec 6) (modes : List Nat) (body : Team → Slot → Prog) : Prog :=
  scalar u fun t => .get fun s =>
    let x := s.slot t.blk n.toNat
    if (s.launchOf s.cur).hdr.slots ≤ n.toNat then slotTrap 0 n.toNat .off
    else if x.mode = 0 then waitHere
    else if !modes.contains x.mode then slotTrap 1 n.toNat x
    else body t x

/-! ## Roles (R231, R234) -/

/-- A release of a team: it waits for the team's own writes (R174, R179), and carries on what is ordered before it. -/
def releasing (body : Prog) : Prog := .get fun s => if scalarStalls s s.path then waitHere else (noteRelease s.path).seq body

/-- The acquire of the team whose turn it is. -/
def mySlotAcquire (blk n : Nat) : Prog := .get fun s => slotAcquire s.cur blk n

/-! ## Precise stops (R352) -/

/-- A team stops at a boundary: a waiting instruction ends without effect, a speculation is discarded; it posts one record of KIND 5. -/
def stopTeam (t : Nat) : Prog :=
  .get fun s =>
    if (s.team t).stopped || (s.team t).exited then .ret
    else .all [ endWait t, dropSpec t (fun p => p.pc), .one (.team t (fun m => { m with stopped := true })), trace t 5 0 0 ]

/-- Every team of a block stops. -/
def stopBlock (b : Nat) : Prog := .get fun s => .each (s.block b).teams stopTeam

/-! ## Operations on COUNT slots, with watchpoints (R227, R354, R355) -/

/-- A watchpoint of a core watches a slot of a block: TSLOT names a team of the block. -/
def watches (s : State) (core blk n : Nat) (w : W32) : Bool :=
  w.getLsbD 31 && w.toNat % 64 == n
    && (match s.teams.get? (32 * core + w.toNat / 2 ^ 13 % 32) with | some m => m.blk == blk | none => false)

/-- Whether a transition is one that TRANS names: an arrival, the arrival that completes a phase, a flip. -/
def transHolds (trans : Nat) (arrival flip : Bool) : Bool :=
  if trans = 0 then arrival else if trans = 1 then arrival && flip else if trans = 2 then flip else false

/-- The TVAL of a firing (R354). -/
def watchVal (x y : Slot) (trans k n : Nat) : W64 :=
  match x, y with
  | .count _ a _, .count e _ ph => BitVec.ofNat 64 (e * 2 ^ 32 + a * 2 ^ 16 + (if ph then 2 ^ 15 else 0) + trans * 2 ^ 8 + k * 2 ^ 6 + n)
  | _, _ => 0

/-- Watchpoints that an operation fires: number, ACTION and TVAL, in rising order. -/
def firings (s : State) (core blk n : Nat) (arrival flip : Bool) (x y : Slot) : List (Nat × Nat × W64) :=
  (List.range 4).filterMap (fun k =>
    match (s.core core).watch[k]? with
    | some w =>
      let trans := w.toNat / 2 ^ 24 % 4
      if watches s core blk n w && transHolds trans arrival flip then some (k, w.toNat / 2 ^ 26 % 4, watchVal x y trans k n) else none
    | none => none)

/-- What firings do: a trace record each; one WATCH, of the lowest number; a stop of the block. -/
def fire (t blk : Nat) (fs : List (Nat × Nat × W64)) : Prog :=
  if fs.isEmpty then .ret
  else .all [ .each fs (fun f => trace t 4 f.1 f.2.2),
              (match fs.find? (fun f => f.2.1 == 0) with
               | some f => .get fun s => takeTrap t 0x10 f.2.2 (s.team t).pc false true
               | none => .ret),
              .when (fs.any (fun f => f.2.1 == 2)) (stopBlock blk) ]

/-- An operation on a COUNT slot by a team, or by an engine for the team that published: waiting SYWBs of the phase it ends are satisfied, and watchpoints fire. -/
def countOp (t blk n : Nat) (op : SlotOp) : Prog :=
  .get fun s =>
    let x := s.slot blk n
    let y := op.apply x
    let flip := match x, y with
      | .count _ _ p, .count _ _ q => p != q
      | _, _ => false
    let now := match y with
      | .count _ _ q => q
      | _ => false
    let waiters := (s.block blk).teams.filter (fun k =>
      match (s.team k).sywb with
      | some w => w.slot == n && w.got.isNone && w.phase != now
      | none => false)
    .all [ .one (.slot blk n op),
           .when flip (.each waiters (fun k => .one (.team k (fun m => { m with sywb := m.sywb.map (fun w => { w with got := some now }) })))),
           fire t blk (firings s (coreOf t) blk n (op == .arrive) flip x y) ]

/-! ## SYINIT (R226) -/

/-- The configuration that a SYINIT word names; none for KIND 2. -/
def slotConfig (w : W64) : Option Slot :=
  let n := w.toNat / 2 ^ 16 % 2 ^ 16
  let mode := w.toNat % 8
  if w.toNat / 2 ^ 32 ≠ 0 ∨ w.toNat / 8 % 2 ^ 13 ≠ 0 then none
  else if mode = 0 then (if n = 0 then some .off else none)
  else if mode = 1 then (if n = 0 then none else some (.count n 0 false))
  else if mode = 2 then (if n = 0 then some (.bytes 0) else none)
  else if mode = 3 then (if n = 0 then some (.chunks 0) else none)
  else if mode = 4 then (if n = 0 then none else some (.ring n n 0 0 0 0 0))
  else none

/-- A ring without the places held on slot n. -/
def Ring.dropPlaces (r : Ring) (n : Nat) : Ring :=
  { r with
    entries := r.entries.map (fun e => match e.op.copySlot with
      | some k => if k = n then { e with place := none } else e
      | none => e) }

/-- Waiters run again from their start, and no arrival or place made before is carried over; a SYWB whose phase has completed waits no more (R226). -/
def reinit (blk n : Nat) (x : Slot) : Prog :=
  .get fun s =>
    .all [ .one (.slot blk n (.init x)),
           .each ((s.block blk).teams.filter (fun k => match (s.team k).sywb with | some w => w.slot == n && w.got.isNone | none => false))
             (fun k => .one (.team k (fun m => { m with sywb := none }))),
           .one (.block blk (fun b => { b with ring := b.ring.dropPlaces n })) ]

def execSyinit (a : GReg) (n : BitVec 6) (s : State) : Host.Outcome State Fault Refusal :=
  (scalar { reads := [a] } fun t => .get fun s =>
    if (s.launchOf s.cur).hdr.slots ≤ n.toNat then slotTrap 0 n.toNat .off
    else match slotConfig (t.reg a) with
      | none => slotTrap 2 n.toNat (s.slot t.blk n.toNat)
      | some x => (reinit t.blk n.toNat x).seq (finish { reads := [a] } id)).run s

/-! ## COUNT mode (R227) -/

def execSya (d : GReg) (n : BitVec 6) (s : State) : Host.Outcome State Fault Refusal :=
  (slotFn { writes := [d] } n [1] fun t x =>
    match x with
    | .count _ _ p =>
      releasing ((finish { writes := [d] } (fun t => t.setReg d (phaseWord p))).seq (.get fun s => countOp s.cur t.blk n.toNat .arrive))
    | _ => .ret).run s

/-- SYEXP: a 64-bit signed delta (R227). -/
def execSyexp (a : GReg) (n : BitVec 6) (s : State) : Host.Outcome State Fault Refusal :=
  (slotFn { reads := [a] } n [1] fun t x =>
    match x with
    | .count e _ _ =>
      let v : Int := e + (t.reg a).toInt
      if v < 1 ∨ 65535 < v then slotTrap 2 n.toNat x
      else (finish { reads := [a] } id).seq (.get fun s => countOp s.cur t.blk n.toNat (.expect v.toNat))
    | _ => .ret).run s

/-- SYWB: it arrives once, waits until the phase of its arrival has completed, and writes the phase that followed (R227, R231); one whose phase has completed waits no more, whatever its slot has become since (R226). -/
def execSywb (d : GReg) (n : BitVec 6) (s : State) : Host.Outcome State Fault Refusal :=
  (Prog.get fun s =>
    let complete := fun (p : Bool) => (mySlotAcquire (s.team s.cur).blk n.toNat).seq (finish { writes := [d] } (fun t => t.setReg d (phaseWord p)))
    match (s.team s.cur).sywb.bind SywbWait.got with
    | some p => scalar { writes := [d] } fun _ => complete p
    | none => slotFn { writes := [d] } n [1] fun t x =>
      match t.sywb, x with
      | some _, _ => waitHere
      | none, .count e a p =>
        if e ≤ a + 1 then releasing ((countOpThen t.blk n.toNat (complete (!p))))
        else releasing (.all [ setTeam (fun m => { m with waiting := true, sywb := some { d := d, slot := n.toNat, phase := p, got := none } }),
                               .get fun s => countOp s.cur t.blk n.toNat .arrive ])
      | none, _ => .ret).run s
where
  /-- The arrival that completes the phase: the instruction completes, then watchpoints fire at the boundary after it. -/
  countOpThen (blk n : Nat) (k : Prog) : Prog := k.seq (.get fun s => countOp s.cur blk n .arrive)

/-! ## Waiting and testing (R228, R229) -/

/-- The condition of SYW and SYTEST, with the state SYW writes; none for KIND 2. -/
def slotCond (x : Slot) (v : W64) : Option (Bool × W64) :=
  match x with
  | .count _ _ p => if v.toNat / 2 ≠ 0 then none else some (v == phaseWord p, phaseWord p)
  | .bytes n => some (decide (v.toNat ≤ n), BitVec.ofNat 64 n)
  | .chunks b => some (b &&& v == v, b)
  | _ => some (false, 0)

def execSyw (d a : GReg) (n : BitVec 6) (s : State) : Host.Outcome State Fault Refusal :=
  (slotFn { reads := [a], writes := [d] } n [1, 2, 3] fun t x =>
    match slotCond x (t.reg a) with
    | none => slotTrap 2 n.toNat x
    | some (ok, v) =>
      if ok then (mySlotAcquire t.blk n.toNat).seq (finish { reads := [a], writes := [d] } (fun t => t.setReg d v)) else waitHere).run s

def execSytest (d a : GReg) (n : BitVec 6) (s : State) : Host.Outcome State Fault Refusal :=
  (slotFn { reads := [a], writes := [d] } n [1, 2, 3] fun t x =>
    match slotCond x (t.reg a) with
    | none => slotTrap 2 n.toNat x
    | some (ok, _) =>
      (Prog.when ok (mySlotAcquire t.blk n.toNat)).seq
        (finish { reads := [a], writes := [d] } (fun t => t.setReg d (if ok then 1 else 0)))).run s

def execSyclr (a : GReg) (n : BitVec 6) (s : State) : Host.Outcome State Fault Refusal :=
  (slotFn { reads := [a] } n [2, 3] fun t x =>
    match x with
    | .bytes _ =>
      if a ≠ 0 then slotTrap 2 n.toNat x
      else (Prog.one (.slot t.blk n.toNat .clearBytes)).seq (finish { reads := [a] } id)
    | _ => (Prog.one (.slot t.blk n.toNat (.clearBits (t.reg a)))).seq (finish { reads := [a] } id)).run s

/-! ## RING mode (R230) -/

def execRput (d : GReg) (n : BitVec 6) (s : State) : Host.Outcome State Fault Refusal :=
  (slotFn { writes := [d] } n [4] fun t x =>
    match x with
    | .ring _ free _ _ _ put _ =>
      if free = 0 then waitHere
      else .all [ mySlotAcquire t.blk n.toNat, .one (.slot t.blk n.toNat .put),
                  finish { writes := [d] } (fun t => t.setReg d (BitVec.ofNat 64 put)) ]
    | _ => .ret).run s

def execRdone (n : BitVec 6) (s : State) : Host.Outcome State Fault Refusal :=
  (slotFn {} n [4] fun t x =>
    match x with
    | .ring _ _ takenP _ _ _ _ =>
      if takenP = 0 then slotTrap 2 n.toNat x
      else releasing ((Prog.one (.slot t.blk n.toNat .filled)).seq (finish {} id))
    | _ => .ret).run s

def execRget (d : GReg) (n : BitVec 6) (s : State) : Host.Outcome State Fault Refusal :=
  (slotFn { writes := [d] } n [4] fun t x =>
    match x with
    | .ring _ _ _ filled _ _ get =>
      if filled = 0 then waitHere
      else .all [ mySlotAcquire t.blk n.toNat, .one (.slot t.blk n.toNat .get),
                  finish { writes := [d] } (fun t => t.setReg d (BitVec.ofNat 64 get)) ]
    | _ => .ret).run s

def execRrel (n : BitVec 6) (s : State) : Host.Outcome State Fault Refusal :=
  (slotFn {} n [4] fun t x =>
    match x with
    | .ring _ _ _ _ takenC _ _ =>
      if takenC = 0 then slotTrap 2 n.toNat x
      else releasing ((Prog.one (.slot t.blk n.toNat .release)).seq (finish {} id))
    | _ => .ret).run s

/-- SYNC_WAIT_WAKE: a team waiting at a SYNC function becomes ready to issue it again (R232). -/
def execSyncWaitWake (t : Nat) (s : State) : Host.Outcome State Fault Refusal :=
  (ofTeam t (.one (.team t (fun m => { m with waiting := false })))).run s

end Sys2Proof.Machine
end

