-- ==== Sys2Proof/Machine/Sys.lean ====
section
/-! DEFINITION. System instructions: SYS and WIDEN (R55, R57, R236, R237, R314, R316, R324 to R328). -/

namespace Sys2Proof.Machine

/-- SYSCALL: a record for the context's service entry, posted once nothing of the team is outstanding (R316). -/
def execSyscall (s : State) : Host.Outcome State Fault Refusal :=
  (scalar { writes := [1] } fun t => .get fun s =>
    let x := s.ctxOf s.cur
    if x.service = 0 then trapHere 0x11 t.pc
    else migrate { kind := 5, target := x.service, link := some 1 }).run s

/-- TRAP: TVAL is g[ga], TPC the next instruction (R325). -/
def execTrap (a : GReg) (s : State) : Host.Outcome State Fault Refusal :=
  (scalar { reads := [a] } fun t =>
    noteIssued.seq (.get fun s => takeTrap s.cur 0x15 (t.reg a) (t.pc + 4) false false)).run s

/-- BKPT: TVAL 0, TPC the instruction (R325). -/
def execBkpt (s : State) : Host.Outcome State Fault Refusal := (scalar {} fun _ => trapHere 0x0F 0).run s

/-! ## YIELD and EXIT (R236, R237) -/

/-- A team may issue a scalar instruction: placed, and not ended, stopped, suspended or waiting. -/
def ready (s : State) (t : Nat) : Bool :=
  match s.teams.get? t with
  | none => false
  | some m => !m.exited && !m.stopped && m.suspended.isNone && !m.waiting
      && ((s.block m.blk).phase == .placed || (s.block m.blk).phase == .stopping)

/-- A team's effective priority number, or 0 once it has issued nothing for 4,096 cycles (R33, R58). -/
def issuePrio (s : State) (t : Nat) : Nat := if (s.team t).starved then 0 else (s.launchOf t).prio

/-- The teams of a core, in slot order. -/
def coreTeams (s : State) (c : Nat) : List Nat := (s.teams.map Prod.fst).filter (fun t => coreOf t == c)

/-- YIELD: every other ready team of the core at the same or a higher priority issues first (R237). -/
def execYield (s : State) : Host.Outcome State Fault Refusal :=
  (scalar {} fun _ => .get fun s =>
    let others := (coreTeams s (coreOf s.cur)).filter (fun k => k != s.cur && ready s k && issuePrio s k ≤ issuePrio s s.cur)
    finish {} id |>.seq (setTeam (fun t => { t with yieldTo := others }))).run s

/-- A team ends (R236): a held queue's batches are discarded; pending causes are resolved, WATCH dropped and any other an unhandled fault (R322). -/
def endTeam (t : Nat) : Prog :=
  .get fun s =>
    let m := s.team t
    .all [ .one (.team t (fun m =>
             { m.settleAll with exited := true, stack := [], lanes := [], pend := [], pending := [], tbatch := 0,
                                waiting := false, migr := none, yieldTo := [], trail := (m.pc :: m.trail).take 64 })),
           syncBacking t,
           (match lowestCause (m.pending.filter (fun c => c.code != 0x10)) with
            | some c => takeTrap t c.code c.val m.pc c.lane false
            | none => .ret) ]

/-- A team's batches stand in EXIT's way: not those of a held queue, nor those behind a lane cause that waits for delivery, whose queue has stopped (R84, R236, R322). -/
def lanesHold (t : Team) : Bool := !t.held && !t.pending.any (·.lane) && !t.lanes.isEmpty

/-- EXIT, a release (R236); a host-called team returns to an instruction page fault at address 0 (R315). -/
def execExit (s : State) : Host.Outcome State Fault Refusal :=
  (scalar {} fun t => .get fun s =>
    if lanesHold t || s.pkg.stalled.any (fun e => e.path == s.path && !e.rmw) then waitHere
    else (noteRelease s.path).seq <| if t.token.isSome then migrate { kind := 4, target := 0, link := none }
    else endTeam s.cur).run s

/-! ## FETCHWORK (R55 to R57) -/

/-- FETCHWORK: READY becomes pending before the instruction completes; the distributor does the rest. -/
def execFetchwork (a b : GReg) (s : State) : Host.Outcome State Fault Refusal :=
  (scalar { reads := [a, b] } fun t =>
    let at? := t.reg a
    if at?.toNat % 16 ≠ 0 then trapHere 0x03 at?
    else if t.fetchReq.isSome then .get fun s =>
      if (s.launchOf s.cur).hdr.lblk * 16384 ≤ at?.toNat then trapHere 0x08 at? else waitHere
    else .get fun s =>
      match localPlan s (s.spaceOf s.cur) (s.blockOf s.cur) .write at? 16 with
      | .error e => scalarStop e
      | .ok _ =>
        match localPlan s (s.spaceOf s.cur) (s.blockOf s.cur) .write (at? + 8) 4 with
        | .error e => scalarStop e
        | .ok p =>
          .all [ finish { reads := [a, b] } (fun t => { t with fetchReq := some { addr := at?, sel := t.reg b } }),
                 noteTlb (s.spaceOf s.cur) p.used,
                 planWrite (s.writer false false) p.pieces (bytes4 0) ]).run s

/-! ## Privileged instructions (R326 to R328) -/

/-- A privileged instruction: PRIV outside F-mode. -/
def fOnly (u : Use) (body : Team → Prog) : Prog :=
  scalar u fun t => .get fun s => if fMode (coreOf s.cur) then body t else privileged

/-- ERET: PC := FEPC, FCAUSE := 0, and the next event may enter (R326). -/
def execEret (s : State) : Host.Outcome State Fault Refusal :=
  (fOnly {} fun _ => .get fun s =>
    .all [ finishAt {} (s.core (coreOf s.cur)).fepc id,
           .one (.core (coreOf s.cur) (fun c => { c with fcause := 0, inEvent := false })) ]).run s

/-- What a TLBINV removes: every entry of an ASID, or those whose page holds an address (R327). -/
def tlbMatches (byAsid all : Bool) (asid : Nat) (va : W64) (e : TlbEntry) : Bool :=
  if byAsid then (all || (e.asid == asid && !e.glob)) else decide (e.page ≤ va.toNat / 4096 * 4096) && decide (va.toNat / 4096 * 4096 < e.page + e.size)

/-- Remove TLB entries on every core and every die (R327). -/
def invalidate (p : TlbEntry → Bool) : Prog :=
  .get fun s =>
    .all [ .each (s.cores.filter (fun c => c.2.tlb.any p)) (fun c => .one (.core c.1 (fun y => { y with tlb := y.tlb.filter (fun e => !p e) }))),
           .each (s.dies.filter (fun d => d.2.tlb.any p)) (fun d => .one (.die d.1 (fun y => { y with tlb := y.tlb.filter (fun e => !p e) }))) ]

/-- What is left of a drain lies behind a migration: its amax word waits at its home, or its writes do (R174). -/
def drainLocked (s : State) (e : MatrixEntry) : Bool :=
  if e.written then (s.pkg.stalled.filter (fun x => x.path == .matrix e.team)).all (fun x => (heldBack s).contains x)
  else !(waitingAtomic s (.matrix e.team) false).isEmpty

/-- An MDRAIN that has started holds its translations, until it is done but for what a migration holds back (R174, R269, R327). -/
def drainRuns (s : State) : Bool :=
  s.cores.any (fun c => c.2.queue.any (fun e => match e.op with | .mdrain _ _ _ => e.started && e.faultAt.isNone && !drainLocked s e | _ => false))

/-- TLBINV: it completes once every access that a removed translation served has been performed; those behind a migration follow R174 (R294, R327). -/
def execTlbinv (a b : GReg) (s : State) : Host.Outcome State Fault Refusal :=
  (fOnly { reads := [a, b] } fun t => .get fun s =>
    let asid := if b = 0 then (s.core (coreOf s.cur)).fasid.toNat % 2 ^ 16 else (t.reg b).toNat % 2 ^ 16
    let all := b != 0 && (t.reg b).getLsbD 16
    if drainRuns s || writesDue s then waitHere
    else (invalidate (tlbMatches ((t.reg a).getLsbD 0) all asid (t.reg a))).seq (finish { reads := [a, b] } id)).run s

/-- A die's L2 written back and invalidated: memory takes its dirty sectors, its lines leave it, with the code and constant cache, and the directories forget it (R328). -/
def Coh.flush (c : Coh) (die : Nat) : Coh :=
  { (c.l2.filter (fun e => e.1 % 8 == die)).foldl (fun c e => ((c.lost (e.1 / 8) die).writeBack (e.1 / 8) e.2.2).forget (e.1 / 8) die) c with
    code := c.code.del die }

/-- A die has asked for no line: none of its requests is being served (R300). -/
def Coh.asksNone (c : Coh) (die : Nat) : Bool := !c.asked.any (fun a => a.2.1 == die)

/-- CFLUSH writes back and invalidates the L1s and the L2 of its die (R328), once none of the die's own requests for a line is being served (R300). -/
def execCflush (s : State) : Host.Outcome State Fault Refusal :=
  (fOnly {} fun _ => .get fun s =>
    let d := dieOf (coreOf s.cur)
    if !s.coh.asksNone d then waitHere
    else .all [ .each (s.cores.filter (fun c => dieOf c.1 == d && !c.2.l1.isEmpty)) (fun c => .one (.core c.1 (fun x => { x with l1 := [] }))),
           .one (.coh (fun c => s.filled (c.flush d))),
           finish {} id ]).run s

/-! ## WIDEN (R314) -/

/-- A width that WIDEN accepts. -/
def widenOk (ardel : Bool) (w : Nat) : Bool :=
  (w == 8 || w == 16 || (w != 0 && w % 32 == 0 && decide (w ≤ 1024))) && (!ardel || w % 16 == 0)

/-- WIDEN is valid only as the first instruction of a team placed from an HCALL, whose width and mask were applied at placement. -/
def execWiden (w : BitVec 11) (s : State) : Host.Outcome State Fault Refusal :=
  (scalar {} fun t => .get fun s =>
    if widenOk (s.launchOf s.cur).hdr.ardel w.toNat && t.first && t.token.isSome then finish {} id else illegal).run s

/-- A word of a major opcode whose instructions wait in speculative mode before they do anything (R117, R191, R232, R235, R263, R269): the memory ones, the MASK functions but MRD and MCNT, LX, OBRES, OBREL, MDRAIN, MCOMMIT, MWAIT, SYNC, FENCE, the CSR writes, SYS and WIDEN. -/
def waitsSpeculative (w : W32) : Bool :=
  let major := w.toNat / 2 ^ 26
  (decide (0x10 ≤ major) && decide (major ≤ 0x15)) || (major == 0x20 && w.toNat % 256 != 3 && w.toNat % 256 != 5)
    || [0x22, 0x28, 0x29, 0x2D, 0x2E, 0x2F, 0x30, 0x31, 0x33, 0x34].contains major || (major == 0x32 && w.toNat / 2 ^ 12 % 4 != 0)

/-- ILLEGAL_INSTRUCTION: a word that decodes to nothing (R72, R73); in speculative mode a load that would trap, and an instruction that waits, traps once the speculation has resolved. -/
def execIllegalInstruction (s : State) : Host.Outcome State Fault Refusal :=
  (onTeam fun t => .get fun s =>
    if t.spec.isSome && ((wordAt s s.cur).map waitsSpeculative).getD false then waitHere else illegal).run s

end Sys2Proof.Machine
end

