-- ==== Sys2Proof/Machine/Copy.lean ====
section
/-! DEFINITION. The copy engine: publishes, the checks and starts of entries, halts (R192 to R210). -/

namespace Sys2Proof.Machine

/-! ## The engine's own accesses -/

/-- The engine of a block's core translates for the block's context. -/
def engineSpace (s : State) (b : Nat) : Space := ctxSpace s (s.block b).ctx (s.block b).core

/-- The engine works for a block while the block is on its core (R332). -/
def engineRuns (s : State) (b : Nat) : Bool := (s.block b).phase == .placed || (s.block b).phase == .stopping

/-- The publishing team of the entry at CONS (R193). -/
def Ring.publisher (r : Ring) : Nat := (r.publishers.head?.map Prod.snd).getD 0

/-- A page fault of the engine: its number goes to `wait`. -/
def engineFault (b t kind : Nat) (va : W64) (wait : Nat → Prog) : Prog :=
  .get fun s => openFault (s.block b).core (s.block b).ctx t kind va wait

/-- Update a block's ring. -/
def setRing (b : Nat) (f : Ring → Ring) : Prog := .one (.block b (fun x => { x with ring := f x.ring }))

/-- A page fault of an access of the ring itself, made for a team: the ring waits on it (R329, R330). -/
def ringFault (b t kind : Nat) (va : W64) : Prog :=
  engineFault b t kind va (fun h => setRing b (fun r => { r with faultAt := (h, t) :: r.faultAt.filter (fun f => f.1 != h && f.1 != 1024) }))

/-- The ring waits on a page fault of its own; where it found no free handle it tries again. -/
def Ring.faulted (r : Ring) : Bool := r.faultAt.any (fun f => f.1 != 1024)

/-- A read of the engine goes on once nothing of its own that it reads is unperformed and its lines are there; else it is tried again.  `ws` are its words, each with the number of its read (R284). -/
def engineReads (b : Nat) (p : Plan) (ws : List (Nat × Nat)) (k : Prog) : Prog :=
  .get fun s =>
    .when (!planStalls s (.copy b) b p)
      (needRead (.copy b) p (.all [ noteTlb (engineSpace s b) p.used, noteReads (.copy b) (.copy b) ws, k ]) .ret)

def engineRead (b : Nat) (p : Plan) (k : Prog) : Prog := engineReads b p ((planWords b p).map (fun w => (w, 0))) k

/-- Read local bytes of a block for a team; the engine tries again after a page fault. -/
def ringRead (b t a n : Nat) (k : List Byte → Prog) : Prog :=
  .get fun s =>
    match localPlan s (engineSpace s b) (s.block b) .read (BitVec.ofNat 64 a) n with
    | .ok p => engineRead b p (k (planBytes s (.copy b) b p))
    | .error (.page _ va) => ringFault b t 2 va
    | .error (.trap _ _) => .ret

/-- Write local bytes of a block on path C for a team, plain or with a role, then go on; after a page fault the engine tries again. -/
def ringWrite (role : Bool) (b t a : Nat) (bs : List Byte) (k : Prog) : Prog :=
  .get fun s =>
    match localPlan s (engineSpace s b) (s.block b) .write (BitVec.ofNat 64 a) bs.length with
    | .ok p => .all [ noteTlb (engineSpace s b) p.used, planWrite { path := .copy b, blk := b, role := role } p.pieces bs, k ]
    | .error (.page _ va) => ringFault b t 3 va
    | .error (.trap _ _) => .ret

/-! ## Halts (R205) -/

/-- A halt that has been found is carried out: STATUS takes HALT and the reason, and the publishing team receives COPYFAULT; a store that page-faults is tried again. -/
def finishHalt (b : Nat) : Prog :=
  .get fun s =>
    match (s.block b).ring.halting with
    | [] => .ret
    | (t, idx, reason) :: _ =>
      ringWrite false b t 0x10 (bytes4 (2 ^ 31 + 2 ^ 8 * reason))
        (.all [ setRing b (fun r => { r with halting := r.halting.tail }),
                .get fun s => takeTrap t 0x13 (BitVec.ofNat 64 (idx % 2 ^ 32 + 2 ^ 32 * reason)) (s.team t).pc false true ])

/-- A halt: the ring reads no further entry. -/
def haltRing (b t : Nat) (idx reason : Nat) : Prog :=
  (setRing b (fun r => { r with halted := true, waity := none, halting := r.halting ++ [(t, idx, reason)] })).seq (finishHalt b)

/-- A started entry fails: it leaves the ring, an overlay it was loading stays invalid, and the ring halts (R205, R207). -/
def failEntry (b : Nat) (e : Entry) (reason : Nat) : Prog :=
  .get fun s =>
    .all [ setRing b (fun r => { r with entries := r.entries.filter (fun x => x.idx != e.idx) }),
           (match e.op with
            | .cOvl c => .one (.core (s.block b).core (fun x =>
                { x with slots := x.slots.modify (c.dst.toNat % 4) (fun o => { o with loading := false, valid := false }) }))
            | _ => .ret),
           haltRing b e.team e.idx reason ]

/-! ## RING_PUBLISH (R193 to R195) -/

/-- A CONFIG that R194 accepts, for a block of LBLK local blocks. -/
def configOk (w lblk : Nat) : Bool :=
  decide (w < 2 ^ 20) && !w.testBit 4 && decide (2 ≤ w % 16) && decide (w % 16 ≤ 10) && decide (32 ≤ w / 32 * 32)
    && decide (w / 32 * 32 + 32 * 2 ^ (w % 16) ≤ lblk * 16384)

/-- A ring header that the engine accepts: its CONFIG, and reserved bytes 0x14 to 0x1F of zeros; R6 calls a record with others invalid, which the engine reports as an invalid CONFIG, reason 14 (DESIGN CHOICE, log 60). -/
def headerOk (w : List Byte) (lblk : Nat) : Bool := configOk (field w 4 4) lblk && field w 0x14 12 == 0

/-- What a release of a team carries to the engine of its block, that acquires it: the team's own path-L stores (R195); what a fence with C among its to-classes has ordered before the team's publishes; and what another ring has written, on path C as well, and happens before (R234, R293). -/
def releaseTo (b t : Nat) (hs : List HistWord) : List HistWord :=
  hs.map (fun h =>
    let reaches := match h.path with
      | .team k => k == t && h.ord.contains (.team t)
      | .copy _ | .mail _ => h.ord.contains (.team t) || h.raw.contains (.team t)
      | _ => false
    if reaches || h.ordC.contains (.team t) then h.show [.copy b] else h)

/-- Entries from CONS up to an index, modulo 2^32. -/
def ahead (cons i : Nat) : Nat := (i % 2 ^ 32 + 2 ^ 32 - cons % 2 ^ 32) % 2 ^ 32

/-- The publishers after a publish of PIDX by a team: it first published what it adds; one that takes entries back leaves the others to their publishers (R193). -/
def addPublisher (cons : Nat) (ps : List (Nat × Nat)) (x : Nat × Nat) : List (Nat × Nat) :=
  let n := ahead cons x.2
  let keep := ps.filter (fun p => decide (ahead cons p.1 ≤ n))
  if n = 0 then []
  else if keep.any (fun p => ahead cons p.1 == n) then keep
  else match ps.find? (fun p => decide (n < ahead cons p.1)) with
    | some p => keep ++ [(x.2, p.2)]
    | none => keep ++ [(x.2, x.1)]

/-- The engine takes the PIDX that a publish stored, with those that it observed while the ring was halted: it reads the last.  `w` is the ring header; a publish that halts the ring has published its entries all the same (R193). -/
def takePidx (b t : Nat) (latch first : Bool) (w : List Byte) (xs : List (Nat × Nat)) : Prog :=
  .get fun s =>
    let r := (s.block b).ring
    let cons := if first then 0 else r.cons
    let pidx := ((xs.getLast?).map Prod.snd).getD r.pidx
    let cfg := if latch then field w 4 4 else (r.latched.getD 0).toNat
    let told := setRing b (fun r => { r with idle := [], publishers := xs.foldl (addPublisher cons) r.publishers })
    if latch && !headerOk w (s.launch (s.block b).launch).hdr.lblk then told.seq (haltRing b t cons 14)
    else if 2 ^ (cfg % 16) < ahead cons pidx then told.seq (haltRing b t cons 13)
    else told.seq (setRing b (fun r =>
      { r with
        latched := if latch then some (BitVec.ofNat 32 cfg) else r.latched
        pidx := pidx
        halted := false }))

/-- RING_PUBLISH: the engine observes a team's publish, the oldest that it has not observed.  The first one latches CONFIG and clears the header's engine words; while STATUS.HALT reads 1 it has no effect on the ring; a halted ring latches CONFIG again.  The engine acts on the PIDX that the publish stored (DEDUCED, log 40). -/
def publishSeen (b t : Nat) : Prog :=
  .get fun s =>
    let r := (s.block b).ring
    match r.told with
    | [] => .ret
    | x :: rest =>
      if x.1 != t || !engineRuns s b || !r.halting.isEmpty || r.faulted then .ret
      else
        let seen := setRing b (fun r => { r with told := rest })
        let first := r.latched.isNone && !r.halted
        let xs := r.idle ++ [x]
        (Prog.when (!s.hist.isEmpty) (.one (.hist (releaseTo b t)))).seq (ringRead b t 0 32 fun w =>
          if first then
            ringWrite false b t 8 (List.replicate 12 0)
              (.all [ seen, setRing b (fun r => { r with cons := 0, donecnt := 0, pidx := 0 }), takePidx b t true true w xs ])
          else if (field w 0x10 4).testBit 31 then seen.seq (setRing b (fun r => { r with idle := xs }))
          else seen.seq (takePidx b t r.halted false w xs))

def execRingPublish (b t : Nat) (s : State) : Host.Outcome State Fault Refusal := (publishSeen b t).run s

/-! ## Reading an entry (R195) -/

/-- The ring can take its next entry: published, not halted or abandoned, no WAITY in the way, and no entry waiting on a page fault (R200). -/
def Ring.canTake (r : Ring) : Bool :=
  r.pidx != r.cons && !r.halted && !r.dead && r.waity.isNone && !r.faulted && r.entries.all (fun e => e.faultAt.isNone)

/-- The local address of the entry at CONS. -/
def Ring.entryAddr (r : Ring) : Nat :=
  let w := (r.latched.getD 0).toNat
  w / 32 % 2 ^ 15 * 32 + 32 * (r.cons % 2 ^ (w % 16))

/-- An opcode that R197 does not list halts the ring with reason 1. -/
def badEntry (b : Nat) : Prog :=
  .get fun s =>
    let r := (s.block b).ring
    .when (r.canTake && engineRuns s b) (haltRing b r.publisher r.cons 1)

/-! ## Starting an entry (R200 to R205) -/

/-- What the checks of an entry find: the reasons it breaks, the reservations, index list and record it captures, what it read for them, its number of sub-operations, a page fault on the way, and whether that fault left checks unmade which come before those of the slot (R213). -/
structure EntryPlan where
  bad : List Nat := []
  ranges : KMap W64 := []
  list : List W32 := []
  record : List Byte := []
  reads : Plan := { pieces := [], used := [] }
  subs : Nat := 0
  fault : Option W64 := Option.none
  blind : Bool := false

/-- A reason, where a check fails. -/
def reason (c : Bool) (r : Nat) : List Nat := if c then [r] else []

/-- The lowest of the reasons. -/
def lowest (rs : List Nat) : Option Nat := rs.foldl (fun m r => some (match m with | some x => min x r | none => r)) none

/-- The slot checks of an entry with a KIND (R202, R204): SLOT below SLOTS, and the slot's mode; an unconfigured slot is no mismatch for a ring-kind entry. -/
def slotBad (s : State) (b : Nat) (c : CopyOps) : List Nat :=
  let mode := (s.slot b c.slot.toNat).mode
  reason (c.kind != 0 && (decide ((s.launch (s.block b).launch).hdr.slots ≤ c.slot.toNat)
    || (mode != c.kind.toNat + 1 && (mode != 0 || c.kind != 3)))) 8

/-- A ring-kind entry finds no free place yet. -/
def noPlace (s : State) (b : Nat) (c : CopyOps) : Bool :=
  c.kind == 3 && (match s.slot b c.slot.toNat with | .ring _ free _ _ _ _ _ => free == 0 | _ => true)

/-- An entry starts: CONS moves past it, and it joins the entries in progress. -/
def beginEntry (b : Nat) (op : Instr) (c : CopyOps) (p : EntryPlan) (k : Nat → Prog) : Prog :=
  .get fun s =>
    let r := (s.block b).ring
    let next := (r.cons + 1) % 2 ^ 32
    let place := match s.slot b c.slot.toNat with
      | .ring _ _ _ _ _ put _ => if c.kind = 3 then some put else none
      | _ => none
    let e : Entry :=
      { idx := r.cons, op := op, team := r.publisher, ranges := p.ranges, pos := 0, subs := p.subs, done := none, place := place, list := p.list,
        record := p.record, faultAt := none }
    ringWrite true b r.publisher 8 (bytes4 next)
      (.all [ setRing b (fun r =>
                { r with
                  cons := next
                  publishers := if r.publishers.head?.any (fun x => x.1 == next) then r.publishers.tail else r.publishers
                  entries := r.entries ++ [e]
                  waity := none }),
              .when (c.kind == 3) (.one (.slot b c.slot.toNat .put)),
              k e.team ])

/-- The next entry of the current block's ring, with its checks: it halts the ring, waits to start, or starts. -/
def takeEntry (op : Instr) (c : CopyOps) (plan : State → Nat → EntryPlan) (k : Nat → Prog) : Prog :=
  .get fun s =>
    let b := s.curBlk
    let r := (s.block b).ring
    if !r.canTake || !engineRuns s b || (c.order && !r.entries.isEmpty) then .ret
    else
      let p := plan s b
      match lowest (p.bad ++ if p.blind then [] else slotBad s b c) with
      | some x => haltRing b r.publisher r.cons x
      | none =>
        if noPlace s b c && (slotBad s b c).isEmpty then .ret
        else match p.fault with
          | some va => ringFault b r.publisher 2 va
          | none => engineRead b p.reads (beginEntry b op c p k)

/-! ## Checks of fields and spaces (R196, R197) -/

/-- Address bits that the space does not use are not zero. -/
def spare (space : BitVec 2) (a : W64) : Bool :=
  (space == 1 && decide (2 ^ 20 ≤ a.toNat)) || (space == 2 && decide (2 ^ 24 ≤ a.toNat))

/-- SLOT is not zero though KIND is. -/
def idleSlot (c : CopyOps) : Bool := c.kind == 0 && c.slot != 0

/-- A byte at an offset from an entry's address: within a range for the operand buffer. -/
def spot (space : BitVec 2) (a : W64) (off : Nat) : W64 :=
  if space = 2 then BitVec.ofNat 64 (a.toNat % 2 ^ 20 + off) else a + BitVec.ofNat 64 off

/-- The range number of an operand-buffer address. -/
def rangeOf (a : W64) : Nat := a.toNat / 2 ^ 20 % 16

/-- The reservation that an address uses: the one captured. -/
def spaceRes (ranges : KMap W64) (space : BitVec 2) (a : W64) : Option W64 := if space = 2 then ranges.get? (rangeOf a) else none

/-- The reason of R204 for a run of bytes, if it breaks a check. -/
def runBad (s : State) (b : Nat) (ranges : KMap W64) (space : BitVec 2) (a : W64) (off n : Nat) : Option Nat :=
  match spotCheck s b space.toNat (spaceRes ranges space a) (rangeOf a) (spot space a off) n with
  | none => none
  | some _ => some (if space = 0 then 9 else if space = 1 then 6 else 7)

/-- The reasons of runs. -/
def runsBad (s : State) (b : Nat) (ranges : KMap W64) (space : BitVec 2) (a : W64) (rs : List (Nat × Nat)) : List Nat :=
  rs.filterMap (fun r => runBad s b ranges space a r.1 r.2)

/-- The reservations of a block that an entry's operand-buffer addresses name. -/
def capture (s : State) (b : Nat) (c : CopyOps) : KMap W64 :=
  (s.block b).ranges.keep (fun n _ => (c.ssp == 2 && n == rangeOf c.src) || (c.dsp == 2 && n == rangeOf c.dst))

/-- An entry that uses none of words 1 to 7 but `src`. -/
def plainBad (c : CopyOps) (src : Bool) : List Nat :=
  reason (c.rm != 0 || c.kind != 0 || (!src && c.src != 0) || c.dst != 0 || c.xext != 0 || c.yext != 0 || c.zext != 0
      || c.spitch != 0 || c.w7 != 0) 2
    ++ reason (c.ssp != 0 || c.dsp != 0) 3 ++ reason (c.sfmt != 0 || c.dfmt != 0) 4

/-! ## COPY, GATHER and FILL (R198, R199) -/

/-- Bytes of an element of a copy format. -/
def copyBytes (f : BitVec 4) : Nat := Fp.width f.toNat / 8

/-- DPITCH: word 7[19:0], or for GATHER 16 times word 7[31:20], packed rows for zero. -/
def copyPitch (gather : Bool) (c : CopyOps) : Nat :=
  if gather then (if c.w7.toNat / 2 ^ 20 = 0 then c.xext.toNat * copyBytes c.dfmt else 16 * (c.w7.toNat / 2 ^ 20)) else c.w7.toNat % 2 ^ 20

/-- The extents and pitches of R198. -/
def extentBad (gather fill : Bool) (c : CopyOps) : Bool :=
  let (x, y, z) := (c.xext.toNat, c.yext.toNat, c.zext.toNat)
  let (ss, ds, dp) := (copyBytes c.sfmt, copyBytes c.dfmt, copyPitch gather c)
  x == 0 || y == 0 || z == 0 || decide (dp < x * ds) || dp % ds != 0 || c.dst.toNat % ds != 0
    || decide (c.spitch.toNat < x * ss) || c.spitch.toNat % ss != 0 || (!fill && c.src.toNat % ss != 0)
    || (gather && (z != 1 || c.w7.toNat % 4 != 0))
    || (c.kind == 2 && decide (32768 ≤ x * ds - 1 + (y - 1) * dp + (z - 1) * dp * y))

/-- Rows of an entry: their offsets at the destination, and at the source; none for a row of zeros or of the FILL value. -/
def copyRows (gather fill : Bool) (c : CopyOps) (list : List W32) : List (Nat × Option Nat) :=
  let dp := copyPitch gather c
  (List.range (c.yext.toNat * c.zext.toNat)).map (fun r =>
    (r * dp,
     if fill then none
     else if gather then (match list[r]? with
       | some k => if k = 0xFFFFFFFF then none else some (k.toNat * c.spitch.toNat)
       | none => none)
     else some (r * c.spitch.toNat)))

/-- Sub-operations of at most 64 KiB of destination bytes (R200). -/
def subsOf (total each : Nat) : Nat := (total + each - 1) / each

/-- Elements of a sub-operation: 64 KiB of them where every row keeps to aligned words, else so many fewer that a cut can go back to the beginning of a word. -/
def eachOf (aligned : Bool) (ds : Nat) : Nat := if aligned then 65536 / ds else 65536 / ds - 4

def copyEach (gather : Bool) (c : CopyOps) : Nat :=
  let ds := copyBytes c.dfmt
  eachOf (c.dst.toNat % 4 == 0 && copyPitch gather c % 4 == 0 && c.xext.toNat * ds % 4 == 0) ds

/-- The last element at or before k whose word no earlier element shares: no sub-operation cuts an aligned word of the destination (R203). -/
def wordCut (addr : Nat → Nat) (ds : Nat) : Nat → Nat → Nat
  | 0, k => k
  | n + 1, k => if k = 0 || decide ((addr (k - 1) + ds - 1) / 4 < addr k / 4) then k else wordCut addr ds n (k - 1)

/-- The elements of a sub-operation: from, and up to. -/
def subBounds (addr : Nat → Nat) (ds each total pos : Nat) : Nat × Nat :=
  (wordCut addr ds 4 (pos * each), if total ≤ (pos + 1) * each then total else wordCut addr ds 4 ((pos + 1) * each))

/-- The index list of a GATHER, read when the entry starts, and its plan. -/
def gatherList (s : State) (b : Nat) (c : CopyOps) : Except Stop (List W32 × Plan) :=
  match localPlan s (engineSpace s b) (s.block b) .read (BitVec.ofNat 64 (c.w7.toNat % 2 ^ 20)) (4 * c.yext.toNat) with
  | .error e => .error e
  | .ok p =>
    let bs := planBytes s (.copy b) b p
    .ok ((List.range c.yext.toNat).map (fun i => BitVec.ofNat 32 (field bs (4 * i) 4)), p)

/-- The checks of COPY, GATHER and FILL. -/
def copyPlan (gather fill : Bool) (c : CopyOps) (s : State) (b : Nat) : EntryPlan :=
  let ranges := capture s b c
  let list := if gather then gatherList s b c else .ok ([], { pieces := [], used := [] })
  let (idx, reads) := match list with | .ok l => l | .error _ => ([], { pieces := [], used := [] })
  let rows := copyRows gather fill c idx
  let n := c.xext.toNat
  let f15 := c.sfmt == 15 || c.dfmt == 15
  { bad :=
      reason (idleSlot c || (fill && c.rm != 0) || (!gather && decide (2 ^ 20 ≤ c.w7.toNat)) || spare c.dsp c.dst
          || (!fill && spare c.ssp c.src) || (fill && decide (2 ^ (8 * copyBytes c.dfmt) ≤ c.src.toNat))) 2
        ++ reason (c.dsp == 3 || (fill && c.ssp != 0) || (gather && decide (2 ≤ c.ssp.toNat)) || c.ssp == 3) 3
        ++ reason (c.sfmt == 14 || c.dfmt == 14 || (f15 && (fill || c.sfmt != c.dfmt)) || (fill && c.sfmt != c.dfmt)) 4
        ++ reason (extentBad gather fill c) 5
        ++ (match list with | .error (.trap _ _) => [6] | _ => [])
        ++ runsBad s b ranges c.dsp c.dst (rows.map (fun r => (r.1, n * copyBytes c.dfmt)))
        ++ runsBad s b ranges c.ssp c.src (rows.filterMap (fun r => r.2.map (fun o => (o, n * copyBytes c.sfmt))))
    ranges := ranges
    list := idx
    reads := reads
    subs := subsOf (n * c.yext.toNat * c.zext.toNat) (copyEach gather c)
    fault := (match list with | .error (.page _ va) => some va | _ => none) }

/-- NOP (R197). -/
def execCNop (c : CopyOps) (s : State) : Host.Outcome State Fault Refusal :=
  (takeEntry (.cNop c) c (fun _ _ => { bad := plainBad c false ++ reason (c.slot != 0) 2 }) (fun _ => .ret)).run s
def execCCopy (c : CopyOps) (s : State) : Host.Outcome State Fault Refusal :=
  (takeEntry (.cCopy c) c (copyPlan false false c) (fun _ => .ret)).run s
def execCGather (c : CopyOps) (s : State) : Host.Outcome State Fault Refusal :=
  (takeEntry (.cGather c) c (copyPlan true false c) (fun _ => .ret)).run s
def execCFill (c : CopyOps) (s : State) : Host.Outcome State Fault Refusal :=
  (takeEntry (.cFill c) c (copyPlan false true c) (fun _ => .ret)).run s

/-! ## SLOAD and OVL (R206, R207) -/

/-- First column, first row and rows of an SLOAD. -/
def sloadCol (c : CopyOps) : Nat := c.dst.toNat % 256
def sloadRow (c : CopyOps) : Nat := c.dst.toNat / 256 % 1024
def sloadRows (c : CopyOps) : Nat := c.xext.toNat / 32

/-- The source records of a column that an SLOAD of rows [r, r + n) keeps; none where it overlaps one partly, or finds 4 others. -/
def keptRecords (rs : List SourceRec) (r n : Nat) : Option (List SourceRec) :=
  let rest := rs.filter (fun x => !(decide (r ≤ x.row) && decide (x.row + x.rows ≤ r + n)))
  if rest.any (fun x => decide (x.row < r + n) && decide (r < x.row + x.rows)) || decide (4 ≤ rest.length) then none else some rest

/-- Columns of one sub-operation: whole columns, at most 64 KiB. -/
def sloadCols (c : CopyOps) : Nat := max 1 (65536 / c.xext.toNat)

def sloadPlan (c : CopyOps) (s : State) (b : Nat) : EntryPlan :=
  let core := s.core (s.block b).core
  let cols := List.range c.yext.toNat
  { bad :=
      reason (idleSlot c || c.rm != 0 || c.w7 != 0 || decide (2 ^ 18 ≤ c.dst.toNat)) 2
        ++ reason (c.ssp != 0 || c.dsp != 3) 3 ++ reason (c.sfmt != 15 || c.dfmt != 15) 4
        ++ reason (c.xext.toNat % 32 != 0 || c.xext == 0 || decide (32768 < c.xext.toNat) || c.yext == 0 || decide (256 < c.yext.toNat)
            || c.zext != 1 || c.kind == 2) 5
        ++ runsBad s b [] 0 c.src (cols.map (fun j => (j * c.spitch.toNat, c.xext.toNat)))
        ++ reason (decide (256 < sloadCol c + c.yext.toNat) || decide (1024 < sloadRow c + sloadRows c)
            || cols.any (fun j => (keptRecords ((core.sources.get? (sloadCol c + j)).getD []) (sloadRow c) (sloadRows c)).isNone)) 11
    subs := subsOf c.yext.toNat (sloadCols c) }

def execCSload (c : CopyOps) (s : State) : Host.Outcome State Fault Refusal :=
  (takeEntry (.cSload c) c (sloadPlan c) (fun _ => .ret)).run s

/-- SLEN and LCOUNT of an OVL. -/
def ovlSlen (c : CopyOps) : Nat := c.w7.toNat % 2 ^ 16
def ovlCount (c : CopyOps) : Nat := c.w7.toNat / 2 ^ 16 % 2 ^ 13
def ovlRef (c : CopyOps) : OverlayRef := { base := c.src, slen := ovlSlen c, lcount := ovlCount c }

/-- Some present page of the source is not executable Darion code (R19, R207). -/
def ovlPagesBad (s : State) (sp : Space) (a : W64) (n : Nat) : Bool :=
  (pagesOf a n).any (fun p => match lookup s sp p.1 with
    | some e => !Pte.bit e.pte 3 || Pte.tag e.pte != 2
    | none => false)

def ovlPlan (c : CopyOps) (s : State) (b : Nat) : EntryPlan :=
  let n := overlaySize (ovlRef c)
  { bad :=
      reason (idleSlot c || c.rm != 0 || c.xext != 0 || c.yext != 0 || c.zext != 0 || c.spitch != 0 || decide (2 ^ 29 ≤ c.w7.toNat)
          || decide (4 ≤ c.dst.toNat)) 2
        ++ reason (c.ssp != 0 || c.dsp != 3) 3 ++ reason (c.sfmt != 15 || c.dfmt != 15) 4
        ++ reason (ovlSlen c % 4 != 0 || decide (ovlSlen c < 4) || decide (65532 < ovlSlen c) || decide (5461 < ovlCount c)
            || decide (65536 < n) || c.src.toNat % 256 != 0 || c.kind == 2) 5
        ++ reason (!canonicalRun c.src n) 9
        ++ reason (ovlPagesBad s (engineSpace s b) c.src n) 10
    subs := 1 }

/-- A block waits for its restore. -/
def Block.isSaved (b : Block) : Bool :=
  match b.phase with
  | .saved => true
  | _ => false

/-- A block holds resources of its core. -/
def Block.resident (b : Block) : Bool := !b.isSaved && b.phase != .killed true

/-- The slot that an OVL in progress loads: its copy is not done yet (R207). -/
def Entry.loads (e : Entry) : Option Nat :=
  match e.op with
  | .cOvl c => if e.pos < e.subs then some (c.dst.toNat % 4) else none
  | _ => none

/-- Another OVL into the same slot is in progress on the core (R207 step 1). -/
def ovlBusy (s : State) (core slot : Nat) : Bool :=
  s.blocks.any (fun b => b.2.core == core && b.2.resident && b.2.ring.entries.any (fun (e : Entry) => e.loads == some slot))

/-- OVL sets LOADING, clears VALID and records the tag as it starts (R207 step 3). -/
def execCOvl (c : CopyOps) (s : State) : Host.Outcome State Fault Refusal :=
  (Prog.get fun s =>
    let core := (s.block s.curBlk).core
    if ovlBusy s core (c.dst.toNat % 4) then .ret
    else takeEntry (.cOvl c) c (ovlPlan c) (fun _ =>
      .one (.core core (fun x => { x with slots := x.slots.modify (c.dst.toNat % 4) (fun o =>
        { o with asid := (engineSpace s s.curBlk).asid, base := c.src, slen := ovlSlen c, lcount := ovlCount c, valid := false,
                 loading := true }) })))).run s

/-! ## SEAL and UNSEAL (R208) -/

/-- The checks of SEAL and UNSEAL; UNSEAL reads the tag after its bytes, SEAL writes it. -/
def sealPlan (opens : Bool) (c : CopyOps) (s : State) (b : Nat) : EntryPlan :=
  let ranges := capture s b c
  let n := c.xext.toNat
  { bad :=
      reason (idleSlot c || (if opens then decide (2 ≤ c.rm.toNat) else c.rm != 0) || spare c.dsp c.dst || spare c.ssp c.src) 2
        ++ reason (decide (2 ≤ c.ssp.toNat) || decide (2 ≤ c.dsp.toNat)) 3 ++ reason (c.sfmt != 15 || c.dfmt != 15) 4
        ++ reason (n % 16 != 0 || n == 0 || c.yext != 1 || (c.kind == 2 && decide (32768 < if opens then n else n + 16))) 5
        ++ runsBad s b ranges c.dsp c.dst [(0, if opens then n else n + 16)]
        ++ runsBad s b ranges c.ssp c.src [(0, if opens then n + 16 else n)]
    subs := 1 }

def execCSeal (c : CopyOps) (s : State) : Host.Outcome State Fault Refusal :=
  (takeEntry (.cSeal c) c (sealPlan false c) (fun _ => .ret)).run s
def execCUnseal (c : CopyOps) (s : State) : Host.Outcome State Fault Refusal :=
  (takeEntry (.cUnseal c) c (sealPlan true c) (fun _ => .ret)).run s

/-! ## SIGNAL and WAITY (R209) -/

/-- With ORDER, an arrival covers the writes of every earlier entry of the ring. -/
def coverEarlier (b n : Nat) (h : HistWord) : HistWord :=
  match h.path with
  | .copy _ => if h.blk = b && !h.slots.contains n then { h with slots := n :: h.slots } else h
  | _ => h

/-- SIGNAL: one arrival on a COUNT slot, as the entry starts. -/
def execCSignal (c : CopyOps) (s : State) : Host.Outcome State Fault Refusal :=
  (Prog.get fun s =>
    let b := s.curBlk
    let n := c.slot.toNat
    takeEntry (.cSignal c) c
      (fun s b => { bad := plainBad c false ++ reason (decide ((s.launch (s.block b).launch).hdr.slots ≤ n) || (s.slot b n).mode != 1) 8 })
      (fun t => (Prog.when (c.order && !s.hist.isEmpty) (.one (.hist (fun hs => hs.map (coverEarlier b n))))).seq (countOp t b n .arrive))).run s

/-- What a WAITY finds when it tests its slot: a halt, or whether it is satisfied (R209). -/
def waityTest (x : Slot) (v : W64) : Except Nat Bool :=
  match x with
  | .off => .ok false
  | .ring _ _ _ _ _ _ _ => .error 8
  | _ =>
    match slotCond x v with
    | none => .error 2
    | some (ok, _) => .ok ok

/-- An acquire of the engine through a slot: what releases carried on for path C, and what rings have written that happens before (R209, R231, R293). -/
def engineAcquire (b : Nat) (hs : List HistWord) : List HistWord :=
  hs.map (fun h =>
    let ring := match h.path with
      | .copy _ | .mail _ => h.hb
      | _ => false
    if ring || h.pubC then h.show [.copy b] else h)

/-- WAITY tests its slot: it halts the ring, holds it, or starts and acquires; until it is satisfied CONS stays at its index. -/
def testWaity (b : Nat) (c : CopyOps) : Prog :=
  .get fun s =>
    let r := (s.block b).ring
    match waityTest (s.slot b c.slot.toNat) c.src with
    | .error x => haltRing b r.publisher r.cons x
    | .ok false => setRing b (fun r => { r with waity := some c })
    | .ok true => (Prog.when (!s.hist.isEmpty) (.one (.hist (engineAcquire b)))).seq (beginEntry b (.cWaity c) c {} (fun _ => .ret))

def execCWaity (c : CopyOps) (s : State) : Host.Outcome State Fault Refusal :=
  (Prog.get fun s =>
    let b := s.curBlk
    let r := (s.block b).ring
    if !r.canTake || !engineRuns s b || (c.order && !r.entries.isEmpty) then .ret
    else match lowest (plainBad c true ++ reason (decide ((s.launch (s.block b).launch).hdr.slots ≤ c.slot.toNat)) 8) with
      | some x => haltRing b r.publisher r.cons x
      | none => testWaity b c).run s

/-- WAITY_SATISFIED: a WAITY that holds its ring tests its slot again, unless an earlier entry waits on a page fault (R200). -/
def execWaitySatisfied (b : Nat) (s : State) : Host.Outcome State Fault Refusal :=
  (Prog.get fun s =>
    match (s.block b).ring.waity with
    | some c => .when (engineRuns s b && !(s.block b).ring.faulted && (s.block b).ring.entries.all (fun e => e.faultAt.isNone)) (testWaity b c)
    | none => .ret).run s

end Sys2Proof.Machine
end

