-- ==== Sys2Proof/Machine/Level.lean ====
section
/-! DEFINITION. Level transfer: the checks and the arithmetic of RESTRICT and PROLONG (R211 to R219). -/

namespace Sys2Proof.Machine

/-! ## The transfer record (R212 to R214): 32 bytes, with the stencil table after them -/

namespace Level

def ctl (r : List Byte) : Nat := field r 0 4
def table (r : List Byte) : Nat := field r 4 4
def dims (r : List Byte) : Nat := ctl r / 2 ^ 16 % 4
def shift (r : List Byte) : Nat := ctl r / 2 ^ 20 % 16
def adds (r : List Byte) : Bool := (ctl r).testBit 18

/-- Span code and boundary code of dimension i: x, y, z. -/
def span (r : List Byte) (i : Nat) : Nat := ctl r / 2 ^ (6 + 2 * i) % 4
def bound (r : List Byte) (i : Nat) : Nat := ctl r / 2 ^ (2 * i) % 4

/-- Fine extent, and coarse extent, of dimension i (R213). -/
def fine (r : List Byte) (i : Nat) : Nat := field r (8 + 2 * i) 2
def coarse (r : List Byte) (i : Nat) : Nat := if i < dims r then (fine r i + 1) / 2 else fine r i

/-- Extents of source and destination. -/
def srcExt (restrict : Bool) (r : List Byte) (i : Nat) : Nat := if restrict then fine r i else coarse r i
def dstExt (restrict : Bool) (r : List Byte) (i : Nat) : Nat := if restrict then coarse r i else fine r i

/-- Pitches of dimension i: the element size for x. -/
def srcPitch (r : List Byte) (es i : Nat) : Nat := if i = 0 then es else field r (0xC + 4 * i) 4
def dstPitch (r : List Byte) (es i : Nat) : Nat := if i = 0 then es else field r (0x14 + 4 * i) 4

/-- The offset of element (x, y, z). -/
def srcOff (r : List Byte) (es x y z : Nat) : Nat := x * es + y * srcPitch r es 1 + z * srcPitch r es 2
def dstOff (r : List Byte) (es x y z : Nat) : Nat := x * es + y * dstPitch r es 1 + z * dstPitch r es 2

/-- The pitch that steps through dimension i is good in a grid (R213). -/
def pitchOk (used : Bool) (es ext pitch below : Nat) : Bool :=
  if used then pitch % es == 0 && decide (ext * below ≤ pitch) else pitch == 0

/-- Offsets of a span code: the least one, and how many. -/
def firstOff (code : Nat) : Int := if code = 2 then -1 else 0
def count (r : List Byte) (i : Nat) : Nat := span r i + 1
def block (r : List Byte) : Nat := count r 0 * count r 1 * count r 2

/-- Weights in the stencil table (R214). -/
def weights (restrict : Bool) (r : List Byte) : Nat := block r * (if restrict then 1 else 2 ^ dims r)

/-- The record is valid, but for what its addresses add (R212, R213). -/
def valid (restrict : Bool) (es ed : Nat) (r : List Byte) : Bool :=
  let c := ctl r
  c / 2 ^ 24 == 0 && !c.testBit 19 && c / 2 ^ 12 % 16 == 0 && dims r != 0
    && decide (table r < 2 ^ 20) && table r % 4 == 0 && field r 0xE 2 == 0 && !(restrict && adds r)
    && (List.range 3).all (fun i => span r i != 3 && bound r i != 3 && fine r i != 0
        && (decide (i < dims r) || (fine r i == 1 && span r i == 0 && bound r i == 0)))
    && [1, 2].all (fun i =>
        pitchOk (decide (i < dims r)) es (srcExt restrict r (i - 1)) (srcPitch r es i) (srcPitch r es (i - 1))
          && pitchOk (decide (i < dims r)) ed (dstExt restrict r (i - 1)) (dstPitch r ed i) (dstPitch r ed (i - 1)))

/-- Bytes from a grid's first to its last. -/
def srcLen (restrict : Bool) (r : List Byte) (es : Nat) : Nat :=
  srcOff r es (srcExt restrict r 0 - 1) (srcExt restrict r 1 - 1) (srcExt restrict r 2 - 1) + es
def dstLen (restrict : Bool) (r : List Byte) (es : Nat) : Nat :=
  dstOff r es (dstExt restrict r 0 - 1) (dstExt restrict r 1 - 1) (dstExt restrict r 2 - 1) + es

/-- The two byte spans meet. -/
def meet (a : W64) (n : Nat) (b : W64) (m : Nat) : Bool := decide (a.toNat < b.toNat + m) && decide (b.toNat < a.toNat + n)

/-- Elements of the destination. -/
def total (restrict : Bool) (r : List Byte) : Nat := dstExt restrict r 0 * dstExt restrict r 1 * dstExt restrict r 2

/-! ## Samples and sums (R215 to R217) -/

/-- The index that a sample reads; none for a +0 outside the grid. -/
def sample (bound n : Nat) (j : Int) : Option Nat :=
  if 0 ≤ j ∧ j < n then some j.toNat
  else if bound = 1 then some (if j < 0 then 0 else n - 1)
  else if bound = 2 then some (j % n).toNat
  else none

/-- Weight number i of the table. -/
def weight (r : List Byte) (i : Nat) : Int := (BitVec.ofNat 16 (field r (32 + 2 * i) 2)).toInt

/-- A term of a destination element: its weight, and the source element it samples, none for +0. -/
abbrev Term := Int × Option (Nat × Nat × Nat)

/-- The terms of destination element (x, y, z), without those of weight 0 (R216). -/
def terms (restrict : Bool) (r : List Byte) (x y z : Nat) : List Term :=
  let used := fun i => decide (i < dims r)
  let base := fun i (v : Nat) => if restrict then (if used i then 2 * v else v) else if used i then v / 2 else v
  let par := fun i (v : Nat) => if restrict || !used i then 0 else v % 2
  let p := par 0 x + 2 * par 1 y + 4 * par 2 z
  let at? := fun i v (k : Nat) => sample (bound r i) (srcExt restrict r i) ((base i v : Int) + firstOff (span r i) + k)
  (List.range (block r)).filterMap (fun i =>
    let w := weight r (p * block r + i)
    if w = 0 then none
    else
      let s := match at? 0 x (i % count r 0), at? 1 y (i / count r 0 % count r 1), at? 2 z (i / (count r 0 * count r 1)) with
        | some a, some b, some c => some (a, b, c)
        | _, _, _ => none
      some (w, s))

/-- A product v × w / 2^D. -/
def product (v : Fp.Num) (w : Int) (d : Nat) : Fp.Num :=
  match v with
  | .nan q => .nan q
  | .inf s => .inf (s != decide (w < 0))
  | .fin s m e => .fin (s != decide (w < 0)) (m * w.natAbs) (e - d)

/-- The exact sum of finite terms, over a common exponent. -/
def exactSum (ts : List Fp.Num) : Int × Int :=
  let low := ts.foldl (fun k t => match t with | .fin _ m e => if m = 0 then k else min k e | _ => k) 4096
  ((ts.map (fun t => match t with
    | .fin s m e => (let n : Int := (m <<< (e - low).toNat : Nat)
      if m = 0 then 0 else if s then -n else n)
    | _ => 0)).sum, low)

/-- finish(T, fmt, rm) (R217). -/
def finish (f : Fp.Fmt) (rm : Rm) (ts : List Fp.Num) : Fp.Res :=
  let inf := fun (s : Bool) => ts.contains (.inf s)
  if ts.any Fp.isNan || (inf true && inf false) then Fp.nanRes f
  else if inf true then Fp.deliver f rm (.inf true)
  else if inf false then Fp.deliver f rm (.inf false)
  else
    let zeros := fun (s : Bool) => ts.all (fun t => match t with | .fin q m _ => q == s && m == 0 | _ => false)
    let (x, e) := exactSum ts
    if ts.isEmpty then ⟨0, []⟩
    else if zeros true then ⟨f.signed true 0, []⟩
    else if zeros false then ⟨0, []⟩
    else if x = 0 then ⟨f.signed (rm == .rd) 0, []⟩
    else Fp.round f rm (decide (x < 0)) x.natAbs e false

end Level

/-! ## The entries -/

/-- The formats of a level transfer (R211). -/
def levelFmt (f : BitVec 4) : Bool := f == 8 || f == 9 || f == 10 || f == 12 || f == 13

/-- The local address of the stencil table, and its bytes (R212, R214). -/
def Level.tableAddr (r : List Byte) : Nat := Level.table r % 2 ^ 20
def Level.tableBytes (restrict : Bool) (r : List Byte) : Nat := 2 * Level.weights restrict r

/-- Elements of a sub-operation of a level transfer. -/
def levelEach (restrict : Bool) (c : CopyOps) (r : List Byte) : Nat :=
  let ed := copyBytes c.dfmt
  eachOf (c.dst.toNat % 4 == 0 && (List.range 3).all (fun i => i == 0 || Level.dstPitch r ed i % 4 == 0) && Level.dstExt restrict r 0 * ed % 4 == 0) ed

/-- The checks of RESTRICT and PROLONG: every one is made, and the lowest reason of those that fail is reported (R204, R211 to R213).  The record and the table are read when the entry starts. -/
def levelPlan (restrict : Bool) (c : CopyOps) (s : State) (b : Nat) : EntryPlan :=
  let (es, ed) := (copyBytes c.sfmt, copyBytes c.dfmt)
  let at? := c.w7.toNat % 2 ^ 20
  let early :=
    reason (idleSlot c || c.xext != 0 || c.yext != 0 || c.zext != 0 || c.spitch != 0 || decide (2 ^ 20 ≤ c.w7.toNat)
        || spare c.dsp c.dst || spare c.ssp c.src) 2
      ++ reason (decide (2 ≤ c.ssp.toNat) || decide (2 ≤ c.dsp.toNat)) 3 ++ reason (!levelFmt c.sfmt || !levelFmt c.dfmt) 4
      ++ reason (c.src.toNat % es != 0 || c.dst.toNat % ed != 0) 5
  let plan := fun (x n : Nat) => localPlan s (engineSpace s b) (s.block b) .read (BitVec.ofNat 64 x) n
  if !early.isEmpty then { bad := early }
  else match plan at? 32 with
    | .error (.page _ va) => { fault := some va, blind := true }
    | .error (.trap _ _) => { bad := [6] }
    | .ok p =>
      let r := planBytes s (.copy b) b p
      let (n, m) := (Level.srcLen restrict r es, Level.dstLen restrict r ed)
      let bad :=
        reason (at? % 16 != 0 || !Level.valid restrict es ed r || (c.ssp == c.dsp && Level.meet c.src n c.dst m)) 15
          ++ reason (c.kind == 2 && decide (32768 < m)) 5 ++ runsBad s b [] c.ssp c.src [(0, n)] ++ runsBad s b [] c.dsp c.dst [(0, m)]
      match plan (Level.tableAddr r) (Level.tableBytes restrict r) with
      | .error (.trap _ _) => { bad := 6 :: bad }
      | .error (.page _ va) => if bad.isEmpty then { reads := p, fault := some va } else { bad := bad }
      | .ok q =>
        { bad := bad
          record := r ++ planBytes s (.copy b) b q
          reads := { pieces := p.pieces ++ q.pieces, used := p.used ++ q.used }
          subs := subsOf (Level.total restrict r) (levelEach restrict c r) }

def execCRestrict (c : CopyOps) (s : State) : Host.Outcome State Fault Refusal :=
  (takeEntry (.cRestrict c) c (levelPlan true c) (fun _ => .ret)).run s
def execCProlong (c : CopyOps) (s : State) : Host.Outcome State Fault Refusal :=
  (takeEntry (.cProlong c) c (levelPlan false c) (fun _ => .ret)).run s

end Sys2Proof.Machine
end

