-- ==== Sys2Proof/Machine/CopyRun.lean ====
section
/-! DEFINITION. Sub-operations and completions of copy entries (R199 to R203, R206 to R208, R216 to R218, R230). -/

namespace Sys2Proof.Machine

/-! ## Entries in progress -/

/-- The entry of a ring with an index. -/
def Ring.entry? (r : Ring) (i : Nat) : Option Entry := r.entries.find? (fun e => e.idx == i)

/-- Update an entry in progress. -/
def setEntryOf (b i : Nat) (f : Entry → Entry) : Prog :=
  setRing b (fun r => { r with entries := r.entries.map (fun e => if e.idx = i then f e else e) })

/-- The tag of an entry's writes in the memory order, until a signal covers them. -/
def entryTag (i : Nat) : Nat := 1000 + i

/-- A signal on slot n covers the writes of an entry (R203). -/
def coverEntry (b i n : Nat) : Prog :=
  .get fun s =>
    if s.hist.any (fun h => h.blk == b && h.slots.contains (entryTag i)) then
      .one (.hist (fun hs => hs.map (fun h =>
        if h.blk = b && h.slots.contains (entryTag i) then { h with slots := n :: h.slots.filter (fun k => k != entryTag i) } else h)))
    else .ret

/-- The copy fields of an entry. -/
def Entry.ops (e : Entry) : Option CopyOps := e.op.copyOp.map Prod.snd

/-! ## What a sub-operation does -/

/-- A sub-operation: the bytes it reads, their words, each with the number of its read, where it writes, the bytes written, their runs by destination offset, and its FP events. -/
structure SubWork where
  reads : Plan
  words : List (Nat × Nat)
  writes : Plan
  bytes : List Byte
  runs : List (Nat × Nat)
  events : List Nat

/-- The plans of runs of an entry's space (R200). -/
def runPlans (s : State) (b : Nat) (ranges : KMap W64) (space : BitVec 2) (a : W64) (need : Need) (rs : List (Nat × Nat)) : Except Stop Plan :=
  spotPlans s (engineSpace s b) b space.toNat (spaceRes ranges space a) need (rs.map (fun r => (spot space a r.1, r.2)))

/-- Segments of a copy's sub-operation: destination offset, source offset, elements (R200). -/
def copySegs (gather fill : Bool) (c : CopyOps) (list : List W32) (pos : Nat) : List (Nat × Option Nat × Nat) :=
  let x := c.xext.toNat
  let (ss, ds) := (copyBytes c.sfmt, copyBytes c.dfmt)
  let (lo, hi) := subBounds (fun k => c.dst.toNat % 4 + k / x * copyPitch gather c + k % x * ds) ds (copyEach gather c) (x * c.yext.toNat * c.zext.toNat) pos
  let rows := copyRows gather fill c list
  ((List.range (hi / x + 1 - lo / x)).map (fun i => lo / x + i)).filterMap (fun r =>
    let x0 := lo - r * x
    let x1 := min x (hi - r * x)
    if x1 ≤ x0 then none
    else match rows[r]? with
      | some (d, o) => some (d + x0 * ds, o.map (fun k => k + x0 * ss), x1 - x0)
      | none => none)

/-- Elements of n bytes each, as numbers. -/
def chop (n : Nat) : Nat → List Byte → List Nat
  | 0, _ => []
  | k + 1, bs => leNat (bs.take n) :: chop n k (bs.drop n)

/-- Convert the elements of a segment (R199); format 15 leaves bytes unchanged. -/
def convertSeg (c : CopyOps) (n : Nat) (bs : List Byte) : List Byte × List Nat :=
  if c.sfmt = 15 then (bs, [])
  else
    let xs := (chop (copyBytes c.sfmt) n bs).map (convert c.sfmt.toNat c.dfmt.toNat (Rm.ofBits c.rm) false)
    (xs.flatMap (fun x => leBytes (copyBytes c.dfmt) x.bits), xs.flatMap (·.counts))

/-- The bytes of every segment, taken from the source bytes in order. -/
def segBytes (fill : Bool) (c : CopyOps) : List (Nat × Option Nat × Nat) → List Byte → List (List Byte × List Nat)
  | [], _ => []
  | (_, o, n) :: segs, src =>
    match o with
    | some _ => convertSeg c n (src.take (n * copyBytes c.sfmt)) :: segBytes fill c segs (src.drop (n * copyBytes c.sfmt))
    | none =>
      (if fill then
        let one := convertSeg c 1 (leBytes (copyBytes c.sfmt) c.src.toNat)
        ((List.replicate n one.1).flatten, (List.replicate n one.2).flatten)
       else (List.replicate (n * copyBytes c.dfmt) 0, [])) :: segBytes fill c segs src

/-- A sub-operation of COPY, GATHER or FILL. -/
def copyWork (gather fill : Bool) (c : CopyOps) (s : State) (b : Nat) (e : Entry) : Except Stop SubWork :=
  let segs := copySegs gather fill c e.list e.pos
  let from? := segs.filterMap (fun x => x.2.1.map (fun o => (o, x.2.2 * copyBytes c.sfmt)))
  let to? := segs.map (fun x => (x.1, x.2.2 * copyBytes c.dfmt))
  match runPlans s b e.ranges c.ssp c.src .read from?, runPlans s b e.ranges c.dsp c.dst .write to? with
  | .error x, _ => .error x
  | _, .error x => .error x
  | .ok r, .ok w =>
    let out := segBytes fill c segs (planBytes s (.copy b) b r)
    .ok { reads := r, words := (planWords b r).map (fun w => (w, 0)), writes := w, bytes := out.flatMap Prod.fst, runs := to?, events := out.flatMap Prod.snd }

/-- SEAL writes ciphertext and tag; UNSEAL checks the tag before it writes any byte: none on a mismatch (R208). -/
def sealWork (opens : Bool) (c : CopyOps) (s : State) (b : Nat) (e : Entry) : Except Stop (Option SubWork) :=
  let x := s.ctx (s.block b).ctx
  let n := c.xext.toNat
  let low : W64 := c.w7 ++ (c.zext ++ c.spitch)
  let iv := Aes.iv (if c.rm = 1 then 3 else 1) (s.block b).ctx low
  let to? := [(0, if opens then n else n + 16)]
  match runPlans s b e.ranges c.ssp c.src .read [(0, if opens then n + 16 else n)], runPlans s b e.ranges c.dsp c.dst .write to? with
  | .error x, _ => .error x
  | _, .error x => .error x
  | .ok r, .ok w =>
    let bs := planBytes s (.copy b) b r
    if opens then
      if Aes.tag x.key iv (bs.take n) = bs.drop n then
        .ok (some { reads := r, words := (planWords b r).map (fun w => (w, 0)), writes := w, bytes := Aes.crypt x.key iv (bs.take n), runs := to?, events := [] })
      else .ok none
    else .ok (some { reads := r, words := (planWords b r).map (fun w => (w, 0)), writes := w, bytes := Aes.sealed x.key iv bs, runs := to?, events := [] })

/-- Destination elements of a level transfer's sub-operation, by coordinates. -/
def levelCells (restrict : Bool) (c : CopyOps) (r : List Byte) (pos : Nat) : List (Nat × Nat × Nat) :=
  let ed := copyBytes c.dfmt
  let (nx, ny) := (Level.dstExt restrict r 0, Level.dstExt restrict r 1)
  let cell := fun i => (i % nx, i / nx % ny, i / (nx * ny))
  let at? := fun i => (let (x, y, z) := cell i
    c.dst.toNat % 4 + Level.dstOff r ed x y z)
  let (lo, hi) := subBounds at? ed (levelEach restrict c r) (Level.total restrict r) pos
  (List.range (hi - lo)).map (fun i => cell (lo + i))

/-- The results of cells, each from the values of its terms, taken in order (R216, R217). -/
def levelResults (c : CopyOps) (r : List Byte) : List (List Level.Term) → List Nat → List Nat → List Fp.Res
  | [], _, _ => []
  | ts :: rest, src, olds =>
    let f := Fp.ofCode c.sfmt.toNat
    let step := fun (acc : List Fp.Num × List Nat) (t : Level.Term) =>
      match t.2 with
      | none => (acc.1 ++ [Level.product (.fin false 0 0) t.1 (Level.shift r)], acc.2)
      | some _ => (acc.1 ++ [Level.product (f.decode (acc.2.headD 0)) t.1 (Level.shift r)], acc.2.tail)
    let (ps, src') := ts.foldl step ([], src)
    let old := if Level.adds r then [(Fp.ofCode c.dfmt.toNat).decode (olds.headD 0)] else []
    Level.finish (Fp.ofCode c.dfmt.toNat) (Rm.ofBits c.rm) (ps ++ old) :: levelResults c r rest src' olds.tail

/-- A sub-operation of RESTRICT or PROLONG: every byte is checked and read before any is written (R218). -/
def levelWork (restrict : Bool) (c : CopyOps) (s : State) (b : Nat) (e : Entry) : Except Stop SubWork :=
  let r := e.record
  let (es, ed) := (copyBytes c.sfmt, copyBytes c.dfmt)
  let cells := levelCells restrict c r e.pos
  let terms := cells.map (fun (x, y, z) => Level.terms restrict r x y z)
  let from? := terms.flatten.filterMap (fun t => t.2.map (fun (x, y, z) => (Level.srcOff r es x y z, es)))
  let to? := cells.map (fun (x, y, z) => (Level.dstOff r ed x y z, ed))
  let sp := runPlans s b [] c.ssp c.src .read from?
  let olds := if Level.adds r then runPlans s b [] c.dsp c.dst .read to? else .ok { pieces := [], used := [] }
  match sp, olds, runPlans s b [] c.dsp c.dst .write to? with
  | .error x, _, _ => .error x
  | _, .error x, _ => .error x
  | _, _, .error x => .error x
  | .ok p, .ok o, .ok w =>
    -- each term reads its source for itself (R219)
    let each := from?.zipIdx.map (fun x => (match runPlans s b [] c.ssp c.src .read [x.1] with
      | .ok q => q
      | .error _ => { pieces := [], used := [] }, x.2))
    let olds := if Level.adds r then chop ed cells.length (planBytes s (.copy b) b o) else []
    let rs := levelResults c r terms (each.map (fun x => leNat (planBytesNth s (.copy b) b x.2 x.1))) olds
    .ok { reads := { pieces := p.pieces ++ o.pieces, used := p.used ++ o.used }, writes := w,
          words := each.flatMap (fun x => (planWords b x.1).map (fun w => (w, x.2))) ++ (planWords b o).map (fun w => (w, 0)),
          bytes := rs.flatMap (fun x => leBytes ed x.bits), runs := to?, events := rs.flatMap (fun x => eventNums c.dfmt.toNat x.ev) }

/-! ## Signals (R202, R226) -/

/-- Chunk bits of runs by destination offset. -/
def chunkBits (runs : List (Nat × Nat)) : W64 :=
  runs.foldl (fun m r => (List.range ((r.1 + r.2 - 1) / 512 + 1 - r.1 / 512)).foldl (fun m i => m ||| ((1 : W64) <<< (r.1 / 512 + i))) m) 0

/-- The signal that follows a sub-operation; one that meets another mode is discarded and the ring halts. -/
def subSignal (b : Nat) (e : Entry) (c : CopyOps) (n : Nat) (bits : W64) : Prog :=
  .get fun s =>
    let k := c.slot.toNat
    let last := e.pos + 1 == e.subs
    let cover := Prog.when last (coverEntry b e.idx k)
    if c.kind = 1 then
      (match s.slot b k with
       | .bytes _ => (Prog.one (.slot b k (.addBytes n))).seq cover
       | _ => failEntry b e 8)
    else if c.kind = 2 then
      (match s.slot b k with
       | .chunks _ => (Prog.one (.slot b k (.setBits bits))).seq cover
       | _ => failEntry b e 8)
    else .ret

/-- A sub-operation has been performed. -/
def subDone (b : Nat) (e : Entry) (c : CopyOps) (n : Nat) (bits : W64) : Prog :=
  (setEntryOf b e.idx (fun e => { e with pos := e.pos + 1 })).seq (subSignal b e c n bits)

/-- Some write of an entry waits (R174). -/
def entryStalls (s : State) (b i : Nat) : Bool := s.pkg.stalled.any (fun x => x.path == .copy b && x.slots.contains (entryTag i))

/-- The tag of a sub-operation's writes, whose bytes in one word are one write (R203). -/
def subTag (pos : Nat) : Nat := 64 + pos % 900

/-- A sub-operation that is performed but for writes that wait completes once they are performed. -/
def subWritten (b : Nat) (e : Entry) (c : CopyOps) (n : Nat) (bits : W64) : Prog :=
  .get fun s =>
    if entryStalls s b e.idx then setEntryOf b e.idx (fun e => { e with done := some (n, bits), faultAt := none })
    else (setEntryOf b e.idx (fun e => { e with done := none, faultAt := none })).seq (subDone b e c n bits)

/-- Perform a sub-operation that was checked, once its sources' lines are there; a read or a write of it waits for the ring's own earlier ones to the word, and a write for its line in M, or for a page under migration (R174). -/
def perform (b : Nat) (e : Entry) (c : CopyOps) (w : SubWork) : Prog :=
  .get fun s =>
    let p := Path.copy b
    .when (!planStalls s p b w.writes)
      (engineReads b w.reads w.words
        (.all [ noteTlb (engineSpace s b) w.writes.used,
                planWrite { path := p, blk := b, slots := [entryTag e.idx, subTag e.pos] } w.writes.pieces w.bytes,
                addEvents (s.block b).launch (gather w.events),
                subWritten b e c w.bytes.length (chunkBits w.runs) ]))

/-- The entry waits on a page fault: kind 2 for reads, 3 for writes, 6 for an overlay (R200, R329). -/
def entryFault (b : Nat) (e : Entry) (kind : Nat) (va : W64) : Prog :=
  engineFault b e.team kind va (fun h => setEntryOf b e.idx (fun e => { e with faultAt := some h }))

/-- Perform a sub-operation, or wait on its page fault. -/
def performOr (b : Nat) (e : Entry) (c : CopyOps) : Except Stop SubWork → Prog
  | .ok w => perform b e c w
  | .error (.page k va) => entryFault b e (k + 2) va
  | .error (.trap _ _) => .ret

/-! ## SLOAD and OVL -/

/-- A sub-operation of SLOAD: whole columns, with their source records; a conflict with a record that another SLOAD made after this one's checks halts the ring with reason 11 (R206; DEDUCED, log 41). -/
def sloadSub (b : Nat) (e : Entry) (c : CopyOps) : Prog :=
  .get fun s =>
    let core := (s.block b).core
    let n := c.xext.toNat
    let cols := (List.range (min (sloadCols c) (c.yext.toNat - e.pos * sloadCols c))).map (fun j => e.pos * sloadCols c + j)
    let kept := fun (x : Core) (j : Nat) => keptRecords ((x.sources.get? (sloadCol c + j)).getD []) (sloadRow c) (sloadRows c)
    match runPlans s b [] 0 c.src .read (cols.map (fun j => (j * c.spitch.toNat, n))) with
    | .error (.page _ va) => entryFault b e 2 va
    | .error (.trap _ _) => .ret
    | .ok p =>
      if cols.any (fun j => (kept (s.core core) j).isNone) then failEntry b e 11
      else
        let bs := planBytes s (.copy b) b p
        let put := fun (x : Core) (i : Nat) =>
          let j := cols.getD i 0
          let new : SourceRec := { row := sloadRow c, rows := sloadRows c, src := c.src + BitVec.ofNat 64 (j * c.spitch.toNat), ctx := (s.block b).ctx }
          { x with
            slices := Sparse.setRun x.slices (32 * (1024 * (sloadCol c + j) + sloadRow c)) ((bs.drop (i * n)).take n)
            sources := x.sources.put (sloadCol c + j) (((kept x j).getD []) ++ [new]) }
        engineRead b p (.all [
          .one (.core core (fun x => (List.range cols.length).foldl put x)),
          subWritten b e c (cols.length * n) 0 ])

/-- OVL: the overlay is copied into its slot, which becomes VALID (R207). -/
def ovlSub (b : Nat) (e : Entry) (c : CopyOps) : Prog :=
  .get fun s =>
    let sp := engineSpace s b
    let o := ovlRef c
    match globalPlan s sp .exec c.src (overlaySize o) with
    | .error (.page _ va) => entryFault b e 6 va
    | .error (.trap _ _) => .ret
    | .ok p =>
      engineRead b p (.all [
        installOverlay (s.block b).core (c.dst.toNat % 4) sp.asid o (overlayWords (planBytes s (.copy b) b p)),
        subWritten b e c (overlaySize o) 0 ])

/-! ## SUBOP_COMPLETE -/

/-- No earlier entry of a ring waits on a page fault: with one, every later entry waits (R200). -/
def Ring.goesOn (r : Ring) (i : Nat) : Bool := (r.entries.takeWhile (fun y => y.idx != i)).all (fun y => y.faultAt.isNone)

/-- The block's engine work goes on: the block is on its core, and no earlier entry of the ring waits on a page fault; one that found no free handle tries again (R200). -/
def subRuns (s : State) (b : Nat) (e : Entry) : Bool :=
  let x := s.block b
  engineRuns s b && decide (e.pos < e.subs)
    && x.ring.goesOn e.idx && (e.faultAt.isNone || e.faultAt == some 1024)

/-- SUBOP_COMPLETE: the next sub-operation of an entry is performed, whole. -/
def runSub (b i : Nat) : Prog :=
  .get fun s =>
    match (s.block b).ring.entry? i with
    | none => .ret
    | some e =>
      match e.done, e.ops with
      | some (n, bits), some c => .when (engineRuns s b) (subWritten b e c n bits)
      | _, _ =>
      if !subRuns s b e then .ret
      else match e.op with
        | .cCopy c => performOr b e c (copyWork false false c s b e)
        | .cGather c => performOr b e c (copyWork true false c s b e)
        | .cFill c => performOr b e c (copyWork false true c s b e)
        | .cSload c => sloadSub b e c
        | .cOvl c => ovlSub b e c
        | .cRestrict c => performOr b e c (levelWork true c s b e)
        | .cProlong c => performOr b e c (levelWork false c s b e)
        | .cSeal c | .cUnseal c =>
          (match sealWork (match e.op with | .cUnseal _ => true | _ => false) c s b e with
           | .ok (some w) => perform b e c w
           | .ok none => failEntry b e 12
           | .error x => performOr b e c (.error x))
        | _ => .ret

def execSubopComplete (b i : Nat) (s : State) : Host.Outcome State Fault Refusal := (runSub b i).run s

/-! ## ENTRY_COMPLETE -/

/-- A ring-kind entry's fill waits for the fills of the earlier places of its slot, an entry's or a team's: more places are taken and not filled than those from its own on (R230). -/
def fillWaits (x : Slot) (place : Nat) : Bool :=
  match x with
  | .ring size _ takenP _ _ put _ => decide ((put + size - place - 1) % size + 1 < takenP)
  | _ => false

/-- The entry leaves the ring with its last signal `k`; NOTIFY increments DONECNT with release (R201). -/
def retireEntry (b : Nat) (e : Entry) (c : CopyOps) (k : Prog) : Prog :=
  .get fun s =>
    let leave := k.seq (setRing b (fun r => { r with entries := r.entries.filter (fun x => x.idx != e.idx) }))
    if c.notify then
      let n := ((s.block b).ring.donecnt + 1) % 2 ^ 32
      ringWrite true b e.team 0xC (bytes4 n) (leave.seq (setRing b (fun r => { r with donecnt := n })))
    else leave

/-- ENTRY_COMPLETE: every sub-operation has been performed; a ring-kind entry delivers its fill (R201, R202, R230). -/
def completeCopy (b i : Nat) : Prog :=
  .get fun s =>
    let r := (s.block b).ring
    match r.entry? i with
    | none => .ret
    | some e =>
      if e.pos < e.subs || e.done.isSome || !engineRuns s b || !r.goesOn i then .ret
      else match e.ops with
        | none => .ret
        | some c =>
          if c.kind = 3 then
            match e.place, s.slot b c.slot.toNat with
            | some k, .ring x f p l t u g =>
              .when (!fillWaits (.ring x f p l t u g) k)
                (retireEntry b e c ((Prog.one (.slot b c.slot.toNat .filled)).seq (coverEntry b i c.slot.toNat)))
            | _, _ => failEntry b e 8
          else retireEntry b e c .ret

def execEntryComplete (b i : Nat) (s : State) : Host.Outcome State Fault Refusal := (completeCopy b i).run s

end Sys2Proof.Machine
end

