-- ==== Sys2Proof/Machine/Observe.lean ====
section
/-! DEFINITION. The profile block and the lane-cycle totals (R347 to R350). -/

namespace Sys2Proof.Machine

/-- Add to 64-bit words of a profile block that hold at 2^64 − 1 (R348). -/
def addWords (x : Nat) (base : W64) : List (Nat × Nat) → Prog
  | [] => .ret
  | (off, n) :: rest =>
    .get fun s =>
      match ctxNat s x (base + BitVec.ofNat 64 off) 8 with
      | .error _ => addWords x base rest
      | .ok v => (ctxStore false x (base + BitVec.ofNat 64 off) (leBytes 8 (satAdd v n)) .ret (fun _ => .ret)).seq (addWords x base rest)

/-- Step GEN of a profile block by 1, which holds at 2^64 − 1 as every word of the block (R348); the second step is a release (R349). -/
def stepGen (role : Bool) (x : Nat) (base : W64) (k : Prog) : Prog :=
  .get fun s =>
    match ctxNat s x base 8 with
    | .error _ => .ret
    | .ok v => ctxStore role x base (bytes8 (BitVec.ofNat 64 (satAdd v 1))) k (fun _ => .ret)

/-- One update of a profile block of a context: GEN odd, the fields, GEN even (R349); without a block there is none. -/
def profileAdd (x : Nat) (base : W64) (adds : List (Nat × Nat)) : Prog :=
    if base = 0 then .ret
    else stepGen false x base ((addWords x base (adds.filter (fun a => a.2 != 0))).seq (stepGen true x base .ret))

/-- A core's lane-cycle counts as profile fields: bin b, class c at 0x200 + 40 b + 8 c (R348). -/
def lcycFields (c : Core) : List (Nat × Nat) := c.lcyc.map (fun e => (0x200 + 8 * e.1, e.2))

/-- The bins that may have taken I cycles since the counts were cleared: those that were some pipe's last then, and those that counted a pass since (R350). -/
def idleOf (c : Core) : List Nat := (c.idleBins ++ c.lcyc.map (fun (e : Nat × Nat) => e.1 / 5)).eraseDups

/-- The I cycles that bins took since they were last cleared: how many depends on time alone, so each such bin takes a free number of cycles, of 32 lane positions each (R90, R350). -/
def idleFields (s : State) (c : Core) : List (Nat × Nat) :=
  (idleOf c).map (fun n => (0x200 + 40 * n + 32, 32 * ((Config.freeWord (s.fresh + n)).toNat % 2 ^ 32)))

/-- Add a core's lane-cycle counts to a profile block of the context that its bins serve, and clear them (R350). -/
def flushBins (core : Nat) (base : W64) : Prog :=
  .get fun s =>
    let c := s.core core
    if (idleOf c).isEmpty then .ret
    else .all [ profileAdd c.binCtx base (lcycFields c ++ idleFields s c), .each (List.range 16) (fun _ => .one .drawFree),
                .one (.core core (fun c => { c with lcyc := [], idleBins := (c.lastBins.map (fun (e : Nat × Nat) => e.2)).eraseDups })) ]

end Sys2Proof.Machine
end

