-- ==== Sys2Proof/Machine/Csr.lean ====
section
/-! DEFINITION. The control and status registers (R62 to R66). -/

namespace Sys2Proof.Machine

/-- Arithmetic-clock cycles of n steps from a step on: the sum of what each took (log 6). -/
def cyclesFrom (a : Nat) : Nat → Nat
  | 0 => 0
  | n + 1 => cyclesFrom a n + Config.stepCycles (a + n)

/-- Cycles since the package powered up last (R62). -/
def cycleNow (s : State) : Nat := cyclesFrom s.pkg.poweredAt (s.clock - s.pkg.poweredAt)

/-- The core that FCORE names; none for core 0 of a die or a core that does not exist (R63). -/
def remoteCore (s : State) (c : Nat) : Option Nat :=
  let f := (s.core c).fcore.toNat
  let k := f % 128
  if k = 0 ∨ 96 ≤ k ∨ 4 ≤ f / 128 then none else some (96 * (f / 128) + k)

/-- The team in slot FTSEL of the core that FCORE names, where one is placed (R63). -/
def remoteTeam (s : State) (c : Nat) : Option Nat :=
  match remoteCore s c with
  | none => none
  | some k =>
    let t := 32 * k + (s.core c).ftsel.toNat % 32
    if (s.teams.get? t).isSome then some t else none

/-- OVSLOTn as a team sees it: zero for another ASID than the slot's (R65). -/
def ovslot (s : State) (t n : Nat) : W64 :=
  match (s.core (coreOf t)).slots[n]? with
  | none => 0
  | some o =>
    if o.asid ≠ (s.spaceOf t).asid then 0
    else (o.base >>> 8 <<< 8) ||| (if o.loading then 2 else 0) ||| (if o.valid then 1 else 0)

/-- The value of a CSR as a team reads it; none for a number that R62 does not list. -/
def readCsr (s : State) (t n : Nat) : Option W64 :=
  let m := s.team t
  let c := s.core (coreOf t)
  let z := fun (x : W32) => x.setWidth 64
  if n = 0x000 then some (z m.teamid)
  else if n = 0x001 then some (BitVec.ofNat 64 m.width)
  else if n = 0x002 then some (BitVec.ofNat 64 (dieOf (coreOf t)))
  else if n = 0x003 then some (BitVec.ofNat 64 (coreOf t % 96))
  else if n = 0x004 then some (z m.msum)
  else if n = 0x010 then some (BitVec.ofNat 64 (cycleNow s))
  else if n = 0x011 then some (z s.pkg.version)
  else if n = 0x020 then some (z m.tcause)
  else if n = 0x021 then some m.tval
  else if n = 0x022 then some m.tpc
  else if n = 0x023 then some m.tbatch
  else if n = 0x024 then some m.thandler
  else if n = 0x030 then some m.termused
  else if n = 0x031 then some m.termsteps
  else if n = 0x032 then some m.groupwait
  else if n = 0x033 then some m.mmacyc
  else if n = 0x034 then some m.specdrop
  else if 0x040 ≤ n ∧ n ≤ 0x04F then some (c.lcbase.toList.getD (n - 0x040) 0)
  else if n = 0x050 then some (z m.lacheck)
  else if 0x060 ≤ n ∧ n ≤ 0x063 then some (ovslot s t (n - 0x060))
  else if 0x080 ≤ n ∧ n ≤ 0x09B then some (BitVec.ofNat 64 ((s.launchOf t).fev.getD (n - 0x080) 0))
  else if n = 0x800 then some c.fstatus
  else if n = 0x801 then some (z c.fcause)
  else if n = 0x802 then some c.fepc
  else if n = 0x803 then some c.fval
  else if n = 0x804 then some c.fscratch
  else if n = 0x810 then some (z c.fasid)
  else if n = 0x811 then some (z c.fctx)
  else if n = 0x812 then some (z c.fcore)
  else if n = 0x813 then some (z c.ftsel)
  else if 0x820 ≤ n ∧ n ≤ 0x82F then
    some (match remoteCore s (coreOf t) with
      | some k => (s.core k).lcbase.toList.getD (n - 0x820) 0
      | none => 0)
  else if n = 0x830 then some (z c.fseal)
  else if 0x832 ≤ n ∧ n ≤ 0x835 then
    some (match remoteTeam s (coreOf t) with
      | some k => (s.team k).pcmatch.toList.getD (n - 0x832) 0
      | none => 0)
  else if 0x836 ≤ n ∧ n ≤ 0x839 then
    some (match remoteCore s (coreOf t) with
      | some k => z ((s.core k).watch.toList.getD (n - 0x836) 0)
      | none => 0)
  else none

/-- The F-mode numbers (R62). -/
def fModeCsr (n : Nat) : Bool := decide (0x800 ≤ n) && decide (n ≤ 0x83F)

/-- Element n of a vector replaced. -/
def putAt {α : Type} {k : Nat} (v : Vector α k) (n : Nat) (x : α) : Vector α k := v.setIfInBounds n x

/-- The lane queue as a release leaves it: SKIP instructions at the cursor are discarded, and the rest run (R65, R84). -/
def skipBatches : Nat → List Batch → List Batch
  | _, [] => []
  | n, b :: bs =>
    if b.left.isEmpty then b :: skipBatches n bs
    else { b with idx := b.idx + n, left := b.left.drop n } :: skipBatches (n - b.left.length) bs

/-- How many instructions of the queue a release passes over: those discarded, and batches that have completed behind them (R88, R111). -/
def skipPassed : Nat → List Batch → Nat
  | _, [] => 0
  | n, b :: bs =>
    if b.left.isEmpty then skipPassed n bs
    else min n b.left.length + (if b.left.length ≤ n then b.skips else 0) + skipPassed (n - b.left.length) bs

/-- Writing CAUSE: 0 releases a held lane queue (R65, R84, R323). -/
def Team.writeCause (t : Team) (x : W64) : Team :=
  let t' := { t with tcause := x.setWidth 32 &&& 0xFF }
  if x.toNat % 256 = 0 && t.held then
    let n := t.tbatch.toNat / 2 ^ 32 % 16
    { t'.passBy (skipPassed n t.lanes) with lanes := skipBatches n t.lanes, tbatch := 0 }
  else t'

/-- A team-scope CSR written: RW fields only (R62, R65). -/
def Team.writeCsr (t : Team) (n : Nat) (x : W64) : Team :=
  if n = 0x020 then t.writeCause x
  else if n = 0x021 then { t with tval := x }
  else if n = 0x022 then { t with tpc := x }
  else if n = 0x023 then { t with tbatch := (t.tbatch &&& ~~~(0xF00000000 : W64)) ||| (x &&& 0xF00000000) }
  else if n = 0x024 then { t with thandler := x &&& ~~~(3 : W64) }
  else if n = 0x030 then { t with termused := x }
  else if n = 0x031 then { t with termsteps := x }
  else if n = 0x032 then { t with groupwait := x }
  else if n = 0x033 then { t with mmacyc := x }
  else if n = 0x034 then { t with specdrop := x }
  else if n = 0x050 then { t with lacheck := x.setWidth 32 &&& 1 }
  else t

/-- An F-mode CSR of the team's own core written; reserved bits stay zero (R62, R63, R6). -/
def Core.writeCsr (c : Core) (n : Nat) (x : W64) : Core :=
  if n = 0x800 then { c with fstatus := x }
  else if n = 0x801 then { c with fcause := x.setWidth 32 }
  else if n = 0x802 then { c with fepc := x }
  else if n = 0x803 then { c with fval := x }
  else if n = 0x804 then { c with fscratch := x }
  else if n = 0x810 then { c with fasid := x.setWidth 32 }
  else if n = 0x811 then { c with fctx := x.setWidth 32 }
  else if n = 0x812 then { c with fcore := x.setWidth 32 &&& 0x1FF }
  else if n = 0x813 then { c with ftsel := x.setWidth 32 &&& 0x1F }
  else if n = 0x830 then { c with fseal := x.setWidth 32 }
  else c

/-- Bits of PCMATCHn, WATCHn and LCBASEn that exist (R65, R353, R354). -/
def pcmatchMask : W64 := 0x81FFFFFFFFFFFFFC
def watchMask : W32 := 0x8F03E03F
def lcbaseMask : W64 := 0xFFFFFFFFFFFFFFFC

/-- A core's bins serve a context; another one's last passes are none of its (R350). -/
def Core.serve (c : Core) (x : Nat) : Core :=
  if c.binCtx = x then c else { c with binCtx := x, lastBins := [], idleBins := [] }

/-- Firmware's windowed writes to another core (R62, R63); a change of bins or of FCTX adds and clears the counts (R350). -/
def writeWindow (n : Nat) (x : W64) : Prog :=
  .get fun s =>
    let c := coreOf s.cur
    if n = 0x811 then
      (match remoteCore s c with
       | some k => (flushBins k (s.ctx (s.core k).binCtx).profBlock).seq (.one (.core k (fun y => y.serve (x.toNat % 2 ^ 24))))
       | none => .ret)
    else if 0x820 ≤ n ∧ n ≤ 0x82F then
      (match remoteCore s c with
       | some k => (flushBins k (s.ctx (s.core k).binCtx).profBlock).seq (.one (.core k (fun y =>
           { y.serve ((s.core c).fctx.toNat % 2 ^ 24) with lcbase := putAt y.lcbase (n - 0x820) (x &&& lcbaseMask) })))
       | none => .ret)
    else if 0x832 ≤ n ∧ n ≤ 0x835 then
      (match remoteTeam s c with
       | some k => .one (.team k (fun y => { y with pcmatch := putAt y.pcmatch (n - 0x832) (x &&& pcmatchMask) }))
       | none => .ret)
    else if 0x836 ≤ n ∧ n ≤ 0x839 then
      (match remoteCore s c with
       | some k => .one (.core k (fun y => { y with watch := putAt y.watch (n - 0x836) (x.setWidth 32 &&& watchMask) }))
       | none => .ret)
    else .ret

/-- A CSR instruction: ILLEGAL for a number not listed, PRIV for an F-mode number outside F-mode, else the old value goes to gd and the new one to the RW fields (R66). -/
def csrOp (u : Use) (d : GReg) (n : BitVec 12) (new : Option (Team → W64 → W64)) : Prog :=
  scalar u fun t => .get fun s =>
    match readCsr s s.cur n.toNat with
    | none => illegal
    | some old =>
      if fModeCsr n.toNat && !fMode (coreOf s.cur) then privileged
      else match new with
        | none => finish u (fun t => t.setReg d old)
        | some f =>
          let x := f t old
          .all [ finish u (fun t => (t.writeCsr n.toNat x).setReg d old),
                 .when (fModeCsr n.toNat)
                   ((Prog.one (.core (coreOf s.cur) (fun c => c.writeCsr n.toNat x))).seq (writeWindow n.toNat x)) ]

def execCsrr (d : GReg) (c : BitVec 12) (s : State) : Host.Outcome State Fault Refusal :=
  (csrOp { writes := [d], spec := true } d c none).run s
def execCsrw (d a : GReg) (c : BitVec 12) (s : State) : Host.Outcome State Fault Refusal :=
  (csrOp { reads := [a], writes := [d] } d c (some (fun t _ => t.reg a))).run s
def execCsrs (d a : GReg) (c : BitVec 12) (s : State) : Host.Outcome State Fault Refusal :=
  (csrOp { reads := [a], writes := [d] } d c (some (fun t old => old ||| t.reg a))).run s
def execCsrc (d a : GReg) (c : BitVec 12) (s : State) : Host.Outcome State Fault Refusal :=
  (csrOp { reads := [a], writes := [d] } d c (some (fun t old => old &&& ~~~(t.reg a)))).run s

end Sys2Proof.Machine
end

