-- ==== Sys2Proof/Machine/FrontEnd.lean ====
section
/-! DEFINITION. The front ends: launch records and their checks, dependences, queue states, and completion (R21 to R36, R132, R347). -/

namespace Sys2Proof.Machine

/-! ## Kernel headers (R12, R13, R21, R23) -/

/-- Bits [hi:lo] of a 32-bit word of a record. -/
def bits (b : List Byte) (off hi lo : Nat) : Nat := field b off 4 / 2 ^ lo % 2 ^ (hi + 1 - lo)

/-- The fields of a header (R13). -/
def headerOf (b : List Byte) : Header :=
  { ardel := bits b 0x08 0 0 == 1
    spill := bits b 0x08 1 1 == 1
    zero := bits b 0x08 2 2 == 1
    width := bits b 0x0C 10 0
    teams := bits b 0x0C 15 11 + 1
    vregs := bits b 0x0C 24 16
    lblk := bits b 0x10 6 0
    slots := bits b 0x10 13 7
    tiles := bits b 0x10 19 14
    obkb := bits b 0x14 8 0
    entry := bits b 0x18 31 16 }

def overlayCount (b : List Byte) : Nat := bits b 0x18 11 0
def overlayTable (b : List Byte) : W64 := field64 b 0x20

/-- A version that the front end accepts (R21). -/
def versionOk (version : W32) (b : List Byte) : Bool :=
  let minor := bits b 0x04 23 16
  let major := bits b 0x04 31 24
  let ardel := bits b 0x08 0 0 == 1
  (major == 2 && !ardel && decide (minor ≤ version.toNat / 2 ^ 16 % 2 ^ 8)) || (major == 1 && ardel && decide (minor ≤ 4))

/-- A reserved field of a header that is not zero. -/
def headerReserved (b : List Byte) : Bool :=
  bits b 0x08 31 3 != 0 || bits b 0x0C 31 25 != 0 || bits b 0x10 31 20 != 0 || bits b 0x14 31 9 != 0 || bits b 0x18 15 12 != 0
    || field b 0x1C 4 != 0 || field b 0x28 24 != 0

/-- A width that R23 allows. -/
def widthOk (ardel : Bool) (w : Nat) : Bool :=
  if ardel then w != 0 && w % 16 == 0 && decide (w ≤ 512)
  else w == 8 || w == 16 || (w != 0 && w % 32 == 0 && decide (w ≤ 1024))

/-- An overlay table entry. -/
def overlayEntry (t : List Byte) (i : Nat) : OverlayRef :=
  { base := field64 t (16 * i), slen := field t (16 * i + 8) 4, lcount := field t (16 * i + 12) 4 }

/-- An entry that keeps R15. -/
def overlayOk (o : OverlayRef) : Bool :=
  o.base.toNat % 256 == 0 && canonical o.base && o.slen % 4 == 0 && decide (4 ≤ o.slen) && decide (o.slen ≤ 65532)
    && decide (o.lcount ≤ 5461) && decide (overlaySize o ≤ 65536)

/-- The first check of R23 that a header and its overlay table fail, or what they hold. -/
def checkHeader (version : W32) (b t : List Byte) : Except Nat (Header × List OverlayRef) :=
  let h := headerOf b
  let ovs := (List.range (overlayCount b)).map (overlayEntry t)
  if field b 0 4 ≠ 0x484B5A50 then .error 1
  else if !versionOk version b then .error 2
  else if headerReserved b then .error 3
  else if !widthOk h.ardel h.width then .error 4
  else if h.vregs = 0 ∨ 256 < h.vregs then .error 5
  else if 64 < h.lblk ∨ (32 < h.lblk ∧ !h.spill) ∨ 64 < h.slots ∨ 32 < h.tiles ∨ 256 < h.obkb then .error 6
  else if overlayCount b = 0 ∨ (overlayTable b).toNat % 16 ≠ 0 ∨ !canonical (overlayTable b) then .error 7
  else if !ovs.all overlayOk then .error 8
  else if h.entry % 4 ≠ 0 ∨ ((ovs.map (·.slen)).getD 0 0) ≤ h.entry then .error 9
  else .ok (h, ovs)

/-- Read and check the header at an address of a context: the reason, with the fault address of a read that fails (R34 steps 4 and 5).  A table address that is not canonical is left to the checks; a table whose address is canonical and whose entries leave the canonical range is not read either, and its entries fail check 8 (DESIGN CHOICE, log 36). -/
def readHeader (s : State) (x : Nat) (a : W64) : Except (Nat × W64) (Header × List OverlayRef) :=
  match ctxBytes s x a 64 with
  | .error e => .error (0x11, e)
  | .ok b =>
    let table := if canonicalRun (overlayTable b) (16 * overlayCount b) then ctxBytes s x (overlayTable b) (16 * overlayCount b) else .ok []
    match table with
    | .error e => .error (0x11, e)
    | .ok t => (checkHeader s.pkg.version b t).mapError (fun r => (r, 0))

/-- The thresholds of a launch: none where no table is registered, its read faults or a reserved field is not zero (R132). -/
def readThresholds (s : State) (x : Nat) : List W64 :=
  let none' := List.replicate 28 0
  let a := (s.ctx x).thrAddr
  if a = 0 then none'
  else match ctxBytes s x a 256 with
    | .error _ => none'
    | .ok b => if field b 0xE0 32 ≠ 0 then none' else (List.range 28).map (fun n => field64 b (8 * n))

/-! ## Launch records (R32, R34) -/

/-- An address aligned to `n` and canonical. -/
def goodAddr (a : W64) (n : Nat) : Bool := a.toNat % n == 0 && canonical a

/-- The used dependences of a record. -/
def recordDeps (b : List Byte) : List (W64 × W64) :=
  (List.range (bits b 0 7 6)).map (fun n => (field64 b (0x30 + 16 * n), field64 b (0x38 + 16 * n)))

/-- The record's own fields keep reason 0x13, but for SPILL; a SPILL that is not 16 KiB aligned is taken as it stands (DESIGN CHOICE, log 37: R34 has no check for it). -/
def recordOk (b : List Byte) : Bool :=
  bits b 0 31 8 == 0 && bits b 0 5 5 == 0 && field b 0x04 4 == 0 && field b 0x1C 4 == 0 && field b 0x26 2 == 0 && field b 0x78 8 == 0
    && goodAddr (field64 b 0x08) 64 && goodAddr (field64 b 0x10) 8 && field b 0x18 4 % 8 == 0 && decide (field b 0x18 4 ≤ 4096)
    && field b 0x20 2 != 0 && field b 0x22 2 != 0 && field b 0x24 2 != 0
    && goodAddr (field64 b 0x60) 8 && (recordDeps b).all (fun d => goodAddr d.1 8)

/-- The line of a context's word, and the write count, as a read of it finds them. -/
def lineRead (s : State) (x : Nat) (a : W64) : Option (Nat × Nat) :=
  match ctxRun s x .read a 8 with
  | .ok ((pa, _) :: _) => some (pa / 256, s.writes)
  | _ => none

/-- The dependences that are met at their first read, or the address of the first read that faults. -/
def firstReads (s : State) (x : Nat) : Nat → List (W64 × W64) → Except W64 (List Nat)
  | _, [] => .ok []
  | n, (a, v) :: ds =>
    match ctxNat s x a 8 with
    | .error e => .error e
    | .ok w =>
      match firstReads s x (n + 1) ds with
      | .error e => .error e
      | .ok ns => .ok (if v.toNat ≤ w then n :: ns else ns)

/-- A read of a context's word must wait for the front end's own write to it, which is not performed yet (R174). -/
def ctxStalls (s : State) (x : Nat) (a : W64) (n : Nat) : Bool :=
  match ctxRun s x .read a n with
  | .ok ps => readStalls s (.front x) ps
  | .error _ => false

/-- The front end's acquires of runs of a context's memory go on once its die holds their lines; a run whose translation faults has none (R289). -/
def frontHolds (x : Nat) (rs : List (W64 × Nat)) (k : Prog) : Prog :=
  .get fun s => needLines (.front x) .sync (linesOf (rs.flatMap (fun r => (ctxRun s x .read r.1 r.2).toOption.getD []))) k .ret

/-- The launch that a record describes, or the reason and the fault address (R34, in its order). -/
def readRecord (s : State) (q : Nat) : Except (Nat × W64) Launch :=
  let k := s.queue q
  let x := k.ctx
  match ctxBytes s x (k.base + BitVec.ofNat 64 (128 * (k.rdidx.toNat % 2 ^ k.log2n))) 128 with
  | .error e => .error (0x10, e)
  | .ok b =>
    if !recordOk b then .error (0x13, 0)
    else if (bits b 0 2 2 == 1) != (s.ctx x).prot then .error (0x14, 0)
    else match readHeader s x (field64 b 0x08) with
      | .error e => .error e
      | .ok (h, ovs) =>
        if h.spill && field64 b 0x28 == 0 then .error (0x13, 0)
        else match firstReads s x 0 (recordDeps b) with
          | .error e => .error (0x11, e)
          | .ok met =>
            .ok { State.blankLaunch with
                  ctx := x
                  queue := q
                  index := k.rdidx.toNat
                  hdr := h
                  ovs := ovs
                  prio := max k.prio (bits b 0 1 0)
                  kof := bits b 0 3 3 == 1
                  notify := bits b 0 4 4 == 1
                  args := field64 b 0x10
                  gx := field b 0x20 2
                  gy := field b 0x22 2
                  gz := field b 0x24 2
                  spillBase := field64 b 0x28
                  deps := recordDeps b
                  met := met
                  depRead := ((recordDeps b).zipIdx).foldl (fun m d => match lineRead s x d.1.1 with
                    | some r => m.put d.2 r
                    | none => m) []
                  caddr := field64 b 0x60
                  cval := field64 b 0x68
                  tag := field64 b 0x70
                  kdesc := field64 b 0x08
                  thr := readThresholds s x
                  profBlock := (s.ctx x).profBlock
                  traceQ := (s.ctx x).traceQ }

/-! ## The window (R35) -/

def Launch.total (l : Launch) : Nat := l.gx * l.gy * l.gz

/-- A launch that still has blocks to place. -/
def Launch.unplaced (l : Launch) : Bool := decide (l.next < l.total) && !l.killed && !l.completed

/-- The launches that a queue's records made, in queue order. -/
def queueLaunches (s : State) (q : Nat) : List (Nat × Launch) := s.launches.filter (fun l => l.2.queue == q && l.2.call.isNone)

/-- Every used dependence is met. -/
def Launch.depsMet (l : Launch) : Bool := (List.range l.deps.length).all (fun n => l.met.contains n)

/-- The oldest launch of a queue that is not fully placed becomes ready once its dependences are met; the order in which launches become ready is kept (R35, R54). -/
def markReady (q : Nat) : Prog :=
  .get fun s =>
    match (queueLaunches s q).find? (fun l => l.2.unplaced) with
    | some (n, l) =>
      .when (l.depsMet && l.ready.isNone)
        (.all [ .one (.launch n (fun y => { y with ready := some s.pkg.nextOrder })),
                .one (.pkg (fun g => { g with nextOrder := g.nextOrder + 1 })) ])
    | none => .ret

/-! ## Queue states (R27, R30) -/

def QueueState.code : QueueState → Nat
  | .active => 0
  | .faulted => 1
  | .destroying => 2
  | .destroyed => 3

/-- The front end writes CTRL from its own state.  A fault of its own read or store of WRIDX, RDIDX or CTRL it passes over (DESIGN CHOICE, log 38: R26 is silent on it). -/
def writeCtrl (q : Nat) : Prog :=
  .get fun s =>
    let k := s.queue q
    ctxStore false k.ctx (k.desc + 8) (bytes4 (k.reason * 256 + (if k.kill then 4 else 0) + k.state.code)) .ret (fun _ => .ret)

/-- A fault under R34: an ACTIVE queue enters FAULTED, another keeps its state; REASON is set and QFAULT posted. -/
def faultQueue (q reason : Nat) (info0 info1 : W64) : Prog :=
  .all [ .one (.queue q (fun k => { k with state := if k.state = .active then .faulted else k.state, reason := reason })),
         writeCtrl q,
         notify q 2 reason info0 info1 ]

/-- A queue context that a queue is bound to. -/
def bound (s : State) (q : Nat) : Bool := (s.queues.get? q).isSome

/-- The WRIDX last observed is one that R29 allows. -/
def QueueCtx.valid (k : QueueCtx) : Bool := decide ((k.wridx - k.rdidx).toNat ≤ 2 ^ k.log2n)

/-- The front end observes WRIDX (R26, R29); where its read faults it observes nothing (log 38). -/
def observeWridx (q : Nat) : Prog :=
  .get fun s =>
    let k := s.queue q
    match ctxNat s k.ctx k.desc 8 with
    | .error _ => .ret
    | .ok w =>
      .all [ .one (.queue q (fun k => { k with wridx := BitVec.ofNat 64 w })),
             .get fun s => .when ((s.queue q).state == .active && !(s.queue q).valid)
               (faultQueue q 0x12 (s.queue q).wridx (s.queue q).rdidx) ]

/-- WRIDX_OBSERVE: from the moment the front end acts on a request to destroy the queue it observes no WRIDX any more, so that R31's last observed one is from before (DESIGN CHOICE, log 61). -/
def execWridxObserve (q : Nat) (s : State) : Host.Outcome State Fault Refusal :=
  (Prog.get fun s => .when (bound s q && (s.queue q).state != .destroying) (frontHolds (s.queue q).ctx [((s.queue q).desc, 8)] (observeWridx q))).run s

/-- A context, or its partition, is swapped out (R336). -/
def swappedOut (s : State) (x : Nat) : Bool := (s.ctx x).swapped || s.pkg.partsOut.contains (s.ctx x).part

/-- The next record is at most 16 ahead of the oldest not fully placed (R35). -/
def inWindow (s : State) (q : Nat) : Bool :=
  match (queueLaunches s q).find? (fun l => l.2.unplaced) with
  | some l => decide (((s.queue q).rdidx - BitVec.ofNat 64 l.2.index).toNat ≤ 16)
  | none => true

/-- A record may be taken: the queue is ACTIVE, a record is published, and it lies in the window (R29, R35); not while microcode waits to be installed (R364). -/
def mayTake (s : State) (q : Nat) : Bool :=
  let k := s.queue q
  bound s q && k.state == .active && k.valid && k.wridx != k.rdidx && !swappedOut s k.ctx && s.pkg.microcode.isEmpty
    && inWindow s q

/-- A prefetch into the die code and constant cache; one that faults is dropped (R35). -/
def prefetch (die x : Nat) (need : Need) (a : W64) (n : Nat) : Prog :=
  .get fun s =>
    match ctxRun s x need a n with
    | .error _ => .ret
    | .ok ps => .when (!ps.isEmpty) (.get fun s => .one (.coh (fun c => s.filled (c.useCode die (linesOf ps)))))

/-- What the front end prefetches for a record that is blocked: the header, the overlay table, overlay 0 and the arguments (R35). -/
def prefetchLaunch (die : Nat) (l : Launch) (table : W64) (arglen : Nat) : Prog :=
  .all [ prefetch die l.ctx .read l.kdesc 64, prefetch die l.ctx .read table (16 * l.ovs.length),
         (match l.ovs with
          | o :: _ => prefetch die l.ctx .exec o.base (overlaySize o)
          | [] => .ret),
         prefetch die l.ctx .read l.args arglen ]

/-- The overlay table's address and ARGLEN of the record that a queue is to take. -/
def recordTail (s : State) (q : Nat) : W64 × Nat :=
  let k := s.queue q
  match ctxBytes s k.ctx (k.base + BitVec.ofNat 64 (128 * (k.rdidx.toNat % 2 ^ k.log2n))) 128 with
  | .error _ => (0, 0)
  | .ok b => ((match ctxBytes s k.ctx (field64 b 0x08) 64 with
      | .ok h => overlayTable h
      | .error _ => 0), field b 0x18 4)

/-- The record that a queue is to take, or a dependence word of it, waits for a write of the front end's own (R35, R174). -/
def takeStalls (s : State) (q : Nat) : Bool :=
  let k := s.queue q
  let a := k.base + BitVec.ofNat 64 (128 * (k.rdidx.toNat % 2 ^ k.log2n))
  ctxStalls s k.ctx a 128 || match ctxBytes s k.ctx a 128 with
    | .ok b => ctxStalls s k.ctx (field64 b 0x08) 64 || (recordDeps b).any (fun d => ctxStalls s k.ctx d.1 8)
    | .error _ => false

/-- The dependence words of the record that a queue is to take. -/
def recordWords (s : State) (q : Nat) : List (W64 × Nat) :=
  let k := s.queue q
  match ctxBytes s k.ctx (k.base + BitVec.ofNat 64 (128 * (k.rdidx.toNat % 2 ^ k.log2n))) 128 with
  | .ok b => (recordDeps b).map (fun d => (d.1, 8))
  | .error _ => []

/-- TAKE_RECORD (R34). -/
def execTakeRecord (q : Nat) (s : State) : Host.Outcome State Fault Refusal :=
  (Prog.get fun s =>
    let k := s.queue q
    if !mayTake s q || takeStalls s q then .ret
    else frontHolds k.ctx (recordWords s q) (match readRecord s q with
      | .error (r, a) => faultQueue q r k.rdidx a
      | .ok l =>
        .all [ .one (.launch s.pkg.nextLaunch (fun _ => l)),
               .one (.pkg (fun g => { g with nextLaunch := g.nextLaunch + 1 })),
               .one (.queue q (fun k => { k with rdidx := k.rdidx + 1 })),
               ctxStore true k.ctx (k.desc + 0x40) (bytes8 (k.rdidx + 1)) .ret (fun _ => .ret),
               markReady q,
               .get fun s' => .when (s'.launch s.pkg.nextLaunch).ready.isNone
                 (prefetchLaunch (q / 64 % 4) l (recordTail s q).1 (recordTail s q).2) ])).run s

/-- Read a dependence again, once no write of the front end's own to it is unperformed (R174): a fault leaves it unmet until the queue is ACTIVE (R34, R35). -/
def rereadDep (l n : Nat) : Prog :=
  .get fun s =>
    let x := s.launch l
    match x.deps[n]? with
    | none => .ret
    | some (a, v) =>
      if ctxStalls s x.ctx a 8 then .ret
      else match ctxNat s x.ctx a 8 with
      | .error e =>
        .all [ .one (.launch l (fun y => { y with depHeld := n :: y.depHeld.filter (· != n) })),
               faultQueue x.queue 0x11 (BitVec.ofNat 64 x.index) e ]
      | .ok w =>
        .all [ .one (.launch l (fun y => { y with
                 depHeld := y.depHeld.filter (· != n)
                 depRead := match lineRead s x.ctx a with
                   | some r => y.depRead.put n r
                   | none => y.depRead
                 met := if v.toNat ≤ w then n :: y.met else y.met })),
               markReady x.queue ]

/-- A store to a dependence word's line has been performed since the word was read last (R35). -/
def lineStored (s : State) (r : Nat × Nat) : Bool := s.hist.any (fun h => decide (h.word < 2 ^ 48) && h.word / 64 == r.1 && decide (r.2 ≤ h.stamp))

/-- DEPENDENCE_REREAD (R35): an unmet dependence is read again once a store to its line is observed, and one whose re-read faulted only while the queue is ACTIVE. -/
def execDependenceReread (l n : Nat) (s : State) : Host.Outcome State Fault Refusal :=
  (Prog.get fun s =>
    let x := s.launch l
    .when ((s.launches.get? l).isSome && x.unplaced && !x.met.contains n && ((x.depRead.get? n).map (lineStored s)).getD false
        && (!x.depHeld.contains n || (s.queue x.queue).state == .active))
      (frontHolds x.ctx ((x.deps[n]?).toList.map (fun d => (d.1, 8))) (rereadDep l n))).run s

/-- The word of CTRL in physical memory. -/
def ctrlWord (s : State) (q : Nat) : Option Nat :=
  match ctxRun s (s.queue q).ctx .read ((s.queue q).desc + 8) 4 with
  | .ok ((pa, _) :: _) => some (pa / 4)
  | _ => none

/-- Writes of a word with the values that they left, newest first: each write's value is what the next one replaced. -/
def withValues : W32 → List HistWord → List (HistWord × W32)
  | _, [] => []
  | v, h :: hs => (h, v) :: withValues h.old hs

/-- The oldest store to CTRL by another agent that the front end has not acted on: its stamp and its value (R26, R30). -/
def ctrlStore (s : State) (q : Nat) : Option (Nat × Nat) :=
  match ctrlWord s q with
  | none => none
  | some w =>
    let hs := withValues (BitVec.ofNat 32 (readNat s (4 * w) 4)) (s.hist.filter (fun h => h.word == w))
    ((hs.reverse.find? (fun h => h.1.path != .front (s.queue q).ctx && decide ((s.queue q).ctrlSeen ≤ h.1.stamp)))).map (fun h => (h.1.stamp, h.2.toNat))

/-- What a store to CTRL comes to. -/
inductive CtrlAct where
  | resume (kill : Bool)
  | destroy (kill : Bool)
  /-- No change that the table lists: CTRL is written again. -/
  | none (kill : Bool)
  deriving DecidableEq, Repr

/-- R30's table; KILL is the producer's in a store that keeps STATE or resumes the queue, REASON never is (R27, log 16). -/
def ctrlAct (k : QueueCtx) (v : Nat) : CtrlAct :=
  let kill := v / 4 % 2 == 1
  match k.state, v % 4 with
  | .faulted, 0 => .resume kill
  | .active, 2 => .destroy kill
  | .faulted, 2 => .destroy kill
  | st, n => .none (if n = st.code then kill else k.kill)

/-- Act on the oldest store to CTRL, where it comes to this. -/
def onCtrl (q : Nat) (act : CtrlAct → Option Prog) : Prog :=
  .get fun s =>
    match ctrlStore s q with
    | none => .ret
    | some (n, v) =>
      match act (ctrlAct (s.queue q) v) with
      | none => .ret
      | some p => .when (bound s q) (frontHolds (s.queue q).ctx [((s.queue q).desc + 8, 4)]
          ((Prog.one (.queue q (fun k => { k with ctrlSeen := n + 1 }))).seq p))

/-- Dependences whose re-read faulted are read again, while the queue is ACTIVE (R30). -/
def rereadHeld (q : Nat) (ds : List (Nat × Nat)) : Prog :=
  .each ds (fun d => .get fun s => .when ((s.queue q).state == .active) (rereadDep d.1 d.2))

/-- QUEUE_RESUME: the producer wrote ACTIVE to a FAULTED queue; dependences whose re-read faulted are read again, and WRIDX is looked at again (R30, R34). -/
def execQueueResume (q : Nat) (s : State) : Host.Outcome State Fault Refusal :=
  (onCtrl q (fun a => match a with
    | .resume kill => some (.all [ .one (.queue q (fun k => { k with state := .active, reason := 0, kill := kill })),
        writeCtrl q,
        .get fun s => rereadHeld q (((queueLaunches s q).filter (fun l => l.2.unplaced)).flatMap (fun l => l.2.depHeld.map (fun n => (l.1, n)))),
        .get fun s => .when ((s.queue q).state == .active) (observeWridx q) ])
    | _ => none)).run s

/-- Kill the placed blocks of a queue's launches (R31). -/
def killQueue (q : Nat) : Prog :=
  .get fun s => condemn (fun b => (s.launch b.launch).queue == q && (s.launch b.launch).call.isNone)

/-- The destroy sequence begins (R31): no further block of the queue is placed; REASON stays the front end's own. -/
def beginDestroy (q : Nat) (kill : Bool) (endval : W64) : Prog :=
  .all [ .one (.queue q (fun k => { k with state := .destroying, kill := kill, endval := endval })),
         writeCtrl q,
         .when kill (killQueue q) ]

/-- QUEUE_DESTROY: the producer wrote DESTROYING (R30, R31). -/
def execQueueDestroy (q : Nat) (s : State) : Host.Outcome State Fault Refusal :=
  (onCtrl q (fun a => match a with
    | .destroy kill => some (beginDestroy q kill (-1))
    | _ => none)).run s

/-- CTRL_REJECT: a store that asks for no change of the table has no effect but on KILL, and CTRL is written again (R27, R30). -/
def execCtrlReject (q : Nat) (s : State) : Host.Outcome State Fault Refusal :=
  (onCtrl q (fun a => match a with
    | .none kill => some ((Prog.one (.queue q (fun k => { k with kill := kill }))).seq (writeCtrl q))
    | _ => none)).run s

/-! ## The end of a destroy sequence (R31) -/

/-- The completion address of a record not taken, from its slot. -/
def slotCaddr (s : State) (q : Nat) (i : W64) : Except W64 W64 :=
  let k := s.queue q
  (ctxNat s k.ctx (k.base + BitVec.ofNat 64 (128 * (i.toNat % 2 ^ k.log2n)) + 0x60) 8).map (BitVec.ofNat 64)

/-- Write the completion value to each record's word, in order; `k` receives the number skipped and counted. -/
def endWords (q : Nat) : List (Except W64 W64) → Nat → (Nat → Prog) → Prog
  | [], n, k => k n
  | a :: rest, n, k =>
    match a with
    | .error _ => endWords q rest (n + 1) k
    | .ok c =>
      if c = 0 then endWords q rest n k
      else .get fun s =>
        ctxStore true (s.queue q).ctx c (bytes8 (s.queue q).endval) (endWords q rest n k) (fun _ => endWords q rest (n + 1) k)

/-- The records taken or published that have not completed, in index order, by completion address. -/
def openWords (s : State) (q : Nat) : List (Except W64 W64) :=
  let k := s.queue q
  let n := min ((k.wridx - k.rdidx).toNat) (2 ^ k.log2n)
  ((queueLaunches s q).filter (fun l => !l.2.completed)).map (fun l => .ok l.2.caddr)
    ++ (List.range n).map (fun i => slotCaddr s q (k.rdidx + BitVec.ofNat 64 i))

/-- A launch of which nothing more will run but whose own completion (R36) is still to come. -/
def Launch.ending (l : Launch) : Bool := !l.completed && (l.killed || l.retired == l.total)

/-- A block of one of a queue's own launches. -/
def queueHasBlocks (s : State) (q : Nat) : Bool :=
  s.blocks.any (fun b => (s.launch b.2.launch).queue == q && (s.launch b.2.launch).call.isNone)

/-- DESTROY_COMPLETE (R31 steps 3 and 4). -/
def execDestroyComplete (q : Nat) (s : State) : Host.Outcome State Fault Refusal :=
  (Prog.get fun s =>
    if !(bound s q && (s.queue q).state == .destroying) || queueHasBlocks s q
        || (s.ctx (s.queue q).ctx).resetCode != 0 || (queueLaunches s q).any (fun l => l.2.ending) then .ret
    else endWords q (openWords s q) 0 fun n =>
      .all [ .one (.queue q (fun k => { k with state := .destroyed })),
             writeCtrl q,
             notify q 3 0 (BitVec.ofNat 64 n) 0,
             .each (queueLaunches s q) (fun l => .one (.dropLaunch l.1)),
             .one (.dropQueue q) ]).run s

/-! ## Completion (R36, R347) -/

/-- The FP event counts of a launch as profile fields. -/
def fevFields (l : Launch) : List (Nat × Nat) := (List.range 28).map (fun n => (0x40 + 8 * n, l.fev.getD n 0))

/-- The completion store covers every write of the launch's retired blocks: who acquires it sees them (R238). -/
def coverBlocks (blks : List Nat) : Prog :=
  .get fun s =>
    .when (s.hist.any (fun h => blks.contains h.blk))
      (.one (.hist (fun hs => hs.map (fun h => if blks.contains h.blk then { h with cover := true, pub := true, hb := true } else h))))

/-- The 768 bytes of a migration record (R308). -/
def recordBytes (kind : Nat) (sq token target raddr : W64) (width : Nat) (msum : W32) (g : List W64) (mask : LaneMask) : List Byte :=
  bytes4 kind ++ bytes4 0 ++ bytes8 sq ++ bytes8 token ++ bytes8 target ++ bytes8 raddr ++ bytes4 width ++ bytes4 msum.toNat ++ leBytes 16 0
    ++ (List.range 64).flatMap (fun i => bytes8 (if i = 0 then 0 else g.getD i 0)) ++ leBytes 128 mask.toNat ++ leBytes 64 0

/-- The migration record that answers a hart whose call ended without a return: HRETURN with TARGET 0 (R313). -/
def hreturnZero (x width : Nat) (token : W64) (g : List W64) : Prog :=
  .get fun s =>
    let a := (s.ctx x).hostLanding
    let q := BitVec.ofNat 64 s.seq
    let bs := recordBytes 4 q token 0 0 width 0 g 0
    .upd .drawSeq
      (match readDesc s x a with
       | .error _ => .ret
       | .ok d => .when d.ok (ctxStore false x (d.slot 0x300) bs (ctxStore true x a (bytes8 (d.pidx + 1)) .ret (fun _ => .ret)) (fun _ => .ret)))

/-- A queue's descriptor has no write to it under way. -/
def descQuiet (s : State) (x : Nat) (a : W64) : Bool :=
  match ctxRun s x .read a 64 with
  | .ok ps => !anyStalls s ps
  | .error _ => true

/-- The host landing queue of a context has a free slot, or is not valid (log 32) or cannot be read, so that nothing is posted. -/
def hostSlotFree (s : State) (x : Nat) : Bool :=
  descQuiet s x (s.ctx x).hostLanding && match readDesc s x (s.ctx x).hostLanding with
    | .error _ => true
    | .ok d => !d.ok || !d.full

/-- LAUNCH_COMPLETE (R36, R347): the totals, then the completion store, then LAUNCHDONE; or the end of a killed launch, which does not wait for blocks that another launch's block has withdrawn from it (DESIGN CHOICE, log 66). -/
def execLaunchComplete (l : Nat) (s : State) : Host.Outcome State Fault Refusal :=
  (Prog.get fun s =>
    let x := s.launch l
    let index := BitVec.ofNat 64 x.index
    let mark := Prog.one (.launch l (fun y => { y with completed := true }))
    let gone := !s.blocks.any (fun b => b.2.launch == l)
    if (s.launches.get? l).isNone || x.completed || !gone || (s.ctx x.ctx).resetCode != 0 then .ret
    else if x.killed then
      (match x.call with
       | some (_, g) =>
         if !hostSlotFree s x.ctx then .ret
         else .all [ notify x.queue 2 0x15 x.faultSeq x.tag, hreturnZero x.ctx x.hdr.width x.token g, .one (.dropLaunch l) ]
       | none =>
         let after := fun (p : Prog) => Prog.all [ faultQueue x.queue 0x15 x.faultSeq x.tag, p, mark, markReady x.queue ]
         if x.caddr = 0 then after .ret
         else ctxStore true x.ctx x.caddr (bytes8 (-2)) (after .ret) (fun e => after (faultQueue x.queue 0x16 index e)))
    else if x.retired ≠ x.total then .ret
    else match x.call with
      | some _ => .all [ profileAdd x.ctx x.profBlock (fevFields x), .one (.dropLaunch l) ]
      | none =>
        let done' := Prog.all [ .when x.notify (notify x.queue 1 0 index x.tag), mark ]
        .all [ profileAdd x.ctx x.profBlock (fevFields x),
               coverBlocks x.blks,
               if x.caddr = 0 then done'
               else ctxStore true x.ctx x.caddr (bytes8 x.cval) done' (fun e => (faultQueue x.queue 0x16 index e).seq done') ]).run s

end Sys2Proof.Machine
end

