-- ==== Sys2Proof/Machine/Term.lean ====
section
/-! DEFINITION. The arithmetic and the timing of the term array (R240 to R254, R162). -/

namespace Sys2Proof.Machine

/-! ## Recoding (R244 to R246) -/

/-- The non-adjacent form of a number, as places of its digits with their signs; places count from p. -/
def naf : Nat → Nat → Nat → List (Bool × Nat)
  | 0, _, _ => []
  | fuel + 1, n, p =>
    if n = 0 then []
    else if n % 2 = 0 then naf fuel (n / 2) (p + 1)
    else if n % 4 = 1 then (false, p) :: naf fuel (n / 2) (p + 1)
    else (true, p) :: naf fuel (n / 2 + 1) (p + 1)

/-- The terms of a weight: none, a marker of its class, or signed powers of two. -/
inductive Weight where
  | zero
  | markNan
  | markInf (neg : Bool)
  | terms (ts : List (Bool × Int))
  deriving DecidableEq, Repr

/-- Recode a value. -/
def recode : Fp.Num → Weight
  | .nan _ => .markNan
  | .inf s => .markInf s
  | .fin s m e => if m = 0 then .zero else .terms ((naf (m.log2 + 2) m 0).map (fun d => (s != d.1, e + d.2)))

/-- Its term count (R245). -/
def Weight.count : Weight → Nat
  | .zero => 0
  | .markNan | .markInf _ => 1
  | .terms ts => ts.length

/-! ## Values in the slices and in the operand buffer (R241, R242, R260) -/

/-- A slice row holds what a record of the context wrote (R242). -/
def rowCovered (c : Core) (ctx col row : Nat) : Bool :=
  ((c.sources.get? col).getD []).any (fun r => r.ctx == ctx && decide (r.row ≤ row) && decide (row < r.row + r.rows))

/-- Bytes of a column's slice, little-endian. -/
def sliceNat (c : Core) (col row off n : Nat) : Nat := leNat (Sparse.run c.slices (32 * (1024 * col + row) + off) n)

/-- An element of a format, e2m1x codes by nibble. -/
def elemValue (f side x : Nat) : Fp.Num :=
  if f = 4 then Fp.ofInt (signedOf 8 x) else if f = 14 then blockValue side x else (Fp.ofCode f).decode x

/-- Weight k of a column under a panel record. -/
def weightAt (c : Core) (ctx : Nat) (pan : W64) (col k : Nat) : Weight :=
  if panK pan ≤ k then .zero
  else
    let f := recFmt pan
    let bit := k * elemBits f
    let row := panRow pan + bit / 256
    if !rowCovered c ctx col row then .zero
    else if f = 14 then
      let q := k / blockLen pan
      let srow := panSideRow pan + 2 * q / 32
      if !rowCovered c ctx col srow then .zero
      else recode (elemValue 14 (sliceNat c col srow (2 * q % 32) 2) (sliceNat c col row (bit % 256 / 8) 1 / 2 ^ (bit % 8) % 16))
    else recode (elemValue f 0 (sliceNat c col row (bit % 256 / 8) (elemBits f / 8)))

/-- The 128 weights of a column's chunk; a position at or past K holds a zero weight (R267). -/
def chunkWeights (c : Core) (ctx : Nat) (pan d : W64) (col ch : Nat) : List Weight :=
  (List.range 128).map (fun i => if 128 * ch + i < dimK d then weightAt c ctx pan col (128 * ch + i) else .zero)

/-- Element k of A row m, from the bytes of the operand buffer as its reader finds them. -/
def aValue (ob : Nat → Nat → List Byte) (res : W64) (m k : Nat) : Fp.Num :=
  let f := recFmt res
  let at? := fun (off n : Nat) => leNat (ob (obByte res off) n)
  if f = 14 then
    elemValue 14 (at? (rrSide res + 16 * rrSidePitch res * m + 2 * (k / blockLen res)) 2)
      (at? (64 * rrPitch res * m + k / 2) 1 / 2 ^ (4 * (k % 2)) % 16)
  else elemValue f 0 (at? (64 * rrPitch res * m + k * (elemBits f / 8)) (elemBits f / 8))

/-! ## The chunk value (R251, R252) -/

/-- What one weight and one A element give to a chunk. -/
inductive Part where
  | nan
  | inf (neg : Bool)
  | prod (neg : Bool) (m : Nat) (e : Int)
  deriving DecidableEq, Repr

/-- The products of a weight with an A element (R251). -/
def partsOf (w : Weight) (a : Fp.Num) : List Part :=
  match w, a with
  | .zero, _ => []
  | .markNan, _ => [.nan]
  | _, .nan _ => [.nan]
  | .markInf s, .inf t => [.inf (s != t)]
  | .markInf s, .fin t m _ => if m = 0 then [.nan] else [.inf (s != t)]
  | .terms ts, .inf t => ts.map (fun x => .inf (x.1 != t))
  | .terms ts, .fin t m e => if m = 0 then [] else ts.map (fun x => .prod (x.1 != t) m (e + x.2))

/-- The exponent of the largest product. -/
def topExp (ps : List Part) : Option Int :=
  ps.foldl (fun o p => match p with
    | .prod _ m e => (let x := (m.log2 : Int) + e
      match o with
      | some y => some (max x y)
      | none => some x)
    | _ => o) none

/-- A product truncated toward zero to a multiple of 2^q, as a signed multiple. -/
def truncated (q : Int) : Part → Int
  | .prod s m e =>
    let n : Int := (if q ≤ e then m <<< (e - q).toNat else m >>> (q - e).toNat : Nat)
    if s then -n else n
  | _ => 0

/-- The chunk value of f32 mode, with the events of its rounding. -/
def chunkValue (ps : List Part) : Fp.Res :=
  let infs := fun (s : Bool) => ps.any (fun p => p == .inf s)
  if ps.contains .nan || (infs true && infs false) then Fp.nanRes Fp.f32
  else if infs true then ⟨Fp.f32.infinity true, []⟩
  else if infs false then ⟨Fp.f32.infinity false, []⟩
  else match topExp ps with
    | none => ⟨0, []⟩
    | some top =>
      let x := (ps.map (truncated (top - 80))).sum
      if x = 0 then ⟨0, []⟩ else Fp.round Fp.f32 .rne (decide (x < 0)) x.natAbs (top - 80) false

/-- The update of an f32 accumulator by a chunk (R253): each event counts at most once. -/
def updateF32 (acc : Nat) (ps : List Part) : Nat × List Nat :=
  let c := chunkValue ps
  let r := Fp.deliver Fp.f32 .rne (Fp.add .rne (Fp.f32.decode acc) (Fp.f32.decode c.bits))
  (r.bits, eventNums 8 (c.ev ++ r.ev).eraseDups)

/-- The exact integer of a weight's and an element's product (R254). -/
def intProduct (w : Weight) (a : Fp.Num) : Int :=
  match w, a with
  | .terms ts, .fin s m _ =>
    let x : Int := (ts.map (fun t => (if t.1 then -(2 ^ t.2.toNat : Int) else (2 ^ t.2.toNat : Int)))).sum
    x * (if s then -(m : Int) else m)
  | _, _ => 0

/-- The update of an i32 accumulator by a chunk (R254). -/
def updateI32 (acc : Nat) (sat : Bool) (c : Int) : Nat :=
  let x := signedOf 32 acc + c
  let y := if sat then max (-(2 ^ 31 : Int)) (min (2 ^ 31 - 1) x) else x
  (BitVec.ofInt 32 y).toNat

/-! ## A group's chunk (R247, R253, R258) -/

/-- Chunks of an MMA. -/
def chunks (d : W64) : Nat := (dimK d + 127) / 128

/-- The columns of a group with their weights of a chunk. -/
def groupWeights (c : Core) (ctx : Nat) (pan d : W64) (g ch : Nat) : List (List Weight) :=
  (List.range 8).map (fun j => chunkWeights c ctx pan d (8 * g + j) ch)

/-- T(c, g) (R247). -/
def longest (ws : List (List Weight)) : Nat := (ws.flatten.map Weight.count).foldl max 1

/-- What a chunk adds to TERMUSED, TERMSTEPS and GROUPWAIT (R258). -/
def chunkTerms (m : Nat) (ws : List (List Weight)) : List Nat :=
  let sum := (ws.flatten.map Weight.count).sum
  let t := longest ws
  [m * sum, m * t, m * (1024 * t - sum)]

/-- The accumulator words of a group's chunk after its update, by tile word, with event counts. -/
def chunkUpdate (ob : Nat → Nat → List Byte) (tile : Nat) (flags : BitVec 2) (d res : W64) (g ch : Nat) (ws : List (List Weight)) (acc : Nat → W32) :
    List (Nat × W32) × List Nat :=
  let rows := (List.range (dimM d)).map (fun m =>
    (m, (List.range 128).map (fun i => if 128 * ch + i < dimK d then aValue ob res m (128 * ch + i) else .fin false 0 0)))
  let cells := rows.flatMap (fun (m, xs) => (List.range 8).map (fun j =>
    let w := 4096 * (tile + m / 16) + 256 * (m % 16) + 8 * g + j
    let col := ws.getD j []
    let old := (acc w).toNat
    if flags.getLsbD 0 then
      (w, updateI32 old (flags.getLsbD 1) ((List.zip col xs).map (fun x => intProduct x.1 x.2)).sum, [])
    else
      let r := updateF32 old ((List.zip col xs).flatMap (fun x => partsOf x.1 x.2))
      (w, r.1, r.2)))
  (cells.map (fun c => (c.1, BitVec.ofNat 32 c.2.1)), cells.flatMap (fun c => c.2.2))

/-! ## Time (R162, R243, R249) -/

/-- f for a row and a chunk: the most distinct operand-buffer rows that one bank delivers (R162). -/
def fetchCycles (res d : W64) (m ch : Nat) : Nat :=
  let f := recFmt res
  let ks := (List.range 128).filterMap (fun i => if 128 * ch + i < dimK d then some (128 * ch + i) else none)
  let elems := ks.flatMap (fun k => (let a := 64 * rrPitch res * m + k * elemBits f / 8
    [a / 64, (a + (elemBits f + 7) / 8 - 1) / 64]))
  let sides := if f = 14 then ks.map (fun k => (rrSide res + 16 * rrSidePitch res * m + 2 * (k / blockLen res)) / 64) else []
  let rows := (elems ++ sides).eraseDups
  ((List.range 16).map (fun b => (rows.filter (fun r => r % 16 == b)).length)).foldl max 1

/-- ρ of a chunk: distinct slice rows that hold its weights and side words (R243). -/
def sliceRows (pan d : W64) (ch : Nat) : Nat :=
  let f := recFmt pan
  let ks := (List.range 128).filterMap (fun i =>
    if 128 * ch + i < dimK d ∧ 128 * ch + i < panK pan then some (128 * ch + i) else none)
  let rows := ks.map (fun k => panRow pan + k * elemBits f / 256)
  let sides := if f = 14 then ks.map (fun k => panSideRow pan + 2 * (k / blockLen pan) / 32) else []
  (rows ++ sides).eraseDups.length

/-- The state of the schedule of R249: for each active group the end of its last step and the beginning of its current chunk, and the latest beginnings of the last 64 steps, newest first. -/
structure Sched where
  groups : List (Nat × Nat)
  begins : List Nat

/-- One step of every group: `first` at row 0 of a chunk, `start` at step 0. -/
def schedStep (start first : Bool) (rho f : Nat) (ts : List Nat) (x : Sched) : Sched :=
  let drift := x.begins.getD 63 0
  let begin? := fun (e c : Nat) => if start then 16 else max e (max (if first then c + rho else 0) drift)
  let gs := x.groups.mapIdx (fun i (e, c) => (begin? e c + max (ts.getD i 1) f, if first then begin? e c else c))
  let latest := (x.groups.map (fun g => begin? g.1 g.2)).foldl max 0
  { groups := gs, begins := (latest :: x.begins).take 64 }

/-- The cycles of an MMA (R249), from T of its chunks by 32 chunk + group; one not known yet counts as 1. -/
def mmaCycles (times : KMap Nat) (d res pan : W64) : Nat :=
  let gs := (List.range 32).filter (fun g => d.getLsbD (32 + g))
  if gs.isEmpty then 0
  else
    let x := (List.range (chunks d)).foldl (fun x ch =>
      let ts := gs.map (fun g => (times.get? (32 * ch + g)).getD 1)
      let rho := sliceRows pan d ch
      (List.range (dimM d)).foldl (fun x m =>
        schedStep (ch == 0 && m == 0) (m == 0) rho (fetchCycles res d m ch) ts x) x)
      ({ groups := gs.map (fun _ => (0, 0)), begins := [] } : Sched)
    8 + (x.groups.map Prod.fst).foldl max 0

end Sys2Proof.Machine
end

