-- ==== Sys2Proof/Machine/MatrixRun.lean ====
section
/-! DEFINITION. The matrix engine: starts, chunk writes, completions and slice reloads (R163, R250, R253, R256 to R259, R265 to R271). -/

namespace Sys2Proof.Machine

/-! ## The queue -/

/-- Entry n of a core's matrix queue. -/
def entryAt (s : State) (c n : Nat) : Option MatrixEntry := (s.core c).queue[n]?

/-- Replace entry n. -/
def setEntry (c n : Nat) (f : MatrixEntry → MatrixEntry) : Prog :=
  .one (.core c (fun x => { x with queue := x.queue.modify n f }))

/-- Entry n leaves the queue. -/
def dropEntry (c n : Nat) : Prog := .one (.core c (fun x => { x with queue := x.queue.eraseIdx n }))

/-- The column groups an MMA runs. -/
def activeGroups (d : W64) : List Nat := (List.range 32).filter (fun g => d.getLsbD (32 + g))

/-- Every active group of a started array-port instruction has finished stepping its last chunk (R250). -/
def MatrixEntry.stepped (e : MatrixEntry) : Bool :=
  match e.op with
  | .mma _ _ _ _ d _ _ => (activeGroups d).all (fun g => decide (2 * chunks d ≤ e.steps.getD g 0))
  | _ => false

/-- A lane batch before the entry still holds an LDT that may read one of these tiles (R163). -/
def ldtBefore (t : Team) (e : MatrixEntry) (tiles : List Nat) : Bool :=
  (t.lanes.take e.behind).any (fun b => b.left.any (fun i => match i with
    | .ldt o => tiles.any (fun x => decide (o.imm.toNat % 32 ≤ x) && decide (x < o.imm.toNat % 32 + 16))
    | _ => false))

/-- The block of a team is placed: its matrix instructions start, and their groups begin chunks (R257, R275). -/
def blockPlaced (s : State) (t : Nat) : Bool :=
  match s.teams.get? t with
  | some m => (s.block m.blk).phase == .placed
  | none => false

/-- The block of a team runs, or comes to its stop: what has begun goes on to its end (R257, R275). -/
def blockRuns (s : State) (t : Nat) : Bool :=
  match s.teams.get? t with
  | some m => (s.block m.blk).phase == .placed || (s.block m.blk).phase == .stopping
  | none => false

/-- The matrix engine goes on with what it has begun for a team: its block runs, comes to its stop, or is to be killed; under a reset of the context drains write nothing more (R257, R275, R341, R343). -/
def engineEnds (s : State) (e : MatrixEntry) : Bool :=
  match s.teams.get? e.team with
  | some m =>
    (match (s.block m.blk).phase with
     | .killed false => !e.op.isDrain || (s.ctx (s.block m.blk).ctx).resetCode == 0
     | .placed => true
     | .stopping => true
     | _ => false)
  | none => false

/-- Instructions on the tiles of an entry that started before it have written group g, or every group: each MMA is applied whole to each element (R271). -/
def olderWritten (s : State) (c : Nat) (e : MatrixEntry) (g : Option Nat) : Bool :=
  (s.core c).queue.all (fun x => !x.started || decide (e.since ≤ x.since) || (s.team x.team).blk != (s.team e.team).blk
    || !x.op.tiles.any e.op.tiles.contains
    || (match x.op with
        | .mma _ _ _ _ d _ _ => (activeGroups d).all (fun h => (g.isSome && g != some h) || decide (chunks d ≤ x.next.getD h 0))
        | _ => false))

/-- A column that an instruction reads is being reloaded (R256). -/
def MatrixOp.reloading (c : Core) : MatrixOp → Bool
  | .mma _ _ _ _ d _ _ => c.reloads.any (fun r => d.getLsbD (32 + r.1 / 8))
  | _ => false

/-- Entry n can start (R163, R250, R265, R271). -/
def canStart (s : State) (c n : Nat) : Bool :=
  match entryAt s c n with
  | none => false
  | some e =>
    let before := (s.core c).queue.take n
    let tiles := e.op.tiles
    let mine := before.filter (fun x => x.team == e.team)
    let clash := mine.any (fun x => x.op.tiles.any tiles.contains)
      || (e.spec && (s.core c).queue.any (fun x => x.started && (s.team x.team).blk == (s.team e.team).blk && x.op.tiles.any tiles.contains))
    let running := (s.core c).queue.filter (fun x => x.started && x.op.isDrain == e.op.isDrain)
    let port := if e.op.isDrain then running.isEmpty else running.all MatrixEntry.stepped
    !e.started && e.faultAt.isNone && blockPlaced s e.team && mine.all (·.started) && !clash && port && !ldtBefore (s.team e.team) e tiles
      && !e.op.reloading (s.core c)

/-- The order in which the queue takes instructions: effective priority, then round-robin from the slot after the one that it took from last (R271). -/
def startKey (s : State) (c : Nat) (e : MatrixEntry) : Nat :=
  32 * (s.launchOf e.team).prio + (slotOf e.team + 31 - (s.core c).matrixTurn % 32) % 32

/-- Entry n is the one that the queue takes next: the head (R250, R271). -/
def isHead (s : State) (c n : Nat) : Bool :=
  canStart s c n && (List.range (s.core c).queue.length).all (fun k => !canStart s c k
    || (match entryAt s c n, entryAt s c k with
        | some e, some x => decide (startKey s c e ≤ startKey s c x)
        | _, _ => true))

/-- The queue has taken an instruction of a team. -/
def took (c t : Nat) : Prog := .one (.core c (fun x => { x with matrixTurn := slotOf t }))

/-! ## Tiles and proof tiles (R273) -/

/-- The words of a live tile, moved to 0. -/
def liveTile (b : Block) (tile : Nat) : Sparse 32 := Sparse.slice b.tiles (4096 * tile) 4096

/-- Give a team's speculation a proof tile for each of these tiles that it does not shadow. -/
def shadow (t : Nat) (tiles : List Nat) : Prog :=
  .get fun s =>
    let b := s.blockOf t
    .one (.team t (fun m => { m with spec := m.spec.map (fun p =>
      { p with tiles := tiles.foldl (fun z x => if (z.get? x).isSome then z else z.put x (liveTile b x)) p.tiles }) }))

/-- The accumulator word at 4096 tile + 256 row + column that an entry reads. -/
def accOf (s : State) (e : MatrixEntry) (w : Nat) : W32 :=
  match e.spec, (s.team e.team).spec with
  | true, some p => Sparse.get ((p.tiles.get? (w / 4096)).getD []) (w % 4096)
  | _, _ => Sparse.get (s.blockOf e.team).tiles w

/-- A run of tile words is cleared. -/
def clearTile (t : Nat) (slots : List Nat) (at? n : Nat) : Prog :=
  .get fun s => writeTiles t slots ((Sparse.slice (s.blockOf t).tiles at? n).map (fun e => (at? + e.1, 0)))

/-- The tag of an entry's writes in the memory order. -/
def MatrixEntry.tag (e : MatrixEntry) : Nat :=
  match e.group with
  | none => openTag e.team
  | some w => groupTag e.team w

/-- Write accumulator words of an entry: to proof tiles while it is speculative. -/
def writeAcc (e : MatrixEntry) (ws : List (Nat × W32)) : Prog :=
  if e.spec then
    .one (.team e.team (fun m => { m with spec := m.spec.map (fun p =>
      { p with tiles := ws.foldl (fun z x => z.put (x.1 / 4096) (Sparse.set ((z.get? (x.1 / 4096)).getD []) (x.1 % 4096) x.2)) p.tiles }) }))
  else writeTiles e.team [e.tag] ws

/-- The tile writes of an instruction that has completed are ordered with its team's later LDTs (R163). -/
def showTiles (e : MatrixEntry) : Prog :=
  .get fun s =>
    let lo := fun (x : Nat) => (Place.tile (s.team e.team).blk).word (16384 * x)
    let mine := fun (h : HistWord) => h.path == .matrix e.team && e.op.tiles.any (fun x => decide (lo x ≤ h.word) && decide (h.word < lo x + 4096))
    .when (s.hist.any mine) (.one (.hist (fun hs => hs.map (fun h => if mine h then h.show [.team e.team] else h))))

/-! ## MATRIX_START -/

/-- A drain translates its destinations again before it reads any accumulator; a fault makes it wait, having performed nothing (R269). -/
def startDrain (c n : Nat) (e : MatrixEntry) (r : List Byte) (res : W64) : Prog :=
  .get fun s =>
    match drainPlans s e.team r (some res) with
    | .ok (x, y) =>
      .all [ noteTlb (s.spaceOf e.team) (x.used ++ y.used), took c e.team,
             setEntry c n (fun e => { e with started := true, spots := x.pieces, amaxAt := y.pieces }) ]
    | .error (.page _ va) => pageFault e.team 4 va (fun h => setEntry c n (fun e => { e with faultAt := if h = 1024 then none else some h }))
    | .error (.trap _ _) => .ret

/-- An MMA starts, each group at its next chunk; one with an empty column-group mask completes as it starts (R267). -/
def startMma (c n : Nat) (e : MatrixEntry) (d : W64) : Prog :=
  .get fun s =>
    if d.toNat / 2 ^ 32 = 0 then (took c e.team).seq (dropEntry c n)
    else
      let overlap := (s.core c).queue.any (fun x => x.team == e.team && x.started && !x.op.isDrain)
      let next := if e.next.isEmpty then (List.range 32).map (fun g => if d.getLsbD (32 + g) then 0 else chunks d) else e.next
      .all [ took c e.team,
             .when e.spec (shadow e.team e.op.tiles),
             setEntry c n (fun e => { e with started := true, since := s.clock, next := next, steps := next.map (2 * ·), overlap := overlap }) ]

/-- MATRIX_START: the next instruction of the core's matrix queue starts (R250, R271); one that is not the next stays. -/
def startEntry (c n : Nat) : Prog :=
  .get fun s =>
    match entryAt s c n with
    | none => .ret
    | some e =>
      if !isHead s c n then .ret
      else match e.op with
        | .mdrain _ r res => startDrain c n e r res
        | .mma _ _ _ _ d _ _ => startMma c n e d
        | .mzero _ _ => .all [ took c e.team, .when e.spec (shadow e.team e.op.tiles), setEntry c n (fun e => { e with started := true, since := s.clock }) ]

def execMatrixStart (c n : Nat) (s : State) : Host.Outcome State Fault Refusal := (startEntry c n).run s

/-! ## Stepping (R247, R248, R257) -/

/-- Steps that a group has begun at most, by its stepping state. -/
def begun (m p : Nat) : Nat := m * ((p + 1) / 2)

/-- A group may begin the steps of its next chunk, or end those of the chunk it is in: every active group has begun the step 64 before (R248). -/
def mayStep (e : MatrixEntry) (d : W64) (g : Nat) : Bool :=
  let p := e.steps.getD g 0
  let m := dimM d
  d.getLsbD (32 + g) && decide (p < 2 * chunks d)
    && (activeGroups d).all (fun h => decide (m * (p / 2) + (if p % 2 = 0 then 1 else m) ≤ begun m (e.steps.getD h 0) + 64))

/-- What MMACYC takes of a running MMA's cycles before its end: some of those that its schedule gives at least, and with a replay, a reload or a stop any number (R258, R259). -/
def countCycles (c n : Nat) (e : MatrixEntry) (d res pan : W64) : Prog :=
  .get fun s =>
    let free := (Config.freeWord s.fresh).toNat % 2 ^ 32
    let k := if e.disturbed then free else free % (mmaCycles e.times d res pan - 8 - e.counted + 1)
    .when (!e.spec) (.all [ .one .drawFree, addTerms e.team [0, 0, 0, k], setEntry c n (fun e => { e with counted := e.counted + k }) ])

/-- A group of a running MMA steps on: it begins its next chunk, unless its block comes to a stop or a slice of the MMA is reloaded, or ends the one it is in; at a stop the chunk ends however far another group, which begins no further one, is behind (R257). -/
def stepGroup (c n g : Nat) : Prog :=
  .get fun s =>
    match entryAt s c n with
    | some e =>
      (match e.op with
       | .mma _ _ _ _ d res pan =>
         let p := e.steps.getD g 0
         let stops := !blockPlaced s e.team
         let terms := (chunkTerms (dimM d) (groupWeights (s.core c) (s.blockOf e.team).ctx pan d g (p / 2))).getD 0 0
         if !e.started || !engineEnds s e || !(mayStep e d g || (stops && p % 2 == 1 && d.getLsbD (32 + g)))
             || (p % 2 == 0 && (stops || e.op.reloading (s.core c))) then .ret
         else .all [ countCycles c n e d res pan,
                     .when (e.spec && p % 2 == 0) (setEntry c n (fun e => { e with begunTerms := e.begunTerms.put (32 * (p / 2) + g) terms })),
                     setEntry c n (fun e => { e with steps := e.steps.set g (p + 1) }) ]
       | _ => .ret)
    | none => .ret

/-! ## CHUNK_WRITE (R253, R259) -/

/-- Group g may write its next chunk: it has finished stepping it. -/
def canWrite (e : MatrixEntry) (d : W64) (g : Nat) : Bool :=
  let ch := e.next.getD g 0
  d.getLsbD (32 + g) && decide (ch < chunks d) && decide (2 * ch + 2 ≤ e.steps.getD g 0)

/-- The operand-buffer bytes of A's rows, and of their side words, that a chunk reads. -/
def chunkRuns (res d : W64) (ch : Nat) : List (Nat × Nat) :=
  let f := recFmt res
  let k := min (dimK d) (128 * ch + 128) - 128 * ch
  (List.range (dimM d)).flatMap (fun m =>
    (obByte res (64 * rrPitch res * m + 128 * ch * elemBits f / 8), (k * elemBits f + 7) / 8)
      :: (if f = 14 then [(obByte res (rrSide res + 16 * rrSidePitch res * m + 2 * (128 * ch / blockLen res)), 2 * ((k + blockLen res - 1) / blockLen res))] else []))

/-- CHUNK_WRITE: a group of a running MMA writes its next chunk, whole; the chunk adds to the term counters and its events to the launch, or, while speculative, to what the speculation holds back.  A is read on path M (R287). -/
def writeChunk (c n g : Nat) : Prog :=
  .get fun s =>
    match entryAt s c n with
    | some e =>
      (match e.op with
       | .mma tile _ _ flags d res pan =>
         if !e.started || !engineEnds s e || !canWrite e d g || e.op.reloading (s.core c) || (!e.spec && !olderWritten s c e (some g)) then .ret
         else
           let ch := e.next.getD g 0
           let blk := (s.team e.team).blk
           let p := Path.matrix e.team
           let ws := groupWeights (s.core c) (s.block blk).ctx pan d g ch
           let r := chunkUpdate (placeSeen s p (.ob blk)) tile flags d res g ch ws (accOf s e)
           let adds := chunkTerms (dimM d) ws
           .all [ writeAcc e r.1,
                  noteWords p ((chunkRuns res d ch).flatMap (fun x => (Place.ob blk).words x.1 x.2)),
                  setEntry c n (fun e => { e with next := e.next.set g (ch + 1), fails := e.fails.del g, times := e.times.put (32 * ch + g) (longest ws), begunTerms := e.begunTerms.del (32 * ch + g) }),
                  if e.spec then
                    setEntry c n (fun e => { e with held := addCounts e.held adds, events := e.events ++ gather r.2 })
                  else (addTerms e.team adds).seq (addEvents (s.block blk).launch (gather r.2)) ]
       | _ => .ret)
    | none => .ret

def execChunkWrite (c n g : Nat) (s : State) : Host.Outcome State Fault Refusal := (writeChunk c n g).run s

/-! ## MATRIX_COMPLETE -/

/-- Cycles that an MMA adds to MMACYC (R249, R258): those of its schedule, less those in common with another MMA of its team, at most 8, and more, by a free number that is not 0, where a replay, a reload, a page fault or a stop came between. -/
def mmaTime (x : W64) (e : MatrixEntry) (d res pan : W64) : Nat :=
  mmaCycles e.times d res pan + (if e.disturbed then 1 + x.toNat / 8 % 2 ^ 32 else 0) - (if e.overlap then 1 + x.toNat % 8 else 0)

/-- An MMA completes once every active group has written its last chunk; a speculative one leaves its counts with the speculation. -/
def completeMma (c n : Nat) (e : MatrixEntry) (d res pan : W64) : Prog :=
  .get fun s =>
    if !(activeGroups d).all (fun g => decide (chunks d ≤ e.next.getD g 0)) then .ret
    else
      let time := mmaTime (Config.freeWord s.fresh) e d res pan - e.counted
      .all [ showTiles e,
             if e.spec then
               .one (.team e.team (fun m => { m with spec := m.spec.map (fun p =>
                 { p with terms := addCounts p.terms (e.held ++ [time]), events := p.events ++ e.events }) }))
             else addTerms e.team [0, 0, 0, time],
             .when (e.disturbed || e.overlap) (.one .drawFree),
             dropEntry c n ]

/-- MZERO writes zeros. -/
def zeroTiles (e : MatrixEntry) (tiles : List Nat) : Prog :=
  if e.spec then
    .one (.team e.team (fun m => { m with spec := m.spec.map (fun p => { p with tiles := tiles.foldl (fun z x => z.put x []) p.tiles }) }))
  else .each tiles (fun x => clearTile e.team [e.tag] (4096 * x) 4096)

/-- X(i, j) of a drain (R269). -/
def drainValue (s : State) (t tile : Nat) (r : List Byte) (i j : Nat) : Fp.Num :=
  let w := (tileSeen s (.matrix t) (s.team t).blk (4096 * tile + 256 * i + j)).toNat
  let x := if Drain.int r then Fp.ofInt (signedOf 32 w) else Fp.f32.decode w
  if Drain.scaled r then Fp.mul x (Fp.f32.decode (Drain.scale r)) else x

/-- One element converted (R128, R269). -/
def drainConvert (r : List Byte) (x : Fp.Num) : Conv :=
  let f := Drain.fmt r
  if Fp.isFloat f then
    let y := Fp.deliver (Fp.ofCode f) (Drain.rm r) x
    ⟨y.bits, eventNums f y.ev⟩
  else if Drain.int r && !Drain.scaled r then
    match x with
    | .fin s m _ => ⟨toTy f (Drain.sat r) (if s then -(m : Int) else m), []⟩
    | _ => ⟨0, []⟩
  else
    let (n, ev) := Fp.toRange (Drain.rm r) (loOf f) (hiOf f) x
    ⟨toTy f false n, eventNums 8 ev⟩

/-- The bytes of a drained row, elements then side words, with event counts. -/
def drainRow (r : List Byte) (xs : List Fp.Num) : List Byte × List Nat :=
  if Drain.fmt r = 14 then
    let n := 16 * 2 ^ Drain.blen r
    let bs := (List.range (256 / n)).map (fun q => packBlock (Drain.rm r) (Drain.xtra r) ((xs.drop (n * q)).take n))
    (leBytes 128 (packBits 4 (bs.flatMap (·.codes))) ++ bs.flatMap (fun b => bytes2 b.side), bs.flatMap (fun b => b.counts.flatten))
  else
    let cs := xs.map (drainConvert r)
    (cs.flatMap (fun c => leBytes (Drain.elemBytes r) c.bits), cs.flatMap (·.counts))

/-- The amax word of a drain: the canonical NaN where some X is a NaN, else the largest magnitude, rounded (R269). -/
def drainAmax (xs : List Fp.Num) : Nat :=
  if xs.any Fp.isNan then Fp.f32.qnan
  else if xs.any (fun x => match x with | .inf _ => true | _ => false) then Fp.f32.infinity false
  else
    let m := (xs.map magnitude).foldl maxMagnitude (0, 0)
    (Fp.deliver Fp.f32 .rne (.fin false m.1 m.2)).bits

/-- The writes and the end of a drain's work, with the place of its amax word: its rows are converted and written on path M, the amax word is updated, and with ZERO the rows are cleared. -/
def drainNow (c n : Nat) (e : MatrixEntry) (tile : Nat) (r : List Byte) (y : Plan) : Prog :=
  .get fun s =>
    let p := Path.matrix e.team
    let b := s.blockOf e.team
    let blk := (s.team e.team).blk
    let xs := (List.range (Drain.rows r)).map (fun i => (List.range 256).map (fun j => drainValue s e.team tile r i j))
    let rows := xs.map (drainRow r)
    let old := leNat (planNow s blk y)
    .all [ leaveHome p false,
           planWrite { path := p, blk := blk, slots := [e.tag] } e.spots (rows.flatMap Prod.fst),
           .when (Drain.amax r != 0) (.all [
             .one (.hist (fun hs => (planWords blk y).foldl (fun hs k => markRead p k 0 hs) hs)),
             planWrite { path := p, blk := blk, slots := [e.tag], sure := true } y.pieces (leBytes 4 (atomicOp 10 32 old (drainAmax xs.flatten)).1) ]),
           noteWords p ((List.range (256 * Drain.rows r)).map (fun i => (Place.tile blk).word (4 * (4096 * tile + i)))),
           .when (Drain.zero r) (clearTile e.team [e.tag] (4096 * tile) (256 * Drain.rows r)),
           addEvents b.launch (gather (rows.flatMap Prod.snd)),
           setEntry c n (fun e => { e with written := true }) ]

/-- MDRAIN runs to its end (R269): the amax update waits at its home where its page is under migration (R174); the drain completes once every byte that it writes is performed. -/
def runDrain (c n : Nat) (e : MatrixEntry) (tile : Nat) (r : List Byte) : Prog :=
  .get fun s =>
    let p := Path.matrix e.team
    let blk := (s.team e.team).blk
    if e.written then .when (!pathStalls s p) (dropEntry c n)
    else
      let es := waitingAtomic s p false
      let y : Plan := if es.isEmpty then { pieces := e.amaxAt, used := [] } else planOf es
      if planLocked s y then .when es.isEmpty (enqueueAtomic { path := p, blk := blk } y)
      else if behindWrites s p blk y es then .ret
      else needLines p .write (linesOf y.phys) (drainNow c n e tile r y) .ret

/-- MATRIX_COMPLETE: a started instruction of the queue completes. -/
def completeEntry (c n : Nat) : Prog :=
  .get fun s =>
    match entryAt s c n with
    | none => .ret
    | some e =>
      if !e.started || !engineEnds s e then .ret
      else match e.op with
        | .mma _ _ _ _ d res pan => completeMma c n e d res pan
        | .mzero _ _ => .when (e.spec || olderWritten s c e none) (.all [ zeroTiles e e.op.tiles, showTiles e, dropEntry c n ])
        | .mdrain tile r _ => runDrain c n e tile r

def execMatrixComplete (c n : Nat) (s : State) : Host.Outcome State Fault Refusal := (completeEntry c n).run s

/-! ## SLICE_RELOAD (R206, R256) -/

/-- Write bytes from a slice row of a column on. -/
def putSlice (c col row : Nat) (bs : List Byte) : Prog :=
  .one (.core c (fun x => { x with slices := Sparse.setRun x.slices (32 * (1024 * col + row)) bs }))

/-- An MMA that runs a column's group. -/
def MatrixOp.runs (col : Nat) : MatrixOp → Bool
  | .mma _ _ _ _ d _ _ => d.getLsbD (32 + col / 8)
  | _ => false

/-- The team for whose MMA a column is reloaded. -/
def reloadTeam (s : State) (c col : Nat) : Nat := (((s.core c).queue.find? (fun e => e.op.runs col)).map (·.team)).getD (32 * c)

/-- What is left of a column's reload. -/
def setReload (c col : Nat) (x : List SourceRec × Option Nat) : Prog := .one (.core c (fun y => { y with reloads := y.reloads.put col x }))

/-- Reload the rows of records from memory, each through its context's translation; at a page fault, which goes to firmware, the reload waits until the repair, and with it the MMAs that read the column. -/
def reloadRecords (c col : Nat) : List SourceRec → Prog
  | [] => .one (.core c (fun y => { y with reloads := y.reloads.del col }))
  | r :: rs =>
    .get fun s =>
      let sp := ctxSpace s r.ctx c
      let t := reloadTeam s c col
      let p := Path.copy (s.team t).blk
      match globalPlan s sp .read r.src (32 * r.rows) with
      | .error (.page _ va) => openFault c r.ctx t 5 va (fun h => setReload c col (r :: rs, some h))
      | .error (.trap _ _) => reloadRecords c col rs
      | .ok x =>
        needRead p x
          (.all [ putSlice c col r.row (planBytes s p (s.team t).blk x), noteTlb sp x.used, notePlan p (s.team t).blk x, reloadRecords c col rs ])
          (setReload c col (r :: rs, none))

/-- A column's reload begins: the MMAs that run it take more cycles than their schedule (R249). -/
def beginReload (c col : Nat) : Prog :=
  .all [ .one (.core c (fun x => { x with queue := x.queue.map (fun e => if e.started && e.op.runs col then { e with disturbed := true } else e) })),
         .get fun s => reloadRecords c col (((s.core c).sources.get? col).getD []) ]

/-- A record that another held, or is a part of it: what an SLOAD has replaced since is not (R206). -/
def SourceRec.within (r x : SourceRec) : Bool :=
  r.ctx == x.ctx && decide (x.row ≤ r.row) && decide (r.row + r.rows ≤ x.row + x.rows) && r.src == x.src + BitVec.ofNat 64 (32 * (r.row - x.row))

/-- A column's slice is reloaded from its source records, or the reload in progress goes on with what an SLOAD has not replaced meanwhile; one that found no free page-fault handle tries again (R256). -/
def reload (c col : Nat) : Prog :=
  .get fun s =>
    match (s.core c).reloads.get? col with
    | none => beginReload c col
    | some (rs, h) => .when (h.isNone || h == some 1024) (reloadRecords c col ((((s.core c).sources.get? col).getD []).filter (fun r => rs.any r.within)))

/-- SLICE_RELOAD: the engine reloads a column's slice; a row that no record covers needs none (R256). -/
def execSliceReload (c col : Nat) (s : State) : Host.Outcome State Fault Refusal := (reload c col).run s

end Sys2Proof.Machine
end

