-- ==== Sys2Proof/Machine/Distributor.lean ====
section
/-! DEFINITION. The distributors: where blocks go, what a block receives, FETCHWORK, and the end of a block (R42 to R58, R237, R238, R347). -/

namespace Sys2Proof.Machine

/-! ## Cores of a partition (R42, R365) -/

/-- User cores of half-die i, by key: half-die 2d + h holds cores 48h to 48h + 47 of die d. -/
def halfDieCores (i : Nat) : List Nat := ((List.range 48).map (fun k => 48 * i + k)).filter (fun c => !fMode c)

/-- User cores of a partition, on dies that are on, in order of die and core. -/
def partitionCores (s : State) (p : Nat) : List Nat :=
  ((List.range 8).filter (fun i => s.pkg.parts.getD i 0 == p && (s.die (i / 2)).on)).flatMap halfDieCores

/-! ## What a core has left (R48) -/

/-- The resident blocks of a core that count: those not in `gone`. -/
def coreBlocks (s : State) (c : Nat) (gone : List Nat) : List (Nat × Block) :=
  s.blocks.filter (fun b => b.2.core == c && b.2.resident && !gone.contains b.1)

/-- Register runs in use: pipe, base, count. -/
def usedRows (s : State) (bs : List (Nat × Block)) : List (Nat × Nat × Nat) :=
  bs.flatMap (fun b => b.2.teams.flatMap (fun t => (s.team t).rows.map (fun r => (r.1, r.2, (s.team t).pregs)))) |>.eraseDups

/-- Free rows of a pipe. -/
def freeRows (used : List (Nat × Nat × Nat)) (pipe : Nat) : Nat :=
  1024 - ((used.filter (fun u => u.1 == pipe)).map (fun u => u.2.2)).sum

/-- The lowest base of a free run of n rows of a pipe. -/
def freeRun (used : List (Nat × Nat × Nat)) (pipe n : Nat) : Option Nat :=
  let mine := used.filter (fun u => u.1 == pipe)
  let fits := fun (b : Nat) => decide (b + n ≤ 1024) && mine.all (fun u => decide (b + n ≤ u.2.1) || decide (u.2.1 + u.2.2 ≤ b))
  (0 :: mine.map (fun u => u.2.1 + u.2.2)).foldl (fun m b => if fits b then (match m with | some x => some (min x b) | none => some b) else m) none

/-! ## Pipes and rows of the teams (R45, R46, R49) -/

/-- Teams of a row group. -/
def groupTeams (width : Nat) : Nat := if width = 8 then 4 else if width = 16 then 2 else 1

/-- Passes of a team. -/
def passCount (width : Nat) : Nat := (width + 31) / 32

/-- The pipe with the most free rows, the lowest among equals. -/
def bestPipe (used : List (Nat × Nat × Nat)) : Nat :=
  (List.range 4).foldl (fun m p => if freeRows used m < freeRows used p then p else m) 0

/-- The pipe of each pass (R45). -/
def passPipes (used : List (Nat × Nat × Nat)) (width : Nat) : List Nat :=
  if 4 ≤ passCount width then (List.range (passCount width)).map (fun k => k % 4)
  else List.replicate (passCount width) (bestPipe used)

/-- Rows for passes on given pipes at count n, or none. -/
def takeRows (n : Nat) : List Nat → List (Nat × Nat × Nat) → Option (List (Nat × Nat))
  | [], _ => some []
  | p :: ps, used =>
    match freeRun used p n with
    | none => none
    | some b => (takeRows n ps ((p, b, n) :: used)).map (fun rs => (p, b) :: rs)

/-- The counts that a team may receive where not every register fits: VREGS, and the multiples of 8 below it from the largest down (R49). -/
def counts (vregs : Nat) : List Nat := vregs :: ((List.range ((vregs - 1) / 8)).map (fun k => 8 * (k + 1))).reverse

/-- What a restored block asks for: the count and the pipes of each team (R335). -/
abbrev RowWish := Nat × List Nat

/-- A count and the rows taken at it. -/
abbrev TeamRows := Nat × List (Nat × Nat)

/-- The runs that a team's rows use. -/
def TeamRows.runs (x : TeamRows) : List (Nat × Nat × Nat) := x.2.map (fun r => (r.1, r.2, x.1))

/-- Count and rows of n teams from team i on: in team order, each as `choose` gives it, a row group sharing its first team's. -/
def teamRows (width : Nat) (choose : Nat → Nat → List (Nat × Nat × Nat) → Option TeamRows) : Nat → Nat → List (Nat × Nat × Nat) → Option TeamRows → Option (List TeamRows)
  | 0, _, _, _ => some []
  | n + 1, i, used, last =>
    match (if i % groupTeams width = 0 then none else last) with
    | some x => (teamRows width choose n (i + 1) used last).map (fun xs => x :: xs)
    | none =>
      match choose n i used with
      | none => none
      | some x => (teamRows width choose n (i + 1) (x.runs ++ used) (some x)).map (fun xs => x :: xs)

/-- Rows at one count for every team, or as a saved block's teams had them. -/
def fixedRows (width p : Nat) (wish : List RowWish) (_n i : Nat) (used : List (Nat × Nat × Nat)) : Option TeamRows :=
  match wish[i]? with
  | some (p', pipes) => (takeRows p' pipes used).map (fun rs => (p', rs))
  | none => (takeRows p (passPipes used width) used).map (fun rs => (p, rs))

/-- The largest count of a team with which the block's other teams still fit at their least (R49). -/
def reducedRows (width vregs n i : Nat) (used : List (Nat × Nat × Nat)) : Option TeamRows :=
  (counts vregs).findSome? (fun p =>
    match takeRows p (passPipes used width) used with
    | none => none
    | some rs => if (teamRows width (fixedRows width (min vregs 8) []) n (i + 1) (TeamRows.runs (p, rs) ++ used) (some (p, rs))).isSome then some (p, rs) else none)

/-! ## Fitting a block on a core (R43, R48, R51) -/

/-- The resources that a block would take on a core. -/
structure Fit where
  core : Nat
  inUse : Nat
  slots : List Nat
  rows : List (Nat × List (Nat × Nat))
  ltab : List Nat
  obtab : List Nat
  ttab : List Nat
  deriving DecidableEq, Repr

/-- The numbers below n that no list holds. -/
def unused (n : Nat) (taken : List Nat) : List Nat := (List.range n).filter (fun k => !taken.contains k)

/-- A core may hold a block of a context beside these (R43). -/
def mayShare (s : State) (x : Nat) (bs : List (Nat × Block)) : Bool :=
  bs.all (fun b => b.2.ctx == x || (!(s.ctx b.2.ctx).prot && !(s.ctx x).prot))

/-- Team slots of a core in use. -/
def slotsInUse (s : State) (c : Nat) (gone : List Nat) : List Nat :=
  ((s.teams.filter (fun t => coreOf t.1 == c && !gone.contains t.2.blk)).map (fun t => slotOf t.1))

/-- A block fits on a core: with the team slots, the rows and the number of local blocks of a saved one where `back` gives them. -/
def fitOn (s : State) (x : Nat) (h : Header) (reduced : Bool) (gone : List Nat) (back : Option (List Nat × List RowWish × Nat)) (c : Nat) : Option Fit :=
  let bs := coreBlocks s c gone
  let used := slotsInUse s c gone
  let slots := match back with
    | some (ks, _, _) => ks
    | none => (unused 32 used).take h.teams
  let loc := unused 32 (bs.flatMap (fun b => b.2.ltab))
  let f := match back with
    | some (_, _, f) => f
    | none => if h.spill then min h.lblk loc.length else h.lblk
  let tiles := unused 32 (bs.flatMap (fun b => b.2.ttab))
  let ob := unused 256 (bs.flatMap (fun b => b.2.obtab))
  let sync := (bs.map (fun b => (s.launch b.2.launch).hdr.slots)).sum
  let queue := (bs.map (fun b => if (s.launch b.2.launch).hdr.tiles = 0 then 0 else 16)).sum
  if !mayShare s x bs || decide (slots.length < h.teams) || slots.any (fun k => used.contains k) || decide (loc.length < f)
      || decide (tiles.length < h.tiles) || decide (ob.length < h.obkb) || decide (64 < sync + h.slots)
      || decide (64 < queue + (if h.tiles = 0 then 0 else 16)) then none
  else
    (teamRows h.width (if reduced then reducedRows h.width h.vregs else fixedRows h.width h.vregs (match back with | some (_, w, _) => w | none => []))
        h.teams 0 (usedRows s bs) none).map (fun rows =>
      { core := c, inUse := used.length, slots := slots, rows := rows, ltab := loc.take f, obtab := ob.take h.obkb, ttab := tiles.take h.tiles })

/-- The core with the fewest team slots in use, then the lowest die, then the lowest core (R54). -/
def chooseFit (fs : List Fit) : Option Fit :=
  fs.foldl (fun m f => match m with
    | some b => if f.inUse < b.inUse then some f else m
    | none => some f) none

/-- Where the next block of a launch goes, with full registers, or with fewer. -/
def placeFor (s : State) (l : Launch) (reduced : Bool) : Option Fit :=
  chooseFit ((partitionCores s (s.ctx l.ctx).part).filterMap (fitOn s l.ctx l.hdr reduced [] none))

/-! ## Who waits, and in which order (R54, R335) -/

/-- A block that waits for a core: effective priority, 0 for a saved block and 1 for an unplaced one, its place in order, its launch, and the saved block. -/
structure Waiting where
  prio : Nat
  class' : Nat
  order : Nat
  launch : Nat
  blk : Option Nat
  deriving DecidableEq, Repr

def Waiting.before (a b : Waiting) : Bool :=
  decide (a.prio < b.prio) || (a.prio == b.prio && (decide (a.class' < b.class') || (a.class' == b.class' && decide (a.order < b.order))))

/-- A context takes no placements: dead, torn down or swapped out, or while microcode waits to be installed (R364). -/
def ctxIdle (s : State) (x : Nat) : Bool := (s.ctx x).dead || (s.ctx x).teardown || swappedOut s x || !s.pkg.microcode.isEmpty

/-- A launch whose next block may be placed when a core fits it (R31, R35). -/
def launchWaits (s : State) (l : Launch) : Bool :=
  l.unplaced && l.ready.isSome && !ctxIdle s l.ctx
    && (l.call.isSome || (s.queue l.queue).state == .active || (s.queue l.queue).state == .faulted)

/-- What a saved block asks of its core: team slots, counts and pipes, and local blocks (R335). -/
def savedWish (s : State) (b : Block) : List Nat × List RowWish × Nat :=
  (b.teams.map (fun t => (s.team t).teamid.toNat / 2 ^ 18 % 32), b.teams.map (fun t => ((s.team t).pregs, (s.team t).rows.map Prod.fst)), b.ltab.length)

/-- A saved block fits its core. -/
def restoreFit (s : State) (gone : List Nat) (b : Block) : Option Fit :=
  fitOn s b.ctx (s.launch b.launch).hdr false gone (some (savedWish s b)) b.core

/-- The blocks that wait on a partition. -/
def waitingOn (s : State) (p : Nat) : List Waiting :=
  (s.blocks.filter (fun b => b.2.isSaved && (s.ctx b.2.ctx).part == p && !ctxIdle s b.2.ctx)).map (fun b =>
      { prio := (s.launch b.2.launch).prio, class' := 0, order := b.2.order, launch := b.2.launch, blk := some b.1 })
    ++ (s.launches.filter (fun l => (s.ctx l.2.ctx).part == p && launchWaits s l.2)).map (fun l =>
      { prio := l.2.prio, class' := 1, order := l.2.ready.getD 0, launch := l.1, blk := none })

/-- A saved block of a protected context that R43 keeps from its core is no head (R345). -/
def heldBy43 (s : State) (w : Waiting) : Bool :=
  match w.blk with
  | some b => (s.ctx (s.block b).ctx).prot && !mayShare s (s.block b).ctx (coreBlocks s (s.block b).core [])
  | none => false

/-- The first of some waiting blocks. -/
def firstOf (ws : List Waiting) : Option Waiting :=
  ws.foldl (fun m w => match m with
    | some b => if w.before b then some w else m
    | none => some w) none

/-- The head block of the highest waiting priority. -/
def headOf (s : State) (p : Nat) : Option Waiting := firstOf ((waitingOn s p).filter (fun w => !heldBy43 s w))

/-- A launch's partition. -/
def partOf (s : State) (l : Nat) : Nat := (s.ctx (s.launch l).ctx).part

/-- A waiting block fits some core now; with fewer registers only where it may take them. -/
def waitFit (s : State) (w : Waiting) : Option Fit :=
  match w.blk with
  | some b => restoreFit s [] (s.block b)
  | none =>
    match placeFor s (s.launch w.launch) false with
    | some f => some f
    | none => if headOf s (partOf s w.launch) = some w then placeFor s (s.launch w.launch) true else none

/-- A waiting block holds its partition: it has been the head for 8 µs (R54).  A launch keeps the hold of its next block: where FETCHWORK withdraws that block, the one after it holds on (DESIGN CHOICE, log 64). -/
def holdsPart (s : State) (v : Waiting) : Bool :=
  match v.blk with
  | some b => (s.block b).holds && !heldBy43 s v
  | none => (s.launch v.launch).holds

/-- A waiting block's turn: no earlier one fits a core, and no head holds the partition against it (R54). -/
def turnOf (s : State) (w : Waiting) : Bool :=
  let ws := waitingOn s (partOf s w.launch)
  ws.all (fun v => !v.before w || (waitFit s v).isNone)
    && ws.all (fun v => !holdsPart s v || v == w || decide (w.prio < v.prio))

/-! ## What a block receives (R52, R53) -/

/-- Present lanes of a team. -/
def presentMask (width : Nat) : LaneMask := LaneMask.ofLanes width (fun _ => true)

/-- The first lane position of a team in its row (R46). -/
def lanePosition (width idx : Nat) : Nat := if width < 32 then width * (idx % groupTeams width) else 0

/-- Lanes of a team in a pass. -/
def passWidth (width k : Nat) : Nat := min 32 (width - 32 * k)

/-- A unit of storage keeps its contents for a context (R52). -/
def Residue.keeps {w : Nat} (r : Residue w) (zero : Bool) (x unit : Nat) : Bool := !zero && r.owner.get? unit == some x

/-- Register contents that a team finds: of its rows that the last holder of its context left. -/
def foundRegs (r : Residue 32) (zero : Bool) (x width idx : Nat) (rows : List (Nat × Nat)) (n : Nat) : List (Nat × W32) :=
  ((List.range rows.length).zip rows).flatMap (fun k => (List.range n).flatMap (fun v =>
    let unit := 1024 * k.2.1 + k.2.2 + v
    if r.keeps zero x unit then
      (Sparse.slice r.data (32 * unit + lanePosition width idx) (passWidth width k.1)).map (fun e => (1024 * v + 32 * k.1 + e.1, e.2))
    else []))

/-- Contents of units of `size` words each that a block finds, by its own numbering. -/
def foundUnits {w : Nat} (r : Residue w) (zero : Bool) (x size : Nat) (units : List Nat) : Sparse w :=
  ((List.range units.length).zip units).flatMap (fun k =>
    if r.keeps zero x k.2 then (Sparse.slice r.data (size * k.2) size).map (fun e => (size * k.1 + e.1, e.2)) else [])

/-- Rows that a block takes and may not keep are cleared, and every row is its context's from then on (R52). -/
def claimRows (r : Residue 32) (zero : Bool) (x : Nat) (units : List Nat) : Residue 32 :=
  units.foldl (fun r u => { owner := r.owner.put u x, data := if r.keeps zero x u then r.data else Sparse.splice r.data (32 * u) 32 [] }) r

/-- The rows that a block's teams take, by 1024 pipe + row. -/
def rowUnits (rows : List TeamRows) : List Nat :=
  (rows.flatMap (fun t => t.2.flatMap (fun r => (List.range t.1).map (fun v => 1024 * r.1 + r.2 + v)))).eraseDups

/-- Backing-store registers of a team slot: zero with ZERO = 1, else what an earlier block of the context left there (R49, R52). -/
def backingRegs (store : Sparse 32) (zero : Bool) (t p vregs : Nat) : Sparse 32 :=
  if zero then [] else (Sparse.slice store (2 ^ 20 * t + 1024 * p) (1024 * (vregs - p))).map (fun e => (1024 * p + e.1, e.2))

/-- TEAMID (R53). -/
def teamIdOf (t gen : Nat) : W32 :=
  BitVec.ofNat 32 (dieOf (coreOf t) * 2 ^ 30 + coreOf t % 96 * 2 ^ 23 + slotOf t * 2 ^ 18 + gen % 2 ^ 18)

/-- A team at its start (R53), or as an HCALL's record gives it (R312). -/
def startTeam (l : Launch) (blk idx lin t gen now x : Nat) (r : Residue 32) (store : Sparse 32) (pregs : Nat) (rows : List (Nat × Nat)) : Team :=
  let h := l.hdr
  let present := presentMask h.width
  let o := (l.ovs[0]?).getD { base := 0, slen := 0, lcount := 0 }
  let w := fun (n : Nat) => BitVec.ofNat 64 n
  let base : Team :=
    { State.blankTeam with
      blk := blk
      idx := idx
      teamid := teamIdOf t gen
      width := h.width
      present := present
      pregs := pregs
      rows := rows
      issuedAt := now
      v := Sparse.setAll [] (foundRegs r h.zero x h.width idx rows pregs ++ backingRegs store h.zero t pregs h.vregs) }
  match l.call with
  | some (target, g) =>
    { base with
      g := Vector.ofFn (fun (i : Fin 64) => if i.val = 0 then 0 else g.getD i.val 0)
      m := if l.widened then present else 1
      pc := target
      token := some l.token
      first := true }
  | none =>
    { base with
      g := (((base.g.set 10 l.args).set 11 (w (lin % l.gx + lin / l.gx % l.gy * 2 ^ 16 + lin / l.gx / l.gy * 2 ^ 32))).set 12 (w idx)).set 13
        (w (l.gx + l.gy * 2 ^ 16 + l.gz * 2 ^ 32))
      m := present
      pc := o.base + w h.entry }

/-- The block as placed. -/
def startBlock (s : State) (l : Nat) (f : Fit) : Block :=
  let x := s.launch l
  let c := s.core f.core
  { State.blankBlock with
    ctx := x.ctx
    launch := l
    lin := x.next
    x := x.next % x.gx
    y := x.next / x.gx % x.gy
    z := x.next / x.gx / x.gy
    core := f.core
    teams := f.slots.map (fun k => 32 * f.core + k)
    order := s.pkg.nextOrder
    ltab := f.ltab
    obtab := f.obtab
    ttab := f.ttab
    loc := foundUnits c.locRes x.hdr.zero x.ctx 16384 f.ltab
    ob := foundUnits c.obRes x.hdr.zero x.ctx 1024 f.obtab
    tiles := foundUnits c.tileRes x.hdr.zero x.ctx 4096 f.ttab }

/-- Spill-backed local blocks to be filled with zeros before the first fetch: their addresses (R52). -/
def spillFills (l : Launch) (f : Fit) : List (W64 × Nat) :=
  if l.hdr.spill && l.hdr.zero then
    (List.range (l.hdr.lblk - f.ltab.length)).flatMap (fun i =>
      pagesOf (l.spillBase + BitVec.ofNat 64 ((l.next * l.hdr.lblk + f.ltab.length + i) * 16384)) 16384)
  else []

/-- What a record is to a launch's teams: the front end has acquired the launch's record and its dependences, which orders what a release before them follows before every access of the launched teams on every path; what the core filled for the block itself is seen too (R52, R293). -/
def started (b : Nat) (ts : List Nat) (h : HistWord) : HistWord :=
  let own := h.path == .mail b
  let all := h.hb || h.cover || own
  let h1 := if h.path.coherent || h.pub || all then ts.foldl (fun h t => h.order (.team t)) h else h
  let joined := fun (c : Bool) (ps : List Path) => ts.foldl (fun ps t => joinPath c (.team t) ps) ps
  let h2 := { h1 with ordM := joined (all || h.pubM) h1.ordM, ordC := joined (all || h.pubC) h1.ordC, raw := joined all h1.raw }
  if all then h2.show (.copy b :: .mail b :: ts.map .matrix) else h2

/-- The acquire of a block's start; the core's L1 drops the words that it does not own (R288). -/
def startAcquire (c b : Nat) (ts : List Nat) : Prog :=
  .get fun s =>
    .all [ .when (!s.hist.isEmpty) (.one (.hist (fun hs => hs.map (started b ts)))),
           .when (!(s.core c).l1.isEmpty) (.one (.core c (fun x => { x with l1 := l1Acquire x.l1 }))) ]

/-- Overlay 0 is made resident where its pages allow it; where they do not, the first fetch raises FETCH (R17, R18).  A slot that holds it already stays as it is, even where its pages have lost the Darion tag since (DESIGN CHOICE, log 33). -/
def resident0 (t : Nat) : Prog :=
  .get fun s =>
    let o := overlay0 s t
    match xlate s (s.spaceOf t) .exec (pagesOf o.base (overlaySize o)) with
    | .error _ => .ret
    | .ok _ => reload0 t

/-- Place the next block of a launch: everything it takes at once. -/
def placeBlock (l : Nat) (f : Fit) (fills : List (Nat × Nat)) : Prog :=
  .get fun s =>
    let x := s.launch l
    let b := s.pkg.nextBlock
    let c := s.core f.core
    let gen := fun (k : Nat) => (c.gens.get? k).getD 0 + 1
    .all [ .one (.block b (fun _ => startBlock s l f)),
           .each ((List.range f.slots.length).zip f.slots) (fun k =>
             let t := 32 * f.core + k.2
             let r := f.rows.getD k.1 (0, [])
             .one (.team t (fun _ => startTeam x b k.1 x.next t (gen k.2) s.clock x.ctx c.rowRes (s.ctx x.ctx).backing r.1 r.2))),
           .one (.core f.core (fun y =>
             { y with
               gens := f.slots.foldl (fun m k => m.put k (gen k % 2 ^ 18)) y.gens
               power := .active
               rowRes := claimRows y.rowRes x.hdr.zero x.ctx (rowUnits f.rows) })),
           .one (.pkg (fun g => { g with nextBlock := b + 1, nextOrder := g.nextOrder + 1 })),
           .one (.launch l (fun y => { y with next := y.next + 1, blks := b :: y.blks, holds := false })),
           .each fills (fun r => homeWrite { path := .mail b, blk := b, sure := true } .phys r.1 (List.replicate r.2 0)),
           startAcquire f.core b (f.slots.map (fun k => 32 * f.core + k)),
           resident0 (32 * f.core + f.slots.headD 0),
           .when (x.next + 1 == x.total && x.call.isNone) (markReady x.queue) ]

/-- PLACE_BLOCK (R54): the launch's next block, when its turn has come and a core fits it.  A page fault of the fill of its spill area goes to firmware first, and a page of it under migration, or a line that takes part in a transaction, is waited for. -/
def execPlaceBlock (l : Nat) (s : State) : Host.Outcome State Fault Refusal :=
  (Prog.get fun s =>
    let x := s.launch l
    let w : Waiting := { prio := x.prio, class' := 1, order := x.ready.getD 0, launch := l, blk := none }
    if (s.launches.get? l).isNone || !launchWaits s x || !turnOf s w then .ret
    else match waitFit s w with
      | none => .ret
      | some f =>
        let sp := ctxSpace s x.ctx f.core
        match xlate s sp .write (spillFills x f) with
        | .error a => openFault f.core x.ctx (32 * f.core + f.slots.headD 0) 1 a (fun _ => .ret)
        | .ok r => .when (!r.parts.any (fun p => (lockedTo s p.1).isSome) && !(linesOf r.parts).any s.coh.lineBusy) ((noteTlb sp r.used).seq (placeBlock l f r.parts))).run s

/-- HEAD_HOLD_TIMEOUT: a block that has been the head for 8 µs and fits nowhere holds the partition (R54). -/
def execHeadHoldTimeout (l : Nat) (s : State) : Host.Outcome State Fault Refusal :=
  (Prog.get fun s =>
    match headOf s (partOf s l) with
    | some w => .when (w.launch == l && (waitFit s w).isNone)
        (match w.blk with
         | some b => .one (.block b (fun y => { y with holds := true }))
         | none => .one (.launch l (fun y => { y with holds := true })))
    | none => .ret).run s

/-! ## Issue (R58, R237) -/

/-- A ready team is priority 0 for its next issue (R58). -/
def starve (t : Nat) : Prog := .get fun s => .when (ready s t) (.one (.team t (fun m => { m with starved := true })))

/-- ISSUE_STARVATION: a ready team that has issued nothing for 4,096 cycles is priority 0 for its next issue (R58). -/
def execIssueStarvation (t : Nat) (s : State) : Host.Outcome State Fault Refusal := (starve t).run s

/-- YIELD_EXPIRY: 64 cycles have passed since a YIELD (R237). -/
def execYieldExpiry (t : Nat) (s : State) : Host.Outcome State Fault Refusal :=
  (ofTeam t (.one (.team t (fun m => { m with yieldTo := [] })))).run s

/-! ## FETCHWORK (R57) -/

/-- The launch that a selector names: the team's own, or the one k records after it in its queue. -/
def workTarget (s : State) (own k : Nat) : Option Nat :=
  let x := s.launch own
  if k = 0 then some own
  else if x.call.isSome then none
  else ((queueLaunches s x.queue).find? (fun l => l.2.index == (x.index + k) % 2 ^ 64)).map Prod.fst

/-- A launch of a queue that is DESTROYING which R57 finds not ready, while R31 step 1 calls it done: the two rules leave the answer open. -/
def answerOpen (s : State) (own k : Nat) : Bool :=
  match workTarget s own k with
  | none => false
  | some l =>
    let x := s.launch own
    let y := s.launch l
    decide (0 < k) && decide (k ≤ 15) && y.call.isNone && (s.queue y.queue).state == .destroying
      && !(y.ready.isSome && y.kdesc == x.kdesc && y.args == x.args)

/-- READY, and the block withdrawn (R57).  Where R57 and R31 differ, READY is DONE or NOTREADY by a free value (log 39). -/
def workAnswer (s : State) (own k : Nat) : Nat × Option (Nat × Nat) :=
  if 15 < k then (0xFFFFFFFD, none)
  else match workTarget s own k with
    | none => (0xFFFFFFFE, none)
    | some l =>
      let x := s.launch own
      let y := s.launch l
      if answerOpen s own k then (if (Config.freeWord s.fresh).getLsbD 0 then 0xFFFFFFFE else 0xFFFFFFFF, none)
      else if y.call.isNone ∧ (s.queue y.queue).state = .destroying then (0xFFFFFFFF, none)
      else if k ≠ 0 ∧ !(y.ready.isSome && y.kdesc == x.kdesc && y.args == x.args) then (0xFFFFFFFE, none)
      else if !y.unplaced then (0xFFFFFFFF, none)
      else (1, some (l, y.next))

/-- The fields of a mailbox before READY: their offset and bytes (R56, R57). -/
def mailFields (s : State) (sel : W64) (r : Option (Nat × Nat)) : Nat × List Byte :=
  match r with
  | some (l, b) =>
    let y := s.launch l
    (0, bytes2 (b % y.gx) ++ bytes2 (b / y.gx % y.gy) ++ bytes2 (b / y.gx / y.gy) ++ bytes2 (sel.toNat % 2 ^ 16))
  | none => (6, bytes2 (sel.toNat % 2 ^ 16))

/-- FETCHWORK_SERVE: the distributor's part of a FETCHWORK, on path C, with READY last as a release; the team's own store that made READY pending comes first.  A page fault of the mailbox is of access kind 3 (DESIGN CHOICE, log 65). -/
def execFetchworkServe (t : Nat) (s : State) : Host.Outcome State Fault Refusal :=
  (Prog.get fun s =>
    let m := s.team t
    let b := s.blockOf t
    match m.fetchReq with
    | none => .ret
    | some r =>
      if !(b.phase == .placed) then .ret
      else
        let ans := workAnswer s b.launch r.sel.toNat
        let w := mailFields s r.sel ans.2
        match localPlan s (engineSpace s m.blk) b .write r.addr 16 with
        | .error (.page _ va) => openFault b.core b.ctx t 3 va (fun _ => .ret)
        | .error (.trap _ _) => .ret
        | .ok p =>
          let put := fun (role : Bool) (off : Nat) (bs : List Byte) =>
            planWrite { path := .mail m.blk, blk := m.blk, role := role } ((p.pieces.take 1).map (fun y => y.part off bs.length)) bs
          .when (!planStalls s (.team t) m.blk p) (.all [ noteTlb (engineSpace s m.blk) p.used,
                 put false w.1 w.2,
                 put false 12 (bytes4 0),
                 put true 8 (bytes4 ans.1),
                 .one (.team t (fun m => { m with fetchReq := none })),
                 .when (answerOpen s b.launch r.sel.toNat) (.one .drawFree),
                 (match ans.2 with
                  | some (l, n) =>
                    .all [ .one (.launch l (fun y => { y with next := y.next + 1 })),
                           .one (.block m.blk (fun y => { y with withdrawn := (l, n) :: y.withdrawn })),
                           .when ((s.launch l).call.isNone) (markReady (s.launch l).queue) ]
                  | none => .ret) ])).run s

/-! ## The end of a block (R238, R347) -/

/-- Storage as its next holder finds it: contents by unit, with the context that held them. -/
def leaveUnits {w : Nat} (r : Residue w) (x size : Nat) (units : List Nat) (m : Sparse w) : Residue w :=
  ((List.range units.length).zip units).foldl (fun r k =>
    { owner := r.owner.put k.2 x, data := Sparse.splice r.data (size * k.2) size (Sparse.slice m (size * k.1) size) }) r

/-- A team's rows as they are left. -/
def leaveRows (r : Residue 32) (x : Nat) (t : Team) : Residue 32 :=
  ((List.range t.rows.length).zip t.rows).foldl (fun r k =>
    (List.range t.pregs).foldl (fun r v =>
      let unit := 1024 * k.2.1 + k.2.2 + v
      { owner := r.owner.put unit x,
        data := Sparse.splice r.data (32 * unit + lanePosition t.width t.idx) (passWidth t.width k.1) (Sparse.slice t.v (1024 * v + 32 * k.1) (passWidth t.width k.1)) }) r) r

/-- The storage of a block is freed and keeps its contents for R52. -/
def leaveStorage (b : Nat) : Prog :=
  .get fun s =>
    let y := s.block b
    let ts := y.teams.map s.team
    (Prog.each y.teams syncBacking).seq <| .one (.core y.core (fun c =>
      { c with
        rowRes := ts.foldl (fun r t => leaveRows r y.ctx t) c.rowRes
        locRes := leaveUnits c.locRes y.ctx 16384 y.ltab y.loc
        obRes := leaveUnits c.obRes y.ctx 1024 y.obtab y.ob
        tileRes := leaveUnits c.tileRes y.ctx 4096 y.ttab y.tiles }))

/-- The name that the memory order keeps for a team that is gone; it stays a team of its die. -/
def deadTeam (t : Nat) : Nat := 12288 * 2 ^ 30 + t

/-- A path under new names of teams. -/
def Path.rename (f : Nat → Nat) : Path → Path
  | .team t => .team (f t)
  | .lanes t => .lanes (f t)
  | .matrix t => .matrix (f t)
  | p => p

/-- A record of the memory order under new names of teams. -/
def HistWord.rename (f : Nat → Nat) (h : HistWord) : HistWord :=
  { h with path := h.path.rename f, seen := h.seen.map (Path.rename f), ord := h.ord.map (Path.rename f), ordM := h.ordM.map (Path.rename f), ordC := h.ordC.map (Path.rename f), raw := h.raw.map (Path.rename f), obs := h.obs.map f }

/-- Records of the memory order after teams are gone: they stay seen, ordered and observed where they were, and nothing waits for their groups any more. -/
def retireTags (ts : List Nat) (h : HistWord) : HistWord :=
  { h.rename (fun t => if ts.contains t then deadTeam t else t) with slots := h.slots.filter (fun n => !ts.any (fun t => tagOf t n)) }

/-- The agents of a block. -/
def Block.agents (y : Block) (b : Nat) : List Path := [.copy b, .mail b] ++ y.teams.map .team ++ y.teams.map .matrix

/-- A write of a block's agents that is not performed when the block goes: one to memory is still performed; none is to the block's own storage, by an atomic, or under a reset, which writes nothing more (R343). -/
def keepsStalled (y : Block) (b : Nat) (reset : Bool) (e : Stalled) : Bool :=
  !(y.agents b).contains e.path || (!reset && !e.rmw && e.place == .phys)

/-- A block's teams and slots stop existing, and no list names them any more. -/
def removeBlock (b : Nat) : Prog :=
  .get fun s =>
    let y := s.block b
    let ts := y.teams
    let dead := fun (t : Nat) => if ts.contains t then deadTeam t else t
    .all [ .when (!s.hist.isEmpty) (.one (.hist (fun hs => hs.map (retireTags ts)))),
           .when (s.pkg.stalled.any (fun e => (y.agents b).contains e.path)) (.one (.pkg (fun g => { g with
             stalled := (g.stalled.filter (keepsStalled y b ((s.ctx y.ctx).resetCode != 0))).map (fun e => { e with path := e.path.rename dead }) }))),
           .when (s.coh.wants.any (fun w => (y.agents b).contains w.path)) (.one (.coh (fun c => { c with wants := c.wants.filter (fun w => !(y.agents b).contains w.path) }))),
           .each (s.teams.filter (fun t => t.2.yieldTo.any (fun k => ts.contains k)))
             (fun t => .one (.team t.1 (fun m => { m with yieldTo := m.yieldTo.filter (fun k => !ts.contains k) }))),
           .one (.core (s.block b).core (fun c => { c with queue := c.queue.filter (fun e => !ts.contains e.team) })),
           .each ts (fun t => .one (.dropTeam t)),
           .one (.dropSlots b),
           .one (.dropBlock b) ]

/-- The watchpoints of a core that name a block are cleared (R354). -/
def clearWatches (b : Nat) : Prog :=
  .get fun s =>
    let y := s.block b
    let named := fun (w : W32) => y.teams.any (fun t => slotOf t == w.toNat / 2 ^ 13 % 32)
    .one (.core y.core (fun c => { c with watch := c.watch.map (fun w => if w.getLsbD 31 && named w then 0 else w) }))

/-- A WAITY that holds a ring is not satisfied. -/
def waityHolds (s : State) (b : Nat) (r : Ring) : Bool :=
  match r.waity with
  | some c => (match waityTest (s.slot b c.slot.toNat) c.src with
    | .ok false => true
    | _ => false)
  | none => false

/-- The ring of a block whose teams have all exited has nothing left to do: it is drained, or what is left is abandoned (R210). -/
def Ring.finished (r : Ring) (s : State) (b : Nat) : Bool :=
  r.entries.isEmpty && r.told.isEmpty && r.halting.isEmpty && (r.halted || r.dead || r.pidx == r.cons || waityHolds s b r)

/-- Everything that R238 lists has happened. -/
def mayRetire (s : State) (b : Nat) : Bool :=
  let y := s.block b
  (s.blocks.get? b).isSome && (y.phase == .placed || y.phase == .stopping)
    && y.teams.all (fun t => (s.team t).exited && (s.team t).fetchReq.isNone && (s.team t).lanes.isEmpty)
    && !(s.core y.core).queue.any (fun (e : MatrixEntry) => y.teams.contains e.team)
    && y.ring.finished s b && !s.pkg.stalled.any (fun e => (y.agents b).contains e.path)

/-- BLOCK_RETIRE: the context's totals, then the block is gone and counts for its launch, with the blocks it withdrew. -/
def execBlockRetire (b : Nat) (s : State) : Host.Outcome State Fault Refusal :=
  (Prog.get fun s =>
    let y := s.block b
    if !mayRetire s b then .ret
    else
      .all [ profileAdd y.ctx (s.launch y.launch).profBlock ((List.range 5).map (fun k => (8 + 8 * k, y.terms.getD k 0))),
             .when ((s.core y.core).binCtx == y.ctx) (flushBins y.core (s.launch y.launch).profBlock),
             clearWatches b,
             leaveStorage b,
             .one (.launch y.launch (fun l => { l with retired := l.retired + 1 })),
             .each y.withdrawn (fun w => .one (.launch w.1 (fun l => { l with retired := l.retired + 1, blks := b :: l.blks }))),
             removeBlock b ]).run s

end Sys2Proof.Machine
end

