-- ==== Sys2Proof/Machine/Fence.lean ====
section
/-! DEFINITION. FENCE.X and IFENCE (R234, R235, R70). -/

namespace Sys2Proof.Machine

/-- The classes of a fence field: bit 0 L, 1 M, 2 C, 3 H (R73). -/
def classL (f : BitVec 4) : Bool := f.getLsbD 0
def classM (f : BitVec 4) : Bool := f.getLsbD 1
def classC (f : BitVec 4) : Bool := f.getLsbD 2
def classH (f : BitVec 4) : Bool := f.getLsbD 3

/-- A performed write on a from-class that the team has observed complete (R234); L also stands for H, and H for L (R293). -/
def observed (t : Nat) (f : BitVec 4) (h : HistWord) : Bool :=
  match h.path with
  | .matrix _ => classM f && h.obs.contains t
  | .copy _ => classC f && h.obs.contains t
  | .mail _ => classC f && h.ord.contains (.team t)
  | _ => (classL f || classH f) && h.ord.contains (.team t)

/-- The write is visible to the team's later accesses on the to-classes, and ordered before them. -/
def widenTo (t blk : Nat) (g : BitVec 4) (h : HistWord) : HistWord :=
  let h := h.show ((if classM g then [Path.matrix t] else []) ++ (if classC g then [Path.copy blk] else []))
  let h := { h with ordM := joinPath (classM g) (.team t) h.ordM, ordC := joinPath (classC g) (.team t) h.ordC }
  if classL g || classH g then h.order (.team t) else h

/-- FENCE.X F, T waits for nothing that the team has not observed complete (R234): with L or H in F, for the team's own scalar writes and those of batches that have completed.  One without a from-class or a to-class is ILLEGAL (R73). -/
def execFenceX (f g : BitVec 4) (s : State) : Host.Outcome State Fault Refusal :=
  (scalar {} fun t => .get fun s =>
    if f = 0 ∨ g = 0 then illegal
    else if (classL f || classH f) && scalarStalls s s.path then waitHere
    else .all [ finish {} id,
                .when (!s.hist.isEmpty) (.one (.hist (fun hs => hs.map (fun h => if observed s.cur f h then widenTo s.cur t.blk g h else h)))) ]).run s

/-- IFENCE discards every scalar word that the team has fetched ahead (R70); it is no access and waits for nothing. -/
def execIfence (s : State) : Host.Outcome State Fault Refusal :=
  (scalar { spec := true } fun _ => finish { spec := true } (fun t => { t with ahead := [] })).run s

end Sys2Proof.Machine
end

