-- ==== Sys2Proof/Machine/Outer.lean ====
section
/-! DEFINITION. What comes from outside the dies: inbound messages, accesses of UALink peers and of host harts (R41, R291, R292, R340, R367). -/

namespace Sys2Proof.Machine

/-! ## INBOUND_MESSAGE (R41) -/

/-- The bytes of a message record. -/
def messageBytes (i : Inbound) : List Byte :=
  bytes8 i.seq ++ bytes4 i.sender.toNat ++ bytes4 i.payload.length ++ i.payload ++ List.replicate (48 - i.payload.length) 0

/-- The acknowledgment of a transfer from another package. -/
def acknowledge (good : Bool) : Prog := .one (.pkg (fun g => { g with nack := !good }))

/-- A message refused, and counted by firmware (R367). -/
def refuseMessage : Prog := (acknowledge false).seq (.one (.pkg (fun g => { g with refusedMsgs := g.refusedMsgs + 1 })))

/-- INBOUND_MESSAGE: a message is written to its context's inbound queue and published, or refused with a negative acknowledgment; a full queue counts REFUSED, and from teardown on firmware counts for CTXDEAD.  A message for a context with no inbound queue is refused and counted as R367's are; a message whose queue faults or is not valid leaves the last acknowledgment as it was, and one whose slot or PIDX store faults has been acknowledged (DESIGN CHOICE, log 62). -/
def execInboundMessage (i : Inbound) (s : State) : Host.Outcome State Fault Refusal :=
  (Prog.get fun s =>
    let c := s.ctx i.ctx
    if (s.ctxs.get? i.ctx).isNone || decide (48 < i.payload.length) then refuseMessage
    else if c.teardown || c.dead then (acknowledge false).seq (.one (.ctx i.ctx (fun y => { y with lateMsgs := y.lateMsgs + 1 })))
    else if c.inbound = 0 then refuseMessage
    else match readDesc s i.ctx c.inbound 40 with
      | .error _ => dropRecord i.ctx c.inbound true
      | .ok d =>
        if !d.ok then dropRecord i.ctx c.inbound true
        else if d.full then
          (acknowledge false).seq <|
          match ctxNat s i.ctx (c.inbound + 0x20) 8 with
          | .error _ => .ret
          | .ok n => ctxStore false i.ctx (c.inbound + 0x20) (bytes8 (BitVec.ofNat 64 (n + 1))) .ret (fun _ => .ret)
        else (acknowledge true).seq (ctxStore false i.ctx (d.slot 64) (messageBytes i)
          (ctxStore true i.ctx c.inbound (bytes8 (d.pidx + 1)) .ret (fun _ => dropRecord i.ctx c.inbound true))
          (fun _ => dropRecord i.ctx c.inbound true))).run s

/-! ## Accesses of path H (R278, R291, R292) -/

/-- The answer of a port or to an outer agent. -/
def answerPort (bs : List Byte) : Prog := .one (.pkg (fun g => { g with port := bs }))

end Sys2Proof.Machine

namespace Sys2Proof

/-- Bytes of a word or a doubleword. -/
def wideBytes (w : Bool) : Nat := if w then 8 else 4

/-- Bytes that an outer access touches. -/
def OuterAccess.size (a : OuterAccess) : Nat :=
  match a.op with
  | .read n => n
  | .write bs => bs.length
  | .atomic _ w _ => wideBytes w
  | .lr w => wideBytes w
  | .sc w _ => wideBytes w

/-- What an outer access needs of its pages. -/
def OuterAccess.need (a : OuterAccess) : Machine.Need :=
  match a.op with
  | .read _ => .read
  | .lr _ => .read
  | _ => .write

/-- An atomic is naturally aligned, and its operation is one that R178 lists. -/
def OuterAccess.atomicOk (a : OuterAccess) : Bool :=
  match a.op with
  | .atomic op w _ => a.addr.toNat % wideBytes w == 0 && decide (op.toNat ≤ 10)
  | .lr w => a.addr.toNat % wideBytes w == 0
  | .sc w _ => a.addr.toNat % wideBytes w == 0
  | _ => true

/-- A store waits at its home for what holds it back, and for its line in M. -/
def OuterAccess.store (a : OuterAccess) : Bool :=
  match a.op with
  | .write _ => true
  | _ => false

/-- An access that may write at once, or reserves. -/
def OuterAccess.excl (a : OuterAccess) : Bool := a.need == .write || match a.op with
  | .lr _ => true
  | _ => false

end Sys2Proof

namespace Sys2Proof.Machine

/-- Bytes of physical pieces as they stand. -/
def piecesNow (s : State) (ps : List (Nat × Nat)) : List Byte := ps.flatMap (fun r => readBytes s r.1 r.2)

/-- A hart's reservation holds: it is of these pieces, and no other agent has written them since (R291). -/
def reserved (s : State) (p : Path) (r : Hart) (ps : List (Nat × Nat)) : Bool :=
  match r.reserve with
  | none => false
  | some (qs, n) => qs == ps && !s.hist.any (fun h => h.path != p && (wordsOfRun ps).contains h.word && decide (n ≤ h.stamp))

/-- A write of an atomic access that has its lines, with its role. -/
def outerWrite (p : Path) (role : Bool) (ps : List (Nat × Nat)) (bs : List Byte) : Prog := writeParts { path := p, role := role, sure := true } ps bs

/-- What an outer access does once it has its turn and its lines; `h` is the hart, for LR and SC. -/
def outerRun (p : Path) (h : Nat) (a : OuterAccess) (ps : List (Nat × Nat)) : Prog :=
  .get fun s =>
    let old := leNat (piecesNow s ps)
    let role := a.acquire || a.release
    let noted := Prog.one (.hist (fun hs => (wordsOfRun ps).foldl (fun hs k => markRead p k 0 hs) hs))
    match a.op with
    | .read _ => .all [ answerPort (ps.flatMap (fun r => bytesSeen s p r.1 r.2)), noteRead p ps ]
    | .write bs => writeParts { path := p, role := a.release } ps bs
    | .atomic op w x =>
      let k := 8 * wideBytes w
      .all [ answerPort (leBytes (k / 8) old), noted, outerWrite p role ps (leBytes (k / 8) (atomicOp op.toNat k old (x.toNat % 2 ^ k)).1) ]
    | .lr w => .all [ answerPort (leBytes (wideBytes w) old), noted, .one (.hart h (fun y => { y with reserve := some (ps, s.writes) })) ]
    | .sc w x =>
      let good := reserved s p (s.hart h) ps
      .all [ answerPort [if good then 0 else 1], .when good (outerWrite p role ps (leBytes (wideBytes w) x.toNat)), .one (.hart h (fun y => { y with reserve := none })) ]

/-- What an access needs its lines for; while its page is under migration LR reads like any read (R174). -/
def outerUse (a : OuterAccess) (locked : Bool) : LineUse :=
  if a.excl && !(locked && a.need == .read) then .write else if a.acquire then .sync else .plain

/-- An outer access performs on physical pieces: a release, an acquire, and its effect; it waits at its home no more. -/
def outerNow (p : Path) (h : Nat) (a : OuterAccess) (ps : List (Nat × Nat)) : Prog :=
  .get fun s =>
    .all [ leaveHome p false,
           .when (s.pkg.outers.any (fun w => w.1 == p)) (.one (.pkg (fun g => { g with outers := g.outers.filter (fun w => w.1 != p) }))),
           .when a.release (noteRelease p), .when a.acquire (noteAcquire p (wordsOfRun ps)), outerRun p h a ps ]

/-- The effect of an outer access on physical pieces.  A store goes to its home, where it waits for what holds it back.  Another waits for the agent's own writes to its words, a release for all of them; one that writes, on a page under migration, waits at the home from then on, in its order and not translated again (R174).  An agent whose access waits there makes no other. -/
def outerEffect (p : Path) (h : Nat) (a : OuterAccess) (ps : List (Nat × Nat)) : Prog :=
  .get fun s =>
    let locked := fun (qs : List (Nat × Nat)) => qs.any (fun r => (lockedTo s r.1).isSome)
    match s.pkg.outers.find? (fun w => w.1 == p) with
    | some w =>
      let es := waitingAtomic s p false
      let x := planOf es
      .when (w.2 == a && !locked x.phys && !behindWrites s p 0 x es) (needLines p .write (linesOf x.phys) (outerNow p h a x.phys) .ret)
    | none =>
      if a.store then .all [ .when a.acquire (noteAcquire p (wordsOfRun ps)), outerRun p h a ps ]
      else if (a.release && pathStalls s p) || readStalls s p ps then .ret
      else if locked ps && a.need == .write then
        (enqueueAtomic { path := p } { pieces := ps.map (fun r => Piece.phys r.1 r.2), used := [] }).seq
          (.one (.pkg (fun g => { g with outers := g.outers ++ [(p, a)] })))
      else needLines p (outerUse a (locked ps)) (linesOf ps) (outerNow p h a ps) .ret

/-- Why the page of an address does not serve an access: its tables do not permit it, or what they name may not be reached (R159, R340). -/
def refusedBy (s : State) (x : Nat) (need : Need) (a : W64) : HartFault :=
  match walk s (s.ctx x).asid (s.ctx x).root a with
  | some e => if Pte.allows e.pte need then .access else .page
  | none => .page

/-- An access through a context's tables; one that its pages do not permit, or that reaches a device page of a protected context (R340), is not performed: `no` follows. -/
def outerAccess (p : Path) (h : Nat) (a : OuterAccess) (no : HartFault → W64 → Prog) : Prog :=
  .get fun s =>
    if (s.ctxs.get? a.ctx).isNone then no .page a.addr
    else if !a.atomicOk then no .misaligned a.addr
    else match ctxRun s a.ctx a.need a.addr a.size with
      | .error e => no (refusedBy s a.ctx a.need e) e
      | .ok ps => if ps.any (fun r => barred s none r.1) then no .access a.addr else outerEffect p h a ps

/-- An access lies in one of a context's external-shared ranges (R292). -/
def inShared (c : Ctx) (a : OuterAccess) : Bool :=
  c.shared.any (fun r => decide (r.1.toNat ≤ a.addr.toNat) && decide (a.addr.toNat + a.size ≤ r.1.toNat + r.2.toNat))

/-- LR and SC are a hart's (R291). -/
def hartOnly : OuterOp → Bool
  | .lr _ => true
  | .sc _ _ => true
  | _ => false

/-- PEER_ACCESS: outside the external-shared ranges it is refused with a negative acknowledgment and not performed. -/
def execPeerAccess (a : OuterAccess) (s : State) : Host.Outcome State Fault Refusal :=
  (Prog.get fun s =>
    if !inShared (s.ctx a.ctx) a || hartOnly a.op then acknowledge false
    else (acknowledge true).seq (outerAccess (.peer a.agent) 0 a (fun _ _ => acknowledge false))).run s

/-- A host hart as an agent, by 8 die + core. -/
def hartPath (h : Nat) : Path := .host (h % 32)

/-- A hart's fault, or that it has none. -/
def hartFault (h : Nat) (f : Option (HartFault × W64)) : Prog := .get fun s => .when ((s.hart h).fault != f) (.one (.hart h (fun y => { y with fault := f })))

/-- HOST_HART_ACCESS; one that may not be performed faults on the hart (R340). -/
def execHostHartAccess (a : OuterAccess) (s : State) : Host.Outcome State Fault Refusal :=
  ((hartFault (a.agent % 32) none).seq (outerAccess (hartPath a.agent) (a.agent % 32) a (fun f e => hartFault (a.agent % 32) (some (f, e))))).run s

end Sys2Proof.Machine
end

