-- ==== Sys2Proof/Machine/Trap.lean ====
section
/-! DEFINITION. Delivery of pending causes, kills, context resets and firmware events (R321, R322, R326, R329, R341). -/

namespace Sys2Proof.Machine

def execTrapDelivery (t : Nat) (s : State) : Host.Outcome State Fault Refusal := (deliverPending t).run s

/-! ## What a stop waits for (R332, R275) -/

/-- A group of a started MMA is in a chunk: it has begun its steps and not written it (R257). -/
def midChunk (e : MatrixEntry) (d : W64) : Bool := e.started && (activeGroups d).any (fun g => e.steps.getD g 0 != 2 * e.next.getD g 0)

/-- An MMA that waits for a slice reload which a page fault holds (R256, R329). -/
def MatrixEntry.loadFaulted (c : Core) (e : MatrixEntry) : Bool := e.started && c.reloads.any (fun r => e.op.runs r.1 && r.2.2.isSome)

/-- Matrix instructions of a block that come first to an end, an MMA to the end of every group's chunk, but for what waits on a page fault, of its own or of a slice reload of an MMA on its tiles (R257, R275, R329); under a reset of the context drains write nothing more (R343). -/
def mustEnd (s : State) (b : Nat) : Bool :=
  let c := s.core (s.block b).core
  c.queue.any (fun (e : MatrixEntry) => (s.block b).teams.contains e.team && engineEnds s e
    && !c.queue.any (fun x => x.loadFaulted c && x.op.tiles.any e.op.tiles.contains)
    && (match e.op with
     | .mma _ _ _ _ d _ _ => !e.spec && midChunk e d
     | _ => e.started && e.faultAt.isNone))

/-- A lane result that a team's speculation waits for is still to return (R274). -/
def specWaits (s : State) (t : Nat) : Bool :=
  let m := s.team t
  m.spec.any (fun p => m.laneDests.contains p.a || m.laneDests.contains p.b) && lanesRun s t

/-- Writes of a block's agents are not performed yet. -/
def blockStalls (s : State) (b : Nat) : Bool := s.pkg.stalled.any (fun e => ((s.block b).agents b).contains e.path)

/-- What is to end before a block that a kill stops is gone: matrix work that has begun, and, but for a reset of its context, its issued stores; an atomic that waits has performed nothing (R332, R341, R343). -/
def killWaits (s : State) (b : Nat) : Bool :=
  mustEnd s b || ((s.ctx (s.block b).ctx).resetCode == 0
    && (s.pkg.stalled.any (fun e => !e.rmw && ((s.block b).agents b).contains e.path) || (s.block b).teams.any (specWaits s)))

/-! ## Kills (R341) -/

/-- Overlays that a block's entries were loading are no longer loading (R207). -/
def dropLoads (b : Nat) : Prog :=
  .get fun s =>
    .each ((s.block b).ring.entries.filterMap Entry.loads) (fun k => .one (.core (s.block b).core (fun x =>
      { x with slots := x.slots.modify k (fun o => { o with loading := false, valid := false }) })))

/-- BLOCK_KILL: the block stops as R332 gives, nothing of it is saved, its queued work is discarded and its resources are freed; a context under reset writes nothing more (R343). -/
def killBlock (b : Nat) : Prog :=
  .get fun s =>
    let y := s.block b
    if (s.blocks.get? b).isNone || (y.phase == .killed false && killWaits s b) then .ret
    else match y.phase with
      | .killed false =>
        .all [ .when ((s.ctx y.ctx).resetCode == 0) (.each y.teams (fun t => dropSpec t (fun p => p.pc))),
               dropLoads b,
               clearWatches b,
               leaveStorage b,
               removeBlock b ]
      | .killed true => .all [ .one (.pkg (fun g => { g with saves := g.saves.del b })), removeBlock b ]
      | _ => .ret

def execBlockKill (b : Nat) (s : State) : Host.Outcome State Fault Refusal := (killBlock b).run s

/-! ## Context resets (R341) -/

/-- A reset begins: the context is dead to new work, and every block of it is to be killed. -/
def beginReset (x code : Nat) : Prog :=
  .get fun s =>
    .when ((s.ctxs.get? x).isSome && (s.ctx x).resetCode == 0 && !(s.ctx x).dead)
      (.all [ .one (.ctx x (fun y => { y with teardown := true, resetCode := code })), condemn (fun b => b.ctx == x) ])

/-- The queues of a context. -/
def ctxQueues (s : State) (x : Nat) : List (Nat × QueueCtx) := s.queues.filter (fun q => q.2.ctx == x)

/-- The destroy sequence of a queue under a reset: its open records receive 0xFFFF_FFFF_FFFF_FFFD (R31, R341). -/
def resetQueue (q : Nat) : Prog :=
  .get fun s =>
    .all [ .one (.queue q (fun k => { k with state := .destroying, kill := true, endval := -3 })),
           endWords q (openWords s q) 0 (fun n =>
             .all [ .one (.queue q (fun k => { k with state := .destroyed })), writeCtrl q, notify q 3 0 (BitVec.ofNat 64 n) 0 ]) ]

/-- One queue for each distinct notification queue of a context: SOURCE of CTXDEAD names the lowest-numbered of those that share one (DESIGN CHOICE, log 35: R39 does not say which). -/
def notifiers (qs : List (Nat × QueueCtx)) : List Nat :=
  (qs.foldl (fun acc q => if q.2.nq = 0 || acc.any (fun a => a.2 == q.2.nq) then acc else acc ++ [(q.1, q.2.nq)]) []).map Prod.fst

/-- CTXDEAD's INFO0: inbound messages refused during teardown, 0 where no inbound queue is registered (R39, R41). -/
def lateCount (c : Ctx) : W64 := if c.inbound = 0 then 0 else BitVec.ofNat 64 c.lateMsgs

/-- CONTEXT_RESET: once every block of the context is gone, its queues are destroyed, its records discarded, and CTXDEAD is posted last. -/
def finishReset (x code : Nat) : Prog :=
  .get fun s =>
    let c := s.ctx x
    let qs := ctxQueues s x
    if (s.ctxs.get? x).isNone || code == 0 || c.resetCode != code || s.blocks.any (fun b => b.2.ctx == x) then .ret
    else
      .all [ .each qs (fun q => resetQueue q.1),
             .get fun s => .each (notifiers qs) (fun q => notify q 7 code (lateCount (s.ctx x)) 0),
             .each (s.launches.filter (fun l => l.2.ctx == x)) (fun l => .one (.dropLaunch l.1)),
             .each qs (fun q => .one (.dropQueue q.1)),
             .one (.pkg (fun g => { g with saves := g.saves.keep (fun b _ => (s.block b).ctx != x) })),
             .one (.ctx x (fun y => { y with dead := true, resetCode := 0, tokens := [], calls := [] })) ]

def execContextReset (x code : Nat) (s : State) : Host.Outcome State Fault Refusal := (finishReset x code).run s

/-! ## Firmware events (R326) -/

/-- The handle that a PAGEFAULT event names, 256 die + slot. -/
def handleOf (s : State) (h : Nat) : Option FaultHandle := (s.die (h / 256)).handles.get? (h % 256)

/-- Agents that wait on a handle wait no longer; a migrating transfer runs again from its start (R309). -/
def releaseWaiters (h : Nat) : Prog :=
  .get fun s =>
    let clear := fun (x : Option Nat) => if x = some h then none else x
    .all [ .each (s.teams.filter (fun t => t.2.faultAt == some h || t.2.laneFaultAt == some h))
             (fun t => .one (.team t.1 (fun m =>
               { m with faultAt := clear m.faultAt, laneFaultAt := clear m.laneFaultAt, migr := if m.faultAt = some h then none else m.migr }))),
           .each (s.blocks.filter (fun b => b.2.ring.entries.any (fun e => e.faultAt == some h) || b.2.ring.faultAt.any (fun f => f.1 == h)))
             (fun b => .one (.block b.1 (fun y => { y with ring := { y.ring with
               entries := y.ring.entries.map (fun e => { e with faultAt := clear e.faultAt }), faultAt := y.ring.faultAt.filter (fun f => f.1 != h) } }))),
           .each (s.cores.filter (fun c => c.2.queue.any (fun e => e.faultAt == some h) || c.2.reloads.any (fun r => r.2.2 == some h)))
             (fun c => .one (.core c.1 (fun y =>
               { y with queue := y.queue.map (fun e => { e with faultAt := clear e.faultAt }), reloads := y.reloads.mapVals (fun _ r => (r.1, clear r.2)) }))) ]

/-- The handle's slot is free again. -/
def closeHandle (h : Nat) : Prog := .one (.die (h / 256) (fun d => { d with handles := d.handles.del (h % 256) }))

/-- LOADPF or STOREPF, by the access kind of the fault (R329, R330). -/
def refusedCause (kind : Nat) : Nat := if kind = 1 ∨ kind = 3 ∨ kind = 4 then 6 else 5

/-- What a refusal does to the agents that wait: a team's instruction takes LOADPF or STOREPF, and an engine's fault is an unhandled fault of its team. -/
def refuseWaiters (h : Nat) (f : FaultHandle) : Prog :=
  .get fun s =>
    let c := refusedCause f.kind
    let scalars := (s.teams.filter (fun t => t.2.faultAt == some h)).map Prod.fst
    let lanes := (s.teams.filter (fun t => t.2.laneFaultAt == some h)).map Prod.fst
    let copies := s.blocks.flatMap (fun b => (b.2.ring.entries.filter (fun e => e.faultAt == some h)).map (·.team)
      ++ (b.2.ring.faultAt.filter (fun f => f.1 == h)).map Prod.snd)
    let drains := s.cores.flatMap (fun k => (k.2.queue.filter (fun e => e.faultAt == some h)).map (·.team))
    let loads := s.cores.flatMap (fun k => (k.2.reloads.filter (fun r => r.2.2 == some h)).map (fun r => reloadTeam s k.1 r.1))
    .all [ releaseWaiters h,
           .each scalars (fun t => .get fun s => takeTrap t c f.addr (s.team t).pc false false),
           .each lanes (fun t => .get fun s => takeTrap t c f.addr (s.team t).pc true true),
           .each (copies ++ drains ++ loads) (fun t => .get fun s => unhandled t c f.addr (s.team t).pc) ]

/-- A fault on a device page of another, protected context, which firmware refuses (R340). -/
def refusedPage (s : State) (f : FaultHandle) : Bool :=
  match walk s (s.ctx f.ctx).asid (s.ctx f.ctx).root f.addr with
  | none => false
  | some e => barred s (some f.ctx) (e.pa + (f.addr.toNat - e.page))

/-- PAGEFAULT (R329); a fault that firmware refuses is answered at once (R321, R340). -/
def postPageFault (h : Nat) : Prog :=
  .get fun s =>
    match handleOf s h with
    | none => .ret
    | some f => if refusedPage s f then (closeHandle h).seq (refuseWaiters h f) else notify f.queue 5 f.kind (BitVec.ofNat 64 (f.teamid.toNat * 2 ^ 32 + h)) f.addr

/-- The firmware team of a die: slot 0 of core 0. -/
def firmwareTeam (d : Nat) : Nat := 32 * (96 * d)

/-- FIRMWARE_EVENT: the oldest waiting event enters firmware, which executes no ERET before the next; an instruction of firmware that waits is left for after it, and a page fault is relayed to the host OS. -/
def execFirmwareEvent (d : Nat) (s : State) : Host.Outcome State Fault Refusal :=
  (Prog.get fun s =>
    let c := s.core (96 * d)
    match c.events with
    | [] => .ret
    | (cause, val) :: rest =>
      if c.inEvent then .ret
      else
        .all [ endWait (firmwareTeam d),
               .get fun s => .one (.core (96 * d) (fun y =>
                 { y with events := rest, inEvent := true, fepc := (s.team (firmwareTeam d)).pc, fcause := BitVec.ofNat 32 cause, fval := val })),
               .one (.team (firmwareTeam d) (fun m => { m with pc := Config.firmwareEntry })),
               .when (cause == 5) (postPageFault val.toNat) ]).run s

end Sys2Proof.Machine
end

