-- ==== Sys2Proof/Machine/Foreign.lean ====
section
/-! DEFINITION. Calls across instruction sets: the posts of migrating teams, the records of the landing queues, and host-called teams (R305 to R317). -/

namespace Sys2Proof.Machine

/-! ## Migration records (R307, R308) -/

/-- The registers that a record holds. -/
def recordRegs (b : List Byte) : List W64 := (List.range 64).map (fun i => field64 b (0x40 + 8 * i))

/-- The reserved fields of a record are zero. -/
def recordReserved (b : List Byte) : Bool := field b 4 4 == 0 && field b 0x30 16 == 0 && field b 0x2C0 64 == 0

/-- A record of a landing queue by index (R307). -/
def Desc.record (d : Desc) (i : W64) : W64 := d.base + BitVec.ofNat 64 (0x300 * (i.toNat % 2 ^ d.log2n))

/-! ## Posts of teams (R309, R315, R316) -/

/-- Nothing of the team is outstanding: no speculation, every batch completed, every store of its path acknowledged, and no page fault unanswered. -/
def mayPost (s : State) (t : Nat) (m : Team) (g : Migration) : Bool :=
  m.spec.isNone && (m.lanes.isEmpty || (m.held && g.kind == 4 && g.target == 0)) && !pathStalls s (.team t)
    && m.faultAt.isNone && !m.stopped && !m.exited && m.suspended.isNone && blockRuns s t

/-- The team waits at its transfer on a page fault of the post (R309). -/
def postFault (t kind : Nat) (va : W64) : Prog :=
  pageFault t kind va (fun h => .one (.team t (fun m => { m with faultAt := if h = 1024 then none else some h })))

/-- A post meets a stop. -/
def postStop (t : Nat) : Stop → Prog
  | .trap c v => .get fun s => takeTrap t c v (s.team t).pc false false
  | .page k va => postFault t k va

/-- An access of a post, on path L of the team. -/
def postAccess (t : Nat) (need : Need) (a : W64) (n : Nat) (k : Plan → Prog) : Prog :=
  .get fun s =>
    match globalPlan s (s.spaceOf t) need a n with
    | .error e => postStop t e
    | .ok p => (noteTlb (s.spaceOf t) p.used).seq (k p)

/-- The registers that a migration carries: with the link in place where there is one. -/
def carried (m : Team) (g : Migration) : List W64 :=
  (match g.link with
   | some r => m.setReg r (m.pc + 4)
   | none => m).g.toList

/-- The record of a team's migration, by kind. -/
def teamRecord (m : Team) (g : Migration) (sq : W64) : List Byte :=
  let rs := carried m g
  let back := g.kind == 4
  recordBytes g.kind sq (if back then m.token.getD 0 else m.teamid.setWidth 64) g.target (if back then 0 else rs.getD 1 0) m.width
    (if g.kind = 5 then m.msum else 0) rs (if g.kind = 5 then m.m else 0)

/-- Once PIDX is stored the link is written, and the team is suspended, or has ended where it returned to its caller. -/
def posted (t : Nat) (g : Migration) : Prog :=
  .get fun s =>
    let m := s.team t
    let rs := carried m g
    let link := fun (m : Team) => match g.link with | some r => m.setReg r (m.pc + 4) | none => m
    if g.kind = 4 then endTeam t
    else .one (.team t (fun m => { (link m).retire {} m.pc with suspended := some { raddr := rs.getD 1 0 } }))

/-- A post has its turn and its lines: no write that is not performed touches the queue's words, none of its pages is under migration, and its lines are there in M. -/
def postReady (t : Nat) (r w : List (Nat × Nat)) (k : Prog) : Prog :=
  .get fun s =>
    .when (!anyStalls s (r ++ w) && !(r ++ w).any (fun y => (lockedTo s y.1).isSome)) (needLines (.team t) .write (linesOf (r ++ w)) k .ret)

/-- Post a team's migration to the host landing queue, with release; while the queue is full, or its descriptor is not valid (log 32), it waits (R316). -/
def postMigration (t kind : Nat) : Prog :=
  .get fun s =>
    let m := s.team t
    match m.migr with
    | none => .ret
    | some g =>
      if g.kind != kind || !mayPost s t m g then .ret
      else
        let a := (s.ctxOf t).hostLanding
        postAccess t .read a 64 fun p => .get fun s =>
          let d := descOf 32 (p.phys.flatMap (fun r => readBytes s r.1 r.2))
          if !d.ok || d.full then .ret
          else postAccess t .write (d.record d.pidx) 0x300 fun w => postAccess t .write a 8 fun x =>
            postReady t p.phys w.phys (.get fun s =>
              let put := fun (role : Bool) => writeParts { path := .team t, blk := m.blk, role := role, sure := true }
              .all [ put false w.phys (teamRecord m g (BitVec.ofNat 64 s.seq)),
                     .one .drawSeq,
                     noteRelease (.team t),
                     put true x.phys (bytes8 (d.pidx + 1)),
                     posted t g ])

/-- CALL_POST (R309). -/
def execCallPost (t : Nat) (s : State) : Host.Outcome State Fault Refusal := (postMigration t 1).run s

/-- SYSCALL_POST (R316). -/
def execSyscallPost (t : Nat) (s : State) : Host.Outcome State Fault Refusal := (postMigration t 5).run s

/-- HRETURN_POST (R315). -/
def execHreturnPost (t : Nat) (s : State) : Host.Outcome State Fault Refusal := (postMigration t 4).run s

/-! ## The device landing queue (R308, R310, R312) -/

/-- The oldest record of a landing queue, with its descriptor; none where the queue is empty, is not valid (log 32) or cannot be read. -/
def oldestRecord (s : State) (x : Nat) (a : W64) : Option (Desc × List Byte) :=
  if a = 0 then none
  else match readDesc s x a with
    | .error _ => none
    | .ok d =>
      if !d.ok || d.pidx = d.cidx then none
      else match ctxBytes s x (d.record d.cidx) 0x300 with
        | .error _ => none
        | .ok b => some (d, b)

/-- A record is consumed: CIDX moves with release. -/
def consume (p : Path) (x : Nat) (a : W64) (d : Desc) : Prog := agentStore p true x (a + 8) (bytes8 (d.cidx + 1)) .ret (fun _ => .ret)

/-- A record is discarded, and firmware counts it. -/
def discardRecord (x : Nat) (a : W64) (d : Desc) : Prog :=
  (consume (.front x) x a d).seq (.one (.pkg (fun g => { g with discarded := g.discarded + 1 })))

/-- A block that is to be killed. -/
def doomed (p : BlockPhase) : Bool :=
  match p with
  | .killed _ => true
  | _ => false

/-- The suspended team of a context that a RETURN names. -/
def returnTeam (s : State) (x : Nat) (b : List Byte) : Option (Nat × Team) :=
  s.teams.find? (fun t => t.2.teamid.toNat == field b 0x10 8 && (s.block t.2.blk).ctx == x && t.2.suspended.isSome
    && !doomed (s.block t.2.blk).phase)

/-- RADDR and TARGET of a RETURN are those of the record with which the team suspended (R308). -/
def returnMatches (m : Team) (b : List Byte) : Bool :=
  field64 b 0x18 == field64 b 0x20 && (match m.suspended with | some p => p.raddr == field64 b 0x20 | none => false)

/-- The team resumes at TARGET with the record's registers, which it acquires (R310, R311). -/
def resumeTeam (t : Nat) (b : List Byte) : Prog :=
  .all [ noteAcquire (.team t) [],
         .one (.team t (fun m =>
           { m with
             g := Vector.ofFn (fun (i : Fin 64) => if i.val = 0 then m.g[0] else (recordRegs b).getD i.val 0)
             pc := field64 b 0x18
             suspended := none })) ]

/-- RETURN: the oldest record of the device landing queue, unless it is an HCALL, resumes the team it names or is discarded; while that team's block is off its core the record waits (R308, R310, R332). -/
def execReturnRec (x : Nat) (s : State) : Host.Outcome State Fault Refusal :=
  (Prog.get fun s =>
    let a := (s.ctx x).devLanding
    match oldestRecord s x a with
    | none => .ret
    | some (d, b) =>
      if field b 0 4 = 3 && !(s.ctx x).dead then .ret
      else if field b 0 4 ≠ 2 || !recordReserved b || (s.ctx x).dead then discardRecord x a d
      else match returnTeam s x b with
        | none => discardRecord x a d
        | some (t, m) =>
          if !returnMatches m b then discardRecord x a d
          else .when (blockRuns s t) ((resumeTeam t b).seq (consume (.front x) x a d))).run s

/-! ## HCALL (R312 to R314) -/

/-- The queue context of a context that a profile word names by its descriptor (R361). -/
def profileQueue (s : State) (x : Nat) : Option Nat :=
  (s.queues.find? (fun q => q.2.ctx == x && q.2.desc == (s.ctx x).profileWord &&& ~~~(0xFF : W64))).map Prod.fst

/-- A context has a call profile. -/
def hasProfile (c : Ctx) : Bool := c.profile != 0 && c.profileWord != 0

/-- The width that the word at TARGET asks for, where it is a valid WIDEN (R312, R314).  The read needs what a code read needs (DESIGN CHOICE, log 42: R19 does not list it). -/
def widenAt (s : State) (x : Nat) (ardel : Bool) (target : W64) : Option Nat :=
  match ctxRun s x .exec target 4 with
  | .error _ => none
  | .ok ps =>
    match decodeScalar (BitVec.ofNat 32 (leNat (ps.flatMap (fun r => readBytes s r.1 r.2)))) with
    | .ok (.widen w) => if widenOk ardel w.toNat then some w.toNat else none
    | _ => none

/-- The launch that an HCALL record makes (R313). -/
def callLaunch (s : State) (x q : Nat) (h : Header) (ovs : List OverlayRef) (b : List Byte) : Launch :=
  let c := s.ctx x
  let w := widenAt s x h.ardel (field64 b 0x18)
  { State.blankLaunch with
    ctx := x
    queue := q
    call := some (field64 b 0x18, recordRegs b)
    token := field64 b 0x10
    widened := w.isSome
    hdr := { h with width := w.getD 32, teams := 1 }
    ovs := ovs
    prio := max (s.queue q).prio (c.profileWord.toNat % 4)
    kof := c.profileWord.getLsbD 3
    gx := 1
    gy := 1
    gz := 1
    tag := field64 b 8
    kdesc := c.profile
    thr := readThresholds s x
    profBlock := c.profBlock
    traceQ := c.traceQ
    ready := some s.pkg.nextOrder }

/-- HCALL: the oldest record of the device landing queue starts a launch of one team from the call profile; where the header check fails, the hart is answered at once. -/
def execHcall (x : Nat) (s : State) : Host.Outcome State Fault Refusal :=
  (Prog.get fun s =>
    let c := s.ctx x
    let a := c.devLanding
    match oldestRecord s x a with
    | none => .ret
    | some (d, b) =>
      if field b 0 4 ≠ 3 || !s.pkg.microcode.isEmpty then .ret
      else if !recordReserved b || c.dead || c.teardown || !hasProfile c then discardRecord x a d
      else
        let q := (profileQueue s x).getD 256
        let fail := fun (r : Nat) (e : W64) =>
          if hostSlotFree s x then Prog.all [ notify q 2 r 0 e, hreturnZero x 0 (field64 b 0x10) (recordRegs b), consume (.front x) x a d ] else .ret
        match readHeader s x c.profile with
        | .error (r, e) => fail r e
        | .ok (h, ovs) =>
          if h.spill then fail 0x13 0
          else .all [ .one (.launch s.pkg.nextLaunch (fun _ => callLaunch s x q h ovs b)),
                      .one (.pkg (fun g => { g with nextLaunch := g.nextLaunch + 1, nextOrder := g.nextOrder + 1 })),
                      consume (.front x) x a d ]).run s

/-! ## Harts (R310, R316) -/

/-- A hart finds an executable page of the Darion at an address (R19). -/
def hartFinds (s : State) (x : Nat) (a : W64) : Bool := canonical a && pageTag s (ctxSpace s x 0) a == some 2

/-- A hart posts a record to the device landing queue, a release of its thread (R311); while the queue is full or not valid (log 32), or a write of the hart is not performed, it waits. -/
def hartPost (h x : Nat) (mk : W64 → List Byte) (k : Prog) : Prog :=
  .get fun s =>
    let a := (s.ctx x).devLanding
    let p := hartPath h
    match readDesc s x a with
    | .error _ => .ret
    | .ok d =>
      if a = 0 || !d.ok || d.full || pathStalls s p || !descQuiet s x a then .ret
      else
        let q := BitVec.ofNat 64 s.seq
        .upd .drawSeq (.all [ noteRelease p,
          agentStore p false x (d.record d.pidx) (mk q) (agentStore p true x a (bytes8 (d.pidx + 1)) k (fun _ => .ret)) (fun _ => .ret) ])

/-- HART_DARION_FETCH: a thread's fetch from a Darion page posts RETURN when it goes to the top RADDR of its token stack, and HCALL otherwise, as a thread that is no landing thread always does; without a call profile the hart takes its own fault. -/
def execHartDarionFetch (f : HartFetch) (s : State) : Host.Outcome State Fault Refusal :=
  (Prog.get fun s =>
    let c := s.ctx f.ctx
    let stack := (c.tokens.get? f.thread).getD []
    let regs := 0 :: f.regs
    let call :=
      if !hasProfile c then Prog.ret
      else hartPost f.hart f.ctx (fun q => recordBytes 3 q (BitVec.ofNat 64 f.thread) f.target 0 0 0 regs 0)
        (.one (.ctx f.ctx (fun y => { y with calls := y.calls.put f.thread (BitVec.ofNat 64 f.thread) })))
    if c.dead || (c.calls.get? f.thread).isSome || !hartFinds s f.ctx f.target then .ret
    else match stack with
      | [] => call
      | (token, raddr) :: rest =>
        if raddr != f.target then call
        else hartPost f.hart f.ctx (fun q => recordBytes 2 q (token.setWidth 64) f.target raddr 0 0 regs 0)
          (.one (.ctx f.ctx (fun y => { y with tokens := y.tokens.put f.thread rest })))).run s

/-- The landing thread that takes a CALL or a SYSCALL: the lowest that waits for no reply and runs no call, or else that waits for no reply. -/
def landingThread (c : Ctx) : Option Nat :=
  let idle := (List.range c.threads).filter (fun t => (c.calls.get? t).isNone)
  match idle.find? (fun t => ((c.tokens.get? t).getD []).isEmpty) with
  | some t => some t
  | none => idle.head?

/-- HOST_SLOT_FREED: a landing thread on a hart takes the oldest record of the host landing queue, which it acquires (R311), and the store of CIDX frees its slot. -/
def execHostSlotFreed (l : Landing) (s : State) : Host.Outcome State Fault Refusal :=
  (Prog.get fun s =>
    let x := l.ctx
    let c := s.ctx x
    let p := hartPath l.hart
    match oldestRecord s x c.hostLanding with
    | none => .ret
    | some (d, b) =>
      let free := (noteAcquire p []).seq (consume p x c.hostLanding d)
      if pathStalls s p || !descQuiet s x c.hostLanding then .ret else
      if field b 0 4 = 4 then
        free.seq (.one (.ctx x (fun y => { y with calls := y.calls.keep (fun _ k => k != field64 b 0x10) })))
      else match landingThread c with
        | none => .ret
        | some t =>
          free.seq (.one (.ctx x (fun y =>
            { y with tokens := y.tokens.put t ((BitVec.ofNat 32 (field b 0x10 4), field64 b 0x20) :: (y.tokens.get? t).getD []) })))).run s

end Sys2Proof.Machine
end

