-- ==== Sys2Proof/Machine/ScalarFp.lean ====
section
/-! DEFINITION. Scalar floating-point instructions (R100 to R107). -/

namespace Sys2Proof.Machine

open Sys2Proof.Fp hiding Num

/-- A scalar floating-point instruction: its result and its events are computed from the team, and the events go to its launch's counters (R107). -/
def fpOp (u : Use) (d : GReg) (f : Team → W64 × List Nat) : Prog :=
  scalar u fun t =>
    (finish u (fun m => m.setReg d (f t).1)).seq (.get fun s => countEvents s.cur (f t).2)

/-- A rounding operation on two operands of one format. -/
def fpArith (d a b : GReg) (w : Bool) (f : Fp.Num → Fp.Num → Res) : Prog :=
  fpOp (use2 d a b) d (fun t =>
    let k := scalarFmt w
    let r := f (k.decode (fpBits w (t.reg a))) (k.decode (fpBits w (t.reg b)))
    (fpReg w r.bits, countsOf r k))

/-- A rounding operation on one operand, from one format to another. -/
def fpUnary (d a : GReg) (src dst : Bool) (f : Fp.Num → Res) : Prog :=
  fpOp (use1 d a) d (fun t =>
    let r := f ((scalarFmt src).decode (fpBits src (t.reg a)))
    (fpReg dst r.bits, countsOf r (scalarFmt dst)))

/-- FMIN and its kin return an operand's own bits (R103). -/
def fpMinMax (d a b : GReg) (w isMax number : Bool) : Prog :=
  fpOp (use2 d a b) d (fun t =>
    let r := minMax (scalarFmt w) isMax number (fpBits w (t.reg a)) (fpBits w (t.reg b))
    (fpReg w r.bits, countsOf r (scalarFmt w)))

/-- A comparison writes 1 or 0 and counts nothing (R104). -/
def fpCompare (d a b : GReg) (w : Bool) (f : Fp.Num → Fp.Num → Bool) : Prog :=
  fpOp (use2 d a b) d (fun t =>
    let k := scalarFmt w
    (if f (k.decode (fpBits w (t.reg a))) (k.decode (fpBits w (t.reg b))) then 1 else 0, []))

/-- Neither operand is a NaN, and their order is one of these. -/
def ordered (os : List Ordering) (x y : Fp.Num) : Bool := !isNan x && !isNan y && os.contains (order x y)

/-- A conversion to an integer in [lo, hi] (R105). -/
def fpToInt (d a : GReg) (w : Bool) (r : Rm) (lo hi : Int) : Prog :=
  fpOp (use1 d a) d (fun t =>
    let k := scalarFmt w
    let (n, ev) := toRange r lo hi (k.decode (fpBits w (t.reg a)))
    (BitVec.ofInt 64 n, ev.map (fun e => e.num k.code)))

/-- The exact product plus a third value, rounded once (R106); an invalid product is a NaN whatever the third is. -/
def fmaRes (f : Fmt) (rm : Rm) (x y z : Fp.Num) : Res := deliver f rm (add rm (mul x y) z)

def execFadd (d a b : GReg) (w : Bool) (r : Rm) (s : State) : Host.Outcome State Fault Refusal :=
  (fpArith d a b w (fun x y => deliver (scalarFmt w) r (add r x y))).run s
def execFsub (d a b : GReg) (w : Bool) (r : Rm) (s : State) : Host.Outcome State Fault Refusal :=
  (fpArith d a b w (fun x y => deliver (scalarFmt w) r (add r x (neg y)))).run s
def execFmul (d a b : GReg) (w : Bool) (r : Rm) (s : State) : Host.Outcome State Fault Refusal :=
  (fpArith d a b w (fun x y => deliver (scalarFmt w) r (mul x y))).run s
def execFdiv (d a b : GReg) (w : Bool) (r : Rm) (s : State) : Host.Outcome State Fault Refusal :=
  (fpOp { use2 d a b with long := true } d (fun t =>
    let k := scalarFmt w
    let x := div k r (k.decode (fpBits w (t.reg a))) (k.decode (fpBits w (t.reg b)))
    (fpReg w x.bits, countsOf x k))).run s
def execFsqrt (d a : GReg) (w : Bool) (r : Rm) (s : State) : Host.Outcome State Fault Refusal :=
  (fpOp { use1 d a with long := true } d (fun t =>
    let k := scalarFmt w
    let x := sqrt k r (k.decode (fpBits w (t.reg a)))
    (fpReg w x.bits, countsOf x k))).run s
def execFmin (d a b : GReg) (w : Bool) (s : State) : Host.Outcome State Fault Refusal := (fpMinMax d a b w false false).run s
def execFmax (d a b : GReg) (w : Bool) (s : State) : Host.Outcome State Fault Refusal := (fpMinMax d a b w true false).run s
def execFminn (d a b : GReg) (w : Bool) (s : State) : Host.Outcome State Fault Refusal := (fpMinMax d a b w false true).run s
def execFmaxn (d a b : GReg) (w : Bool) (s : State) : Host.Outcome State Fault Refusal := (fpMinMax d a b w true true).run s
def execFcmpEq (d a b : GReg) (w : Bool) (s : State) : Host.Outcome State Fault Refusal := (fpCompare d a b w (ordered [.eq])).run s
def execFcmpLt (d a b : GReg) (w : Bool) (s : State) : Host.Outcome State Fault Refusal := (fpCompare d a b w (ordered [.lt])).run s
def execFcmpLe (d a b : GReg) (w : Bool) (s : State) : Host.Outcome State Fault Refusal :=
  (fpCompare d a b w (ordered [.lt, .eq])).run s
def execFcmpUn (d a b : GReg) (w : Bool) (s : State) : Host.Outcome State Fault Refusal :=
  (fpCompare d a b w (fun x y => isNan x || isNan y)).run s

/-- FCVT.F: `w` is the width of the result; widening is exact and ignores the mode (R105). -/
def execFcvtF (d a : GReg) (w : Bool) (r : Rm) (s : State) : Host.Outcome State Fault Refusal :=
  (fpUnary d a (!w) w (deliver (scalarFmt w) r)).run s
def execFcvtI (d a : GReg) (w : Bool) (r : Rm) (s : State) : Host.Outcome State Fault Refusal :=
  (fpToInt d a w r (-2 ^ 63) (2 ^ 63 - 1)).run s
def execFcvtN (d a : GReg) (w : Bool) (r : Rm) (s : State) : Host.Outcome State Fault Refusal :=
  (fpToInt d a w r 0 (2 ^ 64 - 1)).run s
def execIcvtF (d a : GReg) (w : Bool) (r : Rm) (s : State) : Host.Outcome State Fault Refusal :=
  (unaryOp d a (fun x => fpReg w (fromInt (scalarFmt w) r x.toInt).bits)).run s
def execNcvtF (d a : GReg) (w : Bool) (r : Rm) (s : State) : Host.Outcome State Fault Refusal :=
  (unaryOp d a (fun x => fpReg w (fromInt (scalarFmt w) r x.toNat).bits)).run s
def execFclass (d a : GReg) (w : Bool) (s : State) : Host.Outcome State Fault Refusal :=
  (unaryOp d a (fun x => BitVec.ofNat 64 (2 ^ classBit (scalarFmt w) (fpBits w x)))).run s

/-- FFMA: gd is the accumulator and the destination (R106). -/
def execFfma (d a b : GReg) (w : Bool) (r : Rm) (s : State) : Host.Outcome State Fault Refusal :=
  (fpOp { reads := [a, b, d], writes := [d], spec := true } d (fun t =>
    let k := scalarFmt w
    let v := fun x => k.decode (fpBits w (t.reg x))
    let x := fmaRes k r (v a) (v b) (v d)
    (fpReg w x.bits, countsOf x k))).run s

end Sys2Proof.Machine
end

