-- ==== Sys2Proof/Machine/LaneFp.lean ====
section
/-! DEFINITION. Lane floating point, special functions, conversion, dot products and the compatibility unit (R142 to R148, R154 to R156). -/

namespace Sys2Proof.Machine

open Sys2Proof.Fp hiding Num

/-- RM of a lane word. -/
def LaneOps.rmode (o : LaneOps) : Rm := Rm.ofBits o.rm

/-- A floating-point instruction of the format of TY, computed from the operand patterns a, b and c. -/
def laneFp (i : Instr) (o : LaneOps) (f : Fmt → Nat → Nat → Nat → Res) : Prog :=
  laneCompute i (fun _ x =>
    let ty := o.ty.toNat
    let k := ofCode ty
    laneResults x o ty (fun l =>
      let r := f k (x.t.lane ty o.va.toNat l) (bOperand x.t x.b o ty l) (x.t.lane ty o.vc.toNat l)
      (r.bits, countsOf r k)))

def execVFadd (o : LaneOps) (s : State) : Host.Outcome State Fault Refusal :=
  (laneFp (.vFadd o) o (fun k a b _ => deliver k (LaneOps.rmode o) (add (LaneOps.rmode o) (k.decode a) (k.decode b)))).run s
def execVFsub (o : LaneOps) (s : State) : Host.Outcome State Fault Refusal :=
  (laneFp (.vFsub o) o (fun k a b _ => deliver k (LaneOps.rmode o) (add (LaneOps.rmode o) (k.decode a) (neg (k.decode b))))).run s
def execVFmul (o : LaneOps) (s : State) : Host.Outcome State Fault Refusal :=
  (laneFp (.vFmul o) o (fun k a b _ => deliver k (LaneOps.rmode o) (mul (k.decode a) (k.decode b)))).run s
def execVFfma (o : LaneOps) (s : State) : Host.Outcome State Fault Refusal :=
  (laneFp (.vFfma o) o (fun k a b c => fmaRes k (LaneOps.rmode o) (k.decode a) (k.decode b) (k.decode c))).run s
def execVFmin (o : LaneOps) (s : State) : Host.Outcome State Fault Refusal :=
  (laneFp (.vFmin o) o (fun k a b _ => minMax k false false a b)).run s
def execVFmax (o : LaneOps) (s : State) : Host.Outcome State Fault Refusal :=
  (laneFp (.vFmax o) o (fun k a b _ => minMax k true false a b)).run s
def execVFminn (o : LaneOps) (s : State) : Host.Outcome State Fault Refusal :=
  (laneFp (.vFminn o) o (fun k a b _ => minMax k false true a b)).run s
def execVFmaxn (o : LaneOps) (s : State) : Host.Outcome State Fault Refusal :=
  (laneFp (.vFmaxn o) o (fun k a b _ => minMax k true true a b)).run s
def execVFdiv (o : LaneOps) (s : State) : Host.Outcome State Fault Refusal :=
  (laneFp (.vFdiv o) o (fun k a b _ => div k (LaneOps.rmode o) (k.decode a) (k.decode b))).run s
def execFrnd (o : LaneOps) (s : State) : Host.Outcome State Fault Refusal :=
  (laneFp (.frnd o) o (fun k a _ _ => roundInt k (LaneOps.rmode o) (k.decode a))).run s

/-- FABS and FNEG change the sign alone; a NaN becomes canonical and counts NAN (R142). -/
def signOp (k : Fmt) (x : Nat) (sign : Bool → Bool) : Res :=
  if isNan (k.decode x) then nanRes k else ⟨k.signed (sign (k.signBit x)) (x % 2 ^ (k.ebits + k.fbits)), []⟩

def execFabs (o : LaneOps) (s : State) : Host.Outcome State Fault Refusal :=
  (laneFp (.fabs o) o (fun k a _ _ => signOp k a (fun _ => false))).run s
def execFneg (o : LaneOps) (s : State) : Host.Outcome State Fault Refusal :=
  (laneFp (.fneg o) o (fun k a _ _ => signOp k a (fun b => !b))).run s

/-- The conditions of FCMP (R143). -/
def fcmpHolds (mode : Nat) (a b : Fp.Num) : Bool :=
  let un := isNan a || isNan b
  let is := fun os => !un && os.contains (order a b)
  if mode = 0 then is [.eq] else if mode = 1 then un || is [.lt, .gt] else if mode = 2 then is [.lt]
  else if mode = 3 then is [.lt, .eq] else if mode = 4 then is [.gt] else if mode = 5 then is [.gt, .eq]
  else if mode = 6 then un else !un

def execVFcmp (o : LaneOps) (s : State) : Host.Outcome State Fault Refusal :=
  (laneCompute (.vFcmp o) (fun _ x =>
    let ty := o.ty.toNat
    lanePredicate x o (fun l =>
      fcmpHolds o.mode.toNat ((ofCode ty).decode (x.t.lane ty o.va.toNat l)) ((ofCode ty).decode (bOperand x.t x.b o ty l))))).run s

/-! ## Special functions (R144) -/

def execRcp (o : LaneOps) (s : State) : Host.Outcome State Fault Refusal :=
  (laneFp (.rcp o) o (fun k a _ _ => rcp k (LaneOps.rmode o) (k.decode a))).run s
def execRsq (o : LaneOps) (s : State) : Host.Outcome State Fault Refusal :=
  (laneFp (.rsq o) o (fun k a _ _ => rsq k (LaneOps.rmode o) (k.decode a))).run s
def execSqrt (o : LaneOps) (s : State) : Host.Outcome State Fault Refusal :=
  (laneFp (.sqrt o) o (fun k a _ _ => sqrt k (LaneOps.rmode o) (k.decode a))).run s
def execExp2 (o : LaneOps) (s : State) : Host.Outcome State Fault Refusal :=
  (laneFp (.exp2 o) o (fun k a _ _ => exp2 k (LaneOps.rmode o) (k.decode a))).run s
def execLog2 (o : LaneOps) (s : State) : Host.Outcome State Fault Refusal :=
  (laneFp (.log2 o) o (fun k a _ _ => log2 k (LaneOps.rmode o) (k.decode a))).run s
def execSin (o : LaneOps) (s : State) : Host.Outcome State Fault Refusal :=
  (laneFp (.sin o) o (fun k a _ _ => sinCos k (LaneOps.rmode o) false (k.decode a))).run s
def execCos (o : LaneOps) (s : State) : Host.Outcome State Fault Refusal :=
  (laneFp (.cos o) o (fun k a _ _ => sinCos k (LaneOps.rmode o) true (k.decode a))).run s

/-! ## Conversion (R145 to R147) -/

/-- CVT: from the format in MOD to the format in TY. -/
def execCvt (o : LaneOps) (s : State) : Host.Outcome State Fault Refusal :=
  (laneCompute (.cvt o) (fun _ x =>
    let src := o.mode.toNat
    laneResults x o o.ty.toNat (fun l =>
      let r := convert src o.ty.toNat (LaneOps.rmode o) o.sat (x.t.lane src o.va.toNat l)
      (r.bits, r.counts)))).run s

/-- The group of a lane: its lanes, in order of position. -/
def groupLanes (g l : Nat) : List Nat := (List.range g).map (fun p => l / g * g + p)

/-- The words PACKX makes of a group's elements, by position, and the events of each element (R146). -/
def packGroup (o : LaneOps) (xs : List Nat) : List Nat × List Nat :=
  let ty := o.ty.toNat
  if ty = 14 then
    let b := if o.vc = 0 then 16 else 32
    let blocks := (List.range (xs.length / b)).map (fun j =>
      packBlock (LaneOps.rmode o) (o.mode.getLsbD 0) (((xs.drop (b * j)).take b).map f32.decode))
    let codes := blocks.flatMap (·.codes)
    ((List.range (xs.length / 8)).map (fun k => packBits 4 ((codes.drop (8 * k)).take 8)) ++ blocks.map (·.side),
     blocks.flatMap (fun q => q.counts.flatten))
  else
    let w := Fp.width ty
    let src := if 8 ≤ ty then 8 else if ty = 2 ∨ ty = 4 then 0 else 1
    let rs := xs.map (convert src ty (LaneOps.rmode o) o.sat)
    ((List.range (xs.length * w / 32)).map (fun k => packBits w (((rs.map (·.bits)).drop (32 / w * k)).take (32 / w))),
     rs.flatMap (·.counts))

/-- PACKX: each active lane writes the word of its own position; every group with an active lane counts its elements' events (R146). -/
def execPackx (o : LaneOps) (s : State) : Host.Outcome State Fault Refusal :=
  (laneCompute (.packx o) (fun s x =>
    let g := groupSize s.ardel x.t.width
    let groups := ((x.lanes.map (· / g)).eraseDups).map (fun j =>
      (j, packGroup o ((groupLanes g (g * j)).map (x.t.source 1 o.va.toNat))))
    let r := laneResults x o 1 (fun l =>
      (match groups.find? (fun q => q.1 == l / g) with
       | some q => q.2.1.getD (l % g) 0
       | none => 0, []))
    { r with events := groups.flatMap (fun q => q.2.2) })).run s

/-- Element P of a group packed in format MOD other than e2m1x (R128, R147). -/
def unpackElement (o : LaneOps) (word : Nat → Nat) (p : Nat) : Conv :=
  let src := o.mode.toNat
  let ty := o.ty.toNat
  let at? := fun w => word (p * w / 32) / 2 ^ (w * (p % (32 / w))) % 2 ^ w
  if 8 ≤ src then convert src ty (LaneOps.rmode o) false (at? (Fp.width src))
  else ⟨toTy 0 false (intOf src (at? (Fp.width src))), []⟩

/-- Element P of an e2m1x group of size g: its nibble and its block's side word (R146, R147). -/
def unpackBlockElement (o : LaneOps) (g : Nat) (word : Nat → Nat) (p : Nat) : Conv :=
  let b := if o.vc = 0 then 16 else 32
  let ty := o.ty.toNat
  let r := deliver (ofCode ty) (LaneOps.rmode o) (blockValue (word (g / 8 + p / b) % 65536) (word (p / 8) / 16 ^ (p % 8) % 16))
  ⟨r.bits, eventNums ty r.ev⟩

def execUnpackx (o : LaneOps) (s : State) : Host.Outcome State Fault Refusal :=
  (laneCompute (.unpackx o) (fun s x =>
    let g := groupSize s.ardel x.t.width
    laneResults x o o.ty.toNat (fun l =>
      let word := fun p => x.t.source 1 o.va.toNat (l / g * g + p)
      let r := if o.mode = 14 then unpackBlockElement o g word (l % g) else unpackElement o word (l % g)
      (r.bits, r.counts)))).run s

/-! ## Dot products (R148) -/

/-- The n elements of w bits packed in a word. -/
def elements (n w x : Nat) : List Nat := (List.range n).map (fun i => x / 2 ^ (w * i) % 2 ^ w)

/-- The exact sum of values, as one value: NaN rules of a sum, and the sign of an exact zero by the operands. -/
def sumAll (rm : Rm) (vs : List Fp.Num) : Fp.Num :=
  if vs.any isNan then .nan false
  else
    let infs := vs.filterMap (fun v => match v with | .inf s => some s | _ => none)
    match infs with
    | s :: ss => if ss.all (· == s) then .inf s else .nan false
    | [] =>
      let zeros := vs.all (fun v => match v with | .fin _ m _ => m == 0 | _ => false)
      let signs := vs.filterMap (fun v => match v with | .fin s _ _ => some s | _ => none)
      let total := vs.foldl (fun (a : Int × Int) v =>
        match v with
        | .fin s m e => (let (x, k) := addFin (decide (a.1 < 0)) a.1.natAbs a.2 s m e; (x, k))
        | _ => a) (0, 0)
      if total.1 = 0 then
        .fin (if zeros && !signs.isEmpty && signs.all (· == signs.headD false) then signs.headD false else rm == .rd) 0 0
      else .fin (decide (total.1 < 0)) total.1.natAbs total.2

/-- DOT4 and DOT2: exact products summed with C, then wrapped, clamped or rounded once. -/
def dotRes (o : LaneOps) (n : Nat) (a b c : Nat) : Conv :=
  let ty := o.ty.toNat
  let w := 32 / n
  if 8 ≤ ty then
    let k := ofCode ty
    let ps := List.zipWith (fun x y => mul (k.decode x) (k.decode y)) (elements n w a) (elements n w b)
    let r := deliver f32 (LaneOps.rmode o) (sumAll (LaneOps.rmode o) (ps ++ [f32.decode c]))
    ⟨r.bits, countsOf r f32⟩
  else
    let cty := if signedTy ty then 0 else 1
    let ps := List.zipWith (fun x y => intOf ty x * intOf ty y) (elements n w a) (elements n w b)
    ⟨toTy cty o.sat (intOf cty c + ps.sum), []⟩

def laneDot (i : Instr) (o : LaneOps) (n : Nat) : Prog :=
  laneCompute i (fun _ x =>
    laneResults x o 1 (fun l =>
      let r := dotRes o n (x.t.vreg o.va.toNat l).toNat (bWord x.t x.b o l).toNat (x.t.vreg o.vc.toNat l).toNat
      (r.bits, r.counts)))

def execDot4 (o : LaneOps) (s : State) : Host.Outcome State Fault Refusal := (laneDot (.dot4 o) o 4).run s
def execDot2 (o : LaneOps) (s : State) : Host.Outcome State Fault Refusal := (laneDot (.dot2 o) o 2).run s

/-! ## The compatibility unit (R154 to R156) -/

def execArcp (o : LaneOps) (s : State) : Host.Outcome State Fault Refusal :=
  (laneFp (.arcp o) o (fun _ a _ _ => ardel rcp (f32.decode a))).run s
def execArsq (o : LaneOps) (s : State) : Host.Outcome State Fault Refusal :=
  (laneFp (.arsq o) o (fun _ a _ _ => ardel rsq (f32.decode a))).run s
def execAexp (o : LaneOps) (s : State) : Host.Outcome State Fault Refusal :=
  (laneFp (.aexp o) o (fun _ a _ _ => ardel exp2 (f32.decode a))).run s

/-- An installed microcode operation: its result in each active lane, where it uses VD, and the events of it are what the minor version that brought it fixes, free values of its operands (R22, R137, R156; log 12). -/
def execUcode (k : BitVec 5) (o : LaneOps) (s : State) : Host.Outcome State Fault Refusal :=
  (laneCompute (.ucode k o) (fun s x =>
    let ty := o.ty.toNat
    let minor := (((s.die (dieOf (coreOf s.cur))).ops).get? (0x3E0 + k.toNat)).getD 0
    let fields := ty + 16 * o.mode.toNat + 256 * o.rm.toNat + (if o.sat then 1024 else 0)
    let w := fun n => BitVec.ofNat 64 n
    let u := usedFields (0x3E0 + k.toNat) (s.die (dieOf (coreOf s.cur))).ops o
    let r := laneResults x o ty (fun l =>
      let a := w (x.t.lane ty o.va.toNat l)
      let b := w (bOperand x.t x.b o ty l)
      let c := w (x.t.lane ty o.vc.toNat l)
      ((Config.ucode minor (0x3E0 + k.toNat) fields a b c).toNat,
       if isFloat ty || ty == 14 then eventNums ty ([Event.nan, .inf, .over, .under].zipIdx.filterMap (fun e =>
         if (Config.ucodeEvents minor (0x3E0 + k.toNat) fields a b c).getLsbD e.2 then some e.1 else none)) else []))
    if u.getLsbD 3 then r else { r with regs := [] })).run s

end Sys2Proof.Machine
end

