-- ==== Sys2Proof/Machine/LaneCross.lean ====
section
/-! DEFINITION. Lane reductions, scans and votes (R149 to R151), and LX, which gives the results of a batch with an empty mask at once (R84, R111). -/

namespace Sys2Proof.Machine

open Sys2Proof.Fp hiding Num

/-- The identity of a reduction (R149). -/
def reduceIdentity (ty mode : Nat) : Nat :=
  if ty = 8 then (if mode = 0 then 0 else f32.infinity (mode == 2 || mode == 4))
  else if mode = 1 then toTy ty false (hiOf ty)
  else if mode = 2 then toTy ty false (loOf ty)
  else if mode = 3 then 2 ^ Fp.width ty - 1
  else 0

/-- FMIN to FMAXN across values (R103, R149): one NAN for a NaN result, or for a signalling NaN that FMINN or FMAXN ignores. -/
def reduceMinMax (isMax number : Bool) (xs : List Nat) : Res :=
  let nums := xs.filter (fun x => !isNan (f32.decode x))
  let anyNan := decide (nums.length < xs.length)
  if (anyNan && !number) || nums.isEmpty then nanRes f32
  else
    let best := nums.foldl (fun a x => (minMax f32 isMax number a x).bits) (nums.headD 0)
    ⟨best, if xs.any (fun x => isSnan (f32.decode x)) then [.nan] else []⟩

/-- The combination of the values of the active lanes, in lane order (R149). -/
def reduceAll (ty mode : Nat) (sat : Bool) (rm : Rm) (xs : List Nat) : Conv :=
  if xs.isEmpty then ⟨reduceIdentity ty mode, []⟩
  else if ty = 8 then
    let r := if mode = 0 then deliver f32 rm (sumAll rm (xs.map f32.decode)) else reduceMinMax (mode == 2 || mode == 4) (3 ≤ mode) xs
    ⟨r.bits, countsOf r f32⟩
  else
    let is := xs.map (intOf ty)
    let first := is.headD 0
    ⟨if mode = 0 then toTy ty sat is.sum
     else if mode = 1 then toTy ty false (is.foldl min first)
     else if mode = 2 then toTy ty false (is.foldl max first)
     else if mode = 3 then xs.foldl Nat.land (2 ^ Fp.width ty - 1)
     else if mode = 4 then xs.foldl Nat.lor 0
     else xs.foldl Nat.xor 0, []⟩

/-- A lane result as a g register holds it (R149). -/
def toG (ty x : Nat) : W64 :=
  if ty = 8 then fpReg false x else if ty = 0 then (BitVec.ofNat 32 x).signExtend 64 else BitVec.ofNat 64 x

/-- The g register of VD[5:0]. -/
def LaneOps.gd (o : LaneOps) : GReg := o.vd.setWidth 6

/-- REDUCE: over every active lane of the team (R149). -/
def reduceOut (o : LaneOps) (x : LaneRun) : LaneOut :=
  let ty := o.ty.toNat
  let r := reduceAll ty o.mode.toNat o.sat (LaneOps.rmode o) (x.lanes.map (x.t.lane ty o.va.toNat))
  { g := some (LaneOps.gd o, toG ty r.bits), events := r.counts }

/-- REDUCE writes g when its batch completes (R86). -/
def execReduce (o : LaneOps) (s : State) : Host.Outcome State Fault Refusal := (laneCompute (.reduce o) (fun _ x => reduceOut o x)).run s

/-- SCAN: the active lanes of the group at or below the lane, or strictly below it (R150). -/
def execScan (o : LaneOps) (s : State) : Host.Outcome State Fault Refusal :=
  (laneCompute (.scan o) (fun s x =>
    let ty := o.ty.toNat
    let g := if s.ardel then 16 else 1024
    laneResults x o ty (fun l =>
      let below := x.lanes.filter (fun k => k / g == l / g && (if o.vc = 1 then decide (k < l) else decide (k ≤ l)))
      let r := reduceAll ty o.mode.toNat o.sat (LaneOps.rmode o) (below.map (x.t.lane ty o.va.toNat))
      (r.bits, r.counts)))).run s

/-- BALLOT: bit i for lane 64 j + i (R151). -/
def ballotOut (o : LaneOps) (x : LaneRun) : LaneOut :=
  let j := o.mode.toNat
  let set := x.lanes.filter (fun l => l / 64 == j && x.t.vreg o.va.toNat l != 0)
  { g := some (LaneOps.gd o, BitVec.ofNat 64 (set.map (fun l => 2 ^ (l % 64))).sum) }

def execBallot (o : LaneOps) (s : State) : Host.Outcome State Fault Refusal := (laneCompute (.ballot o) (fun _ x => ballotOut o x)).run s

/-- VOTE (R151). -/
def voteOut (o : LaneOps) (x : LaneRun) : LaneOut :=
  let vs := x.lanes.map (x.t.lane o.ty.toNat o.va.toNat)
  let n : Nat :=
    if o.mode = 0 then (if vs.all (· != 0) then 1 else 0)
    else if o.mode = 1 then (if vs.any (· != 0) then 1 else 0)
    else if o.mode = 2 then (if vs.all (· == vs.headD 0) then 1 else 0)
    else (vs.filter (· != 0)).length
  { g := some (LaneOps.gd o, BitVec.ofNat 64 n) }

def execVote (o : LaneOps) (s : State) : Host.Outcome State Fault Refusal := (laneCompute (.vote o) (fun _ x => voteOut o x)).run s

/-! ## LX (R84, R111, R114) -/

/-- The g result of a lane instruction that has no active lane, if it has one. -/
def emptyResult (i : Instr) (x : LaneRun) : Option (GReg × W64) :=
  match i with
  | .reduce o => (reduceOut o x).g
  | .ballot o => (ballotOut o x).g
  | .vote o => (voteOut o x).g
  | _ => none

/-- The instructions of a queue still to be performed, in order; none for one of a batch that has completed among them. -/
def Team.queued (t : Team) : List (Option Instr) :=
  (t.lanes.filter (fun b => !b.left.isEmpty)).flatMap (fun b => b.left.map some ++ List.replicate b.skips none)

/-- The destinations of the long-latency instructions of a run, each with how much of its lookahead window lies behind the run (R88). -/
def windowsAfter (ops : KMap Nat) (xs : List (Option Instr)) : List (List Nat × Nat) :=
  (xs.zipIdx).filterMap (fun x => (x.1.bind Instr.laneOp).map (fun i =>
    (laneWrites i.1 i.2 (usedFields i.1 ops i.2), i.2.look.toNat - (xs.length - 1 - x.2))))

/-- A lane instruction touches one of some destinations inside its window. -/
def touchesWindow (ops : KMap Nat) (ws : List (List Nat × Nat)) (i : Instr) : Bool :=
  match i.laneOp with
  | some (op, o) =>
    let u := usedFields op ops o
    ws.any (fun w => w.2 != 0 && (laneReads op o u ++ laneWrites op o u).any w.1.contains)
  | none => false

/-- Some instruction of a batch will lie in a lookahead window whose destination it touches: an earlier one's, or one of its own batch. -/
def willViolate (ops : KMap Nat) (t : Team) (xs : List Instr) : Bool :=
  (xs.zipIdx).any (fun x =>
    let before := t.queued ++ (xs.take x.2).map some
    touchesWindow ops (t.pend.map (fun p => (p.dests, p.window - (p.passed + (before.length - p.before)))) ++ windowsAfter ops before) x.1)

/-- A batch with an empty mask completes at once (R111), but behind an outstanding batch that writes one of its g registers, whose order R86 keeps (DEDUCED, log 71), and where the lookahead checker will stop at one of its instructions (R88). -/
def atOnce (ops : KMap Nat) (t : Team) (b : Batch) (gw : List (GReg × W64)) : Bool :=
  b.m == 0 && !gw.any (fun x => t.laneDests.contains x.1) && !(t.lacheck.getLsbD 0 && willViolate ops t b.left)

/-- The lookahead windows that the instructions of a batch open though it completes at once: they wrote nothing (R88). -/
def openWindows (ops : KMap Nat) (t : Team) (b : Batch) : List PendLane :=
  (b.left.zipIdx).filterMap (fun x => x.1.laneOp.bind (fun i =>
    if i.2.look = 0 then none
    else some { own := 0, idx := b.idx + x.2, window := i.2.look.toNat, passed := 0, dests := laneWrites i.1 i.2 (usedFields i.1 ops i.2), vals := [], wrote := [],
                before := t.queued.length + x.2 + 1 }))

/-- The lookahead windows count the instructions of a batch that completes at once: now, or as the instruction before them is performed (R88). -/
def Team.skipBatch (t : Team) (n : Nat) : Team :=
  match t.lanes.reverse.find? (fun b => !b.left.isEmpty) with
  | none => t.passBy n
  | some last => { t with lanes := t.lanes.map (fun b => if b.order = last.order then { b with skips := b.skips + n } else b) }

/-- A team takes up a batch. -/
def Team.enqueueBatch (t : Team) (ops : KMap Nat) (b : Batch) : Team :=
  let gw := b.left.filterMap (fun i => emptyResult i { t := t, b := b, lanes := [] })
  if atOnce ops t b gw then ({ t with pend := t.pend ++ openWindows ops t b }.skipBatch b.left.length).takeResults gw else { t with lanes := t.lanes ++ [b] }

/-- LX index, count (R84): it waits while 16 batches are outstanding, while the queue is held and while speculative; a slot that no longer holds its overlay makes it be fetched again. -/
def execLx (n : BitVec 4) (i : BitVec 22) (s : State) : Host.Outcome State Fault Refusal :=
  (scalar {} fun t =>
    let k := if n = 0 then 16 else n.toNat
    if 16 ≤ t.lanes.length || t.held then waitHere
    else .get fun s =>
      match slotOf? s s.cur t.pc with
      | none => (setTeam (fun t => { t with ahead := [] })).seq (fetchAhead s.cur 1)
      | some j =>
        match (s.core (coreOf s.cur)).slots[j]? with
        | none => waitHere
        | some o =>
          if !sameOverlay t o then setTeam (fun t => { t with ahead := [] })
          else if o.lcount < i.toNat + k then illegalLane i.toNat
          else match decodeRun (laneEnv s s.cur) o i.toNat k with
            | .error b => illegalLane b
            | .ok xs =>
              finish {} (fun t => t.enqueueBatch (s.die (dieOf (coreOf s.cur))).ops
                { order := s.clock, lx := t.pc, base := o.base, idx := i.toNat, left := xs, q := t.q, m := t.m, gw := [], skips := 0 })).run s

end Sys2Proof.Machine
end

