-- ==== Sys2Proof/Machine/Mask.lean ====
section
/-! DEFINITION. The lane mask and its stack (R61, R78, R111, R112). -/

namespace Sys2Proof.Machine

/-- A MASK function waits until every earlier batch of the team has completed (R78, R87). -/
def maskOp (u : Use) (body : Team → Prog) : Prog := scalar u fun t => if t.lanes.isEmpty then body t else waitHere

/-- The mask stack holds 16 entries (R111). -/
def stackDepth : Nat := 16

/-- MSPLIT p (R111). -/
def execMsplit (p : BitVec 3) (s : State) : Host.Outcome State Fault Refusal :=
  (maskOp {} fun t =>
    if t.stack.length = stackDepth then trapHere 0x0E 16
    else finish {} (fun t =>
      { t.setMask (t.m &&& t.p[p.toNat]) with stack := (t.m, t.m &&& ~~~t.p[p.toNat]) :: t.stack })).run s

/-- MELSE: the mask becomes COMP of the top entry, which stays (R111). -/
def execMelse (s : State) : Host.Outcome State Fault Refusal :=
  (maskOp {} fun t =>
    match t.stack with
    | [] => trapHere 0x0E 0
    | e :: _ => finish {} (fun t => t.setMask e.2)).run s

/-- MJOIN: the mask saved at the split comes back, and the entry goes (R111). -/
def execMjoin (s : State) : Host.Outcome State Fault Refusal :=
  (maskOp {} fun t =>
    match t.stack with
    | [] => trapHere 0x0E 0
    | e :: es => finish {} (fun t => { t.setMask e.1 with stack := es })).run s

/-- MRD reads mask word k, zero at or above the word count (R112, R61). -/
def execMrd (d : GReg) (k : BitVec 5) (s : State) : Host.Outcome State Fault Refusal :=
  (maskOp { writes := [d], spec := true } fun _ =>
    finish { writes := [d], spec := true } (fun t => t.setReg d ((t.maskWord k.toNat).setWidth 64))).run s

/-- MWR writes mask word k; absent lanes and words at or above the count stay zero (R112, R61). -/
def execMwr (k : BitVec 5) (a : GReg) (s : State) : Host.Outcome State Fault Refusal :=
  (maskOp { reads := [a] } fun _ =>
    finish { reads := [a] } (fun t => t.setMask (LaneMask.setWord t.m k.toNat ((t.reg a).setWidth 32)))).run s

/-- MCNT counts the mask bits of the team (R112). -/
def execMcnt (d : GReg) (s : State) : Host.Outcome State Fault Refusal :=
  (maskOp { writes := [d], spec := true } fun _ =>
    finish { writes := [d], spec := true } (fun t => t.setReg d (BitVec.ofNat 64 (popCount 1024 t.m.toNat)))).run s

end Sys2Proof.Machine
end

