-- ==== Sys2Proof/Machine/Messages.lean ====
section
/-! DEFINITION. The messages of the die links as events: one in flight is taken, or its source sends it on its own (R299 to R302, R343). -/

namespace Sys2Proof.Machine

/-- A message event, with the data beats of what it sends (R299). -/
def onMessage (f : Coh → Coh) : Prog := .get fun s => .one (.coh (fun c => s.filled (f c)))

/-- The receiver's cores drop the line from their L1s with their die's copy, before it answers (R290, R302). -/
def dropped (k : MsgKind) (m : Packet) : Prog := .get fun s => .when (s.coh.nextOf k m).isSome (dropL1 m.dst m.line)

/-- The last reply to a back-invalidation is taken: the home's own cores drop the line from their L1s with its die's copy (R290, R302). -/
def droppedHome (k : MsgKind) (m : Packet) : Prog :=
  .get fun s => .when ((s.coh.nextOf k m).any (fun p => p.req == 1) && s.coh.busy.any (fun t => t.evict == some m.line && t.waits == [m.src])) (dropL1 (lineHome m.line) m.line)

/-- The writes that waited for a line perform as it comes to their die (R289, R290). -/
def performLine (m : Packet) : Prog :=
  .get fun s => .each (s.pkg.stalled.filter (fun e => e.place == .phys && pathDie s e.path == m.dst && e.pa / 256 == m.line)) (performEntry false)

/-- RDS: a request for a readable copy. -/
def execMsgRds (m : Packet) (s : State) : Host.Outcome State Fault Refusal :=
  (onMessage (fun c => c.message .rds m (Coh.takeRequest 0) (c.misses m) (Coh.ask 0 .rds m))).run s

/-- RDX: a request for the line in M with its data. -/
def execMsgRdx (m : Packet) (s : State) : Host.Outcome State Fault Refusal :=
  (onMessage (fun c => c.message .rdx m (Coh.takeRequest 1) (c.misses m) (Coh.ask 1 .rdx m))).run s

/-- UPG: a holder asks for M. -/
def execMsgUpg (m : Packet) (s : State) : Host.Outcome State Fault Refusal :=
  (onMessage (fun c => c.message .upg m (Coh.takeRequest 2) (c.upgrades m) (Coh.ask 2 .upg m))).run s

/-- FWDS: the owner sends the line and keeps a copy. -/
def execMsgFwds (m : Packet) (s : State) : Host.Outcome State Fault Refusal :=
  (onMessage (fun c => c.message .fwds m Coh.takeFwds false id)).run s

/-- FWDX: the owner sends the line and drops it. -/
def execMsgFwdx (m : Packet) (s : State) : Host.Outcome State Fault Refusal :=
  ((dropped .fwdx m).seq (onMessage (fun c => c.message .fwdx m Coh.takeFwdx false id))).run s

/-- INV: a holder drops the line. -/
def execMsgInv (m : Packet) (s : State) : Host.Outcome State Fault Refusal :=
  ((dropped .inv m).seq (onMessage (fun c => c.message .inv m Coh.takeInv false id))).run s

/-- IACK: a holder has dropped the line. -/
def execMsgIack (m : Packet) (s : State) : Host.Outcome State Fault Refusal :=
  (onMessage (fun c => c.message .iack m Coh.takeReply false id)).run s

/-- DATA: the line arrives. -/
def execMsgData (m : Packet) (s : State) : Host.Outcome State Fault Refusal :=
  ((onMessage (fun c => c.message .data m Coh.takeData false id)).seq (performLine m)).run s

/-- GNT: M is granted. -/
def execMsgGnt (m : Packet) (s : State) : Host.Outcome State Fault Refusal :=
  ((onMessage (fun c => c.message .gnt m Coh.takeGnt false id)).seq (performLine m)).run s

/-- DONE: a transaction ends. -/
def execMsgDone (m : Packet) (s : State) : Host.Outcome State Fault Refusal :=
  (onMessage (fun c => c.message .done m Coh.takeDone false id)).run s

/-- BINV: a holder writes back and drops the line. -/
def execMsgBinv (m : Packet) (s : State) : Host.Outcome State Fault Refusal :=
  ((dropped .binv m).seq (onMessage (fun c => c.message .binv m Coh.takeBinv false id))).run s

/-- WB: dirty sectors come back. -/
def execMsgWb (m : Packet) (s : State) : Host.Outcome State Fault Refusal :=
  ((droppedHome .wb m).seq <| onMessage (fun c => c.message .wb m Coh.takeWriteBack (c.mayEvict m true) (fun c => c.evictLine m.line m.src))).run s

/-- BIACK: a clean holder has dropped the line. -/
def execMsgBiack (m : Packet) (s : State) : Host.Outcome State Fault Refusal :=
  ((droppedHome .biack m).seq <| onMessage (fun c => c.message .biack m Coh.takeReply false id)).run s

/-- EVC: a clean copy was evicted. -/
def execMsgEvc (m : Packet) (s : State) : Host.Outcome State Fault Refusal :=
  (onMessage (fun c => c.message .evc m Coh.takeWriteBack (c.mayEvict m false) (fun c => c.evictLine m.line m.src))).run s

/-- GONE: a holder had sent the line back before. -/
def execMsgGone (m : Packet) (s : State) : Host.Outcome State Fault Refusal :=
  ((droppedHome .gone m).seq <| onMessage (fun c => c.message .gone m Coh.takeGone false id)).run s

/-- LINK_RETRY: the link replays its flits in sequence, so the messages in flight stand as they were, in order (R343). -/
def execLinkRetry (_src _dst : Nat) (s : State) : Host.Outcome State Fault Refusal := Prog.ret.run s

end Sys2Proof.Machine
end

