-- ==== Sys2Proof/Machine/Package.lean ====
section
/-! DEFINITION. Boot, the management BAR, power states and the ports (R20, R359, R362, R365 to R367). -/

namespace Sys2Proof.Machine

/-! ## Power (R362, R365, R366) -/

/-- The package loses every state but the number of its power-ups; a power-off leaves it down, and a power-up links PCIe (R362 step 1, R365). -/
def powerCycle (down : Bool) : Prog :=
  .one (.power (fun g =>
    { State.resetPkg with
      powerups := if down then g.powerups else g.powerups + 1
      bootcode := if down then 0 else 1
      down := down }))

/-- POWER_UP: a package that is off, or has not begun, links PCIe, and BOOTSTAT reads 1. -/
def execPowerUp (s : State) : Host.Outcome State Fault Refusal :=
  (Prog.get fun s => .when (s.pkg.down || (s.pkg.bootcode == 0 && !s.pkg.halted)) (powerCycle false)).run s

/-- POWER_OFF. -/
def execPowerOff (s : State) : Host.Outcome State Fault Refusal := (powerCycle true).run s

/-- THERMAL_SHUTDOWN is a power-off (R366). -/
def execThermalShutdown (s : State) : Host.Outcome State Fault Refusal := (powerCycle true).run s

/-- THERMAL_THROTTLE: firmware holds issue for whole cycles, which stretches time alone (R366). -/
def execThermalThrottle (on : Bool) (s : State) : Host.Outcome State Fault Refusal :=
  (Prog.one (.pkg (fun g => { g with throttled := on }))).run s

/-! ## Boot (R362) -/

/-- BOOTSTAT.CODE and DIE. -/
def setBoot (code : BitVec 8) (die : BitVec 4) (halt : Bool) : Prog :=
  .one (.pkg (fun g => { g with bootcode := code, bootdie := die, halted := halt }))

/-- What stands at firmware's event entry: ERET, since the model does what firmware does in the steps of its events and requests (log 7). -/
def firmwareCode : Overlay :=
  { State.emptyOverlay with base := Config.firmwareEntry, slen := 4, valid := true, words := Sparse.set [] 0 ((encodeScalar .eret).getD 0) }

/-- Firmware of a die starts on its core 0, in team slot 0 (log 7). -/
def startFirmware (d : Nat) : Prog :=
  .all [ .one (.die d (fun _ => State.resetDie)),
         .one (.core (96 * d) (fun _ => { State.resetCore with power := .active, slots := State.resetCore.slots.set 0 firmwareCode })),
         .one (.team (firmwareTeam d) (fun _ =>
           { State.blankTeam with width := 32, present := presentMask 32, m := presentMask 32, pc := Config.firmwareEntry, teamid := teamIdOf (firmwareTeam d) 1 })) ]

/-- An IMGLEN that R359 allows. -/
def imageLenOk (n : W32) : Bool := n.toNat % 16 == 0 && decide (4096 ≤ n.toNat) && decide (n.toNat ≤ 2 ^ 26)

/-- Firmware measures its image into the SHA-384 registers; the digest is Config's (R362 step 4). -/
def measure : Prog :=
  .one (.pkg (fun g => { g with measured := (List.range 48).map (Config.digestByte 1 [g.imgaddr.toNat, g.imglen.toNat]) }))

/-- Steps 2 to 6 of R362, from the write of IMGADDR's high half. -/
def boot : Prog :=
  .get fun s =>
    let a := s.pkg.imgaddr
    let n := s.pkg.imglen.toNat
    if !imageLenOk s.pkg.imglen || a.toNat % 4096 != 0 || !Config.imageReadable a n then setBoot 0x81 0 false
    else if !Config.imageEd25519 a n then setBoot 0x82 0 true
    else if !Config.imageMlDsa65 a n then setBoot 0x83 0 true
    else if !Config.imageRollbackOk a n then setBoot 0x85 0 true
    else measure.seq (match (List.range 4).find? (fun d => !Config.dieTrains d) with
      | some d => setBoot 0x84 (BitVec.ofNat 4 d) true
      | none =>
        .all [ .each (List.range 4) startFirmware, .one .clearMem,
               .one (.pkg (fun g => { g with version := State.resetPkg.version })),
               setBoot 2 0 false ])

/-- IMGADDR_WRITE: while BOOTSTAT reads 1 (R359). -/
def execImgaddrWrite (v : W64) (s : State) : Host.Outcome State Fault Refusal :=
  (Prog.get fun s => .when (s.pkg.bootcode == 1) ((Prog.one (.pkg (fun g => { g with imgaddr := v }))).seq boot)).run s

/-! ## The management BAR (R359) -/

/-- FWQ is written, and firmware latches it, once BOOTSTAT reads 2. -/
def writeFwq (v : W64) : Prog :=
  .get fun s => .when (s.pkg.bootcode == 2 && !s.pkg.fwqLatched) (.one (.pkg (fun g => { g with fwq := v, fwqLatched := true })))

/-- FWQ_WRITE. -/
def execFwqWrite (v : W64) (s : State) : Host.Outcome State Fault Refusal := (writeFwq v).run s

/-- A 64-bit register with its low, or its high, half replaced. -/
def lowHalf (x : W64) (v : W32) : W64 := (x.extractLsb' 32 32) ++ v
def highHalf (x : W64) (v : W32) : W64 := v ++ (x.setWidth 32)

/-- MANAGEMENT_REGISTER_WRITE: a 32-bit write; other offsets are read-only or reserved. -/
def execManagementRegisterWrite (off v : W32) (s : State) : Host.Outcome State Fault Refusal :=
  (Prog.get fun s =>
    let loading := s.pkg.bootcode == 1
    if off = 0x04 then .when loading (.one (.pkg (fun g => { g with imglen := v })))
    else if off = 0x08 then .when loading (.one (.pkg (fun g => { g with imgaddr := lowHalf g.imgaddr v })))
    else if off = 0x0C then .when loading ((Prog.one (.pkg (fun g => { g with imgaddr := highHalf g.imgaddr v }))).seq boot)
    else if off = 0x10 then .when (s.pkg.bootcode == 2 && !s.pkg.fwqLatched) (.one (.pkg (fun g => { g with fwq := lowHalf g.fwq v })))
    else if off = 0x14 then writeFwq (highHalf s.pkg.fwq v)
    else .ret).run s

/-! ## Power states of cores and dies (R365) -/

/-- The power state of a core: off in a package that is down and on a die that is off (R365). -/
def State.corePower (s : State) (c : Nat) : Power := if s.pkg.down || !(s.die (dieOf c)).on then .off else (s.core c).power

/-- CORE_IDLE: a core with no placed block. -/
def execCoreIdle (c : Nat) (s : State) : Host.Outcome State Fault Refusal :=
  (Prog.get fun s =>
    .when ((s.cores.get? c).isSome && s.corePower c == .active && !fMode c && !s.blocks.any (fun b => b.2.core == c && b.2.resident))
      (.one (.core c (fun x => { x with power := .idle })))).run s

/-- A context uses a partition of a die. -/
def dieUsed (s : State) (d : Nat) : Bool :=
  s.ctxs.any (fun c => !c.2.dead && (c.2.part == s.pkg.parts.getD (2 * d) 0 || c.2.part == s.pkg.parts.getD (2 * d + 1) 0))

/-- The cores of a die lose their state. -/
def clearCores (d : Nat) : Prog :=
  .get fun s => .each (s.cores.filter (fun c => dieOf c.1 == d)) (fun c => .one (.core c.1 (fun _ => State.resetCore)))

/-- DIE_POWER_OFF: after CFLUSH, which waits until none of the die's own requests for a line is being served, and only when no context uses the die's partitions. -/
def execDiePowerOff (d : Nat) (s : State) : Host.Outcome State Fault Refusal :=
  (Prog.get fun s =>
    .when (decide (d < 4) && (s.die d).on && !dieUsed s d && s.coh.asksNone d)
      (.all [ .one (.coh (fun c => s.filled (c.flush d))),
              clearCores d,
              .one (.dropTeam (firmwareTeam d)),
              .one (.die d (fun x => { x with on := false, handles := [], tlb := [] })) ])).run s

/-- DIE_POWER_ON: training and clearing again, for this die (R362 steps 4 and 5). -/
def execDiePowerOn (d : Nat) (s : State) : Host.Outcome State Fault Refusal :=
  (Prog.get fun s =>
    if !(decide (d < 4) && !(s.die d).on) then .ret
    else if !Config.dieTrains d then setBoot 0x84 (BitVec.ofNat 4 d) true
    else
      let old := s.die d
      .all [ clearCores d, startFirmware d, .one (.clearDie d),
             .one (.die d (fun x => { x with carved := old.carved, minor := old.minor, ops := old.ops })) ]).run s

/-! ## Ports (R367) -/

/-- BOOTSTAT (R359). -/
def bootstat (g : Pkg) : W32 := BitVec.ofNat 32 (g.bootdie.toNat * 2 ^ 8 + g.bootcode.toNat)

/-- The 32-bit word that a read of the management BAR returns over PCIe, where the package answers it: reserved words are zero; a package that is down answers none, and a halted one only BOOTSTAT (R359, R362). -/
def readBar (g : Pkg) (off : Nat) : Option W32 :=
  if g.down || off % 4 ≠ 0 || 4096 ≤ off then none
  else if off = 0 then some (bootstat g)
  else if g.halted then none
  else if off = 0x04 then some g.imglen
  else if off = 0x08 then some (g.imgaddr.setWidth 32)
  else if off = 0x0C then some (g.imgaddr.extractLsb' 32 32)
  else if off = 0x10 then some (g.fwq.setWidth 32)
  else if off = 0x14 then some (g.fwq.extractLsb' 32 32)
  else some 0

/-- I3C_READ: power, temperature and certificate bytes. -/
def execI3cRead (n : Nat) (s : State) : Host.Outcome State Fault Refusal :=
  (Prog.get fun s => .one (.pkg (fun g => { g with port := [Config.i3cByte n s.clock] }))).run s

/-- BOUNDARY_SCAN: IDCODE and BOOTSTAT. -/
def execBoundaryScan (s : State) : Host.Outcome State Fault Refusal :=
  (Prog.one (.pkg (fun g => { g with port := bytes4 0x04380E15 ++ bytes4 (bootstat g).toNat }))).run s

end Sys2Proof.Machine
end

