-- ==== Sys2Proof/Machine/Image.lean ====
section
/-! DEFINITION. Save images: resume records, sections, sealing, and the shadow that holds them (R275, R333, R334, R338, R339, R344). -/

namespace Sys2Proof.Machine

/-! ## Resume records (R275) -/

/-- Numbers of n bits each, the first lowest. -/
def packNats (n : Nat) (xs : List Nat) : Nat := xs.foldr (fun x acc => x % 2 ^ n + 2 ^ n * acc) 0

/-- The resume record of a matrix instruction; a drain that waits on a page fault has not started. -/
def resumeRecord (e : MatrixEntry) : List Byte :=
  let head := fun (started : Bool) => bytes4 e.word.toNat ++ bytes4 (slotOf e.team + if started then 32 else 0)
    ++ bytes4 (match e.group with | some w => w.toNat | none => 0xFFFFFFFF) ++ bytes4 0
  match e.op with
  | .mma _ _ _ _ d res pan => head (e.started || e.disturbed) ++ bytes8 d ++ bytes8 res ++ bytes8 pan ++ leBytes 40 (packNats 10 e.next)
  | .mzero _ _ => head false ++ leBytes 64 0
  | .mdrain _ r _ => head false ++ leBytes 24 0 ++ r ++ leBytes 8 0

/-- What a record's instruction does, with the operands that the record holds; a drain's range is the block's own. -/
def recordOp (y : Block) (r : List Byte) : Option MatrixOp :=
  match decodeScalar (BitVec.ofNat 32 (field r 0 4)) with
  | .ok (.mma t n p _ f) => some (.mma t.toNat n.toNat p.toNat f (field64 r 0x10) (field64 r 0x18) (field64 r 0x20))
  | .ok (.mzero t n) => some (.mzero t.toNat (n.toNat + 1))
  | .ok (.mdrain t _) =>
    let d := (r.drop 0x28).take 32
    some (.mdrain t.toNat d ((y.ranges.get? ((Drain.addr d).toNat / 2 ^ 20)).getD 0))
  | _ => none

/-- What a matrix instruction of a block is saved as (R275). -/
def savedEntry (e : MatrixEntry) : SavedEntry := { team := e.team, behind := e.behind, record := resumeRecord e, times := e.times, counted := e.counted }

/-- The queue entry that a record rebuilds: an MMA that had started goes on with its groups' next chunks, and its cycles with those that it has taken. -/
def resumeEntry (y : Block) (x : SavedEntry) : Option MatrixEntry :=
  let r := x.record
  let begun := field r 4 4 / 32 % 2 == 1
  (recordOp y r).map (fun op =>
    { newEntry x.team x.behind (BitVec.ofNat 32 (field r 0 4)) op false with
      group := if field r 8 4 = 0xFFFFFFFF then none else some (BitVec.ofNat 32 (field r 8 4))
      next := if begun then (List.range 32).map (fun g => field r 0x28 40 / 2 ^ (10 * g) % 2 ^ 10) else []
      times := x.times
      counted := x.counted
      disturbed := begun })

/-! ## Images (R333, R334, R344) -/

/-- Sections of an image are 64-byte aligned. -/
def align64 (n : Nat) : Nat := (n + 63) / 64 * 64

/-- The size S of a block's image. -/
def imageSize (s : State) (b : Block) : Nat :=
  let h := (s.launch b.launch).hdr
  let n := b.teams.length
  let team := fun (t : Nat) => align64 (1024 + 192 * (s.team t).words)
  let rows := fun (t : Nat) => align64 (if h.width < 32 then (s.team t).pregs * 4 * h.width else (s.team t).pregs * 128 * passCount h.width)
  256 + (b.teams.map team).sum + 6144 * n + (b.teams.map rows).sum + 16384 * b.ltab.length + 1024 * h.obkb + 16384 * h.tiles + 2048 + 1280

/-- The stored length: sealed for a protected context. -/
def storedSize (s : State) (b : Block) : Nat :=
  let n := imageSize s b
  if (s.ctx b.ctx).prot then n + 16 * ((n - 256 + 65519) / 65520) else n

/-- The header of a block's save image, with the save counter that it is sealed with (R334, R338). -/
def imageHeader (s : State) (b : Block) (counter : Nat) : List Byte :=
  let prot := (s.ctx b.ctx).prot
  bytes4 0x53564B42 ++ bytes4 (if prot then 1 else 0) ++ bytes8 (if prot then counter else 0) ++ bytes4 (b.ctx % 2 ^ 24)
    ++ bytes4 (dieOf b.core * 2 ^ 7 + b.core % 96) ++ bytes8 (s.launch b.launch).index ++ bytes8 (b.x + 2 ^ 16 * b.y + 2 ^ 32 * b.z)
    ++ bytes4 (imageSize s b) ++ List.replicate 212 0


/-! ## The sections (R334); the places inside a section are the model's own (DESIGN CHOICE, log 18) -/

/-- A section of n bytes. -/
def padTo (n : Nat) (bs : List Byte) : List Byte := bs.take n ++ List.replicate (n - bs.length) 0

/-- A team's record: g, q, PC, team-scope CSRs, PC-match registers, ticket counter and migration state, then m, p and the mask stack.  TBATCH is the cursor at which the lane queue has stopped (R332). -/
def savedTeam (m : Team) : List Byte :=
  let lanes := fun (x : LaneMask) => leBytes (4 * m.words) x.toNat
  padTo 1024 (m.g.toList.flatMap bytes8 ++ m.q.toList.flatMap bytes8 ++ bytes8 m.pc ++ bytes4 m.teamid.toNat ++ bytes4 m.tcause.toNat ++ bytes8 m.tval
      ++ bytes8 m.tpc ++ bytes8 (if m.held then m.tbatch else m.cursor false) ++ bytes8 m.thandler ++ bytes8 m.termused ++ bytes8 m.termsteps ++ bytes8 m.groupwait
      ++ bytes8 m.mmacyc ++ bytes8 m.specdrop ++ bytes4 m.lacheck.toNat ++ bytes4 m.ticket.toNat ++ m.pcmatch.toList.flatMap bytes8
      ++ bytes8 (match m.token with | some w => w | none => 0) ++ bytes8 (match m.suspended with | some x => x.raddr | none => 0)
      ++ bytes4 ((if m.exited then 1 else 0) + (if m.stopped then 2 else 0) + (if m.suspended.isSome then 4 else 0) + (if m.token.isSome then 8 else 0) + (if m.first then 16 else 0)))
    ++ padTo (align64 (1024 + 192 * m.words) - 1024) (lanes m.m ++ m.p.toList.flatMap lanes ++ m.stack.flatMap (fun x => lanes x.1 ++ lanes x.2))

/-- A batch of the lane queue: where it comes from, its lane index, what is left of it, and its captured q and m. -/
def savedBatch (b : Batch) : List Byte :=
  padTo 384 (bytes8 b.lx ++ bytes8 b.base ++ bytes4 b.idx ++ bytes4 b.left.length ++ bytes4 b.skips ++ bytes4 0 ++ b.q.toList.flatMap bytes8
    ++ leBytes 128 b.m.toNat ++ b.left.flatMap (fun i => leBytes 12 ((encodeLane i).getD 0).toNat))

/-- A team's physical rows, register by register. -/
def savedRows (m : Team) (width : Nat) : List Byte :=
  let lanes := if width < 32 then width else 32 * passCount width
  padTo (align64 (4 * m.pregs * lanes)) ((List.range m.pregs).flatMap (fun r => (List.range lanes).flatMap (fun l => bytes4 (m.vreg r l).toNat)))

/-- A sync slot's mode and state. -/
def savedSlot (x : Slot) : List Byte :=
  padTo 16 (match x with
    | .off => bytes2 0
    | .count e a p => bytes2 1 ++ bytes2 e ++ bytes2 a ++ bytes2 (if p then 1 else 0)
    | .bytes n => bytes2 2 ++ bytes8 (BitVec.ofNat 64 n)
    | .chunks w => bytes2 3 ++ bytes8 w
    | .ring n f p l t u g => bytes2 4 ++ [n, f, p, l, t, u, g].flatMap bytes2)

/-- Block control: the sync slots, the reservations and panels, the ring's CONFIG and entry position, and pending FETCHWORKs. -/
def savedControl (s : State) (b : Nat) (y : Block) : List Byte :=
  padTo 2048 ((List.range 64).flatMap (fun n => savedSlot (s.slot b n)) ++ (List.range 16).flatMap (fun n => bytes8 ((y.ranges.get? n).getD 0))
    ++ (List.range 16).flatMap (fun n => bytes8 ((y.panels.get? n).getD 0)) ++ bytes4 (y.ring.latched.getD 0).toNat ++ bytes4 y.ring.pidx ++ bytes4 y.ring.cons
    ++ bytes4 y.ring.donecnt ++ y.teams.flatMap (fun t => match (s.team t).fetchReq with | some f => bytes8 f.addr ++ bytes8 f.sel | none => leBytes 16 0))

/-- An image without its header, bytes 0x100 to S − 1. -/
def imageBody (s : State) (b : Nat) : List Byte :=
  let y := s.block b
  let h := (s.launch y.launch).hdr
  let run := fun (x : Sparse 8) (at? n : Nat) => (List.range n).map (fun i => Sparse.get x (at? + i))
  y.teams.flatMap (fun t => savedTeam (s.team t)) ++ y.teams.flatMap (fun t => padTo 6144 ((s.team t).lanes.flatMap savedBatch))
    ++ y.teams.flatMap (fun t => savedRows (s.team t) h.width) ++ run y.loc 0 (16384 * y.ltab.length) ++ run y.ob 0 (1024 * h.obkb)
    ++ (List.range (4096 * h.tiles)).flatMap (fun w => bytes4 (Sparse.get y.tiles w).toNat) ++ savedControl s b y
    ++ padTo 1280 (((s.core y.core).queue.filter (fun e => y.teams.contains e.team)).flatMap resumeRecord)

/-! ## Sealing (R338, R339, R344) -/

/-- The IV of segment i of an image (R338). -/
def imageIv (x counter i : Nat) : BitVec 96 := Aes.iv 2 x (BitVec.ofNat 48 counter ++ BitVec.ofNat 16 i)

/-- A block's image as it is stored: the header in clear, then the body, in sealed segments for a protected context. -/
def storedImage (s : State) (b counter : Nat) : List Byte :=
  let y := s.block b
  let x := s.ctx y.ctx
  let body := imageBody s b
  imageHeader s y counter
    ++ (if x.prot then (Aes.segments x.key (imageIv y.ctx counter) (body.length + 1) 0 body).flatten else body)

/-- The header's COUNTER, CTX, CORE, RECORD, BLOCK and SIZE are those that firmware's table gives (R344). -/
def headerGood (s : State) (b : Nat) : Bool :=
  let y := s.block b
  let fields := fun (h : List Byte) => (h.drop 8).take 36
  (s.pkg.saves.get? b).any (fun c => fields y.image == fields (imageHeader s y c))

/-- A protected block's image is restored only where its header and every segment's tag are good under the counter that the table holds for its block (R339, R344). -/
def sealGood (s : State) (b : Nat) : Bool :=
  let y := s.block b
  headerGood s b && (Aes.openSegments (s.ctx y.ctx).key (imageIv y.ctx ((s.pkg.saves.get? b).getD 0)) y.image.length 0 (y.image.drop 256)).isSome

/-! ## The shadow (R333) -/

/-- Dies of a partition. -/
def partDies (s : State) (p : Nat) : List Nat := (List.range 4).filter (fun d => s.pkg.parts.getD (2 * d) 0 == p || s.pkg.parts.getD (2 * d + 1) 0 == p)

/-- Free bytes of a die's carve units: what the images of every partition leave of them. -/
def shadowFree (s : State) (d : Nat) : Nat :=
  (s.die d).carved * 2 ^ 26 - (s.blocks.flatMap (fun b => (b.2.shadow.filter (fun x => x.1 == d)).map Prod.snd)).sum

/-- Free bytes of a partition's carve units. -/
def shadowRoom (s : State) (p : Nat) : Nat := ((partDies s p).map (shadowFree s)).sum

/-- The bytes that an image of n bytes takes of each die's units, the lowest die first; none where they do not fit, and the image goes to the context's save area in HBM. -/
def shadowPlace (s : State) (p n : Nat) : List (Nat × Nat) :=
  if n ≤ shadowRoom s p then
    ((partDies s p).foldl (fun acc d => (acc.1 - shadowFree s d, acc.2 ++ [(d, min acc.1 (shadowFree s d))])) (n, ([] : List (Nat × Nat)))).2.filter (fun x => x.2 != 0)
  else []

end Sys2Proof.Machine
end

