-- ==== Sys2Proof/Machine/Preempt.lean ====
section
/-! DEFINITION. Pre-emption, save and restore of blocks, and partition swaps (R275, R331 to R339, R344, R345). -/

namespace Sys2Proof.Machine

/-! ## Which blocks are pre-empted (R331) -/

/-- Effective priority of a block's launch. -/
def blockPrio (s : State) (b : Block) : Nat := (s.launch b.launch).prio

/-- Block `a` goes before `b`: lower priority first, the most recently placed among equals. -/
def goesFirst (s : State) (a b : Nat × Block) : Bool :=
  decide (blockPrio s b.2 < blockPrio s a.2) || (blockPrio s a.2 == blockPrio s b.2 && decide (b.2.order < a.2.order))

/-- Insert a block in that order. -/
def insertBlock (s : State) (x : Nat × Block) : List (Nat × Block) → List (Nat × Block)
  | [] => [x]
  | y :: ys => if goesFirst s x y then x :: y :: ys else y :: insertBlock s x ys

/-- Blocks of a core that may be pre-empted for priority p, in the order in which they go. -/
def victims (s : State) (c p : Nat) : List (Nat × Block) :=
  ((coreBlocks s c []).filter (fun b => b.2.phase == .placed && decide (p < blockPrio s b.2))).foldl (fun acc b => insertBlock s b acc) []

/-- A waiting block fits a core once these blocks are gone. -/
def fitsWithout (s : State) (w : Waiting) (c : Nat) (gone : List Nat) : Bool :=
  match w.blk with
  | some b => (s.block b).core == c && (restoreFit s gone (s.block b)).isSome
  | none => (fitOn s (s.launch w.launch).ctx (s.launch w.launch).hdr true gone none c).isSome

/-- The fewest of a core's blocks, taken in order, whose pre-emption makes the head fit. -/
def victimsNeeded (s : State) (w : Waiting) (c : Nat) : List (Nat × Block) → List Nat → Option (List Nat)
  | [], _ => none
  | b :: bs, gone => if fitsWithout s w c (b.1 :: gone) then some (b.1 :: gone) else victimsNeeded s w c bs (b.1 :: gone)

/-- The core on which the fewest blocks must go, the lowest among equals. -/
def victimPlan (s : State) (w : Waiting) : Option (List Nat) :=
  ((partitionCores s (partOf s w.launch)).filterMap (fun c => victimsNeeded s w c (victims s c w.prio) [])).foldl (fun m g => match m with
    | some b => if g.length < b.length then some g else m
    | none => some g) none

/-- A block is asked to stop. -/
def askStop (b : Nat) : Prog := .one (.block b (fun y => { y with phase := .stopping }))

/-- PREEMPT_TIMEOUT: the head block has waited 2 µs and fits no core; blocks that were asked to stop before come first. -/
def execPreemptTimeout (l : Nat) (s : State) : Host.Outcome State Fault Refusal :=
  (Prog.get fun s =>
    let p := partOf s l
    match headOf s p with
    | none => .ret
    | some w =>
      let busy := s.blocks.any (fun b => (s.ctx b.2.ctx).part == p && (b.2.phase == .stopping || b.2.phase == .stopped))
      if w.launch != l || busy || (waitFit s w).isSome then .ret
      else match victimPlan s w with
        | none => .ret
        | some g => .each g askStop).run s

/-! ## Stops (R332, R275) -/

/-- A team stops for a pre-emption: a waiting instruction ends without effect, a speculation is discarded, issued loads have returned, waiting lane results are written, the lane queue stands at its cursor, words fetched ahead are dropped, and page faults are taken again after the restore (R157, R274, R332, R335). -/
def haltTeam (t : Nat) : Prog :=
  .all [ endWait t, dropSpec t (fun p => p.pc),
         .one (.team t (fun m => { m.settleAll with
           await := [], laneFaultAt := none, laneWaiting := false, yieldTo := [], ahead := [] })),
         syncBacking t ]

/-- BLOCK_STOP. -/
def stopForSave (b : Nat) : Prog :=
  .get fun s =>
    let y := s.block b
    .when (y.phase == .stopping && (s.blocks.get? b).isSome && !mustEnd s b && !blockStalls s b && !y.teams.any (specWaits s))
      (.all [ .each y.teams haltTeam,
              .one (.block b (fun y => { y with phase := .stopped, ring := { y.ring with entries := y.ring.entries.map (fun e => { e with faultAt := none }), faultAt := [] } })) ])

def execBlockStop (b : Nat) (s : State) : Host.Outcome State Fault Refusal := (stopForSave b).run s

/-! ## Save (R332 step 5, R338) -/

/-- Keys of a saved block's teams. -/
def savedKey (b idx : Nat) : Nat := 2 ^ 24 + 32 * b + idx

/-- A key renamed. -/
def rename (ren : List (Nat × Nat)) (t : Nat) : Nat := ((ren.find? (fun r => r.1 == t)).map Prod.snd).getD t

/-- A group's tag renamed with its team. -/
def renameTag (ren : List (Nat × Nat)) (n : Nat) : Nat :=
  match ren.find? (fun r => tagOf r.1 n) with
  | some r => 2 ^ 33 * (r.2 + 1) + n % 2 ^ 33
  | none => n

/-- A block's ring with its teams renamed. -/
def Ring.rename (r : Ring) (ren : List (Nat × Nat)) : Ring :=
  { r with
    publishers := r.publishers.map (fun x => (x.1, Machine.rename ren x.2))
    told := r.told.map (fun x => (Machine.rename ren x.1, x.2))
    idle := r.idle.map (fun x => (Machine.rename ren x.1, x.2))
    halting := r.halting.map (fun x => (Machine.rename ren x.1, x.2))
    entries := r.entries.map (fun e => { e with team := Machine.rename ren e.team }) }

/-- A block's teams take other keys, wherever they are named. -/
def moveTeams (b : Nat) (ren : List (Nat × Nat)) (f : Team → Team) : Prog :=
  .get fun s =>
    .all [ .each ren (fun r => .one (.team r.2 (fun _ => f (s.team r.1)))),
           .each ren (fun r => .one (.dropTeam r.1)),
           .one (.block b (fun y =>
             { y with
               teams := y.teams.map (rename ren)
               ring := y.ring.rename ren
               savedMatrix := y.savedMatrix.map (fun e => { e with team := rename ren e.team }) })),
           .when (!s.hist.isEmpty) (.one (.hist (fun hs => hs.map (fun h =>
             { h.rename (rename ren) with slots := h.slots.map (renameTag ren) })))) ]

/-- Blocks of a partition that goes out are saved once every one has stopped (R336). -/
def partStopped (s : State) (p : Nat) : Bool :=
  s.blocks.all (fun b => (s.ctx b.2.ctx).part != p || !b.2.resident || b.2.phase == .stopped) || !s.pkg.partsOut.contains p

/-- BLOCK_SAVE: the image is written, sealed for a protected context, its matrix instructions as resume records; the model keeps the block's state with it (log 18); its resources are freed. -/
def saveBlock (b : Nat) : Prog :=
  .get fun s =>
    let y := s.block b
    let x := s.ctx y.ctx
    let c := x.counter + 1
    let ren := (List.range y.teams.length).zip y.teams |>.map (fun k => (k.2, savedKey b k.1))
    .when (y.phase == .stopped && (s.blocks.get? b).isSome && partStopped s x.part)
      (.all [ .when x.prot (.all [ .one (.ctx y.ctx (fun z => { z with counter := c })), .one (.pkg (fun g => { g with saves := g.saves.put b c })) ]),
              dropLoads b,
              leaveStorage b,
              .when (s.coh.wants.any (fun w => (y.agents b).contains w.path)) (.one (.coh (fun c => { c with wants := c.wants.filter (fun w => !(y.agents b).contains w.path) }))),
              .each (s.teams.filter (fun t => t.2.yieldTo.any (fun k => y.teams.contains k)))
                (fun t => .one (.team t.1 (fun m => { m with yieldTo := m.yieldTo.filter (fun k => !y.teams.contains k) }))),
              .one (.block b (fun z =>
                { z with
                  savedMatrix := ((s.core y.core).queue.filter (fun e => y.teams.contains e.team)).map savedEntry
                  phase := .saved
                  image := storedImage s b c
                  shadow := shadowPlace s x.part (storedSize s y)
                  order := s.pkg.nextOrder })),
              .one (.core y.core (fun z => { z with queue := z.queue.filter (fun e => !y.teams.contains e.team) })),
              .one (.pkg (fun g => { g with nextOrder := g.nextOrder + 1 })),
              moveTeams b ren id,
              .when (x.prot && c == 2 ^ 48 - 1) (beginReset y.ctx 6) ])

def execBlockSave (b : Nat) (s : State) : Host.Outcome State Fault Refusal := (saveBlock b).run s

/-! ## Restore (R335, R339) -/

/-- The slice columns that matrix instructions read. -/
def mmaColumns (es : List MatrixEntry) (cols : List Nat) : List Nat := cols.filter (fun col => es.any (fun (e : MatrixEntry) => e.op.runs col))

/-- Overlays that the block's entries were loading are loading again. -/
def resumeLoads (b : Nat) : Prog :=
  .get fun s =>
    .each (s.block b).ring.entries (fun e =>
      match e.op with
      | .cOvl c => .when (decide (e.pos < e.subs)) (.one (.core (s.block b).core (fun x =>
          { x with slots := x.slots.modify (c.dst.toNat % 4) (fun o =>
              { o with asid := (engineSpace s b).asid, base := c.src, slen := ovlSlen c, lcount := ovlCount c, valid := false, loading := true }) })))
      | _ => .ret)

/-- A team's rows after a restore. -/
def restoredRows (f : Fit) (now : Nat) (m : Team) : Team := { m with rows := ((f.rows[m.idx]?).map Prod.snd).getD m.rows, issuedAt := now }

/-- The saved block takes its place again: matrix queue, slices, overlay 0, then its teams run on. -/
def restoreBlock (b : Nat) (f : Fit) : Prog :=
  .get fun s =>
    let y := s.block b
    let ren := (List.range y.teams.length).zip y.teams |>.map (fun k => (k.2, 32 * f.core + f.slots.getD k.1 0))
    .all [ .one (.pkg (fun g => { g with saves := g.saves.del b, nextOrder := g.nextOrder + 1 })),
           moveTeams b ren (restoredRows f s.clock),
           .one (.block b (fun z => { z with ltab := f.ltab, obtab := f.obtab, ttab := f.ttab, phase := .placed, order := s.pkg.nextOrder, holds := false })),
           .each (y.teams.map (rename ren)) syncBacking,
           .get fun s =>
             let z := s.block b
             let es := z.savedMatrix.filterMap (resumeEntry z)
             .all [ .one (.core f.core (fun c =>
                      { c with queue := c.queue ++ es, power := .active, rowRes := claimRows c.rowRes false z.ctx (rowUnits f.rows) })),
                    .one (.block b (fun z => { z with savedMatrix := [], image := [], shadow := [] })),
                    .each (mmaColumns es ((s.core f.core).sources.map Prod.fst)) (beginReload f.core) ],
           resumeLoads b,
           resident0 (32 * f.core + f.slots.headD 0) ]

/-- BLOCK_RESTORE: when the block's turn has come and its core has room; a protected block whose image is not good is refused, and the context is reset. -/
def execBlockRestore (b : Nat) (s : State) : Host.Outcome State Fault Refusal :=
  (Prog.get fun s =>
    let y := s.block b
    let w : Waiting := { prio := blockPrio s y, class' := 0, order := y.order, launch := y.launch, blk := some b }
    if !y.isSaved || (s.blocks.get? b).isNone || ctxIdle s y.ctx || !turnOf s w then .ret
    else if (s.ctx y.ctx).prot && !sealGood s b then beginReset y.ctx 4
    else match restoreFit s [] y with
      | none => .ret
      | some f => restoreBlock b f).run s

/-! ## Partition swap (R336) -/

/-- Resident blocks of a partition. -/
def partBlocks (s : State) (p : Nat) : List (Nat × Block) := s.blocks.filter (fun b => (s.ctx b.2.ctx).part == p && b.2.resident)

/-- PARTITION_SWAP: out, its blocks are asked to stop, and once every one has stopped all are saved; in, they may be restored again. -/
def execPartitionSwap (p : Nat) (out : Bool) (s : State) : Host.Outcome State Fault Refusal :=
  (Prog.get fun s =>
    let bs := partBlocks s p
    if out then
      .all [ .one (.pkg (fun g => { g with partsOut := p :: g.partsOut.filter (· != p) })),
             .each (bs.filter (fun b => b.2.phase == .placed)) (fun b => askStop b.1),
             .when (bs.all (fun b => b.2.phase == .stopped)) (.each bs (fun b => saveBlock b.1)) ]
    else .one (.pkg (fun g => { g with partsOut := g.partsOut.filter (· != p) }))).run s

end Sys2Proof.Machine
end

