-- ==== Sys2Proof/Machine/Repair.lean ====
section
/-! DEFINITION. Soft errors, the end of a page migration, and the installation of microcode (R22, R174, R255, R342, R364). -/

namespace Sys2Proof.Machine

/-! ## MIGRATION_COMPLETE (R174) -/

/-- An address of a page under its new name. -/
def moveAddr (page new pa : Nat) : Nat := if pa / 4096 = page then 4096 * new + pa % 4096 else pa

/-- A write that waits, on the new page. -/
def Stalled.moved (page new : Nat) (e : Stalled) : Stalled := if e.place = .phys then { e with pa := moveAddr page new e.pa } else e

def Piece.moved (page new : Nat) : Piece → Piece
  | .phys pa n => .phys (moveAddr page new pa) n
  | p => p

/-- A write's record, on the new page. -/
def HistWord.moved (page new : Nat) (h : HistWord) : HistWord :=
  if h.word < 2 ^ 48 && h.word / 1024 == page then { h with word := 1024 * new + h.word % 1024 } else h

/-- The old page's lines leave every cache and directory, and its lock goes (R174 step 5). -/
def Coh.dropPage (c : Coh) (page : Nat) : Coh :=
  let mine := fun (line : Nat) => line / 16 == page
  { c with
    l2 := c.l2.keep (fun k _ => !mine (k / 8))
    behind := c.behind.keep (fun k _ => !mine (k / 4))
    owner := c.owner.keep (fun l _ => !mine l)
    sharers := c.sharers.keep (fun l _ => !mine l)
    filter := c.filter.filter (fun l => !mine l)
    locked := c.locked.filter (· != page) }

/-- A line of a page takes part in a transaction. -/
def Coh.pageBusy (c : Coh) (page : Nat) : Bool :=
  c.busy.any (fun t => t.line / 16 == page || t.evict.any (fun l => l / 16 == page))

/-- What still names a physical page names the new one: writes that wait, records of the memory order, the front ends' dependences, and the destinations of drains; a hart's reservation of it is gone. -/
def movePage (page new : Nat) : Prog :=
  .get fun s =>
    let lines := fun (r : Nat × Nat) => if r.1 / 16 = page then (16 * new + r.1 % 16, r.2) else r
    .all [ .one (.pkg (fun g => { g with stalled := g.stalled.map (Stalled.moved page new), locks := g.locks.filter (fun l => l.1 != page) })),
           .one (.hist (fun hs => hs.map (HistWord.moved page new))),
           .each (s.launches.filter (fun l => l.2.depRead.any (fun d => d.2.1 / 16 == page))) (fun l =>
             .one (.launch l.1 (fun y => { y with depRead := y.depRead.mapVals (fun _ r => lines r) }))),
           .each (s.cores.filter (fun c => !c.2.queue.isEmpty)) (fun c => .one (.core c.1 (fun x =>
             { x with queue := x.queue.map (fun e => { e with spots := e.spots.map (Piece.moved page new), amaxAt := e.amaxAt.map (Piece.moved page new) }) }))),
           .each (s.cores.filter (fun c => c.2.l1.any (fun e => e.1 / 16 == page))) (fun c => .one (.core c.1 (fun x =>
             { x with l1 := x.l1.filter (fun e => e.1 / 16 != page) }))),
           .each (s.harts.filter (fun h => (h.2.reserve.map (fun r => r.1.any (fun p => p.1 / 4096 == page))).getD false)) (fun h =>
             .one (.hart h.1 (fun y => { y with reserve := none }))) ]

/-- The stalled writes of a page are performed on its new page, in the order in which they reached the directory; an atomic performs with its own turn, and what lies behind it waits for it. -/
def performStalled (page new : Nat) : Prog :=
  .get fun s =>
    .all [ movePage page new,
           .get fun s => .one (.coh (fun c => s.filled (c.dropPage page).retryQueued)),
           .each ((s.pkg.stalled.filter (fun e => e.place == .phys && e.pa / 4096 == page)).map (Stalled.moved page new)) (performEntry true) ]

/-- MIGRATION_COMPLETE: translations of the old page are gone everywhere, its locks clear, its lines leave every cache, and its stalled writes are performed. -/
def execMigrationComplete (page : Nat) (s : State) : Host.Outcome State Fault Refusal :=
  (Prog.get fun s =>
    match s.pkg.locks.find? (fun l => l.1 == page) with
    | none => .ret
    | some (_, new) =>
      if drainRuns s || s.coh.pageBusy page then .ret
      else (invalidate (fun e => decide (e.pa ≤ 4096 * page) && decide (4096 * page < e.pa + e.size))).seq (performStalled page new)).run s

/-! ## SOFT_ERROR (R342) -/

/-- A record of the error log, with its SEQ (R255, R343). -/
def logError (place n : Nat) : Prog :=
  .get fun s => .all [ .one .drawSeq, .one (.pkg (fun g => { g with errors := (place, n, s.seq) :: g.errors })) ]

/-- A trace record of an error, which names its team where there is one (R351). -/
def traceError (t : Option Nat) (kind n : Nat) : Prog :=
  match t with
  | some k => trace k kind 0 (BitVec.ofNat 64 n)
  | none => traceAll kind (BitVec.ofNat 64 n)

/-- A page table, at a level, maps a physical page by some leaf. -/
def tableMaps (s : State) (page : Nat) : Nat → Nat → Bool
  | l, table => (List.range 512).any (fun i =>
    let p : W64 := BitVec.ofNat 64 (readNat s (table + 8 * i) 8)
    if !Pte.valid p || Pte.malformed p then false
    else if Pte.leaf p then decide (Pte.frame p ≤ 4096 * page) && decide (4096 * page < Pte.frame p + 2 ^ (12 + 9 * l))
    else match l with
      | 0 => false
      | l' + 1 => tableMaps s page l' (Pte.frame p))

/-- The contexts that map a page. -/
def ctxsMapping (s : State) (page : Nat) : List Nat :=
  (s.ctxs.filter (fun c => !c.2.dead && tableMaps s page 4 (c.2.root.toNat / 4096 * 4096))).map Prod.fst

/-- A residue mismatch of a group's chunk: the chunk is stepped again, which adds cycles to the schedule (R249), and the third in a row resets the context (R255). -/
def residueMismatch (c n g : Nat) : Prog :=
  .get fun s =>
    match entryAt s c n with
    | none => .ret
    | some e =>
      let k := (e.fails.get? g).getD 0 + 1
      .all [ logError 5 g, trace e.team 3 0 (BitVec.ofNat 64 g),
             if 3 ≤ k then beginReset (s.blockOf e.team).ctx 3 else setEntry c n (fun e => { e with fails := e.fails.put g k, disturbed := true }) ]

/-- SOFT_ERROR: corrected, refetched, reloaded or replayed as R342's table gives, or the context is reset whatever KOF says. -/
def execSoftError (e : SoftError) (s : State) : Host.Outcome State Fault Refusal :=
  (match e.place with
   | .corrected n => (logError 0 n).seq (traceError e.team 2 n)
   | .cleanLine c => logError 1 c
   | .overlaySlot c i => (logError 2 i).seq
       (.one (.core c (fun x => { x with slots := x.slots.modify i (fun o => { o with valid := false }) })))
   | .tlbEntry c n => (logError 3 n).seq (.one (.core c (fun x => { x with tlb := x.tlb.eraseIdx n })))
   | .dieTlbEntry d n => (logError 3 n).seq (.one (.die d (fun x => { x with tlb := x.tlb.eraseIdx n })))
   | .sliceRow c col row => (logError 4 row).seq (.get fun s =>
       .when ((((s.core c).sources.get? col).getD []).any (fun r => decide (r.row ≤ row) && decide (row < r.row + r.rows))) (beginReload c col))
   | .datapath c n g => residueMismatch c n g
   | .proofTile t => (logError 6 0).seq (dropSpec t (fun p => p.pc))
   | .held x => (logError 7 x).seq (beginReset x 2)
   | .hbmPage p => (logError 8 p).seq (.get fun s =>
       .all [ .each (ctxsMapping s p) (fun x => beginReset x 2), .one (.pkg (fun g => { g with retired := p :: g.retired.filter (· != p) })) ])).run s

/-! ## MICROCODE_INSTALL (R22, R364) -/

/-- VERSION with another minor number (R20). -/
def withMinor (v : W32) (m : Nat) : W32 := (v &&& ~~~(0x00FF0000 : W32)) ||| BitVec.ofNat 32 (m % 256 * 2 ^ 16)

/-- The operations that a minor number adds to those that there are. -/
def addMinor (ops : KMap Nat) (minor : Nat) : KMap Nat :=
  (List.range 32).foldl (fun m k => if Config.minorAdds minor (0x3E0 + k) && (m.get? (0x3E0 + k)).isNone then m.put (0x3E0 + k) minor else m) ops

/-- The operations after an image of a minor number: those there were, and those of every minor up to it (R22). -/
def addOps (ops : KMap Nat) (minor : Nat) : KMap Nat := ((List.range minor).map (· + 1)).foldl addMinor ops

/-- MICROCODE_INSTALL: once no block of any context is placed, every die's compatibility unit takes the image, whose minor includes every operation of the minors below it, VERSION's minor number rises, and the front ends go on. -/
def execMicrocodeInstall (s : State) : Host.Outcome State Fault Refusal :=
  (Prog.get fun s =>
    match s.pkg.microcode with
    | [] => .ret
    | i :: rest =>
      if s.blocks.any (fun b => b.2.resident) then .ret
      else
        .all [ .each (List.range 4) (fun d => .one (.die d (fun x => { x with minor := Config.imageMinor i, ops := addOps x.ops (Config.imageMinor i) }))),
               .one (.pkg (fun g => { g with version := withMinor g.version (Config.imageMinor i), microcode := rest, image := some i })) ]).run s

end Sys2Proof.Machine
end

