-- ==== Sys2Proof/Machine/Requests.lean ====
section
/-! DEFINITION. Requests of the host OS to firmware (R28, R360, R361, R363, R364). -/

namespace Sys2Proof.Machine

/-! ## The request queue (R360) -/

/-- The oldest request that firmware has not served: its slot, CODE, CTX and arguments, whether a reserved field is not zero, and the count consumed. -/
structure Request where
  slot : Nat
  code : Nat
  ctx : Nat
  args : List W64
  bad : Bool
  cidx : W64
  deriving DecidableEq, Repr

/-- Firmware as an agent that serves requests. -/
def firmwarePath : Path := .front (2 ^ 24)

/-- Physical bytes that firmware reads, with its own writes in them. -/
def firmwareBytes (s : State) (a n : Nat) : List Byte :=
  if pathStalls s firmwarePath then (List.range n).map (fun i => byteOwn s firmwarePath (a + i)) else readBytes s a n

/-- The next request, in index order; the descriptor and its slots lie at physical addresses, and none is served from a descriptor that is not valid (log 32). -/
def nextRequest (s : State) : Option Request :=
  if !s.pkg.fwqLatched then none
  else
    let d := descOf 32 (firmwareBytes s s.pkg.fwq.toNat 64)
    if !d.ok || d.pidx = d.cidx then none
    else
      let a := d.base.toNat + 64 * (d.cidx.toNat % 2 ^ d.log2n)
      let b := firmwareBytes s a 64
      some { slot := a, code := field b 0 2, ctx := field b 8 4 % 2 ^ 24, args := (List.range 6).map (fun i => field64 b (0x10 + 8 * i)),
             bad := field b 2 2 != 0 || field b 0xC 4 != 0 || field b 0xB 1 != 0, cidx := d.cidx }

/-- Firmware's writes, a release where they say so. -/
def firmwareWriter (role : Bool) : Writer := { path := firmwarePath, role := role }

/-- Firmware writes STATUS with release, and then stores CIDX. -/
def serve (r : Request) (status : Nat) : Prog :=
  .get fun s =>
    putBytes (firmwareWriter true) .phys (r.slot + 4) (bytes4 status)
      (putBytes (firmwareWriter true) .phys (s.pkg.fwq.toNat + 8) (bytes8 (r.cidx + 1)) .ret)

/-- What a request comes to: refused or invalid with no effect, done with an effect, or not served yet. -/
inductive Served where
  | done' (p : Prog)
  | refused
  | invalid
  | wait

/-- The request at the head of the queue, where it is of a CODE. -/
def request (code : Nat) (f : State → Request → Served) : Prog :=
  .get fun s =>
    match nextRequest s with
    | none => .ret
    | some r =>
      if r.code ≠ code then .ret
      else if r.bad then serve r 3
      else match f s r with
        | .done' p => p.seq (serve r 1)
        | .refused => serve r 2
        | .invalid => serve r 3
        | .wait => .ret

def Request.arg (r : Request) (n : Nat) : W64 := r.args.getD n 0

/-- A context that requests may name. -/
def liveCtx (s : State) (x : Nat) : Bool := (s.ctxs.get? x).isSome && !(s.ctx x).dead && !(s.ctx x).teardown

/-- A request about a context: invalid where an argument is out of range, refused where the context is none. -/
def ctxRequest (code : Nat) (ok : Request → Bool) (f : State → Request → Served) : Prog :=
  request code (fun s r => if !ok r then .invalid else if !liveCtx s r.ctx then .refused else f s r)

/-- Zero, or an address aligned to `n` and canonical. -/
def zeroOr (n : Nat) (a : W64) : Bool := a == 0 || goodAddr a n

/-! ## Contexts (R42, R337) -/

/-- The contexts of a partition that run, or would as the partition is swapped in: those neither dead nor swapped out themselves (R42, R336). -/
def runningCtxs (s : State) (p : Nat) : List (Nat × Ctx) := s.ctxs.filter (fun c => !c.2.dead && c.2.part == p && !c.2.swapped)

/-- CREATE_CONTEXT: CTX is the identifier of the new context; a protected one gets its key.  The identifier of a context that a reset has ended may be created again, and a protected context keeps the key, which survives the reset (R357), and the save counter, so that no IV comes twice (DESIGN CHOICE, log 22). -/
def execCreateContext (s : State) : Host.Outcome State Fault Refusal :=
  (request 1 (fun s r =>
    let p := (r.arg 0).toNat
    if decide (8 ≤ p) || (r.arg 1).toNat % 4096 != 0 || decide (2 ^ 16 ≤ (r.arg 2).toNat) || decide (1 < (r.arg 3).toNat) then .invalid
    else if ((s.ctxs.get? r.ctx).isSome && !(s.ctx r.ctx).dead) || !s.pkg.parts.contains p || decide (64 ≤ (runningCtxs s p).length) then .refused
    else .done' (.one (.ctx r.ctx (fun _ =>
      { State.blankCtx with
        asid := (r.arg 2).toNat
        root := r.arg 1
        part := p
        prot := r.arg 3 == 1
        key := if (s.ctx r.ctx).prot then (s.ctx r.ctx).key else if r.arg 3 == 1 then Config.contextKey s.pkg.powerups r.ctx else 0
        counter := (s.ctx r.ctx).counter }))))).run s

/-- RESET_CONTEXT: reason 5 (R341). -/
def execResetContext (s : State) : Host.Outcome State Fault Refusal :=
  (ctxRequest 2 (fun _ => true) (fun _ r => .done' (beginReset r.ctx 5))).run s

/-- SWAP_CONTEXT, which has no argument: a context that is in goes out, and its placed blocks are stopped and saved (R331), and one that is out comes in, only where 64 do not run already (R42). -/
def execSwapContext (s : State) : Host.Outcome State Fault Refusal :=
  (ctxRequest 12 (fun _ => true) (fun s r =>
    let out := !(s.ctx r.ctx).swapped
    if !out && decide (64 ≤ (runningCtxs s (s.ctx r.ctx).part).length) then .refused
    else .done' (.all [ .one (.ctx r.ctx (fun y => { y with swapped := out })),
                   .when out (.each (s.blocks.filter (fun b => b.2.ctx == r.ctx && b.2.phase == .placed)) (fun b => askStop b.1)) ]))).run s

/-! ## Queues (R26 to R28) -/

/-- A descriptor that binding accepts.  A BASE that is misaligned or not canonical is refused too (DESIGN CHOICE, log 43: R28 lists no refusal for it). -/
def descriptorOk (b : List Byte) : Bool :=
  bits b 8 31 16 == 0 && bits b 8 7 3 == 0 && bits b 8 1 0 == 0 && field b 0xC 52 == 0 && field64 b 0 == field64 b 0x40
    && bits b 0x50 31 10 == 0 && bits b 0x50 7 5 == 0 && field b 0x54 4 == 0 && field b 0x60 32 == 0
    && decide (4 ≤ bits b 0x50 4 0) && decide (bits b 0x50 4 0 ≤ 16) && goodAddr (field64 b 0x48) 128 && zeroOr 64 (field64 b 0x58)

/-- The queue context that takes a queue of a context: the lowest free one on the lowest die of its partition that has one. -/
def freeQueue (s : State) (x : Nat) : Option Nat :=
  ((partDies s (s.ctx x).part).flatMap (fun d => (List.range 64).map (fun k => 64 * d + k))).find? (fun q => (s.queues.get? q).isNone)

/-- BIND_QUEUE: BASE, CONFIG and NQ are read once; stores to CTRL count from here on.  A descriptor that is bound already, and one whose read faults, are refused (DESIGN CHOICE, log 44: R28 gives neither outcome). -/
def execBindQueue (s : State) : Host.Outcome State Fault Refusal :=
  (ctxRequest 3 (fun r => goodAddr (r.arg 0) 256) (fun s r =>
    match ctxBytes s r.ctx (r.arg 0) 128, freeQueue s r.ctx with
    | .ok b, some q =>
      if !descriptorOk b || (ctxQueues s r.ctx).any (fun k => k.2.desc == r.arg 0) then .refused
      else .done' (.one (.queue q (fun _ =>
        { State.blankQueue with
          ctx := r.ctx
          desc := r.arg 0
          base := field64 b 0x48
          log2n := bits b 0x50 4 0
          prio := bits b 0x50 9 8
          nq := field64 b 0x58
          state := .active
          reason := bits b 8 15 8
          kill := bits b 8 2 2 == 1
          ctrlSeen := s.writes
          wridx := field64 b 0
          rdidx := field64 b 0x40 })))
    | _, _ => .refused)).run s

/-! ## Registrations (R41, R132, R292, R307, R347) -/

def execRegisterFpThresholds (s : State) : Host.Outcome State Fault Refusal :=
  (ctxRequest 4 (fun r => zeroOr 256 (r.arg 0)) (fun _ r =>
    .done' (.one (.ctx r.ctx (fun y => { y with thrAddr := r.arg 0 }))))).run s

/-- REGISTER_LANDING: the landing queues, the threads, the service entry, and the call profile, whose queue must be one of the context. -/
def execRegisterLanding (s : State) : Host.Outcome State Fault Refusal :=
  (ctxRequest 5
    (fun r => zeroOr 64 (r.arg 0) && zeroOr 64 (r.arg 1) && canonical (r.arg 3) && zeroOr 64 (r.arg 4) && (r.arg 5).toNat / 4 % 2 == 0 && (r.arg 5).toNat / 16 % 16 == 0
      && (r.arg 2 == 0 || r.arg 0 != 0))
    (fun s r =>
      if r.arg 5 != 0 && !(ctxQueues s r.ctx).any (fun q => q.2.desc == r.arg 5 &&& ~~~(0xFF : W64)) then .refused
      else .done' (.one (.ctx r.ctx (fun y =>
        { y with
          hostLanding := r.arg 0
          devLanding := r.arg 1
          threads := (r.arg 2).toNat
          service := r.arg 3
          profile := r.arg 4
          profileWord := r.arg 5 }))))).run s

def execRegisterObservation (s : State) : Host.Outcome State Fault Refusal :=
  (ctxRequest 6 (fun r => zeroOr 64 (r.arg 0) && zeroOr 64 (r.arg 1) && canonical (r.arg 2)) (fun _ r =>
    .done' (.one (.ctx r.ctx (fun y =>
      { y with profBlock := r.arg 0, traceQ := r.arg 1, dumpBuf := r.arg 2, dumpLen := (r.arg 3).toNat }))))).run s

def execRegisterInboundQueue (s : State) : Host.Outcome State Fault Refusal :=
  (ctxRequest 7 (fun r => zeroOr 64 (r.arg 0)) (fun _ r =>
    .done' (.one (.ctx r.ctx (fun y => { y with inbound := r.arg 0 }))))).run s

/-- EXTERNAL_SHARED_RANGE: base and length are multiples of 2 MiB; a range with the same base is replaced. -/
def execExternalSharedRange (s : State) : Host.Outcome State Fault Refusal :=
  (ctxRequest 8 (fun r => goodAddr (r.arg 0) (2 ^ 21) && (r.arg 1).toNat % 2 ^ 21 == 0) (fun _ r =>
    .done' (.one (.ctx r.ctx (fun y => { y with shared := (r.arg 0, r.arg 1) :: y.shared.filter (fun x => x.1 != r.arg 0) }))))).run s

/-! ## Page faults (R330) -/

/-- An answer to a page fault: argument 0 the handle, argument 1 the answer, 0 RETRY and 1 REFUSE. -/
def answerFault (answer : W64) (p : Nat → FaultHandle → Prog) : Prog :=
  .get fun s =>
    match nextRequest s with
    | none => .ret
    | some r =>
      if r.code = 9 ∧ (r.arg 1 = answer ∨ (answer = 1 ∧ 1 < r.arg 1)) then
        request 9 (fun s r =>
          let h := (r.arg 0).toNat
          if decide (1024 ≤ h) || decide (1 < r.arg 1) then .invalid
          else match handleOf s h with
            | none => .refused
            | some f => if f.ctx ≠ r.ctx then .refused else .done' ((closeHandle h).seq (p h f)))
      else .ret

/-- PAGE_FAULT_RETRY. -/
def execPageFaultRetry (s : State) : Host.Outcome State Fault Refusal := (answerFault 0 (fun h _ => releaseWaiters h)).run s

/-- PAGE_FAULT_REFUSE. -/
def execPageFaultRefuse (s : State) : Host.Outcome State Fault Refusal := (answerFault 1 refuseWaiters).run s

/-! ## Translation and pages (R174, R294, R327) -/

/-- INVALIDATE_TRANSLATION: argument 0 the address or the ASID form of R327, argument 1 the ASID with bit 16 for every one; it is acknowledged once nothing uses a removed entry. -/
def execInvalidateTranslation (s : State) : Host.Outcome State Fault Refusal :=
  (request 10 (fun s r =>
    let a := r.arg 0
    if drainRuns s || writesDue s then .wait
    else .done' (invalidate (tlbMatches (a.getLsbD 0) ((r.arg 1).getLsbD 16) ((r.arg 1).toNat % 2 ^ 16) a)))).run s

/-- A page's lines are locked: first the Modified and Owned copies are recalled, and memory takes their sectors (R174 step 1). -/
def recallPage (c : Coh) (page : Nat) : Coh :=
  let dirty := c.l2.filter (fun e => e.1 / 8 / 16 == page && (e.2.1 == .m || e.2.1 == .o))
  let c' := dirty.foldl (fun c e => ((c.lost (e.1 / 8) (e.1 % 8)).writeBack (e.1 / 8) e.2.2).forget (e.1 / 8) (e.1 % 8)) c
  { c' with locked := page :: c'.locked }

/-- MIGRATE_PAGE: argument 0 the old and argument 1 the new physical page; the old page's lines are locked once none takes part in a transaction, and the page is copied. -/
def execMigratePage (s : State) : Host.Outcome State Fault Refusal :=
  (request 11 (fun s r =>
    let old := (r.arg 0).toNat
    let new := (r.arg 1).toNat
    if old % 4096 != 0 || new % 4096 != 0 || (homeDie s old).isNone || (homeDie s new).isNone || old == new then .invalid
    else if s.pkg.locks.any (fun l => l.1 == old / 4096 || l.2 == old / 4096 || l.1 == new / 4096 || l.2 == new / 4096) then .refused
    else if s.coh.pageBusy (old / 4096) || s.coh.pageBusy (new / 4096) then .wait
    else .done' (.all [
      .one (.coh (fun c => s.filled (recallPage c (old / 4096)))),
      homeWrite { path := firmwarePath } .phys new (readBytes s old 4096),
      .one (.hist (fun hs => hs.filter (fun h => h.word / 1024 != new / 4096))),
      .one (.pkg (fun g => { g with locks := g.locks ++ [(old / 4096, new / 4096)] })) ]))).run s

/-! ## Partitions (R42, R168) -/

/-- The partition map of argument 0, a byte for each half-die, and the carve counts of argument 1, a byte for each die. -/
def byteOf (x : W64) (i : Nat) : Nat := x.toNat / 2 ^ (8 * i) % 256
def partMap (r : Request) : List Nat := (List.range 8).map (byteOf (r.arg 0))
def carveMap (r : Request) : List Nat := (List.range 4).map (byteOf (r.arg 1))

/-- The partitions that a request changes: those a half-die leaves or joins, and those of a die whose count changes. -/
def affected (s : State) (r : Request) : List Nat :=
  (List.range 8).flatMap (fun i =>
    let old := s.pkg.parts.getD i 0
    let new := (partMap r).getD i 0
    if old ≠ new then [old, new] else if (s.die (i / 2)).carved ≠ (carveMap r).getD (i / 2) 0 then [old] else [])

/-- SET_PARTITIONS: refused while a block of an affected partition is placed, and where the partition of a context would be empty (R42).  A saved block is restored on its core all the same, where that core is another partition's from now on (R335; DESIGN CHOICE, log 63). -/
def execSetPartitions (s : State) : Host.Outcome State Fault Refusal :=
  (request 13 (fun s r =>
    if (partMap r).any (fun p => decide (8 ≤ p)) || (carveMap r).any (fun n => decide (20 < n)) then .invalid
    else if s.blocks.any (fun b => b.2.resident && (affected s r).contains (s.ctx b.2.ctx).part) || s.ctxs.any (fun c => !c.2.dead && !(partMap r).contains c.2.part) then .refused
    else .done' (.all [ .one (.pkg (fun g => { g with parts := partMap r })),
                        .each (List.range 4) (fun d => .one (.die d (fun x => { x with carved := (carveMap r).getD d 0 }))) ]))).run s

/-! ## Debugging (R352 to R354) -/

/-- The placed team of a context that a team ID names. -/
def teamNamed (s : State) (x : Nat) (id : W64) : Option Nat :=
  (s.teams.find? (fun t => t.2.teamid.setWidth 64 == id && (s.block t.2.blk).ctx == x && (s.block t.2.blk).resident && !fMode (coreOf t.1))).map Prod.fst

/-- A team runs on after a precise stop. -/
def resumeOne (t : Nat) : Prog := .one (.team t (fun m => { m with stopped := false }))

/-- DEBUG_CONTROL: argument 0 the function (0 and 1 stop a team and its block, 2 and 3 resume them, 4 sets PCMATCH and 5 WATCH), argument 1 the team ID, argument 2 the register number, argument 3 its value. -/
def execDebugControl (s : State) : Host.Outcome State Fault Refusal :=
  (ctxRequest 14 (fun r => decide ((r.arg 0).toNat ≤ 5) && decide ((r.arg 2).toNat ≤ 3)) (fun s r =>
    match teamNamed s r.ctx (r.arg 1) with
    | none => .refused
    | some t =>
      let op := (r.arg 0).toNat
      let n := (r.arg 2).toNat
      let b := (s.team t).blk
      .done' (
        if op = 0 then stopTeam t
        else if op = 1 then stopBlock b
        else if op = 2 then resumeOne t
        else if op = 3 then .each (s.block b).teams resumeOne
        else if op = 4 then .one (.team t (fun m => { m with pcmatch := putAt m.pcmatch n (r.arg 3 &&& pcmatchMask) }))
        else .one (.core (coreOf t) (fun c => { c with watch := putAt c.watch n ((r.arg 3).setWidth 32 &&& watchMask) }))))).run s

/-! ## Microcode and attestation (R363, R364) -/

/-- LOAD_MICROCODE: an image that is verified, with a minor number above the current one and above those of the images that wait already, waits to be installed after them; the request is done once its image waits, since an answer to a page fault on which a placed block waits may stand behind it in the queue (DESIGN CHOICE, log 10). -/
def execLoadMicrocode (s : State) : Host.Outcome State Fault Refusal :=
  (request 15 (fun s r =>
    let a := r.arg 0
    let ok := Config.imageReadable a 0 && Config.imageEd25519 a 0 && Config.imageMlDsa65 a 0 && Config.imageRollbackOk a 0
    if !ok || decide (Config.imageMinor a ≤ s.pkg.version.toNat / 2 ^ 16 % 256) || s.pkg.microcode.any (fun i => decide (Config.imageMinor a ≤ Config.imageMinor i)) then .refused
    else .done' (.one (.pkg (fun g => { g with microcode := g.microcode ++ [a] }))))).run s

/-- The signed bytes of a report, 0x000 to 0x0FF; the digests, of the firmware image as it was measured at boot and of the microcode image installed last among them, are Config's (R363). -/
def reportHead (s : State) (r : Request) (x : Option Nat) : List Byte :=
  let digest := fun (k : Nat) (what : List Nat) => (List.range 48).map (Config.digestByte k what)
  bytes4 0x41545354 ++ bytes4 s.pkg.version.toNat ++ (r.args.take 4).flatMap bytes8
    ++ digest 0 [] ++ s.pkg.measured
    ++ (match s.pkg.image with
        | none => List.replicate 48 0
        | some i => digest 2 [i.toNat])
    ++ digest 3 (s.pkg.parts ++ (List.range 4).map (fun d => (s.die d).carved))
    ++ (match x with
        | some k => bytes4 k ++ bytes4 (if (s.ctx k).prot then 1 else 0) ++ List.replicate 16 0
        | none => List.replicate 24 0)

/-- The report of R363, with its two signatures. -/
def report (s : State) (r : Request) (x : Option Nat) : List Byte :=
  let head := reportHead s r x
  head ++ (List.range 64).map (Config.signatureByte 0 head) ++ (List.range 3309).map (Config.signatureByte 1 head) ++ List.replicate 467 0

/-- ATTEST: arguments 0 to 3 the nonce, argument 4 the report's address, in CTX's address space; CTX 0 with no such context asks for a package report, at a physical address. -/
def execAttest (s : State) : Host.Outcome State Fault Refusal :=
  (request 16 (fun s r =>
    if (s.ctxs.get? r.ctx).isSome then
      match ctxRun s r.ctx .write (r.arg 4) 4096 with
      | .error _ => .refused
      | .ok ps => .done' (writeParts (firmwareWriter false) ps (report s r (some r.ctx)))
    else if r.ctx ≠ 0 then .refused
    else if (homeDie s (r.arg 4).toNat).isNone || (r.arg 4).toNat % 4096 != 0 then .invalid
    else .done' (putBytes (firmwareWriter false) .phys (r.arg 4).toNat (report s r none) .ret))).run s

/-- UNKNOWN_REQUEST: a CODE that R361 does not list. -/
def execUnknownRequest (s : State) : Host.Outcome State Fault Refusal :=
  (Prog.get fun s =>
    match nextRequest s with
    | none => .ret
    | some r => .when (r.code == 0 || decide (16 < r.code)) (serve r 3)).run s

end Sys2Proof.Machine
end

