-- ==== Sys2Proof/Machine/Dispatch.lean ====
section
/-! DEFINITION. The meaning of every instruction: one arm each. -/

namespace Sys2Proof.Machine

def exec (i : Instr) (s : State) : Host.Outcome State Fault Refusal :=
  match i with
  | .add d a b w => Sys2Proof.Machine.execAdd d a b w s
  | .sub d a b w => Sys2Proof.Machine.execSub d a b w s
  | .mul d a b w => Sys2Proof.Machine.execMul d a b w s
  | .mulhI d a b w => Sys2Proof.Machine.execMulhI d a b w s
  | .mulhN d a b w => Sys2Proof.Machine.execMulhN d a b w s
  | .divI d a b w => Sys2Proof.Machine.execDivI d a b w s
  | .divN d a b w => Sys2Proof.Machine.execDivN d a b w s
  | .remI d a b w => Sys2Proof.Machine.execRemI d a b w s
  | .remN d a b w => Sys2Proof.Machine.execRemN d a b w s
  | .and d a b w => Sys2Proof.Machine.execAnd d a b w s
  | .or d a b w => Sys2Proof.Machine.execOr d a b w s
  | .xor d a b w => Sys2Proof.Machine.execXor d a b w s
  | .andn d a b w => Sys2Proof.Machine.execAndn d a b w s
  | .shl d a b w => Sys2Proof.Machine.execShl d a b w s
  | .shr d a b w => Sys2Proof.Machine.execShr d a b w s
  | .sra d a b w => Sys2Proof.Machine.execSra d a b w s
  | .rol d a b w => Sys2Proof.Machine.execRol d a b w s
  | .minI d a b w => Sys2Proof.Machine.execMinI d a b w s
  | .minN d a b w => Sys2Proof.Machine.execMinN d a b w s
  | .maxI d a b w => Sys2Proof.Machine.execMaxI d a b w s
  | .maxN d a b w => Sys2Proof.Machine.execMaxN d a b w s
  | .popc d a w => Sys2Proof.Machine.execPopc d a w s
  | .clz d a w => Sys2Proof.Machine.execClz d a w s
  | .ctz d a w => Sys2Proof.Machine.execCtz d a w s
  | .addi d a imm => Sys2Proof.Machine.execAddi d a imm s
  | .andi d a imm => Sys2Proof.Machine.execAndi d a imm s
  | .ori d a imm => Sys2Proof.Machine.execOri d a imm s
  | .xori d a imm => Sys2Proof.Machine.execXori d a imm s
  | .shli d a w n => Sys2Proof.Machine.execShli d a w n s
  | .shri d a w n => Sys2Proof.Machine.execShri d a w n s
  | .srai d a w n => Sys2Proof.Machine.execSrai d a w n s
  | .lih d imm => Sys2Proof.Machine.execLih d imm s
  | .lix d imm => Sys2Proof.Machine.execLix d imm s
  | .cmp d a b w c => Sys2Proof.Machine.execCmp d a b w c s
  | .fadd d a b w r => Sys2Proof.Machine.execFadd d a b w r s
  | .fsub d a b w r => Sys2Proof.Machine.execFsub d a b w r s
  | .fmul d a b w r => Sys2Proof.Machine.execFmul d a b w r s
  | .fdiv d a b w r => Sys2Proof.Machine.execFdiv d a b w r s
  | .fsqrt d a w r => Sys2Proof.Machine.execFsqrt d a w r s
  | .fmin d a b w => Sys2Proof.Machine.execFmin d a b w s
  | .fmax d a b w => Sys2Proof.Machine.execFmax d a b w s
  | .fminn d a b w => Sys2Proof.Machine.execFminn d a b w s
  | .fmaxn d a b w => Sys2Proof.Machine.execFmaxn d a b w s
  | .fcmpEq d a b w => Sys2Proof.Machine.execFcmpEq d a b w s
  | .fcmpLt d a b w => Sys2Proof.Machine.execFcmpLt d a b w s
  | .fcmpLe d a b w => Sys2Proof.Machine.execFcmpLe d a b w s
  | .fcmpUn d a b w => Sys2Proof.Machine.execFcmpUn d a b w s
  | .fcvtF d a w r => Sys2Proof.Machine.execFcvtF d a w r s
  | .fcvtI d a w r => Sys2Proof.Machine.execFcvtI d a w r s
  | .fcvtN d a w r => Sys2Proof.Machine.execFcvtN d a w r s
  | .icvtF d a w r => Sys2Proof.Machine.execIcvtF d a w r s
  | .ncvtF d a w r => Sys2Proof.Machine.execNcvtF d a w r s
  | .fclass d a w => Sys2Proof.Machine.execFclass d a w s
  | .ffma d a b w r => Sys2Proof.Machine.execFfma d a b w r s
  | .ld d a sz p imm => Sys2Proof.Machine.execLd d a sz p imm s
  | .st d a sz p imm => Sys2Proof.Machine.execSt d a sz p imm s
  | .ldAcq d a sz p imm => Sys2Proof.Machine.execLdAcq d a sz p imm s
  | .stRel d a sz p imm => Sys2Proof.Machine.execStRel d a sz p imm s
  | .atomSwap d a b o sz w => Sys2Proof.Machine.execAtomSwap d a b o sz w s
  | .atomAdd d a b o sz w => Sys2Proof.Machine.execAtomAdd d a b o sz w s
  | .atomAnd d a b o sz w => Sys2Proof.Machine.execAtomAnd d a b o sz w s
  | .atomOr d a b o sz w => Sys2Proof.Machine.execAtomOr d a b o sz w s
  | .atomXor d a b o sz w => Sys2Proof.Machine.execAtomXor d a b o sz w s
  | .atomMinI d a b o sz w => Sys2Proof.Machine.execAtomMinI d a b o sz w s
  | .atomMaxI d a b o sz w => Sys2Proof.Machine.execAtomMaxI d a b o sz w s
  | .atomMinN d a b o sz w => Sys2Proof.Machine.execAtomMinN d a b o sz w s
  | .atomMaxN d a b o sz w => Sys2Proof.Machine.execAtomMaxN d a b o sz w s
  | .atomFadd d a b o sz => Sys2Proof.Machine.execAtomFadd d a b o sz s
  | .atomFmax d a b o sz => Sys2Proof.Machine.execAtomFmax d a b o sz s
  | .cas d a b o sz w => Sys2Proof.Machine.execCas d a b o sz w s
  | .b c a b o => Sys2Proof.Machine.execB c a b o s
  | .bz a o => Sys2Proof.Machine.execBz a o s
  | .bnz a o => Sys2Proof.Machine.execBnz a o s
  | .j o => Sys2Proof.Machine.execJ o s
  | .jal o => Sys2Proof.Machine.execJal o s
  | .jalr d a imm => Sys2Proof.Machine.execJalr d a imm s
  | .bspec c a b h o => Sys2Proof.Machine.execBspec c a b h o s
  | .msplit p => Sys2Proof.Machine.execMsplit p s
  | .melse => Sys2Proof.Machine.execMelse s
  | .mjoin => Sys2Proof.Machine.execMjoin s
  | .mrd d k => Sys2Proof.Machine.execMrd d k s
  | .mwr k a => Sys2Proof.Machine.execMwr k a s
  | .mcnt d => Sys2Proof.Machine.execMcnt d s
  | .bmz o => Sys2Proof.Machine.execBmz o s
  | .bmf o => Sys2Proof.Machine.execBmf o s
  | .lx n imm => Sys2Proof.Machine.execLx n imm s
  | .qset q a => Sys2Proof.Machine.execQset q a s
  | .waitl n => Sys2Proof.Machine.execWaitl n s
  | .obres r a => Sys2Proof.Machine.execObres r a s
  | .obrel r => Sys2Proof.Machine.execObrel r s
  | .panel p a => Sys2Proof.Machine.execPanel p a s
  | .mzero t n => Sys2Proof.Machine.execMzero t n s
  | .mma t r p x f => Sys2Proof.Machine.execMma t r p x f s
  | .mdrain t a => Sys2Proof.Machine.execMdrain t a s
  | .mcommit d => Sys2Proof.Machine.execMcommit d s
  | .mwait a => Sys2Proof.Machine.execMwait a s
  | .syinit a sz => Sys2Proof.Machine.execSyinit a sz s
  | .sya d sz => Sys2Proof.Machine.execSya d sz s
  | .syw d a sz => Sys2Proof.Machine.execSyw d a sz s
  | .sytest d a sz => Sys2Proof.Machine.execSytest d a sz s
  | .syexp a sz => Sys2Proof.Machine.execSyexp a sz s
  | .sywb d sz => Sys2Proof.Machine.execSywb d sz s
  | .syclr a sz => Sys2Proof.Machine.execSyclr a sz s
  | .rget d sz => Sys2Proof.Machine.execRget d sz s
  | .rrel sz => Sys2Proof.Machine.execRrel sz s
  | .rput d sz => Sys2Proof.Machine.execRput d sz s
  | .rdone sz => Sys2Proof.Machine.execRdone sz s
  | .fenceX f t => Sys2Proof.Machine.execFenceX f t s
  | .ifence => Sys2Proof.Machine.execIfence s
  | .csrr d c => Sys2Proof.Machine.execCsrr d c s
  | .csrw d a c => Sys2Proof.Machine.execCsrw d a c s
  | .csrs d a c => Sys2Proof.Machine.execCsrs d a c s
  | .csrc d a c => Sys2Proof.Machine.execCsrc d a c s
  | .syscall => Sys2Proof.Machine.execSyscall s
  | .trap a => Sys2Proof.Machine.execTrap a s
  | .bkpt => Sys2Proof.Machine.execBkpt s
  | .yield => Sys2Proof.Machine.execYield s
  | .exit => Sys2Proof.Machine.execExit s
  | .fetchwork a b => Sys2Proof.Machine.execFetchwork a b s
  | .eret => Sys2Proof.Machine.execEret s
  | .tlbinv a b => Sys2Proof.Machine.execTlbinv a b s
  | .cflush => Sys2Proof.Machine.execCflush s
  | .widen w => Sys2Proof.Machine.execWiden w s
  | .mov o => Sys2Proof.Machine.execMov o s
  | .iadd o => Sys2Proof.Machine.execIadd o s
  | .isub o => Sys2Proof.Machine.execIsub o s
  | .imul o => Sys2Proof.Machine.execImul o s
  | .imad o => Sys2Proof.Machine.execImad o s
  | .imulh o => Sys2Proof.Machine.execImulh o s
  | .imin o => Sys2Proof.Machine.execImin o s
  | .imax o => Sys2Proof.Machine.execImax o s
  | .iabs o => Sys2Proof.Machine.execIabs o s
  | .vAnd o => Sys2Proof.Machine.execVAnd o s
  | .vOr o => Sys2Proof.Machine.execVOr o s
  | .vXor o => Sys2Proof.Machine.execVXor o s
  | .not o => Sys2Proof.Machine.execNot o s
  | .vShl o => Sys2Proof.Machine.execVShl o s
  | .vShr o => Sys2Proof.Machine.execVShr o s
  | .vSra o => Sys2Proof.Machine.execVSra o s
  | .vPopc o => Sys2Proof.Machine.execVPopc o s
  | .vClz o => Sys2Proof.Machine.execVClz o s
  | .icmp o => Sys2Proof.Machine.execIcmp o s
  | .sel o => Sys2Proof.Machine.execSel o s
  | .laneid o => Sys2Proof.Machine.execLaneid o s
  | .vFadd o => Sys2Proof.Machine.execVFadd o s
  | .vFsub o => Sys2Proof.Machine.execVFsub o s
  | .vFmul o => Sys2Proof.Machine.execVFmul o s
  | .vFfma o => Sys2Proof.Machine.execVFfma o s
  | .vFmin o => Sys2Proof.Machine.execVFmin o s
  | .vFmax o => Sys2Proof.Machine.execVFmax o s
  | .vFminn o => Sys2Proof.Machine.execVFminn o s
  | .vFmaxn o => Sys2Proof.Machine.execVFmaxn o s
  | .vFcmp o => Sys2Proof.Machine.execVFcmp o s
  | .frnd o => Sys2Proof.Machine.execFrnd o s
  | .fabs o => Sys2Proof.Machine.execFabs o s
  | .fneg o => Sys2Proof.Machine.execFneg o s
  | .vFdiv o => Sys2Proof.Machine.execVFdiv o s
  | .rcp o => Sys2Proof.Machine.execRcp o s
  | .rsq o => Sys2Proof.Machine.execRsq o s
  | .sqrt o => Sys2Proof.Machine.execSqrt o s
  | .exp2 o => Sys2Proof.Machine.execExp2 o s
  | .log2 o => Sys2Proof.Machine.execLog2 o s
  | .sin o => Sys2Proof.Machine.execSin o s
  | .cos o => Sys2Proof.Machine.execCos o s
  | .cvt o => Sys2Proof.Machine.execCvt o s
  | .packx o => Sys2Proof.Machine.execPackx o s
  | .unpackx o => Sys2Proof.Machine.execUnpackx o s
  | .dot4 o => Sys2Proof.Machine.execDot4 o s
  | .dot2 o => Sys2Proof.Machine.execDot2 o s
  | .reduce o => Sys2Proof.Machine.execReduce o s
  | .scan o => Sys2Proof.Machine.execScan o s
  | .ballot o => Sys2Proof.Machine.execBallot o s
  | .vote o => Sys2Proof.Machine.execVote o s
  | .perm o => Sys2Proof.Machine.execPerm o s
  | .bcast o => Sys2Proof.Machine.execBcast o s
  | .lshift o => Sys2Proof.Machine.execLshift o s
  | .ldg o => Sys2Proof.Machine.execLdg o s
  | .stg o => Sys2Proof.Machine.execStg o s
  | .ldl o => Sys2Proof.Machine.execLdl o s
  | .stl o => Sys2Proof.Machine.execStl o s
  | .ldb o => Sys2Proof.Machine.execLdb o s
  | .stb o => Sys2Proof.Machine.execStb o s
  | .atomg o => Sys2Proof.Machine.execAtomg o s
  | .atoml o => Sys2Proof.Machine.execAtoml o s
  | .sto o => Sys2Proof.Machine.execSto o s
  | .ldt o => Sys2Proof.Machine.execLdt o s
  | .plog o => Sys2Proof.Machine.execPlog o s
  | .pset o => Sys2Proof.Machine.execPset o s
  | .arcp o => Sys2Proof.Machine.execArcp o s
  | .arsq o => Sys2Proof.Machine.execArsq o s
  | .aexp o => Sys2Proof.Machine.execAexp o s
  | .ucode k o => Sys2Proof.Machine.execUcode k o s
  | .batchComplete t => Sys2Proof.Machine.execBatchComplete t s
  | .scalarFetch t n => Sys2Proof.Machine.execScalarFetch t n s
  | .overlay0Reload t => Sys2Proof.Machine.execOverlay0Reload t s
  | .speculationResolve t => Sys2Proof.Machine.execSpeculationResolve t s
  | .syncWaitWake t => Sys2Proof.Machine.execSyncWaitWake t s
  | .mwaitWake t => Sys2Proof.Machine.execMwaitWake t s
  | .matrixStart c n => Sys2Proof.Machine.execMatrixStart c n s
  | .chunkWrite c n g => Sys2Proof.Machine.execChunkWrite c n g s
  | .matrixComplete c n => Sys2Proof.Machine.execMatrixComplete c n s
  | .sliceReload c col => Sys2Proof.Machine.execSliceReload c col s
  | .ringPublish b t => Sys2Proof.Machine.execRingPublish b t s
  | .cNop c => Sys2Proof.Machine.execCNop c s
  | .cCopy c => Sys2Proof.Machine.execCCopy c s
  | .cGather c => Sys2Proof.Machine.execCGather c s
  | .cFill c => Sys2Proof.Machine.execCFill c s
  | .cSload c => Sys2Proof.Machine.execCSload c s
  | .cOvl c => Sys2Proof.Machine.execCOvl c s
  | .cRestrict c => Sys2Proof.Machine.execCRestrict c s
  | .cProlong c => Sys2Proof.Machine.execCProlong c s
  | .cSeal c => Sys2Proof.Machine.execCSeal c s
  | .cUnseal c => Sys2Proof.Machine.execCUnseal c s
  | .cSignal c => Sys2Proof.Machine.execCSignal c s
  | .cWaity c => Sys2Proof.Machine.execCWaity c s
  | .waitySatisfied b => Sys2Proof.Machine.execWaitySatisfied b s
  | .subopComplete b imm => Sys2Proof.Machine.execSubopComplete b imm s
  | .entryComplete b imm => Sys2Proof.Machine.execEntryComplete b imm s
  | .fetchworkServe t => Sys2Proof.Machine.execFetchworkServe t s
  | .wridxObserve q => Sys2Proof.Machine.execWridxObserve q s
  | .takeRecord q => Sys2Proof.Machine.execTakeRecord q s
  | .dependenceReread l n => Sys2Proof.Machine.execDependenceReread l n s
  | .queueResume q => Sys2Proof.Machine.execQueueResume q s
  | .queueDestroy q => Sys2Proof.Machine.execQueueDestroy q s
  | .ctrlReject q => Sys2Proof.Machine.execCtrlReject q s
  | .destroyComplete q => Sys2Proof.Machine.execDestroyComplete q s
  | .placeBlock l => Sys2Proof.Machine.execPlaceBlock l s
  | .headHoldTimeout l => Sys2Proof.Machine.execHeadHoldTimeout l s
  | .issueStarvation t => Sys2Proof.Machine.execIssueStarvation t s
  | .yieldExpiry t => Sys2Proof.Machine.execYieldExpiry t s
  | .launchComplete l => Sys2Proof.Machine.execLaunchComplete l s
  | .blockRetire b => Sys2Proof.Machine.execBlockRetire b s
  | .trapDelivery t => Sys2Proof.Machine.execTrapDelivery t s
  | .blockKill b => Sys2Proof.Machine.execBlockKill b s
  | .contextReset x code => Sys2Proof.Machine.execContextReset x code s
  | .firmwareEvent d => Sys2Proof.Machine.execFirmwareEvent d s
  | .preemptTimeout l => Sys2Proof.Machine.execPreemptTimeout l s
  | .blockStop b => Sys2Proof.Machine.execBlockStop b s
  | .blockSave b => Sys2Proof.Machine.execBlockSave b s
  | .blockRestore b => Sys2Proof.Machine.execBlockRestore b s
  | .partitionSwap p out => Sys2Proof.Machine.execPartitionSwap p out s
  | .callPost t => Sys2Proof.Machine.execCallPost t s
  | .syscallPost t => Sys2Proof.Machine.execSyscallPost t s
  | .hreturnPost t => Sys2Proof.Machine.execHreturnPost t s
  | .returnRec x => Sys2Proof.Machine.execReturnRec x s
  | .hcall x => Sys2Proof.Machine.execHcall x s
  | .hartDarionFetch f => Sys2Proof.Machine.execHartDarionFetch f s
  | .inboundMessage imm => Sys2Proof.Machine.execInboundMessage imm s
  | .peerAccess a => Sys2Proof.Machine.execPeerAccess a s
  | .msgRds m => Sys2Proof.Machine.execMsgRds m s
  | .msgRdx m => Sys2Proof.Machine.execMsgRdx m s
  | .msgUpg m => Sys2Proof.Machine.execMsgUpg m s
  | .msgFwds m => Sys2Proof.Machine.execMsgFwds m s
  | .msgFwdx m => Sys2Proof.Machine.execMsgFwdx m s
  | .msgInv m => Sys2Proof.Machine.execMsgInv m s
  | .msgIack m => Sys2Proof.Machine.execMsgIack m s
  | .msgData m => Sys2Proof.Machine.execMsgData m s
  | .msgGnt m => Sys2Proof.Machine.execMsgGnt m s
  | .msgDone m => Sys2Proof.Machine.execMsgDone m s
  | .msgBinv m => Sys2Proof.Machine.execMsgBinv m s
  | .msgWb m => Sys2Proof.Machine.execMsgWb m s
  | .msgBiack m => Sys2Proof.Machine.execMsgBiack m s
  | .msgEvc m => Sys2Proof.Machine.execMsgEvc m s
  | .msgGone m => Sys2Proof.Machine.execMsgGone m s
  | .migrationComplete page => Sys2Proof.Machine.execMigrationComplete page s
  | .softError e => Sys2Proof.Machine.execSoftError e s
  | .microcodeInstall => Sys2Proof.Machine.execMicrocodeInstall s
  | .powerUp => Sys2Proof.Machine.execPowerUp s
  | .imgaddrWrite v => Sys2Proof.Machine.execImgaddrWrite v s
  | .fwqWrite v => Sys2Proof.Machine.execFwqWrite v s
  | .managementRegisterWrite off v => Sys2Proof.Machine.execManagementRegisterWrite off v s
  | .createContext => Sys2Proof.Machine.execCreateContext s
  | .resetContext => Sys2Proof.Machine.execResetContext s
  | .bindQueue => Sys2Proof.Machine.execBindQueue s
  | .registerFpThresholds => Sys2Proof.Machine.execRegisterFpThresholds s
  | .registerLanding => Sys2Proof.Machine.execRegisterLanding s
  | .registerObservation => Sys2Proof.Machine.execRegisterObservation s
  | .registerInboundQueue => Sys2Proof.Machine.execRegisterInboundQueue s
  | .externalSharedRange => Sys2Proof.Machine.execExternalSharedRange s
  | .pageFaultRetry => Sys2Proof.Machine.execPageFaultRetry s
  | .pageFaultRefuse => Sys2Proof.Machine.execPageFaultRefuse s
  | .invalidateTranslation => Sys2Proof.Machine.execInvalidateTranslation s
  | .migratePage => Sys2Proof.Machine.execMigratePage s
  | .swapContext => Sys2Proof.Machine.execSwapContext s
  | .setPartitions => Sys2Proof.Machine.execSetPartitions s
  | .debugControl => Sys2Proof.Machine.execDebugControl s
  | .loadMicrocode => Sys2Proof.Machine.execLoadMicrocode s
  | .attest => Sys2Proof.Machine.execAttest s
  | .unknownRequest => Sys2Proof.Machine.execUnknownRequest s
  | .coreIdle c => Sys2Proof.Machine.execCoreIdle c s
  | .diePowerOff d => Sys2Proof.Machine.execDiePowerOff d s
  | .diePowerOn d => Sys2Proof.Machine.execDiePowerOn d s
  | .powerOff => Sys2Proof.Machine.execPowerOff s
  | .thermalThrottle on => Sys2Proof.Machine.execThermalThrottle on s
  | .thermalShutdown => Sys2Proof.Machine.execThermalShutdown s
  | .i3cRead n => Sys2Proof.Machine.execI3cRead n s
  | .boundaryScan => Sys2Proof.Machine.execBoundaryScan s
  | .illegalInstruction => Sys2Proof.Machine.execIllegalInstruction s
  | .scalarResultReturn t r => Sys2Proof.Machine.execScalarResultReturn t r s
  | .laneResultWrite t n k => Sys2Proof.Machine.execLaneResultWrite t n k s
  | .hostSlotFreed x => Sys2Proof.Machine.execHostSlotFreed x s
  | .linkRetry src dst => Sys2Proof.Machine.execLinkRetry src dst s
  | .hostHartAccess a => Sys2Proof.Machine.execHostHartAccess a s

end Sys2Proof.Machine
end

