-- ==== Sys2Proof/Machine/Turn.lean ====
section
/-! DEFINITION. What a turn does: the instruction that a team, a lane queue, a copy ring or firmware comes to next, and the order of turns that the machine takes by itself (R58, R84, R195, R237, R360). -/

namespace Sys2Proof.Machine

/-- What a turn comes to: an instruction, after what reading it does, or a program of its own. -/
inductive Act where
  | exec (pre : Prog) (i : Instr)
  | other (p : Prog)

namespace Act

/-- Nothing happens. -/
def idle : Act := .other .ret

/-- What a turn comes to is done. -/
def perform (a : Act) (s : State) : Host.Outcome State Fault Refusal :=
  match a with
  | .exec pre i => Machine.exec i (pre.final s)
  | .other p => p.run s

/-- The state that it leaves. -/
def after (a : Act) (s : State) : State :=
  match a.perform s with
  | .next t => t
  | _ => s

end Act

/-- The state with its turn taken off the agenda and the model's counters moved on. -/
def State.tickOn (s : State) : State := { s with agenda := s.agenda.tail, tick := s.tick + 1, clock := s.clock + 1, late := false }

/-! ## The scalar stream of a team (R68, R70, R321, R325) -/

/-- A block's teams issue: it is placed; while it comes to a stop only an atomic that has reached its home goes on (R174, R332). -/
def phaseIssues (s : State) (k : Nat) : Bool :=
  (s.blockOf k).phase == .placed || ((s.blockOf k).phase == .stopping && !(waitingAtomic s (.team k) false).isEmpty)

/-- A team whose instruction at PC may be taken up: placed, and not ended, stopped, suspended, waiting on firmware or for a post, or behind the teams that a YIELD lets issue first. -/
def mayIssue (s : State) (k : Nat) : Bool :=
  match s.teams.get? k with
  | none => false
  | some m =>
    !m.exited && !m.stopped && m.suspended.isNone && m.faultAt.isNone && m.migr.isNone
      && phaseIssues s k && (!m.yieldTo.any (ready s) || decide (m.issuedAt + 64 ≤ s.clock))

/-- The instruction that a scalar word is; a word that decodes to none is ILLEGAL (R72). -/
def instrOf (w : W32) : Instr :=
  match decodeScalar w with
  | .ok i => i
  | .error _ => .illegalInstruction

/-- A fetch from a slot is its most recent use; a word fetched ahead uses none (R69). -/
def noteFetch (k : Nat) : Prog :=
  .get fun s =>
    if (s.team k).ahead.any (fun w => w.pc == (s.team k).pc) then .ret
    else match slotOf? s k (s.team k).pc with
      | some i => .one (.core (coreOf k) (fun c => c.touch i))
      | none => .ret

/-- A team takes its turn to issue, so that it holds no yielding team back (R58, R237). -/
def noteIssue (k : Nat) : Prog :=
  .get fun s =>
    .all [ .each (s.teams.filter (fun t => t.2.yieldTo.contains k))
             (fun t => .one (.team t.1 (fun m => { m with yieldTo := m.yieldTo.filter (· != k) }))),
           .one (.team k (fun m => { m with issuedAt := s.clock })),
           .one (.core (coreOf k) (fun c => { c with turn := slotOf k })) ]

/-- A team's instruction: a pending cause at an instruction boundary, a fetch, or the instruction at PC, after `note`. -/
def takeUp (s : State) (k : Nat) (note : Prog) : Act :=
  let m := s.team k
  if !mayIssue s k then .idle
  else if m.tcause == 0 && !m.pending.isEmpty then .exec (.one (.cur k)) (.trapDelivery k)
  else if (pcMatched m).isSome then .exec (.one (.cur k)) (.scalarFetch k 1)
  else match wordAt s k with
    | none => .exec (.one (.cur k)) (.scalarFetch k 1)
    | some w => .exec (.all [ .one (.cur k), noteFetch k, note ]) (instrOf w)

/-- The scalar turn of a team. -/
def scalarAct (s : State) (k : Nat) : Act := takeUp s k (noteIssue k)

/-- A team that waits at its instruction would wait on: it is not ready (R58). -/
def stillWaits (s : State) (k : Nat) : Bool := (s.team k).waiting && (((takeUp s k .ret).after s).team k).waiting

/-- A waiting team tries its instruction again, so that it asks for what it waits for. -/
def pollAct (s : State) (k : Nat) : Act := if stillWaits s k then takeUp s k .ret else .idle

/-! ## The lane queue of a team (R84) -/

def laneAct (s : State) (k : Nat) : Act :=
  match nextLane (s.team k) with
  | some i => if lanesRun s k then .exec (.one (.cur k)) i else .idle
  | none => .idle

/-- A team's lane queue that waits at its head would wait on. -/
def lanesWait (s : State) (k : Nat) : Bool := (s.team k).laneWaiting && (((laneAct s k).after s).team k).laneWaiting

/-! ## A copy ring (R195) -/

/-- The lines that a plain read needs are there. -/
def linesThere (s : State) (p : Path) (x : Plan) : Bool :=
  let lines := missing s p x.phys
  lines.isEmpty || (s.coh.reach p (pathDie s p) .plain lines).2

/-- A halt that has not been carried out, else the ring's next entry, read on path C. -/
def ringAct (s : State) (b : Nat) : Act :=
  let r := (s.block b).ring
  if r.faulted then .idle
  else if !r.halting.isEmpty && engineRuns s b then .other (finishHalt b)
  else if !r.canTake || !engineRuns s b then .idle
  else match localPlan s (engineSpace s b) (s.block b) .read (BitVec.ofNat 64 r.entryAddr) 32 with
    | .error (.page _ va) => .other (ringFault b r.publisher 2 va)
    | .error (.trap _ _) => .idle
    | .ok p =>
      let e := Path.copy b
      let pre := Prog.all [ .one (.curBlk b), needRead e p (.all [ noteTlb (engineSpace s b) p.used, notePlan e b p ]) .ret ]
      if planStalls s e b p then .idle
      else if !linesThere s e p then .other (needRead e p .ret .ret)
      else match decodeCopy (BitVec.ofNat 256 (leNat (planBytes s e b p))) with
        | .ok i => .exec pre i
        | .error _ => .other (pre.seq (badEntry b))

/-! ## Firmware's request queue (R360, R361) -/

/-- The instruction that a request's CODE names; answers to page faults are told apart by argument 1. -/
def requestInstr (r : Request) : Instr :=
  match r.code with
  | 1 => .createContext
  | 2 => .resetContext
  | 3 => .bindQueue
  | 4 => .registerFpThresholds
  | 5 => .registerLanding
  | 6 => .registerObservation
  | 7 => .registerInboundQueue
  | 8 => .externalSharedRange
  | 9 => if r.arg 1 = 0 then .pageFaultRetry else .pageFaultRefuse
  | 10 => .invalidateTranslation
  | 11 => .migratePage
  | 12 => .swapContext
  | 13 => .setPartitions
  | 14 => .debugControl
  | 15 => .loadMicrocode
  | 16 => .attest
  | _ => .unknownRequest

def requestAct (s : State) : Act :=
  match nextRequest s with
  | some r => .exec .ret (requestInstr r)
  | none => .idle

/-! ## Turns -/

/-- A package that is down, or halted, takes no step but those of `wakes`; its management BAR is read as `readBar` says (R362, R365, R367). -/
def dead (s : State) : Bool := s.pkg.down || s.pkg.halted

/-- What a dead package still does: one that is down powers up and nothing else, and one that is halted also powers off, shuts down and answers its test port (R362, R366). -/
def wakes (s : State) : Turn → Bool
  | .ev .powerUp => true
  | .ev .powerOff => !s.pkg.down
  | .ev .thermalShutdown => !s.pkg.down
  | .ev .boundaryScan => !s.pkg.down
  | _ => false

/-- A write that waits is performed where nothing holds it back; under a reset of its context it is not performed any more (R343). -/
def storeAct (s : State) (n : Nat) : Act :=
  match s.pkg.stalled[n]? with
  | none => .idle
  | some e => .other (performEntry false e)

/-- A turn whose writes are late. -/
def Act.late : Act → Act
  | .exec pre i => .exec ((Prog.one .late).seq pre) i
  | .other p => .other ((Prog.one .late).seq p)

def liveAct (s : State) : Turn → Act
  | .scalar k => scalarAct s k
  | .poll k => pollAct s k
  | .lanes k => laneAct s k
  | .ring b => ringAct s b
  | .request => requestAct s
  | .ev i => .exec .ret i
  | .store n => storeAct s n
  | .step c n g => .other (stepGroup c n g)
  | .reload c col => .other (reload c col)
  | .starve k => .other (starve k)
  | .late t => (liveAct s t).late

def turnAct (s : State) (t : Turn) : Act := if dead s && !wakes s t then .idle else liveAct s t

/-! ## The machine's own order of turns (R58, log 1) -/

/-- A team's lane queue has an instruction that may go on. -/
def laneReady (s : State) (k : Nat) : Bool := lanesRun s k && (nextLane (s.team k)).isSome && !lanesWait s.tickOn k

/-- The place of a team's head batch in a lane pipe's choice: lowest priority number, then oldest batch (R58). -/
def laneKey (s : State) (k : Nat) : Nat × Nat :=
  ((s.launchOf k).prio, (((s.team k).lanes.find? (fun b => !b.left.isEmpty)).map (·.order)).getD 0)

/-- Some pipe of a team's passes chooses it among those whose lane queues are ready (R45, R58). -/
def laneChosen (s : State) (k : Nat) : Bool :=
  let ps := (s.team k).rows.map Prod.fst
  laneReady s k && ps.any (fun p => (coreTeams s (coreOf k)).all (fun j =>
    j == k || !laneReady s j || !((s.team j).rows.map Prod.fst).contains p
      || decide ((laneKey s k).1 < (laneKey s j).1 ∨ ((laneKey s k).1 = (laneKey s j).1 ∧ (laneKey s k).2 ≤ (laneKey s j).2))))

/-- The steps of a team beside its scalar stream; what waits tries again, and waiting lane results are written at the latest when their batch completes (R88). -/
def teamTurns (s : State) (k : Nat) (m : Team) : List Turn :=
  (if laneChosen s k || m.laneWaiting && lanesWait s.tickOn k then [.lanes k] else []) ++ (if m.waiting then [.poll k] else [])
    ++ (if m.lanes.isEmpty then [] else [.ev (.batchComplete k)])
    ++ (if m.issuedAt + 4096 ≤ s.clock && !m.starved && ready s k then [.starve k] else [])
    ++ m.await.map (fun r => .ev (.scalarResultReturn k r))
    ++ (if m.spec.isSome then [.ev (.speculationResolve k)] else [])
    ++ (if m.fetchReq.isSome then [.ev (.fetchworkServe k)] else [])
    ++ (match m.migr with
        | some g => [.ev (if g.kind = 1 then .callPost k else if g.kind = 5 then .syscallPost k else .hreturnPost k)]
        | none => [])

/-- The steps of a block and of its ring. -/
def blockTurns (b : Nat) (y : Block) : List Turn :=
  (y.ring.told.head?.toList).map (fun t => .ev (.ringPublish b t.1)) ++ [.ring b]
    ++ (if y.ring.waity.isSome then [.ev (.waitySatisfied b)] else [])
    ++ y.ring.entries.flatMap (fun e => [.ev (.subopComplete b e.idx), .ev (.entryComplete b e.idx)])
    ++ [.ev (match y.phase with
      | .placed => .blockRetire b
      | .stopping => .blockStop b
      | .stopped => .blockSave b
      | .saved => .blockRestore b
      | .killed _ => .blockKill b)]

/-- The steps of a core's matrix queue. -/
def matrixTurns (c : Nat) (x : Core) : List Turn :=
  x.queue.zipIdx.flatMap (fun e =>
    if !e.1.started then [.ev (.matrixStart c e.2)]
    else .ev (.matrixComplete c e.2) :: (match e.1.op with
      | .mma _ _ _ _ d _ _ => (activeGroups d).flatMap (fun g => [.step c e.2 g, .ev (.chunkWrite c e.2 g)])
      | _ => []))
    ++ x.reloads.map (fun r => .reload c r.1)

/-- The steps of a front end for a queue. -/
def queueTurns (q : Nat) : List Turn :=
  [.ev (.wridxObserve q), .ev (.takeRecord q), .ev (.queueResume q), .ev (.queueDestroy q), .ev (.ctrlReject q), .ev (.destroyComplete q)]

/-- The steps of the distributor for a launch. -/
def launchTurns (l : Nat) (x : Launch) : List Turn :=
  [.ev (.placeBlock l), .ev (.launchComplete l)] ++ (List.range x.deps.length).map (fun n => .ev (.dependenceReread l n))

/-- The message event of a message in flight. -/
def messageEvent : MsgKind → Packet → Instr
  | .rds, m => .msgRds m
  | .rdx, m => .msgRdx m
  | .upg, m => .msgUpg m
  | .fwds, m => .msgFwds m
  | .fwdx, m => .msgFwdx m
  | .inv, m => .msgInv m
  | .iack, m => .msgIack m
  | .data, m => .msgData m
  | .gnt, m => .msgGnt m
  | .done, m => .msgDone m
  | .binv, m => .msgBinv m
  | .wb, m => .msgWb m
  | .biack, m => .msgBiack m
  | .evc, m => .msgEvc m
  | .gone, m => .msgGone m

/-- The steps of firmware, of the package and of the links. -/
def pkgTurns (s : State) : List Turn :=
  (List.range 4).map (fun d => .ev (.firmwareEvent d)) ++ (if (nextRequest s).isSome then [.request] else [])
    ++ (if !s.pkg.microcode.isEmpty then [.ev .microcodeInstall] else [])
    ++ (if s.pkg.bootcode = 0 && !dead s then [.ev .powerUp] else [])
    ++ s.coh.net.map (fun m => .ev (messageEvent m.1 m.2)) ++ (List.range s.pkg.stalled.length).map .store

/-- The steps of a context's landing queues and of its reset. -/
def ctxTurns (x : Nat) (c : Ctx) : List Turn :=
  [.ev (.returnRec x), .ev (.hcall x)] ++ (if c.resetCode ≠ 0 then [.ev (.contextReset x c.resetCode)] else [])

/-- Every step that may be due but the scalar ones; one that is not due changes nothing. -/
def background (s : State) : List Turn :=
  s.teams.flatMap (fun t => teamTurns s t.1 t.2) ++ s.blocks.flatMap (fun b => blockTurns b.1 b.2) ++ s.cores.flatMap (fun c => matrixTurns c.1 c.2)
    ++ s.queues.flatMap (fun q => queueTurns q.1) ++ s.launches.flatMap (fun l => launchTurns l.1 l.2) ++ s.ctxs.flatMap (fun x => ctxTurns x.1 x.2)
    ++ pkgTurns s

/-- The distance of a team's slot from the one of its core that issued last. -/
def turnDistance (s : State) (k : Nat) : Nat := (slotOf k + 31 - (s.core (coreOf k)).turn % 32) % 32

/-- A core's choice among some ready teams of it: of the best effective priority, round-robin over team slots (R58). -/
def coreChoice (s : State) (ks : List Nat) : Option Nat :=
  let best := ks.filter (fun k => ks.all (fun j => decide (issuePrio s k ≤ issuePrio s j)))
  best.foldl (fun m k => match m with
    | some j => if turnDistance s k < turnDistance s j then some k else m
    | none => some k) none

/-- The team whose scalar turn comes next, of those that are ready: the cores take turns (R58).  Firmware's teams run while an event is in them (log 7). -/
def nextScalar (s : State) : Option Nat :=
  let ks := (s.teams.map Prod.fst).filter (fun k => mayIssue s k && !stillWaits s.tickOn k && (!fMode (coreOf k) || (s.core (coreOf k)).inEvent))
  let picks := ((ks.map coreOf).eraseDups).filterMap (fun c => coreChoice s (ks.filter (fun k => coreOf k == c)))
  picks[(s.tick / 2) % picks.length]?

/-- The turn that the machine takes by itself: a scalar one and another in turn. -/
def ownTurn (s : State) : Option Turn :=
  let bg := background s
  let other := if bg.isEmpty then none else bg[(s.tick / 2) % bg.length]?
  if s.tick % 2 = 0 then (match nextScalar s with | some k => some (.scalar k) | none => other)
  else (match other with | some t => some t | none => (nextScalar s).map .scalar)

end Sys2Proof.Machine
end

