-- ==== Sys2Proof/Machine/Step.lean ====
section
/-! DEFINITION. One step of the machine, and the placing of an instruction where the next step runs it. -/

namespace Sys2Proof.Machine

/-- The turn of a step: the next of the agenda, or the machine's own. -/
def turnOf? (s : State) : Option Turn :=
  match s.agenda with
  | t :: _ => some t
  | [] => ownTurn s

/-- One step: the turn leaves the agenda, and what it comes to is done. -/
def step (s : State) : Host.Outcome State Fault Refusal :=
  match turnOf? s with
  | none => .next s.tickOn
  | some t => (turnAct s.tickOn t).perform s.tickOn

/-! ## An instruction as the first one -/

/-- The team of `withFetchWord`: die 0, core 1, slot 0. -/
def hostTeam : Nat := 32

/-- A placed block of one 32-lane team, in a context of its own. -/
def State.withTeam (s : State) : State :=
  let hdr : Header := { State.blankHeader with width := 32, teams := 1, vregs := 8, lblk := 1, slots := 1, entry := 0 }
  { s with
    ctxs := s.ctxs.put 1 { State.blankCtx with asid := 1 }
    launches := s.launches.put 1 { State.blankLaunch with ctx := 1, hdr := hdr, gx := 1, gy := 1, gz := 1, next := 1, blks := [1] }
    blocks := s.blocks.put 1 { State.blankBlock with ctx := 1, launch := 1, core := 1, teams := [hostTeam], ltab := [0] }
    teams := s.teams.put hostTeam
      { State.blankTeam with blk := 1, width := 32, present := presentMask 32, m := presentMask 32, teamid := teamIdOf hostTeam 1, pregs := 8, rows := [(0, 0)] } }

/-- A scalar word in overlay slot 0 of the team's core, at the team's PC. -/
def State.withScalar (s : State) (w : W32) : State :=
  let o : Overlay :=
    { asid := 1, base := 0, slen := 4, lcount := 0, valid := true, loading := false, used := 0, words := Sparse.set [] 0 w }
  { s.withTeam with
    cores := s.cores.put 1 { s.core 1 with slots := (s.core 1).slots.set 0 o }
    agenda := [.scalar hostTeam] }

/-- A lane instruction at the head of the team's lane queue. -/
def State.withLane (s : State) (i : Instr) : State :=
  let t := s.withTeam.team hostTeam
  { s.withTeam with
    teams := s.withTeam.teams.put hostTeam { t with lanes := [{ order := 0, lx := 0, base := 0, idx := 0, left := [i], q := t.q, m := t.m, gw := [], skips := 0 }] }
    agenda := [.lanes hostTeam] }

/-- A copy entry as the next one of the block's ring. -/
def State.withEntry (s : State) (w : BitVec 256) : State :=
  let b := s.withTeam.block 1
  { s.withTeam with
    blocks := s.withTeam.blocks.put 1
      { b with loc := Sparse.setRun [] 32 (leBytes 32 w.toNat), ring := { b.ring with latched := some 0x22, pidx := 1, publishers := [(1, hostTeam)] } }
    agenda := [.ring 1] }

/-- The instruction of table bits stored where the next step fetches: a scalar word in an overlay slot, a lane instruction as an LX has decoded it, a copy entry in local memory. -/
def State.withFetchWord (s : State) (nbits w : Nat) : State :=
  if nbits ≤ 32 then s.withScalar (BitVec.ofNat 32 w)
  else if nbits ≤ 96 then
    (match decodeTableWord nbits w with
     | some i => s.withLane i
     | none => s)
  else s.withEntry (BitVec.ofNat 256 w)

end Sys2Proof.Machine
end

