-- ==== Sys2Proof/Safety.lean ====
section
/-! DEFINITION. What the claims are stated in: the invariants that every step keeps, the state an instruction leaves when it completes, waits or traps, and what an instruction leaves unchanged. -/

namespace Sys2Proof.Machine

/-! ## Invariants -/

/-- Physical memory is in canonical form: addresses rise, no listed byte is zero. -/
def State.memWf (s : State) : Bool := Sparse.wf s.mem

/-- The bounds that R227, R228 and R230 give a slot: fewer arrivals than EXPECT, a byte count of 64 bits, and FREE + TAKENP + FILLED + TAKENC = SIZE with both indexes below SIZE. -/
def Slot.ok : Slot → Bool
  | .off => true
  | .count e a _ => e == 0 || decide (a < e)
  | .bytes n => decide (n < 2 ^ 64)
  | .chunks _ => true
  | .ring size free takenP filled takenC put get =>
    free + takenP + filled + takenC == size && (size == 0 || (decide (put < size) && decide (get < size)))

/-- Every sync slot keeps its bounds. -/
def State.slotsOk (s : State) : Bool := s.slots.all (fun e => e.2.ok)

/-! ## States of the current team -/

/-- A team of the state replaced. -/
def State.putTeam (s : State) (k : Nat) (f : Team → Team) : State := { s with teams := s.teams.put k (f (s.team k)) }

/-- The team whose turn it is. -/
def State.me (s : State) : Team := s.team s.cur

/-- No outstanding batch will write a destination (R86), and no speculation holds the instruction back (R117, R272): a scalar instruction of this use issues. -/
abbrev State.issues (s : State) (u : Use) : Prop := s.me.mustWait u = false

/-- The instruction has completed at the next word, with an update of its team. -/
def State.completed (s : State) (u : Use) (f : Team → Team) : State := s.putTeam s.cur (fun t => (f t).retire u (t.pc + 4))

/-- The instruction has completed with the PC elsewhere. -/
def State.completedAt (s : State) (u : Use) (pc : W64) (f : Team → Team) : State := s.putTeam s.cur (fun t => (f t).retire u pc)

/-- The instruction waits: nothing of it is visible. -/
def State.waits (s : State) : State := s.putTeam s.cur (fun t => { t with waiting := true })

/-- A scalar instruction of the current team has issued, as the trail of R356 records. -/
def State.issued (s : State) : State := s.putTeam s.cur (fun t => { t with trail := (t.pc :: t.trail).take 64 })

/-- The entry that R321 gives a synchronous cause of a team that has a handler and no cause: the cause, its value and where to resume are saved, and the PC is the handler. -/
def Team.trapped (t : Team) (c : Nat) (v tpc : W64) : Team :=
  { t with
    tcause := BitVec.ofNat 32 c, tval := v, tpc := tpc, tbatch := 0, pc := t.thandler, waiting := false, sywb := none, faultAt := none, migr := none,
    captured := none, fired := t.fired.bind (fun f => if f.2.2 = 0 then none else some (f.1, f.2.1, f.2.2 + 1)) }

/-- A team takes a synchronous cause: it has a handler, no cause stands, it has not ended, and no speculation is open. -/
abbrev Team.canTrap (t : Team) : Prop := t.exited = false ∧ t.thandler ≠ 0 ∧ t.tcause = 0 ∧ t.spec = none ∧ t.sywb = none

/-- An instruction of a team that waited waits no more: it has left its home, and asks for no line. -/
def State.unasked (s : State) (k : Nat) : State :=
  { s with
    pkg := { s.pkg with stalled := s.pkg.stalled.filter (fun e => !(e.rmw && e.path == .team k && e.lane.isNone)) }
    coh := { s.coh with wants := s.coh.wants.filter (fun w => w.path != .team k) } }

/-- The state after the current instruction has raised a cause with this resume PC. -/
def State.trapsAt (s : State) (c : Nat) (v tpc : W64) : State := (s.issued.unasked s.cur).putTeam s.cur (fun t => t.trapped c v tpc)

/-- The state after the current instruction has raised a cause with TPC its own PC. -/
def State.traps (s : State) (c : Nat) (v : W64) : State := s.trapsAt c v s.me.pc

/-! ## What stays -/

/-- Nothing but the current team has changed. -/
abbrev State.onlyTeam (s t : State) : Prop := t = { s with teams := s.teams.put s.cur (t.team s.cur) }

/-- Of a team nothing but its general registers, its PC and the bookkeeping of its issue has changed: what it waits for and what it has fetched ahead and issued. -/
abbrev Team.onlyIssue (m n : Team) : Prop :=
  n = { m with
    g := n.g, pc := n.pc, waiting := n.waiting, sywb := n.sywb, faultAt := n.faultAt, migr := n.migr, captured := n.captured, first := n.first,
    yieldTo := n.yieldTo, starved := n.starved, fired := n.fired, ahead := n.ahead, await := n.await, trail := n.trail, spec := n.spec }

/-- Every byte of physical memory reads as before. -/
def sameMemory (s t : State) : Prop := ∀ pa, readByte t pa = readByte s pa

/-! ## Results (R93) -/

/-- A result of w bits as a g register holds it: the low w bits, sign-extended (R93). -/
def narrow (w : Nat) (r : Int) : W64 := (BitVec.ofInt w r).signExtend 64

/-- The natural value of the low w bits of a register, and their two's-complement value (R93). -/
def natOf (w : Nat) (x : W64) : Nat := x.toNat % 2 ^ w
def intOfLow (w : Nat) (x : W64) : Int := signedOf w x.toNat

/-- The width that the width bit of ALU.R names (R74, R93). -/
def widthOf (w : Bool) : Nat := if w then 64 else 32

/-- The destination of an integer instruction: ALU.R, the immediates and CMP. -/
def integerDest : Instr → Option GReg
  | .add d _ _ _ | .sub d _ _ _ | .mul d _ _ _ | .mulhI d _ _ _ | .mulhN d _ _ _ | .divI d _ _ _ | .divN d _ _ _ | .remI d _ _ _
  | .remN d _ _ _ | .and d _ _ _ | .or d _ _ _ | .xor d _ _ _ | .andn d _ _ _ | .shl d _ _ _ | .shr d _ _ _ | .sra d _ _ _
  | .rol d _ _ _ | .minI d _ _ _ | .minN d _ _ _ | .maxI d _ _ _ | .maxN d _ _ _ | .popc d _ _ | .clz d _ _ | .ctz d _ _
  | .addi d _ _ | .andi d _ _ | .ori d _ _ | .xori d _ _ | .shli d _ _ _ | .shri d _ _ _ | .srai d _ _ _ | .lih d _ | .lix d _
  | .cmp d _ _ _ _ => some d
  | _ => none

/-- The destination of a scalar floating-point instruction. -/
def fpDest : Instr → Option GReg
  | .fadd d _ _ _ _ | .fsub d _ _ _ _ | .fmul d _ _ _ _ | .fdiv d _ _ _ _ | .fsqrt d _ _ _ | .fmin d _ _ _ | .fmax d _ _ _ | .fminn d _ _ _
  | .fmaxn d _ _ _ | .fcmpEq d _ _ _ | .fcmpLt d _ _ _ | .fcmpLe d _ _ _ | .fcmpUn d _ _ _ | .fcvtF d _ _ _ | .fcvtI d _ _ _ | .fcvtN d _ _ _
  | .icvtF d _ _ _ | .ncvtF d _ _ _ | .fclass d _ _ | .ffma d _ _ _ _ => some d
  | _ => none

/-! ## Floating-point patterns (R119, R120) -/

/-- A NaN of a format other than e4m3, by its fields; a signalling one has its top fraction bit clear. -/
def nanBits (f : Fp.Fmt) (x : Nat) : Bool := f.expField x == 2 ^ f.ebits - 1 && f.frac x != 0
def snanBits (f : Fp.Fmt) (x : Nat) : Bool := nanBits f x && !(f.frac x).testBit (f.fbits - 1)

/-- The magnitude bits of a pattern. -/
def magBits (f : Fp.Fmt) (x : Nat) : Nat := x % 2 ^ (f.ebits + f.fbits)

/-- A number that orders the patterns of a format as their values are ordered, −0 just below +0, and one that holds the two zeros equal. -/
def orderKey (f : Fp.Fmt) (x : Nat) : Int := if f.signBit x then -(magBits f x : Int) - 1 else magBits f x
def valueKey (f : Fp.Fmt) (x : Nat) : Int := if f.signBit x then -(magBits f x : Int) else magBits f x

/-! ## What memory accesses leave -/

/-- No page is under migration, and no write of an agent waits to be performed: its next write is performed at once where its lines are there (R174, R288). -/
abbrev State.calm (s : State) (p : Path) : Prop := s.late = false ∧ s.pkg.locks = [] ∧ pathStalls s p = false

/-- The L2 that an agent uses holds these lines, in M where it writes (R289, R290). -/
abbrev State.holds (s : State) (p : Path) (use : LineUse) (lines : List Nat) : Prop := ∀ l ∈ lines, s.coh.has l (pathDie s p) use.excl = true

/-- An agent reads these pieces, or writes them, without waiting. -/
abbrev State.reads (s : State) (p : Path) (blk : Nat) (x : Plan) : Prop := planStalls s p blk x = false ∧ s.holds p .plain (missing s p x.phys)
abbrev State.writesTo (s : State) (p : Path) (x : Plan) : Prop := s.calm p ∧ s.holds p .write (linesOf x.phys)

/-- A team's load goes on: no write of its own to the words waits at its home, and what its L1 lacks lies in its die's L2 (R174, R288). -/
abbrev State.loads (s : State) (p : Path) (blk : Nat) (x : Plan) : Prop := loadWaits s p blk x = false ∧ s.holds p .plain (missing s p x.phys)

/-- A run of bytes written over the pieces of a plan, in physical memory. -/
def piecesMem : List Piece → List Byte → List Host.Cell → List Host.Cell
  | [], _, m => m
  | .phys pa n :: ps, bs, m => piecesMem ps (bs.drop n) (Sparse.setRun m pa (bs.take n))
  | .loc _ n :: ps, bs, m => piecesMem ps (bs.drop n) m
  | .ob _ n :: ps, bs, m => piecesMem ps (bs.drop n) m

/-- The same in a block's local memory. -/
def piecesLoc : List Piece → List Byte → Sparse 8 → Sparse 8
  | [], _, m => m
  | .loc a n :: ps, bs, m => piecesLoc ps (bs.drop n) (Sparse.setRun m a (bs.take n))
  | .phys _ n :: ps, bs, m => piecesLoc ps (bs.drop n) m
  | .ob _ n :: ps, bs, m => piecesLoc ps (bs.drop n) m

/-- The same in a block's operand buffer. -/
def piecesOb : List Piece → List Byte → Sparse 8 → Sparse 8
  | [], _, m => m
  | .ob a n :: ps, bs, m => piecesOb ps (bs.drop n) (Sparse.setRun m a (bs.take n))
  | .phys _ n :: ps, bs, m => piecesOb ps (bs.drop n) m
  | .loc _ n :: ps, bs, m => piecesOb ps (bs.drop n) m

/-- A physical byte that some piece of a plan holds. -/
def Plan.touches (p : Plan) (a : Nat) : Prop := ∃ pa n, Piece.phys pa n ∈ p.pieces ∧ pa ≤ a ∧ a < pa + n

/-- A local byte that some piece of a plan holds. -/
def Plan.touchesLoc (p : Plan) (a : Nat) : Prop := ∃ b n, Piece.loc b n ∈ p.pieces ∧ b ≤ a ∧ a < b + n

/-- Teams, slots, launches, queues, contexts, harts and the SEQ counter are as before but for the current team, and of cores and dies nothing but TLB entries and L1 lines has changed. -/
structure quietElsewhere (s t : State) : Prop where
  teams : t.teams = s.teams.put s.cur (t.team s.cur)
  slots : t.slots = s.slots
  launches : t.launches = s.launches
  queues : t.queues = s.queues
  ctxs : t.ctxs = s.ctxs
  harts : t.harts = s.harts
  seq : t.seq = s.seq
  cores : ∀ c, { t.core c with tlb := (s.core c).tlb, l1 := (s.core c).l1 } = s.core c
  dies : ∀ d, { t.die d with tlb := (s.die d).tlb } = s.die d

/-- Contexts are as before but for what the register backing store holds (R49). -/
abbrev State.sameCtxs (s t : State) : Prop := ∀ x, { t.ctx x with backing := (s.ctx x).backing } = s.ctx x

/-- A scalar access that completed left its team's registers but gd, and its other state. -/
abbrev Team.loaded (m n : Team) (d : GReg) (x : W64) : Prop :=
  m.onlyIssue n ∧ n.pc = m.pc + 4 ∧ ∀ r, n.reg r = if r = 0 then 0 else if r = d then x else m.reg r

/-! ## Sync slots (R224, R225) -/

/-- Slot n of the current team's block. -/
def State.mySlot (s : State) (n : BitVec 6) : Slot := s.slot s.me.blk n.toNat

/-- The slot number lies below SLOTS. -/
abbrev State.hasSlot (s : State) (n : BitVec 6) : Prop := n.toNat < (s.launchOf s.cur).hdr.slots

/-- The TVAL of SLOTRANGE: KIND, MODE and SLOT (R225). -/
def slotVal (kind mode : Nat) (n : BitVec 6) : W64 := BitVec.ofNat 64 (kind * 2 ^ 16 + mode * 2 ^ 8 + n.toNat)

/-- No watchpoint fires on an operation of the current team that makes this transition (R354). -/
abbrev State.noWatch (s : State) (n : BitVec 6) (arrival flip : Bool) (y : Slot) : Prop :=
  firings s (coreOf s.cur) s.me.blk n.toNat arrival flip (s.mySlot n) y = []

/-- A COUNT slot after one arrival (R227). -/
def arrived (e a : Nat) (ph : Bool) : Slot := if e ≤ a + 1 then .count e 0 (!ph) else .count e (a + 1) ph

/-- A SYNC function of the current team has completed: gd holds a value (nothing for g0), the PC has moved on, no byte of memory has changed, and slot n holds its new state, the others their old one. -/
def State.synced (s t : State) (d : GReg) (x : W64) (n : BitVec 6) (y : Slot) : Prop :=
  s.me.loaded (t.team s.cur) d x ∧ sameMemory s t ∧ t.slot s.me.blk n.toNat = y
    ∧ (∀ b k, 64 * b + k ≠ 64 * s.me.blk + n.toNat → t.slot b k = s.slot b k)

/-! ## F-mode (R62, R326) -/

/-- The current team runs on a core in F-mode. -/
abbrev State.inFMode (s : State) : Prop := fMode (coreOf s.cur) = true

/-! ## Lane instructions (R84, R88, R89) -/

/-- The fields that a lane instruction of the current team uses. -/
def State.laneUses (s : State) (op : Nat) (o : LaneOps) : BitVec 7 := usedFields op (s.die (dieOf (coreOf s.cur))).ops o

/-- The registers that a lane instruction reads and writes. -/
def State.laneRegs (s : State) (op : Nat) (o : LaneOps) : List Nat := laneReads op o (s.laneUses op o) ++ laneWrites op o (s.laneUses op o)

/-- The registers of a team that lie in the backing store are there as the team has them (R49). -/
def State.backed (s : State) (k : Nat) : State := (syncBacking k).final s

/-- The state in which a lane instruction reads its operands: waiting results past their window that it needs have been written (R88). -/
def State.settledFor (s : State) (op : Nat) (o : LaneOps) : State :=
  (s.putTeam s.cur (fun t =>
    { (t.pend.filter (fun p => needs p (s.laneRegs op o))).foldl Team.settle t with pend := t.pend.filter (fun p => !needs p (s.laneRegs op o)) })).backed s.cur

/-- The team, the cursor batch and the active lanes that a lane instruction runs with. -/
def State.laneRun (s : State) (op : Nat) (o : LaneOps) (b : Batch) : LaneRun :=
  { t := (s.settledFor op o).me, b := b, lanes := activeLanes s.me b o }

/-- The lane instruction at the cursor, of batch b, is performed: no waiting result whose window it breaks is checked (R88). -/
abbrev State.lanePerforms (s : State) (op : Nat) (o : LaneOps) (b : Batch) : Prop :=
  s.me.lanes.find? (fun b => !b.left.isEmpty) = some b ∧ (s.me.lacheck.getLsbD 0 = true → ∀ p ∈ s.me.pend, violates p (s.laneRegs op o) = false)

/-- The state after a lane instruction with these results and pass cycles. -/
def State.laneAfter (s : State) (op : Nat) (i : Instr) (o : LaneOps) (b : Batch) (cycles : List LaneRun → Nat → Nat) (r : LaneOut) : State :=
  (laneFinish i o (s.laneRun op o b) cycles r).final (s.settledFor op o)

/-- The state after a lane cause of the current team: as a scalar one, but the cursor is recorded and the queue held; waiting results of earlier instructions are written (R84, R321). -/
def State.laneTraps (s : State) (c : Nat) (v : W64) : State :=
  ((s.unasked s.cur).putTeam s.cur (fun t =>
    { (t.trapped c v t.pc).settleAll with tbatch := t.cursor true, carried := false, laneWaiting := false })).backed s.cur

/-- Stores of lanes, one after another, in physical memory and in a block's local memory. -/
def lanesMem (ps : List (Nat × Plan)) (bytes : Nat → List Byte) (m : List Host.Cell) : List Host.Cell :=
  ps.foldl (fun m p => piecesMem p.2.pieces (bytes p.1) m) m

def lanesLoc (ps : List (Nat × Plan)) (bytes : Nat → List Byte) (m : Sparse 8) : Sparse 8 :=
  ps.foldl (fun m p => piecesLoc p.2.pieces (bytes p.1) m) m

/-- The same in a block's operand buffer. -/
def lanesOb (ps : List (Nat × Plan)) (bytes : Nat → List Byte) (m : Sparse 8) : Sparse 8 :=
  ps.foldl (fun m p => piecesOb p.2.pieces (bytes p.1) m) m

/-- Memory, a block's local memory, and what the lanes of an atomic receive. -/
structure AtomicRun where
  mem : List Host.Cell
  loc : Sparse 8
  out : LaneOut

/-- Lane atomics one after another in lane order, each on the word as the lanes before left it (R173, R189). -/
def lanesAtomic (x : LaneRun) (o : LaneOps) : List (Nat × Plan) → AtomicRun → AtomicRun
  | [], r => r
  | (l, q) :: ps, r =>
    let old := leNat (q.pieces.flatMap (fun y => match y with
      | .phys a n => Sparse.run r.mem a n
      | .loc a n => Sparse.run r.loc a n
      | .ob _ n => List.replicate n 0))
    let y := laneAtomicStep x o l old
    let bs := leBytes (tyBytes o) (y.1.getD 0)
    lanesAtomic x o ps
      { mem := if y.1.isSome then piecesMem q.pieces bs r.mem else r.mem
        loc := if y.1.isSome then piecesLoc q.pieces bs r.loc else r.loc
        out := { r.out with regs := r.out.regs ++ laneWords o.ty.toNat o.vd.toNat l old, events := r.out.events ++ y.2 } }

/-- A lane instruction has left general registers, q, masks, predicates, stack, PC and CSRs as they were; it may have changed lane registers, the queue, what waits in it, and what an atomic's lanes have done. -/
abbrev Team.onlyLanes (m n : Team) : Prop :=
  n = { m with
    v := n.v, lanes := n.lanes, pend := n.pend, laneFaultAt := n.laneFaultAt, carried := n.carried, laneWaiting := n.laneWaiting,
    partDone := n.partDone, laneAcqs := n.laneAcqs }

/-! ## The matrix queue (R271) -/

/-- The entry that a matrix instruction of the current team makes. -/
def State.matrixEntry (s : State) (i : Instr) (op : MatrixOp) : MatrixEntry :=
  newEntry s.cur s.me.lanes.length ((encodeScalar i).getD 0) op s.me.spec.isSome

/-- The instruction has completed, and its operation is the last of the core's matrix queue. -/
def State.joins (s : State) (u : Use) (i : Instr) (op : MatrixOp) : State :=
  let c := s.core (coreOf s.cur)
  { s.completed u id with cores := s.cores.put (coreOf s.cur) { c with queue := c.queue ++ [s.matrixEntry i op] } }

/-- The instruction waits for a queue entry with the operands that it captured (R267). -/
def State.captures (s : State) (op : MatrixOp) : State := s.putTeam s.cur (fun t => { t with waiting := true, captured := some op })

/-! ## Copy rings (R195 to R205) -/

/-- The fields and the checks of a copy entry other than WAITY (R204, R209). -/
def entryChecks : Instr → Option (CopyOps × (State → Nat → EntryPlan))
  | .cNop c => some (c, fun _ _ => { bad := plainBad c false ++ reason (c.slot != 0) 2 })
  | .cCopy c => some (c, copyPlan false false c)
  | .cGather c => some (c, copyPlan true false c)
  | .cFill c => some (c, copyPlan false true c)
  | .cSload c => some (c, sloadPlan c)
  | .cOvl c => some (c, ovlPlan c)
  | .cSeal c => some (c, sealPlan false c)
  | .cUnseal c => some (c, sealPlan true c)
  | .cRestrict c => some (c, levelPlan true c)
  | .cProlong c => some (c, levelPlan false c)
  | .cSignal c => some (c, fun s b =>
      { bad := plainBad c false ++ reason (decide ((s.launch (s.block b).launch).hdr.slots ≤ c.slot.toNat) || (s.slot b c.slot.toNat).mode != 1) 8 })
  | _ => none

/-- The current block's ring takes up its next entry. -/
abbrev State.ringReady (s : State) (c : CopyOps) : Prop :=
  (s.block s.curBlk).ring.canTake = true ∧ engineRuns s s.curBlk = true ∧ (c.order = true → (s.block s.curBlk).ring.entries = [])

/-- A ring whose next entry has started (R195): CONS has moved past it, and it is in progress with what it captured, a ring-kind entry with its place. -/
def Ring.joined (r : Ring) (op : Instr) (p : EntryPlan) (place : Option Nat) : Ring :=
  { r with
    cons := (r.cons + 1) % 2 ^ 32
    publishers := if r.publishers.head?.any (fun x => x.1 == (r.cons + 1) % 2 ^ 32) then r.publishers.tail else r.publishers
    entries := r.entries ++ [{ idx := r.cons, op := op, team := r.publisher, ranges := p.ranges, pos := 0, subs := p.subs, done := none, place := place,
                               list := p.list, record := p.record, faultAt := none }]
    waity := none }

/-- A ring that has halted, its STATUS stored (R205). -/
def Ring.stops (r : Ring) : Ring := { r with halted := true, waity := none }

/-- The sub-operation that an entry with data performs next. -/
def State.workOf (s : State) (b : Nat) (e : Entry) : Option (CopyOps × Except Stop SubWork) :=
  match e.op with
  | .cCopy c => some (c, copyWork false false c s b e)
  | .cGather c => some (c, copyWork true false c s b e)
  | .cFill c => some (c, copyWork false true c s b e)
  | .cRestrict c => some (c, levelWork true c s b e)
  | .cProlong c => some (c, levelWork false c s b e)
  | .cSeal c => (match sealWork false c s b e with | .ok (some w) => some (c, .ok w) | _ => none)
  | .cUnseal c => (match sealWork true c s b e with | .ok (some w) => some (c, .ok w) | _ => none)
  | _ => none

/-- A ring one of whose entries has performed a sub-operation. -/
def Ring.advanced (r : Ring) (i : Nat) : Ring :=
  { r with entries := r.entries.map (fun e => if e.idx = i then { e with pos := e.pos + 1, done := none, faultAt := none } else e) }

/-- A ring that an entry has left. -/
def Ring.without (r : Ring) (i : Nat) : Ring := { r with entries := r.entries.filter (fun e => e.idx != i) }

/-! ## Stores of the device's own agents (R26 to R41) -/

/-- An agent's access has its lines: it waits for them no more, and the messages on their way carry their data (R289, R299). -/
def State.having (s : State) (p : Path) (lines : List Nat) : State := { s with coh := s.filled (s.coh.served p lines) }

/-- Bytes stored by an agent of the device for a context, plain or with a role, in one piece within a line that its die holds. -/
def State.storedBy (s : State) (p : Path) (role : Bool) (pa : Nat) (bs : List Byte) : State :=
  (performWrite { path := p, role := role } .phys pa bs).final (s.having p (linesOf [(pa, bs.length)]))
def State.stored (s : State) (x : Nat) (role : Bool) (pa : Nat) (bs : List Byte) : State := s.storedBy (.front x) role pa bs

/-- A store of n bytes by such an agent to a context's memory is performed, in one piece at pa within a line that its die holds in M. -/
abbrev State.storable (s : State) (x : Nat) (a : W64) (n pa : Nat) : Prop :=
  ctxRun s x .write a n = .ok [(pa, n)] ∧ 0 < n ∧ pa % 256 + n ≤ 256 ∧ s.calm (.front x) ∧ s.holds (.front x) .write (linesOf [(pa, n)])

/-- The lines of runs of a context's memory that the front end acquires. -/
def State.frontLines (s : State) (x : Nat) (rs : List (W64 × Nat)) : List Nat :=
  linesOf (rs.flatMap (fun r => (ctxRun s x .read r.1 r.2).toOption.getD []))

/-- The front end's die holds the lines of runs that it acquires (R289). -/
abbrev State.frontReads (s : State) (x : Nat) (rs : List (W64 × Nat)) : Prop := s.holds (.front x) .sync (s.frontLines x rs)

/-! ## Requests to firmware (R360) -/

/-- The request's STATUS and then the queue's CIDX have been stored. -/
def State.serves (s : State) (r : Request) (status : Nat) : State :=
  (s.storedBy firmwarePath true (r.slot + 4) (leBytes 4 status)).storedBy firmwarePath true (s.pkg.fwq.toNat + 8) (leBytes 8 (r.cidx + 1).toNat)

/-- A context replaced. -/
def State.putCtx (s : State) (x : Nat) (f : Ctx → Ctx) : State := { s with ctxs := s.ctxs.put x (f (s.ctx x)) }

/-- The package's registers changed. -/
def State.putPkg (s : State) (f : Pkg → Pkg) : State := { s with pkg := f s.pkg }

end Sys2Proof.Machine
end

