-- ==== Sys2Proof/Certificates/Slice0/Obligations.lean ====
section
/-! DEFINITION. The statements for the provers. -/

open Sys2Proof

open Sys2Proof.Machine

/-! ## Encodings (R71 to R83, R196, R197) -/

/-- R71 to R81: decoding the word of a well-formed scalar instruction gives it back, with every operand at every value; and a word that decodes is the word of the instruction it decodes to, which is well-formed. -/
def Obligations.ScalarEncoding : Prop :=
  (∀ i w, encodeScalar i = some w → WellFormed i = true → decodeScalar w = .ok i)
  ∧ (∀ w i, decodeScalar w = .ok i → encodeScalar i = some w ∧ WellFormed i = true)

/-- R82, R83, R196, R197: the same of the 96-bit words of lane instructions, in the order in which an overlay stores their three words, and of the 256 bits of copy entries. -/
def Obligations.LaneAndCopyEncoding : Prop :=
  (∀ i w, encodeLane i = some w → WellFormed i = true → decodeLane w = .ok i)
  ∧ (∀ w i, decodeLane w = .ok i → encodeLane i = some w ∧ WellFormed i = true)
  ∧ (∀ i w, encodeLane i = some w → ∃ x y z, encode i = [x, y, z] ∧ laneOfWords x y z = w)
  ∧ (∀ i w, encodeCopy i = some w → decodeCopy w = .ok i)
  ∧ (∀ w i, decodeCopy w = .ok i → encodeCopy i = some w)

/-- R71 to R82: words written out from the encodings decode to the instructions that they stand for, and words that set an unused bit, name no function or store a natural size decode to none. -/
def Obligations.DecodeWords : Prop :=
  decodeScalar 0x04618540 = .ok (.add 6 6 5 true) ∧ decodeScalar 0x08500000 = .ok (.addi 5 0 0) ∧ decodeScalar 0x1851A804 = .ok (.srai 5 6 true 4)
  ∧ decodeScalar 0x2050007F = .ok (.lix 5 0x7F) ∧ decodeScalar 0x32AAEC80 = .ok (.fadd 42 43 44 true .rne) ∧ decodeScalar 0x60851FFE = .ok (.b .lt 5 7 (-2))
  ∧ decodeScalar 0x80508003 = .ok (.mrd 5 2) ∧ decodeScalar 0x8D01C000 = .ok (.qset 1 7) ∧ decodeScalar 0xC0700005 = .ok (.sywb 7 0) ∧ decodeScalar 0xCC014608 = .ok (.tlbinv 5 6)
  ∧ decodeScalar 0x4052B000 = .ok (.ld 5 10 .d64 false 0) ∧ decodeScalar 0x4471A000 = .ok (.st 7 6 .i32 false 0)
  ∧ (let o : LaneOps := { ty := 1, vd := 1, va := 0, srcb := 0, vb := 0, vc := 0, pen := false, pneg := false, pidx := 0, look := 0, rm := 0, sat := false, mode := 0, imm := 0 }
    decodeLane (laneOfWords 0x05040400 0 0) = .ok (.laneid o) ∧ decodeLane (laneOfWords 0x30200804 1 0) = .ok (.cvt { o with ty := 8, vd := 2, va := 1, mode := 1 })
    ∧ decodeLane (laneOfWords 0x40C00C04 0 0) = .ok (.scan { o with ty := 0, vd := 3, va := 1 }) ∧ decodeLane (laneOfWords 0x40A05008 0 0) = .ok (.reduce { o with ty := 8, vd := 20, va := 2 })
    ∧ decodeLane (laneOfWords 0x05040401 0 0) = .error .laneField)
  ∧ decodeScalar 0xCC000006 = .error .function ∧ decodeScalar 0xCC100000 = .error .unused ∧ decodeScalar 0x4471A800 = .error .function ∧ decodeScalar 0 = .error .opcode

/-! ## Integer instructions (R93 to R99) -/

/-- R93: the ALU.R instructions write the low w bits of the named integer, sign-extended, to gd (g0 discards it, R60), and the PC moves on: sum, difference, products, quotients and remainders with their corners, the bitwise operations, shifts and rotate by gb modulo the width, minimum and maximum, and the bit counts.  The result of a division or a remainder is outstanding for a time (R92). -/
def Obligations.IntegerResults : Prop :=
  (∀ (s : State) (d a b : GReg) (w : Bool), s.issues (use2 d a b) →
      let n := widthOf w
      let ua : Int := natOf n (s.me.reg a)
      let ub : Int := natOf n (s.me.reg b)
      let sa := intOfLow n (s.me.reg a)
      let sb := intOfLow n (s.me.reg b)
      let gives := fun (i : Instr) (u : Use) (r : Int) => Machine.exec i s = .next (s.completed u (fun t => t.setReg d (narrow n r)))
      let short := use2 d a b
      let long := { use2 d a b with long := true }
      gives (.add d a b w) short (ua + ub) ∧ gives (.sub d a b w) short (ua - ub) ∧ gives (.mul d a b w) short (ua * ub)
      ∧ gives (.mulhI d a b w) short (sa * sb / 2 ^ n) ∧ gives (.mulhN d a b w) short (ua * ub / 2 ^ n)
      ∧ gives (.divI d a b w) long (if ub = 0 then -1 else sa.tdiv sb) ∧ gives (.remI d a b w) long (if ub = 0 then ua else sa - sb * sa.tdiv sb)
      ∧ gives (.divN d a b w) long (if ub = 0 then -1 else ua / ub) ∧ gives (.remN d a b w) long (if ub = 0 then ua else ua % ub))
  ∧ (∀ (s : State) (d a b : GReg) (w : Bool), s.issues (use2 d a b) →
      let n := widthOf w
      let ua := natOf n (s.me.reg a)
      let ub := natOf n (s.me.reg b)
      let sa := intOfLow n (s.me.reg a)
      let sb := intOfLow n (s.me.reg b)
      let k := ub % n
      let gives := fun (i : Instr) (r : Int) => Machine.exec i s = .next (s.completed (use2 d a b) (fun t => t.setReg d (narrow n r)))
      gives (.and d a b w) (ua &&& ub : Nat) ∧ gives (.or d a b w) (ua ||| ub : Nat) ∧ gives (.xor d a b w) (ua ^^^ ub : Nat)
      ∧ gives (.andn d a b w) (ua &&& (2 ^ n - 1 - ub) : Nat)
      ∧ gives (.shl d a b w) (ua * 2 ^ k) ∧ gives (.shr d a b w) (ua / 2 ^ k) ∧ gives (.sra d a b w) (sa / 2 ^ k)
      ∧ gives (.rol d a b w) (ua * 2 ^ k + ua / 2 ^ (n - k))
      ∧ gives (.minI d a b w) (min sa sb) ∧ gives (.maxI d a b w) (max sa sb) ∧ gives (.minN d a b w) (min ua ub) ∧ gives (.maxN d a b w) (max ua ub))
  ∧ (∀ (s : State) (d a : GReg) (w : Bool), s.issues (use1 d a) →
      let n := widthOf w
      let ua := natOf n (s.me.reg a)
      let bits := (List.range n).map ua.testBit
      let gives := fun (i : Instr) (r : Nat) => Machine.exec i s = .next (s.completed (use1 d a) (fun t => t.setReg d (BitVec.ofNat 64 r)))
      gives (.popc d a w) (bits.count true) ∧ gives (.clz d a w) (bits.reverse.takeWhile (! ·)).length ∧ gives (.ctz d a w) (bits.takeWhile (! ·)).length)

/-- R95 to R98: the immediate operations, each under its major opcode and the fields of its format; a SHI with operation 0b11 or a bit of imm14[10:6] set is ILLEGAL. -/
def Obligations.ImmediateResults : Prop :=
  (∀ (s : State) (d a : GReg) (w : Bool) (i : BitVec 14) (k : BitVec 6) (j : BitVec 20), s.issues (use1 d a) →
      let x := s.me.reg a
      let n := widthOf (!w)
      let amount := k.toNat % n
      let gives := fun (i : Instr) (r : W64) => Machine.exec i s = .next (s.completed (use1 d a) (fun t => t.setReg d r))
      gives (.addi d a i) (BitVec.ofInt 64 (x.toNat + i.toInt)) ∧ gives (.andi d a i) (BitVec.ofNat 64 (x.toNat &&& i.toNat))
      ∧ gives (.ori d a i) (BitVec.ofNat 64 (x.toNat ||| i.toNat)) ∧ gives (.xori d a i) (BitVec.ofNat 64 (x.toNat ^^^ i.toNat))
      ∧ gives (.shli d a w k) (narrow n (natOf n x * 2 ^ amount)) ∧ gives (.shri d a w k) (narrow n (natOf n x / 2 ^ amount))
      ∧ gives (.srai d a w k) (narrow n (intOfLow n x / 2 ^ amount))
      ∧ Machine.exec (.lih d j) s = .next (s.completed (use1 d 0) (fun t => t.setReg d (narrow 32 (j.toNat * 2 ^ 12))))
      ∧ Machine.exec (.lix d j) s = .next (s.completed (use1 d d) (fun t => t.setReg d (BitVec.ofNat 64 ((s.me.reg d).toNat * 2 ^ 20 + j.toNat)))))
  ∧ ∀ (w : W32) (s : State),
    let major := (fld w 26 6).toNat
    let d := fld w 20 6
    let a := fld w 14 6
    (major = 2 → decodeScalar w = .ok (.addi d a (fld w 0 14))) ∧ (major = 3 → decodeScalar w = .ok (.andi d a (fld w 0 14)))
    ∧ (major = 4 → decodeScalar w = .ok (.ori d a (fld w 0 14))) ∧ (major = 5 → decodeScalar w = .ok (.xori d a (fld w 0 14)))
    ∧ (major = 6 → fld w 6 5 = 0 → (fld w 12 2 = 0 → decodeScalar w = .ok (.shli d a (fld w 11 1 == 1) (fld w 0 6)))
        ∧ (fld w 12 2 = 1 → decodeScalar w = .ok (.shri d a (fld w 11 1 == 1) (fld w 0 6))) ∧ (fld w 12 2 = 2 → decodeScalar w = .ok (.srai d a (fld w 11 1 == 1) (fld w 0 6))))
    ∧ (major = 6 → fld w 12 2 = 3 ∨ fld w 6 5 ≠ 0 → instrOf w = .illegalInstruction ∧ (s.me.canTrap → Machine.exec (instrOf w) s = .next (s.traps 0x01 s.me.pc)))
    ∧ (major = 7 → decodeScalar w = .ok (.lih d (fld w 0 20))) ∧ (major = 8 → decodeScalar w = .ok (.lix d (fld w 0 20)))

/-- R99, R75: CMP writes 1 or 0 at the width of fn[6]; LT and GE compare as two's complement, LTN and GEN as natural numbers; the condition is fn[5:0], and fn[7] set or an unlisted condition is ILLEGAL. -/
def Obligations.CompareResults : Prop :=
  (∀ (s : State) (d a b : GReg) (w : Bool) (c : Cond), s.issues (use2 d a b) →
      let n := widthOf w
      let ua := natOf n (s.me.reg a)
      let ub := natOf n (s.me.reg b)
      let sa := intOfLow n (s.me.reg a)
      let sb := intOfLow n (s.me.reg b)
      let holds : Bool := match c with
        | .eq => ua == ub
        | .ne => ua != ub
        | .lt => decide (sa < sb)
        | .ge => decide (sb ≤ sa)
        | .ltn => decide (ua < ub)
        | .gen => decide (ub ≤ ua)
      Machine.exec (.cmp d a b w c) s = .next (s.completed (use2 d a b) (fun t => t.setReg d (if holds then 1 else 0))))
  ∧ ∀ (w : W32) (s : State), (fld w 26 6).toNat = 0x0A →
    (∀ c : Cond, fld w 7 1 = 0 → (fld w 0 6).toNat = c.code → decodeScalar w = .ok (.cmp (fld w 20 6) (fld w 14 6) (fld w 8 6) (fld w 6 1 == 1) c))
    ∧ (fld w 7 1 = 1 ∨ 6 ≤ (fld w 0 6).toNat → instrOf w = .illegalInstruction ∧ (s.me.canTrap → Machine.exec (instrOf w) s = .next (s.traps 0x01 s.me.pc)))

/-- R91, R93, R107, R131: an integer instruction that gives a next state changes nothing but its team; of the team, no register but gd, no lane register, predicate, mask, q register, queue, CSR or counter, and no byte of memory. A floating-point instruction changes of its team the same; elsewhere it changes only event counts of its launch, and what an FPEVENT notification writes: with no thresholds, no byte of memory. -/
def Obligations.ComputeFrames : Prop :=
  (∀ (i : Instr) (d : GReg), integerDest i = some d → ∀ s t, Machine.exec i s = .next t →
      s.onlyTeam t ∧ s.me.onlyIssue (t.team s.cur) ∧ (∀ r, r ≠ d → (t.team s.cur).reg r = s.me.reg r) ∧ sameMemory s t)
  ∧ (∀ (i : Instr) (d : GReg), fpDest i = some d → ∀ s t, Machine.exec i s = .next t →
      s.me.onlyIssue (t.team s.cur) ∧ (∀ r, r ≠ d → (t.team s.cur).reg r = s.me.reg r)
      ∧ t.teams = s.teams.put s.cur (t.team s.cur) ∧ t.blocks = s.blocks ∧ t.slots = s.slots ∧ t.cores = s.cores ∧ t.dies = s.dies
      ∧ t.queues = s.queues ∧ t.ctxs = s.ctxs
      ∧ (∀ l, { t.launch l with fev := (s.launch l).fev, posted := (s.launch l).posted } = s.launch l)
      ∧ ((∀ x ∈ (s.launchOf s.cur).thr, x = 0) → sameMemory s t ∧ t.seq = s.seq ∧ t.pkg = s.pkg))

/-! ## Scalar floating point (R100 to R107) -/

/-- R101, R106: the exact sum, difference, product, quotient, root or fused product-sum is rounded once, written under R100, and its events are counted. -/
def Obligations.FpArithmeticResults : Prop :=
  ∀ (s : State) (d a b : GReg) (w : Bool) (rm : Rm), s.issues (use2 d a b) →
    let f := scalarFmt w
    let val := fun r => f.decode (fpBits w (s.me.reg r))
    let gives := fun (i : Instr) (u : Use) (r : Fp.Res) =>
      Machine.exec i s = .next ((countEvents s.cur (countsOf r f)).final (s.completed u (fun t => t.setReg d (fpReg w r.bits))))
    gives (.fadd d a b w rm) (use2 d a b) (Fp.deliver f rm (Fp.add rm (val a) (val b)))
    ∧ gives (.fsub d a b w rm) (use2 d a b) (Fp.deliver f rm (Fp.add rm (val a) (Fp.neg (val b))))
    ∧ gives (.fmul d a b w rm) (use2 d a b) (Fp.deliver f rm (Fp.mul (val a) (val b)))
    ∧ gives (.fdiv d a b w rm) { use2 d a b with long := true } (Fp.div f rm (val a) (val b))
    ∧ gives (.fsqrt d a w rm) { use1 d a with long := true } (Fp.sqrt f rm (val a))
    ∧ gives (.ffma d a b w rm) { reads := [a, b, d], writes := [d], spec := true } (Fp.deliver f rm (Fp.add rm (Fp.mul (val a) (val b)) (val d)))

/-- R102, R120: a NaN operand, quiet or signalling, and an invalid operation give the canonical NaN of the format and count one NAN. -/
def Obligations.FpInvalidGivesCanonicalNan : Prop :=
  ∀ (s : State) (d a b : GReg) (w : Bool) (rm : Rm), s.issues (use2 d a b) →
    let f := scalarFmt w
    let x := fpBits w (s.me.reg a)
    let y := fpBits w (s.me.reg b)
    let inf := fun (n : Nat) => magBits f n = (2 ^ f.ebits - 1) * 2 ^ f.fbits
    let zero := fun (n : Nat) => magBits f n = 0
    let opposite := f.signBit x ≠ f.signBit y
    let nans := fun (i : Instr) (u : Use) =>
      Machine.exec i s = .next ((countEvents s.cur [Fp.Event.num .nan f.code]).final (s.completed u (fun t => t.setReg d (fpReg w f.qnan))))
    ((nanBits f x = true ∨ nanBits f y = true) →
      nans (.fadd d a b w rm) (use2 d a b) ∧ nans (.fsub d a b w rm) (use2 d a b) ∧ nans (.fmul d a b w rm) (use2 d a b)
      ∧ nans (.fdiv d a b w rm) { use2 d a b with long := true } ∧ nans (.fmin d a b w) (use2 d a b) ∧ nans (.fmax d a b w) (use2 d a b))
    ∧ (nanBits f x = true → nans (.fsqrt d a w rm) { use1 d a with long := true })
    ∧ (inf x ∧ inf y ∧ opposite → nans (.fadd d a b w rm) (use2 d a b))
    ∧ (inf x ∧ inf y ∧ ¬opposite → nans (.fsub d a b w rm) (use2 d a b))
    ∧ ((inf x ∧ zero y) ∨ (zero x ∧ inf y) → nans (.fmul d a b w rm) (use2 d a b))
    ∧ ((inf x ∧ inf y) ∨ (zero x ∧ zero y) → nans (.fdiv d a b w rm) { use2 d a b with long := true })
    ∧ (f.signBit x = true ∧ ¬zero x → nans (.fsqrt d a w rm) { use1 d a with long := true })

/-- R103, R104: FMIN and its kin return an operand's own bits by the order of the values, −0 below +0; the comparisons write 1 or 0; FCLASS one bit of ten. -/
def Obligations.FpOrderResults : Prop :=
  ∀ (s : State) (d a b : GReg) (w : Bool), s.issues (use2 d a b) →
    let f := scalarFmt w
    let x := fpBits w (s.me.reg a)
    let y := fpBits w (s.me.reg b)
    let un := nanBits f x || nanBits f y
    let lower := if orderKey f x ≤ orderKey f y then x else y
    let upper := if orderKey f x ≤ orderKey f y then y else x
    let other := if nanBits f x then y else x
    let quiet := if snanBits f x || snanBits f y then [Fp.Event.nan] else []
    let gives := fun (i : Instr) (u : Use) (r : W64) (ev : List Fp.Event) =>
      Machine.exec i s = .next ((countEvents s.cur (ev.map (fun e => e.num f.code))).final (s.completed u (fun t => t.setReg d r)))
    let pick := fun (i : Instr) (r : Nat) => gives i (use2 d a b) (if un then fpReg w f.qnan else fpReg w r) (if un then [.nan] else [])
    let number := fun (i : Instr) (r : Nat) =>
      gives i (use2 d a b) (if nanBits f x && nanBits f y then fpReg w f.qnan else if un then fpReg w other else fpReg w r)
        (if nanBits f x && nanBits f y then [.nan] else if un then quiet else [])
    let truth := fun (i : Instr) (c : Bool) => gives i (use2 d a b) (if c then 1 else 0) []
    let cls : Nat :=
      if nanBits f x then (if snanBits f x then 8 else 9)
      else if f.expField x = 2 ^ f.ebits - 1 then (if f.signBit x then 0 else 7)
      else if f.expField x ≠ 0 then (if f.signBit x then 1 else 6)
      else if f.frac x ≠ 0 then (if f.signBit x then 2 else 5)
      else (if f.signBit x then 3 else 4)
    pick (.fmin d a b w) lower ∧ pick (.fmax d a b w) upper ∧ number (.fminn d a b w) lower ∧ number (.fmaxn d a b w) upper
    ∧ truth (.fcmpEq d a b w) (!un && valueKey f x == valueKey f y) ∧ truth (.fcmpLt d a b w) (!un && decide (valueKey f x < valueKey f y))
    ∧ truth (.fcmpLe d a b w) (!un && decide (valueKey f x ≤ valueKey f y)) ∧ truth (.fcmpUn d a b w) un
    ∧ gives (.fclass d a w) (use1 d a) (BitVec.ofNat 64 (2 ^ cls)) []

/-- R105: the conversions round once; a conversion to an integer delivers the nearest end out of range and 0 for a NaN, and counts OVER of the source format. -/
def Obligations.FpConversionResults : Prop :=
  ∀ (s : State) (d a : GReg) (w : Bool) (rm : Rm), s.issues (use1 d a) →
    let gives := fun (i : Instr) (r : W64) (ev : List Nat) =>
      Machine.exec i s = .next ((countEvents s.cur ev).final (s.completed (use1 d a) (fun t => t.setReg d r)))
    let x := s.me.reg a
    let src := (scalarFmt w).decode (fpBits w x)
    let narrowed := Fp.deliver (scalarFmt w) rm ((scalarFmt (!w)).decode (fpBits (!w) x))
    let toInt := fun (i : Instr) (lo hi : Int) =>
      match src with
      | .nan _ => gives i 0 [Fp.Event.num .over (scalarFmt w).code]
      | .inf g => gives i (BitVec.ofInt 64 (if g then lo else hi)) [Fp.Event.num .over (scalarFmt w).code]
      | .fin g m e =>
        let n : Int := if g then -(Fp.toQuantum rm g m e false 0 : Int) else Fp.toQuantum rm g m e false 0
        gives i (BitVec.ofInt 64 (max lo (min hi n))) (if n < lo ∨ hi < n then [Fp.Event.num .over (scalarFmt w).code] else [])
    gives (.fcvtF d a w rm) (fpReg w narrowed.bits) (countsOf narrowed (scalarFmt w))
    ∧ toInt (.fcvtI d a w rm) (-2 ^ 63) (2 ^ 63 - 1) ∧ toInt (.fcvtN d a w rm) 0 (2 ^ 64 - 1)
    ∧ gives (.icvtF d a w rm) (fpReg w (Fp.deliver (scalarFmt w) rm (Fp.ofInt x.toInt)).bits) []
    ∧ gives (.ncvtF d a w rm) (fpReg w (Fp.deliver (scalarFmt w) rm (Fp.ofInt x.toNat)).bits) []

/-! ## Scalar memory (R175 to R180, R191) -/

/-- R176, R177, R179: a load whose access may be performed, whose lines are there and whose words no write of the team that waits at its home holds, writes the extended bytes of its pieces to gd, of an unaligned one each byte read for itself, and leaves the result outstanding; it changes no memory; LD.ACQ waits for every write of the team to its words and reads after its acquire. -/
def Obligations.LoadResults : Prop :=
  ∀ (s : State) (d a : GReg) (z : MemSize) (p : Bool) (i : BitVec 10) (pl : Plan),
    accessPlan s s.cur p .read (memAddress s.me a z i) z.bytes = .ok pl →
    let aligned := (memAddress s.me a z i).toNat % z.bytes == 0
    let found := fun (aligned : Bool) (s : State) => z.extend (leNat (readsBytes s s.path s.me.blk (accessReads aligned pl)))
    let loads := fun (i : Instr) (x : W64) => ∃ t, Machine.exec i s = .next t ∧ s.me.loaded (t.team s.cur) d x ∧ (d ≠ 0 → d ∈ (t.team s.cur).await)
      ∧ sameMemory s t ∧ t.blocks = s.blocks ∧ t.pkg = s.pkg ∧ quietElsewhere s t
    (s.issues (useLoad d a true) → s.loads s.path s.me.blk pl → loads (.ld d a z p i) (found aligned s))
    ∧ (s.issues (useLoad d a false) → aligned = true → planStalls s s.path s.me.blk pl = false → s.holds s.path .sync (linesOf pl.phys) →
        loads (.ldAcq d a z p i) (found true ((noteAcquire s.path (planWords s.me.blk pl)).final s)))

/-- R175, R176, R289: a store whose access may be performed, with no earlier write of the team waiting and its lines in M, writes the low bytes of gd over its pieces, and no other byte of memory; every register stays. -/
def Obligations.StoreResults : Prop :=
  ∀ (s : State) (d a : GReg) (z : MemSize) (p : Bool) (i : BitVec 10) (pl : Plan), s.issues (useStore d a) →
    accessPlan s s.cur p .write (memAddress s.me a z i) z.bytes = .ok pl → s.writesTo s.path pl →
    let bs := leBytes z.bytes (s.me.reg d).toNat
    let stores := fun (i : Instr) => ∃ t, Machine.exec i s = .next t ∧ s.me.loaded (t.team s.cur) 0 0
      ∧ t.mem = piecesMem pl.pieces bs s.mem ∧ (∀ a, ¬pl.touches a → readByte t a = readByte s a)
      ∧ (t.blockOf s.cur).loc = piecesLoc pl.pieces bs (s.blockOf s.cur).loc
      ∧ (∀ a, ¬pl.touchesLoc a → Sparse.get (t.blockOf s.cur).loc a = Sparse.get (s.blockOf s.cur).loc a)
      ∧ (∀ b, b ≠ s.me.blk → t.block b = s.block b) ∧ quietElsewhere s t
    stores (.st d a z p i)
    ∧ ((memAddress s.me a z i).toNat % z.bytes = 0 → stores (.stRel d a z p i))

/-- R178, R173: an atomic whose access may be performed, with no earlier write of the team waiting and its line in M, reads the old word, writes the new one that its operation gives, and returns the old one to gd; CAS writes only where the old word is the expected one. ATOM.FADD and ATOM.FMAX on f32 words round under RNE, return the old word under R100, and, with no thresholds, write nothing but their word. -/
def Obligations.AtomicResults : Prop :=
  (∀ (s : State) (d a b : GReg) (o : MemOrder) (p w : Bool) (pl : Plan), s.issues (use2 d a b) → s.me.spec = none →
      let n := if w then 8 else 4
      let k := 8 * n
      accessPlan s s.cur p .write (s.me.reg a) n = .ok pl → (s.me.reg a).toNat % n = 0 →
      s.writesTo s.path pl →
      let old := leNat (planNow s s.me.blk pl)
      let x := (s.me.reg b).toNat % 2 ^ k
      let gives := fun (i : Instr) (y : Option Nat) => ∃ t, Machine.exec i s = .next t
        ∧ s.me.loaded (t.team s.cur) d (if w then BitVec.ofNat 64 old else (BitVec.ofNat 32 old).signExtend 64) ∧ (d ≠ 0 → d ∈ (t.team s.cur).await)
        ∧ t.mem = (match y with | some v => piecesMem pl.pieces (leBytes n v) s.mem | none => s.mem)
        ∧ (∀ a, ¬pl.touches a → readByte t a = readByte s a)
        ∧ (t.blockOf s.cur).loc = (match y with | some v => piecesLoc pl.pieces (leBytes n v) (s.blockOf s.cur).loc | none => (s.blockOf s.cur).loc)
        ∧ quietElsewhere s t
      gives (.atomSwap d a b o p w) (some x) ∧ gives (.atomAdd d a b o p w) (some ((old + x) % 2 ^ k))
      ∧ gives (.atomAnd d a b o p w) (some (old &&& x)) ∧ gives (.atomOr d a b o p w) (some (old ||| x)) ∧ gives (.atomXor d a b o p w) (some (old ^^^ x))
      ∧ gives (.atomMinI d a b o p w) (some (if signedOf k x < signedOf k old then x else old))
      ∧ gives (.atomMaxI d a b o p w) (some (if signedOf k old < signedOf k x then x else old))
      ∧ gives (.atomMinN d a b o p w) (some (min old x)) ∧ gives (.atomMaxN d a b o p w) (some (max old x))
      ∧ gives (.cas d a b o p w) (if old = (s.me.reg d).toNat % 2 ^ k then some x else none))
  ∧ (∀ (s : State) (d a b : GReg) (o : MemOrder) (p : Bool) (pl : Plan), s.issues (use2 d a b) → s.me.spec = none →
      accessPlan s s.cur p .write (s.me.reg a) 4 = .ok pl → (s.me.reg a).toNat % 4 = 0 →
      s.writesTo s.path pl →
      let old := leNat (planNow s s.me.blk pl)
      let x := (s.me.reg b).toNat % 2 ^ 32
      let gives := fun (i : Instr) (v : Nat) => ∃ t, Machine.exec i s = .next t ∧ s.me.loaded (t.team s.cur) d (fpReg false old)
        ∧ ((∀ y ∈ (s.launchOf s.cur).thr, y = 0) → t.mem = piecesMem pl.pieces (leBytes 4 v) s.mem ∧ t.seq = s.seq)
      gives (.atomFadd d a b o p) (Fp.deliver Fp.f32 .rne (Fp.add .rne (Fp.f32.decode old) (Fp.f32.decode x))).bits
      ∧ gives (.atomFmax d a b o p) (Fp.minMax Fp.f32 true false old x).bits)

/-- R175, R176, R178: LD.ACQ, ST.REL, the atomics and CAS trap on an address that is not a multiple of their size: MISALIGN, TVAL the address, TPC the instruction; no register and no memory changes. R171, R184: the first active lane in lane order whose address in an LDG or STG is misaligned raises MISALIGN at the cursor, and where none is, the first with an address that is not canonical raises CANON, with TVAL the address; the queue is held and no lane is performed. -/
def Obligations.AccessTraps : Prop :=
  (∀ (s : State) (d a b : GReg) (z : MemSize) (o : MemOrder) (p w : Bool) (i : BitVec 10), s.me.canTrap →
      (s.issues (useLoad d a false) → (memAddress s.me a z i).toNat % z.bytes ≠ 0 →
        Machine.exec (.ldAcq d a z p i) s = .next (s.traps 0x03 (memAddress s.me a z i)))
      ∧ (s.issues (useStore d a) → waitingAtomic s s.path false = [] → (memAddress s.me a z i).toNat % z.bytes ≠ 0 →
        Machine.exec (.stRel d a z p i) s = .next (s.traps 0x03 (memAddress s.me a z i)))
      ∧ (s.issues (use2 d a b) → waitingAtomic s s.path false = [] → (s.me.reg a).toNat % (if w then 8 else 4) ≠ 0 →
        ∀ i ∈ [Instr.atomSwap d a b o p w, .atomAdd d a b o p w, .atomAnd d a b o p w, .atomOr d a b o p w,
        .atomXor d a b o p w, .atomMinI d a b o p w, .atomMaxI d a b o p w, .atomMinN d a b o p w, .atomMaxN d a b o p w, .cas d a b o p w], Machine.exec i s = .next (s.traps 0x03 (s.me.reg a)))
      ∧ (s.issues (use2 d a b) → waitingAtomic s s.path false = [] → (s.me.reg a).toNat % 4 ≠ 0 → ∀ i ∈ [Instr.atomFadd d a b o p, .atomFmax d a b o p], Machine.exec i s = .next (s.traps 0x03 (s.me.reg a))))
  ∧ (∀ (s : State) (o : LaneOps) (b : Batch) (op : Nat) (i : Instr), (op, i) ∈ [(0x180, Instr.ldg o), (0x181, .stg o)] → s.lanePerforms op o b →
      s.me.canTrap → s.me.suspended = none → s.me.stopped = false →
      let run := s.laneRun op o b
      let addr := globalLane run o false
      let n := tyBytes o
      (∀ l, run.lanes.find? (fun l => (addr l).toNat % n != 0) = some l → Machine.exec i s = .next ((s.settledFor op o).laneTraps 0x03 (addr l)))
      ∧ (∀ l, run.lanes.find? (fun l => (addr l).toNat % n != 0) = none → run.lanes.find? (fun l => !canonicalRun (addr l) n) = some l →
          Machine.exec i s = .next ((s.settledFor op o).laneTraps 0x07 (addr l))))

/-- R284, R177, R234, R70: on the path that wrote them, bytes of memory, of local memory and of the operand buffer read as written, however many other writes are unseen; and where no write is unseen, a read finds memory as it stands. FENCE.X with a from-class and a to-class completes, with L or H among the first once no scalar write of the team waits, changing no byte of memory; one without is ILLEGAL; IFENCE discards the words fetched ahead. -/
def Obligations.UnseenWritesAndFences : Prop :=
  ((∀ (s : State) (p : Path) (x : Place) (blk a : Nat) (ns : List Nat) (role : Bool) (lane : Option Nat) (bs : List Byte),
      placeSeen ((Upd.store p x blk ns role lane a bs).apply s) p x a bs.length = bs)
    ∧ (∀ (s : State) (p : Path) (pa n : Nat), s.hist = [] → bytesSeen s p pa n = readBytes s pa n))
  ∧ (∀ (s : State) (f g : BitVec 4),
      (s.issues {} → f ≠ 0 → g ≠ 0 → (classL f = true ∨ classH f = true → scalarStalls s s.path = false) →
        ∃ t, Machine.exec (.fenceX f g) s = .next t ∧ s.me.loaded (t.team s.cur) 0 0 ∧ sameMemory s t
          ∧ t = { s with teams := s.teams.put s.cur (t.team s.cur), hist := t.hist }
          ∧ t.hist = s.hist.map (fun h => if observed s.cur f h then widenTo s.cur s.me.blk g h else h))
      ∧ (s.me.canTrap → f = 0 ∨ g = 0 → Machine.exec (.fenceX f g) s = .next (s.traps 0x01 s.me.pc))
      ∧ (s.issues { spec := true } → Machine.exec .ifence s = .next (s.completed { spec := true } (fun t => { t with ahead := [] }))))

/-! ## Control transfers (R108 to R110, R113) -/

/-- R108, R109, R113: a branch whose condition holds, and every jump, transfers to its target; a branch whose condition does not goes on to the next word. -/
def Obligations.BranchesAndJumps : Prop :=
  ∀ (s : State) (c : Cond) (d a b : GReg) (o : BitVec 10) (l : BitVec 26) (i : BitVec 14), s.issues { spec := true } →
    let x := s.me.reg a
    let y := s.me.reg b
    let branches := fun (i : Instr) (rs : List GReg) (taken : Prop) =>
      (taken → Machine.exec i s = .next ((transfer { reads := rs, spec := true } (s.me.pc + BitVec.ofInt 64 (o.toInt * 4)) none).final s))
      ∧ (¬taken → Machine.exec i s = .next (s.completed { reads := rs, spec := true } id))
    branches (.b c a b o) [a, b] (match c with
      | .eq => x = y
      | .ne => x ≠ y
      | .lt => x.toInt < y.toInt
      | .ge => y.toInt ≤ x.toInt
      | .ltn => x.toNat < y.toNat
      | .gen => y.toNat ≤ x.toNat)
    ∧ branches (.bz a o) [a] (x = 0) ∧ branches (.bnz a o) [a] (x ≠ 0)
    ∧ branches (.bmz o) [] (∀ n, LaneMask.bit s.me.m n = false) ∧ branches (.bmf o) [] (∀ n, LaneMask.bit s.me.m n = LaneMask.bit s.me.present n)
    ∧ Machine.exec (.j l) s = .next ((transfer { reads := [], spec := true } (s.me.pc + BitVec.ofInt 64 (l.toInt * 4)) none).final s)
    ∧ (s.issues { writes := [1], spec := true } →
        Machine.exec (.jal l) s = .next ((transfer { writes := [1], spec := true } (s.me.pc + BitVec.ofInt 64 (l.toInt * 4)) (some 1)).final s))
    ∧ (s.issues (use1 d a) → Machine.exec (.jalr d a i) s = .next ((transfer (use1 d a) (x + BitVec.ofInt 64 i.toInt) (some d)).final s))

/-- R110, R117: transfer(t) by its table: the first check that applies decides; a fault is reported at the transferring instruction with TVAL the target, and no link is written; in speculative mode a trapping or migrating transfer waits. -/
def Obligations.TransferOutcomes : Prop :=
  ∀ (s : State) (u : Use) (pc : W64) (link : Option GReg),
    let t := (transfer u pc link).final s
    let hits := (slotOf? s s.cur pc).isSome || loadingHit s s.cur pc || inOverlay0 s s.cur pc
    let tag := pageTag s (s.spaceOf s.cur) pc
    let traps := fun (c : Nat) => (s.me.canTrap → t = s.traps c pc) ∧ (s.me.spec ≠ none → t = s.waits)
    (pc.toNat % 4 ≠ 0 → traps 0x03)
    ∧ (pc.toNat % 4 = 0 ∧ canonical pc = false → traps 0x07)
    ∧ (pc.toNat % 4 = 0 ∧ canonical pc = true →
        (hits = true ∨ tag = some 2 → t = s.completedAt u pc (fun m => match link with | some r => m.setReg r (m.pc + 4) | none => m))
        ∧ (hits = false ∧ tag = some 1 → (s.ctxOf s.cur).threads ≠ 0 → s.me.spec = none →
            ∃ k, t = s.putTeam s.cur (fun m => { m with waiting := true, migr := some { kind := k, target := pc, link := link } }) ∧ (k = 1 ∨ k = 4))
        ∧ (hits = false ∧ tag = some 1 → (s.ctxOf s.cur).threads ≠ 0 → s.me.spec ≠ none → t = s.waits)
        ∧ (hits = false ∧ tag = some 1 → (s.ctxOf s.cur).threads = 0 → traps 0x12)
        ∧ (hits = false ∧ tag ≠ some 1 ∧ tag ≠ some 2 → traps 0x04))

/-- R272: BSPEC with its operands there is B; with an operand outstanding it takes a checkpoint of g and q and goes on along the predicted path, and a second BSPEC waits.  A predicted target that would not do waits until the speculation can go elsewhere, which is the model's reading (DEDUCED, log 50). -/
def Obligations.SpeculationBegins : Prop :=
  ∀ (s : State) (c : Cond) (a b : GReg) (h : Bool) (o : BitVec 9), s.issues { spec := true } →
    let target := s.me.pc + BitVec.ofInt 64 (o.toInt * 4)
    let run := Machine.exec (.bspec c a b h o) s
    (s.me.awaits a b = false →
      run = .next (if Cond.holds c 64 (s.me.reg a) (s.me.reg b) then (transfer (useBranch [a, b]) target none).final s else s.completed (useBranch [a, b]) id))
    ∧ (s.me.awaits a b = true ∧ s.me.spec = none ∧ (h = false ∨ checkTarget s s.cur target = .good) →
      ∃ t p, run = .next t ∧ (t.team s.cur).spec = some p ∧ p.pc = s.me.pc ∧ p.g = s.me.g ∧ p.q = s.me.q ∧ p.cond = c ∧ p.a = a ∧ p.b = b
        ∧ p.count = 0 ∧ p.events = [] ∧ (t.team s.cur).pc = (if h then target else s.me.pc + 4) ∧ p.other = (if h then s.me.pc + 4 else target)
        ∧ (∀ r, (t.team s.cur).reg r = s.me.reg r) ∧ s.onlyTeam t)
    ∧ (s.me.awaits a b = true ∧ s.me.spec ≠ none → run = .next s.waits)
    ∧ (s.me.awaits a b = true ∧ s.me.spec = none ∧ h = true ∧ checkTarget s s.cur target ≠ .good → run = .next s.waits)

/-! ## The mask (R61, R111, R112) -/

/-- R111, R112, R87: the MASK functions, once every earlier batch has completed: MSPLIT, MELSE and MJOIN move the mask and its stack, MRD and MWR read and write a word of it, MCNT counts its bits; bits of absent lanes stay zero. MSPLIT with 16 entries on the stack raises MASKDEPTH with TVAL 16, MELSE and MJOIN with none raise it with TVAL 0; while a batch is outstanding every MASK function waits. -/
def Obligations.MaskResults : Prop :=
  (∀ (s : State) (p : BitVec 3) (d a : GReg) (k : BitVec 5), s.me.lanes = [] →
      let u : Use := {}
      let w : Use := { writes := [d], spec := true }
      (s.issues u → s.me.stack.length < 16 → Machine.exec (.msplit p) s = .next (s.completed u (fun t =>
        { t with m := t.m &&& t.p[p.toNat] &&& t.present, stack := (t.m, t.m &&& ~~~t.p[p.toNat]) :: t.stack })))
      ∧ (s.issues u → ∀ e es, s.me.stack = e :: es →
          Machine.exec .melse s = .next (s.completed u (fun t => { t with m := e.2 &&& t.present }))
          ∧ Machine.exec .mjoin s = .next (s.completed u (fun t => { t with m := e.1 &&& t.present, stack := es })))
      ∧ (s.issues w → Machine.exec (.mrd d k) s = .next (s.completed w (fun t =>
          t.setReg d (if 32 * k.toNat < t.width then BitVec.ofNat 64 (t.m.toNat / 2 ^ (32 * k.toNat) % 2 ^ 32) else 0))))
      ∧ (s.issues { reads := [a] } → ∃ t, Machine.exec (.mwr k a) s = .next t ∧ s.onlyTeam t ∧ (t.team s.cur).pc = s.me.pc + 4
          ∧ (t.team s.cur).stack = s.me.stack ∧ (∀ r, (t.team s.cur).reg r = s.me.reg r)
          ∧ ∀ l, l < 1024 → LaneMask.bit (t.team s.cur).m l =
              (LaneMask.bit s.me.present l && (if l / 32 = k.toNat then (s.me.reg a).getLsbD (l % 32) else LaneMask.bit s.me.m l)))
      ∧ (s.issues w → Machine.exec (.mcnt d) s = .next (s.completed w (fun t =>
          t.setReg d (BitVec.ofNat 64 ((List.range 1024).filter (LaneMask.bit t.m)).length)))))
  ∧ (∀ (s : State) (p : BitVec 3) (d a : GReg) (k : BitVec 5), s.issues { writes := [d] } → s.issues {} →
      (s.me.lanes = [] → s.me.canTrap →
        (s.me.stack.length = 16 → Machine.exec (.msplit p) s = .next (s.traps 0x0E 16))
        ∧ (s.me.stack = [] → Machine.exec .melse s = .next (s.traps 0x0E 0) ∧ Machine.exec .mjoin s = .next (s.traps 0x0E 0)))
      ∧ (s.me.lanes ≠ [] → ∀ i ∈ [Instr.msplit p, .melse, .mjoin, .mrd d k, .mwr k a, .mcnt d], Machine.exec i s = .next s.waits))

/-! ## Lane issue (R84, R114 to R116) -/

/-- R114, R84, R111: an LX whose overlay holds its run and whose instructions all keep R83 enqueues them, with q and the mask as they stand; with an empty mask and nothing outstanding the batch completes at once, its REDUCE, BALLOT and VOTE write what no active lane gives, and lookahead windows that reach past it stay open over nothing (R88); but where the lookahead checker is on and will stop at one of its instructions, it is enqueued; QSET writes a q register; WAITL completes when at most n batches are outstanding, with what their lane acquires order (R189). -/
def Obligations.LaneIssueResults : Prop :=
  ∀ (s : State) (n : BitVec 4) (i : BitVec 22) (q : BitVec 2) (a : GReg),
    let k := if n = 0 then 16 else n.toNat
    (∀ j o xs, s.issues {} → s.me.lanes.length < 16 → s.me.held = false → slotOf? s s.cur s.me.pc = some j →
      (s.core (coreOf s.cur)).slots[j]? = some o → sameOverlay s.me o = true → i.toNat + k ≤ o.lcount → decodeRun (laneEnv s s.cur) o i.toNat k = .ok xs →
      (s.me.m ≠ 0 → Machine.exec (.lx n i) s = .next (s.completed {} (fun t =>
        { t with lanes := t.lanes ++ [{ order := s.clock, lx := t.pc, base := o.base, idx := i.toNat, left := xs, q := t.q, m := t.m, gw := [], skips := 0 }] })))
      ∧ (s.me.m = 0 → s.me.lanes = [] → s.me.pend = [] →
          let ops := (s.die (dieOf (coreOf s.cur))).ops
          let stops := s.me.lacheck.getLsbD 0 && willViolate ops s.me xs
          (stops = true → Machine.exec (.lx n i) s = .next (s.completed {} (fun t =>
            { t with lanes := [{ order := s.clock, lx := t.pc, base := o.base, idx := i.toNat, left := xs, q := t.q, m := 0, gw := [], skips := 0 }] })))
          ∧ (stops = false → Machine.exec (.lx n i) s = .next (s.completed {} (fun t =>
            Team.takeResults
              { t with pend := (xs.zipIdx).filterMap (fun x => x.1.laneOp.bind (fun p =>
                  let after := xs.length - 1 - x.2
                  if p.2.look.toNat ≤ after then none
                  else some { own := 0, idx := i.toNat + x.2, window := p.2.look.toNat, passed := after, dests := laneWrites p.1 p.2 (usedFields p.1 ops p.2),
                              vals := [], wrote := [], before := 0 })) }
              (xs.filterMap (fun x => match x with
                | .reduce o => some (LaneOps.gd o, toG o.ty.toNat (reduceAll o.ty.toNat o.mode.toNat o.sat (LaneOps.rmode o) []).bits)
                | .ballot o => some (LaneOps.gd o, 0)
                | .vote o => some (LaneOps.gd o, if o.mode = 0 ∨ o.mode = 2 then 1 else 0)
                | _ => none)))))))
    ∧ (∀ j o, s.issues {} → s.me.canTrap → s.me.lanes.length < 16 → s.me.held = false → slotOf? s s.cur s.me.pc = some j →
      (s.core (coreOf s.cur)).slots[j]? = some o → sameOverlay s.me o = true →
      (o.lcount < i.toNat + k → Machine.exec (.lx n i) s = .next (s.traps 0x01 (BitVec.ofNat 64 i.toNat)))
      ∧ (∀ b, i.toNat + k ≤ o.lcount → decodeRun (laneEnv s s.cur) o i.toNat k = .error b → Machine.exec (.lx n i) s = .next (s.traps 0x01 (BitVec.ofNat 64 b))))
    ∧ (s.issues {} → 16 ≤ s.me.lanes.length ∨ s.me.held = true → Machine.exec (.lx n i) s = .next s.waits)
    ∧ (s.issues { reads := [a], spec := true } → Machine.exec (.qset q a) s = .next (s.completed { reads := [a], spec := true } (fun t => { t with q := t.q.set q.toNat (t.reg a) })))
    ∧ (s.issues { spec := true } →
        (s.me.lanes.length ≤ n.toNat → Machine.exec (.waitl n) s = .next ((followLanes s.cur).final (s.completed { spec := true } id))
          ∧ (s.me.laneAcqs = [] → Machine.exec (.waitl n) s = .next (s.completed { spec := true } id)))
        ∧ (n.toNat < s.me.lanes.length → Machine.exec (.waitl n) s = .next s.waits))

/-! ## Sync slots (R221 to R232) -/

/-- R226 to R230: each SYNC function on a slot of a mode it accepts, where its wait is over, has its effect on the slot, on gd and on the PC, and changes no other slot and no memory. -/
def Obligations.SyncResults : Prop :=
  ∀ (s : State) (d a : GReg) (n : BitVec 6), s.hasSlot n → (s.teams.get? s.cur).isSome = true → s.me.sywb = none →
    let x := s.me.reg a
    let done := fun (i : Instr) (d : GReg) (v : W64) (y : Slot) => ∃ t, Machine.exec i s = .next t ∧ s.synced t d v n y
    (s.issues { reads := [a] } → ∀ y, slotConfig x = some y → done (.syinit a n) 0 0 y)
    ∧ (scalarStalls s s.path = false → ∀ e k ph, s.mySlot n = .count e k ph → s.noWatch n true (e ≤ k + 1) (arrived e k ph) →
        (s.issues { writes := [d] } → done (.sya d n) d (if ph then 1 else 0) (arrived e k ph))
        ∧ (s.issues { writes := [d] } → e ≤ k + 1 → done (.sywb d n) d (if ph then 0 else 1) (arrived e k ph)))
    ∧ (s.issues { reads := [a] } → ∀ (e k : Nat) ph, s.mySlot n = .count e k ph → 1 ≤ (e : Int) + x.toInt → (e : Int) + x.toInt ≤ 65535 →
        let e' := ((e : Int) + x.toInt).toNat
        let y := if e' ≤ k then Slot.count e' 0 (!ph) else .count e' k ph
        s.noWatch n false (e' ≤ k) y → done (.syexp a n) 0 0 y)
    ∧ (s.issues { reads := [a], writes := [d] } →
        (∀ e k ph, s.mySlot n = .count e k ph → x.toNat < 2 →
          ((x = 1 ↔ ph = true) → done (.syw d a n) d (if ph then 1 else 0) (.count e k ph))
          ∧ done (.sytest d a n) d (if (x = 1 ↔ ph = true) then 1 else 0) (.count e k ph))
        ∧ (∀ b, s.mySlot n = .bytes b → (x.toNat ≤ b → done (.syw d a n) d (BitVec.ofNat 64 b) (.bytes b))
          ∧ done (.sytest d a n) d (if x.toNat ≤ b then 1 else 0) (.bytes b))
        ∧ (∀ b, s.mySlot n = .chunks b → (b &&& x = x → done (.syw d a n) d b (.chunks b)) ∧ done (.sytest d a n) d (if b &&& x = x then 1 else 0) (.chunks b)))
    ∧ (s.issues { reads := [a] } → (∀ b, s.mySlot n = .chunks b → done (.syclr a n) 0 0 (.chunks (b &&& ~~~x))) ∧ (∀ b, s.mySlot n = .bytes b → a = 0 → done (.syclr a n) 0 0 (.bytes 0)))
    ∧ (∀ size free tp fl tc pu ge, s.mySlot n = .ring size free tp fl tc pu ge →
        (s.issues { writes := [d] } → 0 < free → done (.rput d n) d (BitVec.ofNat 64 pu) (.ring size (free - 1) (tp + 1) fl tc ((pu + 1) % size) ge))
        ∧ (s.issues { writes := [d] } → 0 < fl → done (.rget d n) d (BitVec.ofNat 64 ge) (.ring size free tp (fl - 1) (tc + 1) pu ((ge + 1) % size)))
        ∧ (s.issues {} → scalarStalls s s.path = false → 0 < tp → done (.rdone n) 0 0 (.ring size free (tp - 1) (fl + 1) tc pu ge))
        ∧ (s.issues {} → scalarStalls s s.path = false → 0 < tc → done (.rrel n) 0 0 (.ring size (free + 1) tp fl (tc - 1) pu ge)))

/-- R224, R225, R226 to R230: a SYNC function on a slot number at or above SLOTS, on a mode it does not accept, or with a value out of range, SYINIT's word among them, raises SLOTRANGE with KIND, MODE and SLOT in TVAL; on an unconfigured slot, and while its condition does not hold, it waits; a SYWB whose phase has completed completes whatever its slot has become since. -/
def Obligations.SyncTrapsAndWaits : Prop :=
  ∀ (s : State) (d a : GReg) (n : BitVec 6), s.issues { writes := [d] } → s.issues {} →
    let all := [Instr.sya d n, .syw d a n, .sytest d a n, .syexp a n, .sywb d n, .syclr a n, .rget d n, .rrel n, .rput d n, .rdone n]
    (s.me.canTrap → ¬s.hasSlot n → ∀ i ∈ Instr.syinit a n :: all, Machine.exec i s = .next (s.traps 0x0B (slotVal 0 0 n)))
    ∧ (s.hasSlot n → s.mySlot n = .off → (∀ w, s.me.sywb = some w → w.got = none) → ∀ i ∈ all, Machine.exec i s = .next s.waits)
    ∧ (∀ ph p, s.me.sywb = some { d := d, slot := n.toNat, phase := ph, got := some p } →
        ∃ t, Machine.exec (.sywb d n) s = .next t ∧ s.me.loaded (t.team s.cur) d (if p then 1 else 0) ∧ sameMemory s t ∧ t.slots = s.slots)
    ∧ (s.hasSlot n → s.me.canTrap →
        let x := (s.me.reg a).toNat
        (x / 2 ^ 32 ≠ 0 ∨ x / 8 % 2 ^ 13 ≠ 0 ∨ 4 < x % 8 ∨ (x % 8 ∈ [0, 2, 3] ∧ x / 2 ^ 16 % 2 ^ 16 ≠ 0) ∨ (x % 8 ∈ [1, 4] ∧ x / 2 ^ 16 % 2 ^ 16 = 0) →
          Machine.exec (.syinit a n) s = .next (s.traps 0x0B (slotVal 2 (s.mySlot n).mode n))))
    ∧ (s.hasSlot n → s.me.canTrap →
        (∀ e k ph, s.mySlot n = .count e k ph →
          (∀ i ∈ [Instr.syclr a n, .rget d n, .rrel n, .rput d n, .rdone n], Machine.exec i s = .next (s.traps 0x0B (slotVal 1 1 n)))
          ∧ ((e : Int) + (s.me.reg a).toInt < 1 ∨ 65535 < (e : Int) + (s.me.reg a).toInt → Machine.exec (.syexp a n) s = .next (s.traps 0x0B (slotVal 2 1 n)))
          ∧ (2 ≤ (s.me.reg a).toNat → Machine.exec (.syw d a n) s = .next (s.traps 0x0B (slotVal 2 1 n)) ∧ Machine.exec (.sytest d a n) s = .next (s.traps 0x0B (slotVal 2 1 n)))
          ∧ ((s.me.reg a).toNat = (if ph then 0 else 1) → Machine.exec (.syw d a n) s = .next s.waits))
        ∧ (∀ b, s.mySlot n = .bytes b →
          (∀ i ∈ [Instr.sya d n, .syexp a n, .sywb d n, .rget d n, .rrel n, .rput d n, .rdone n], Machine.exec i s = .next (s.traps 0x0B (slotVal 1 2 n)))
          ∧ (a ≠ 0 → Machine.exec (.syclr a n) s = .next (s.traps 0x0B (slotVal 2 2 n)))
          ∧ (b < (s.me.reg a).toNat → Machine.exec (.syw d a n) s = .next s.waits))
        ∧ (∀ b, s.mySlot n = .chunks b →
          (∀ i ∈ [Instr.sya d n, .syexp a n, .sywb d n, .rget d n, .rrel n, .rput d n, .rdone n], Machine.exec i s = .next (s.traps 0x0B (slotVal 1 3 n)))
          ∧ (b &&& s.me.reg a ≠ s.me.reg a → Machine.exec (.syw d a n) s = .next s.waits))
        ∧ (∀ size free tp fl tc pu ge, s.mySlot n = .ring size free tp fl tc pu ge →
          (∀ i ∈ [Instr.sya d n, .syw d a n, .sytest d a n, .syexp a n, .sywb d n, .syclr a n], Machine.exec i s = .next (s.traps 0x0B (slotVal 1 4 n)))
          ∧ (tp = 0 → Machine.exec (.rdone n) s = .next (s.traps 0x0B (slotVal 2 4 n)))
          ∧ (tc = 0 → Machine.exec (.rrel n) s = .next (s.traps 0x0B (slotVal 2 4 n)))
          ∧ (free = 0 → Machine.exec (.rput d n) s = .next s.waits) ∧ (fl = 0 → Machine.exec (.rget d n) s = .next s.waits)))

/-! ## Fences, CSRs and system instructions -/

/-- R66: a CSR instruction on a listed number returns the old value to gd and, but for CSRR, writes the new one to the fields that can be written. -/
def Obligations.CsrResults : Prop :=
  ∀ (s : State) (d a : GReg) (c : BitVec 12) (old : W64), readCsr s s.cur c.toNat = some old → (fModeCsr c.toNat = true → s.inFMode) →
    let x := s.me.reg a
    let u : Use := { reads := [a], writes := [d] }
    let writes := fun (i : Instr) (v : W64) =>
      (fModeCsr c.toNat = false → Machine.exec i s = .next (s.completed u (fun t => (t.writeCsr c.toNat v).setReg d old)))
      ∧ (fModeCsr c.toNat = true → ∃ t, Machine.exec i s = .next t ∧ (t.team s.cur).reg d = (if d = 0 then 0 else old) ∧ (t.team s.cur).pc = s.me.pc + 4
        ∧ (c.toNat < 0x811 ∨ c.toNat = 0x812 ∨ c.toNat = 0x813 ∨ c.toNat = 0x830 → t.core (coreOf s.cur) = (s.core (coreOf s.cur)).writeCsr c.toNat v))
    (s.issues { writes := [d], spec := true } → Machine.exec (.csrr d c) s = .next (s.completed { writes := [d], spec := true } (fun t => t.setReg d old)))
    ∧ (s.issues u → writes (.csrw d a c) x ∧ writes (.csrs d a c) (old ||| x) ∧ writes (.csrc d a c) (old &&& ~~~x))

/-- R66, R320, R326 to R328: outside F-mode a CSR instruction on an F-mode number, ERET, TLBINV and CFLUSH raise PRIV with TVAL and TPC the instruction's PC; an unlisted CSR number raises ILLEGAL. -/
def Obligations.PrivilegeTraps : Prop :=
  ∀ (s : State) (d a b : GReg) (c : BitVec 12), s.me.canTrap → s.issues { writes := [d] } → s.issues {} →
    let csrs := [Instr.csrr d c, .csrw d a c, .csrs d a c, .csrc d a c]
    (¬s.inFMode → ∀ i ∈ [Instr.eret, .tlbinv a b, .cflush], Machine.exec i s = .next (s.traps 0x02 s.me.pc))
    ∧ (¬s.inFMode → fModeCsr c.toNat = true → readCsr s s.cur c.toNat ≠ none → ∀ i ∈ csrs, Machine.exec i s = .next (s.traps 0x02 s.me.pc))
    ∧ (readCsr s s.cur c.toNat = none → ∀ i ∈ csrs, Machine.exec i s = .next (s.traps 0x01 s.me.pc))

/-- R316, R325, R236, R237, R326 to R328, R314: the system instructions where they have their own effect. -/
def Obligations.SystemResults : Prop :=
  ∀ (s : State) (a b : GReg) (w : BitVec 11),
    let me := s.cur
    let core := coreOf s.cur
    (s.issues { writes := [1] } → (s.ctxOf me).service ≠ 0 →
      Machine.exec .syscall s = .next (s.putTeam me (fun m => { m with waiting := true, migr := some { kind := 5, target := (s.ctxOf me).service, link := some 1 } })))
    ∧ (s.issues { writes := [1] } → (s.ctxOf me).service = 0 → s.me.canTrap → Machine.exec .syscall s = .next (s.traps 0x11 s.me.pc))
    ∧ (s.issues { reads := [a] } → s.me.canTrap → Machine.exec (.trap a) s = .next (s.trapsAt 0x15 (s.me.reg a) (s.me.pc + 4)))
    ∧ (s.issues {} → s.me.canTrap → Machine.exec .bkpt s = .next (s.traps 0x0F 0))
    ∧ (s.me.canTrap → Machine.exec .illegalInstruction s = .next (s.traps 0x01 s.me.pc))
    ∧ (s.issues {} → ∃ t, Machine.exec .yield s = .next t ∧ s.me.loaded (t.team me) 0 0 ∧ s.onlyTeam t
        ∧ ∀ k, k ∈ (t.team me).yieldTo ↔ k ∈ coreTeams s core ∧ k ≠ me ∧ ready s k = true ∧ issuePrio s k ≤ issuePrio s me)
    ∧ (s.issues {} → (s.me.held = true ∨ s.me.lanes = []) → pathStalls s s.path = false → s.me.token = none → s.me.pending = [] →
        ∃ t, Machine.exec .exit s = .next t ∧ t = { s with teams := s.teams.put me (t.team me), hist := t.hist, ctxs := t.ctxs } ∧ s.sameCtxs t ∧ (t.team me).exited = true ∧ (t.team me).lanes = [] ∧ (t.team me).stack = [] ∧ (t.team me).g = s.me.g)
    ∧ (s.issues {} → (s.me.held = true ∨ s.me.lanes = []) → pathStalls s s.path = false → s.me.token ≠ none →
        Machine.exec .exit s = .next (((noteRelease s.path).final s).putTeam me (fun m => { m with waiting := true, migr := some { kind := 4, target := 0, link := none } })))
    ∧ (s.issues { reads := [a, b] } → (s.me.reg a).toNat % 16 = 0 → s.me.fetchReq = none → ∀ pl q,
        localPlan s (s.spaceOf me) (s.blockOf me) .write (s.me.reg a) 16 = .ok pl → localPlan s (s.spaceOf me) (s.blockOf me) .write (s.me.reg a + 8) 4 = .ok q → s.writesTo s.path q →
        ∃ t, Machine.exec (.fetchwork a b) s = .next t ∧ (t.team me).fetchReq = some { addr := s.me.reg a, sel := s.me.reg b } ∧ (t.team me).pc = s.me.pc + 4
          ∧ (∀ r, (t.team me).reg r = s.me.reg r) ∧ t.mem = piecesMem q.pieces [0, 0, 0, 0] s.mem ∧ (t.blockOf me).loc = piecesLoc q.pieces [0, 0, 0, 0] (s.blockOf me).loc)
    ∧ (s.inFMode → s.issues {} → ∃ t, Machine.exec .eret s = .next t ∧ (t.team me).pc = (s.core core).fepc ∧ t.core core = { s.core core with fcause := 0, inEvent := false }
        ∧ (∀ r, (t.team me).reg r = s.me.reg r) ∧ sameMemory s t ∧ ∀ c, c ≠ core → t.core c = s.core c)
    ∧ (s.inFMode → s.issues { reads := [a, b] } → drainRuns s = false → writesDue s = false → ∃ t, Machine.exec (.tlbinv a b) s = .next t ∧ s.me.loaded (t.team me) 0 0 ∧ sameMemory s t
        ∧ let asid := if b = 0 then (s.core core).fasid.toNat % 2 ^ 16 else (s.me.reg b).toNat % 2 ^ 16
          let every := decide (b ≠ 0) && (s.me.reg b).getLsbD 16
          let goes := fun (e : TlbEntry) =>
            if (s.me.reg a).getLsbD 0 then every || (e.asid == asid && !e.glob)
            else decide (e.page ≤ (s.me.reg a).toNat / 4096 * 4096) && decide ((s.me.reg a).toNat / 4096 * 4096 < e.page + e.size)
          (∀ c, (t.core c).tlb = (s.core c).tlb.filter (fun e => !goes e)) ∧ (∀ d, (t.die d).tlb = (s.die d).tlb.filter (fun e => !goes e)))
    ∧ (s.inFMode → s.issues {} → s.coh.asksNone (dieOf core) = false → Machine.exec .cflush s = .next s.waits)
    ∧ (s.inFMode → s.issues {} → dieOf core < 4 → s.coh.asksNone (dieOf core) = true → ∃ t, Machine.exec .cflush s = .next t ∧ s.me.loaded (t.team me) 0 0 ∧ sameMemory s t
        ∧ (∀ c, dieOf c = dieOf core → (t.core c).l1 = []) ∧ (∀ line, t.coh.held line (dieOf core) = none)
        ∧ (∀ line x k, s.coh.held line (dieOf core) = some (x, k) →
            t.coh.owner.get? line ≠ some (dieOf core) ∧ dieOf core ∉ t.coh.sharersOf line
            ∧ ∀ pa, pa / 256 = line → k.getLsbD (pa / 64 % 4) = true → memoryBehind t pa = readByte s pa))
    ∧ (s.issues {} → s.me.first = true → s.me.token ≠ none → widenOk (s.launchOf me).hdr.ardel w.toNat = true → Machine.exec (.widen w) s = .next (s.completed {} id))
    ∧ (s.issues {} → s.me.canTrap → (s.me.first = false ∨ s.me.token = none ∨ widenOk (s.launchOf me).hdr.ardel w.toNat = false) → Machine.exec (.widen w) s = .next (s.traps 0x01 s.me.pc))

/-- R320 to R322, R325, R353 to R355, R84: taking a trap. A cause of a team that has not ended, has a handler and no cause saves cause, value and resume PC, records the cursor for a lane cause and holds the queue, whose earlier results are written, and goes to the handler; a speculation ends, its checkpoint comes back, and TPC is the BSPEC; a SYWB whose phase has completed has completed, and TPC is the next word (the model's reading of R232: DEDUCED, log 20); no predicate, mask or stack entry changes. An asynchronous cause that arrives while a cause stands, or while the team is suspended or stopped, is held pending and changes nothing else; TRAP_DELIVERY at the boundary after TCAUSE has become zero delivers the pending cause with the lowest code.  A PC-match register that matches the PC of a fetch raises BKPT with TVAL 1 + n, the lowest of several, but not the one that fired there at the fetch of the handler's return.  A watchpoint fires on the transitions of the COUNT slot that it names: with ACTION 0 the team whose arrival it was takes WATCH after its instruction, with ACTION 2 every team of the block stops. -/
def Obligations.TrapEntry : Prop :=
  (∀ (s : State) (k c : Nat) (v tpc : W64) (lane async : Bool),
      let m := s.team k
      let t := ((takeTrap k c v tpc lane async).final s).team k
      m.exited = false → m.thandler ≠ 0 → m.tcause = 0 → (async = true → m.suspended = none ∧ m.stopped = false) →
        t.tcause = BitVec.ofNat 32 c ∧ t.tval = v ∧ t.pc = m.thandler ∧ t.tbatch = (if lane then m.cursor true else 0)
        ∧ ((∀ w, m.sywb = some w → w.got = none) →
            t.tpc = (match m.spec with | some p => p.pc | none => tpc)
            ∧ t.g = (match m.spec with | some p => p.g | none => m.g) ∧ t.q = (match m.spec with | some p => p.q | none => m.q))
        ∧ (∀ d n ph q, m.sywb = some { d := d, slot := n, phase := ph, got := some q } → m.spec = none →
            t.tpc = m.pc + 4 ∧ (∀ r, t.reg r = if r = 0 then 0 else if r = d then (if q then 1 else 0) else m.reg r))
        ∧ t.v = (if lane then m.pend.foldl (fun v p => Sparse.setAll v p.vals) m.v else m.v)
        ∧ t.spec = none ∧ t.waiting = false ∧ t.sywb = none ∧ t.thandler = m.thandler ∧ t.p = m.p ∧ t.m = m.m ∧ t.stack = m.stack ∧ t.lanes = m.lanes ∧ t.pending = m.pending)
  ∧ (∀ (s : State) (k : Nat),
      (∀ c v tpc lane, (s.team k).exited = false → (s.team k).tcause ≠ 0 ∨ (s.team k).suspended ≠ none ∨ (s.team k).stopped = true →
        (takeTrap k c v tpc lane true).final s = s.putTeam k (fun m => { m with pending := m.pending ++ [{ code := c, val := v, lane := lane }] }))
      ∧ (∀ c, c ∈ (s.team k).pending → (∀ x ∈ (s.team k).pending, c.code ≤ x.code) → (∀ x ∈ (s.team k).pending, x.code = c.code → x = c) → (s.team k).thandler ≠ 0 →
          (s.team k).tcause = 0 → (s.team k).exited = false → (s.team k).stopped = false → (s.team k).suspended = none → (s.team k).spec = none →
          (∀ w, (s.team k).sywb = some w → w.got = none) →
          ∃ t, Machine.exec (.trapDelivery k) s = .next t ∧ (t.team k).tcause = BitVec.ofNat 32 c.code ∧ (t.team k).tval = c.val ∧ (t.team k).tpc = (s.team k).pc
            ∧ (t.team k).pc = (s.team k).thandler ∧ (t.team k).pending = (s.team k).pending.erase c ∧ (t.team k).g = (s.team k).g))
  ∧ (∀ (s : State) (k cnt : Nat) (n : Fin 4), (s.teams.get? k).isSome = true → (s.team k).canTrap → (s.team k).pending = [] →
      let m := s.team k
      let matched := fun (i : Fin 4) => m.pcmatch[i].getLsbD 63 = true ∧ m.pcmatch[i].extractLsb' 2 55 = m.pc.extractLsb' 2 55 ∧ m.fired ≠ some (i.val, m.pc, 0)
      (matched n ∧ (∀ i, i < n → ¬matched i) → ∃ t, Machine.exec (.scalarFetch k cnt) s = .next t ∧ (t.team k).tcause = 0x0F ∧ (t.team k).tval = BitVec.ofNat 64 (1 + n.val)
        ∧ (t.team k).tpc = m.pc ∧ (t.team k).pc = m.thandler ∧ (t.team k).g = m.g ∧ (t.team k).trail = m.trail))
  ∧ (∀ (s : State) (core blk n : Nat) (arrival flip : Bool) (x y : Slot) (k act : Nat) (v : W64),
      (k, act, v) ∈ firings s core blk n arrival flip x y ↔ ∃ h : k < 4,
        let w := (s.core core).watch[k]
        w.getLsbD 31 = true ∧ w.toNat % 64 = n ∧ (∃ m, s.teams.get? (32 * core + w.toNat / 2 ^ 13 % 32) = some m ∧ m.blk = blk)
        ∧ ((w.toNat / 2 ^ 24 % 4 = 0 ∧ arrival = true) ∨ (w.toNat / 2 ^ 24 % 4 = 1 ∧ arrival = true ∧ flip = true) ∨ (w.toNat / 2 ^ 24 % 4 = 2 ∧ flip = true))
        ∧ act = w.toNat / 2 ^ 26 % 4 ∧ v = watchVal x y (w.toNat / 2 ^ 24 % 4) k n)
  ∧ (∀ (s : State) (d : GReg) (n : BitVec 6) (e a : Nat) (ph : Bool) (w : Nat) (v : W64), s.hasSlot n → s.issues { writes := [d] } → scalarStalls s s.path = false →
      s.mySlot n = .count e a ph → (s.teams.get? s.cur).isSome = true →
      let fs := firings s (coreOf s.cur) s.me.blk n.toNat true (e ≤ a + 1) (s.mySlot n) (arrived e a ph)
      (fs = [(w, 0, v)] → s.me.canTrap → s.me.suspended = none → s.me.stopped = false → ∃ t, Machine.exec (.sya d n) s = .next t
        ∧ (t.team s.cur).tcause = 0x10 ∧ (t.team s.cur).tval = v ∧ (t.team s.cur).tpc = s.me.pc + 4 ∧ (t.team s.cur).pc = s.me.thandler
        ∧ (∀ r, (t.team s.cur).reg r = if r = 0 then 0 else if r = d then (if ph then 1 else 0) else s.me.reg r) ∧ t.slot s.me.blk n.toNat = arrived e a ph)
      ∧ (fs = [(w, 2, v)] → ∃ t, Machine.exec (.sya d n) s = .next t
        ∧ ∀ j ∈ (s.block s.me.blk).teams, (t.team j).stopped = true ∨ (t.team j).exited = true))

/-! ## Lane instructions (R134 to R156, R181 to R189) -/

/-- R140, R141, R152, R153: the lane integer, move and predicate instructions, in every active lane, from the operands of R134. -/
def Obligations.LaneIntegerResults : Prop :=
  ∀ (s : State) (o : LaneOps) (b : Batch),
    let ty := o.ty.toNat
    let w := Fp.width ty
    let gives := fun (op : Nat) (i : Instr) (f : LaneRun → LaneOut) =>
      s.lanePerforms op o b → Machine.exec i s = .next (s.laneAfter op i o b (fun _ _ => occupancy op o) (f (s.laneRun op o b)))
    let pat := fun (f : Nat → Nat → Nat) (x : LaneRun) => laneResults x o ty (fun l => (f (x.t.lane ty o.va.toNat l) (bOperand x.t x.b o ty l) % 2 ^ w, []))
    let int := fun (f : Int → Int → Int → Int) (x : LaneRun) => laneResults x o ty (fun l =>
      let r := f (intOf ty (x.t.lane ty o.va.toNat l)) (intOf ty (bOperand x.t x.b o ty l)) (intOf ty (x.t.lane ty o.vc.toNat l))
      (((if o.sat then max (loOf ty) (min (hiOf ty) r) else r) % 2 ^ w).toNat, []))
    let pred := fun (f : LaneRun → Nat → Bool) (x : LaneRun) => lanePredicate x o (f x)
    gives 0x000 (.mov o) (pat (fun _ b => b)) ∧ gives 0x001 (.iadd o) (int (fun a b _ => a + b)) ∧ gives 0x002 (.isub o) (int (fun a b _ => a - b))
    ∧ gives 0x003 (.imul o) (int (fun a b _ => a * b)) ∧ gives 0x004 (.imad o) (int (fun a b c => a * b + c)) ∧ gives 0x005 (.imulh o) (int (fun a b _ => a * b / 2 ^ w))
    ∧ gives 0x006 (.imin o) (int (fun a b _ => min a b)) ∧ gives 0x007 (.imax o) (int (fun a b _ => max a b)) ∧ gives 0x008 (.iabs o) (int (fun a _ _ => |a|))
    ∧ gives 0x009 (.vAnd o) (pat (fun a b => a &&& b)) ∧ gives 0x00A (.vOr o) (pat (fun a b => a ||| b)) ∧ gives 0x00B (.vXor o) (pat (fun a b => a ^^^ b))
    ∧ gives 0x00C (.not o) (pat (fun a _ => 2 ^ w - 1 - a % 2 ^ w)) ∧ gives 0x00D (.vShl o) (pat (fun a b => a * 2 ^ (b % 2 ^ w % w)))
    ∧ gives 0x00E (.vShr o) (pat (fun a b => a % 2 ^ w / 2 ^ (b % 2 ^ w % w)))
    ∧ gives 0x00F (.vSra o) (fun x => laneResults x o ty (fun l =>
        ((signedOf w (x.t.lane ty o.va.toNat l) / 2 ^ (bOperand x.t x.b o ty l % 2 ^ w % w) % 2 ^ w).toNat, [])))
    ∧ gives 0x010 (.vPopc o) (pat (fun a _ => ((List.range w).filter a.testBit).length))
    ∧ gives 0x011 (.vClz o) (pat (fun a _ => (((List.range w).map a.testBit).reverse.takeWhile (! ·)).length))
    ∧ gives 0x012 (.icmp o) (pred (fun x l =>
        let p := intOf ty (x.t.lane ty o.va.toNat l)
        let q := intOf ty (bOperand x.t x.b o ty l)
        match o.mode.toNat with
        | 0 => decide (p = q)
        | 1 => decide (p ≠ q)
        | 2 => decide (p < q)
        | 3 => decide (p ≤ q)
        | 4 => decide (q < p)
        | _ => decide (q ≤ p)))
    ∧ gives 0x013 (.sel o) (fun x => laneResults x o ty (fun l =>
        (if LaneMask.bit (x.t.p[o.vc.toNat % 8]) l then x.t.lane ty o.va.toNat l else bOperand x.t x.b o ty l, [])))
    ∧ gives 0x014 (.laneid o) (fun x => laneResults x o 1 (fun l => (l, [])))
    ∧ gives 0x1C0 (.plog o) (pred (fun x l =>
        let p := LaneMask.bit (x.t.p[o.va.toNat % 8]) l
        let q := LaneMask.bit (x.t.p[o.vb.toNat % 8]) l
        match o.mode.toNat with
        | 0 => p && q
        | 1 => p || q
        | 2 => xor p q
        | 3 => p && !q
        | 4 => !p
        | _ => p))
    ∧ gives 0x1C1 (.pset o) (pred (fun x l =>
        match o.mode.toNat with
        | 0 => false
        | 1 => true
        | 2 => (x.t.vreg o.va.toNat l).getLsbD 0
        | _ => x.t.vreg o.va.toNat l != 0))

/-- R142 to R144, R148, R154 to R156: the lane floating-point, special-function, dot-product, compatibility and microcode instructions, in every active lane. -/
def Obligations.LaneFloatResults : Prop :=
  ∀ (s : State) (o : LaneOps) (b : Batch) (k : BitVec 5),
    let ty := o.ty.toNat
    let f := Fp.ofCode ty
    let rm := LaneOps.rmode o
    let gives := fun (op : Nat) (i : Instr) (out : LaneRun → LaneOut) =>
      s.lanePerforms op o b → Machine.exec i s = .next (s.laneAfter op i o b (fun _ _ => occupancy op o) (out (s.laneRun op o b)))
    let fp := fun (g : Nat → Nat → Nat → Fp.Res) (x : LaneRun) => laneResults x o ty (fun l =>
      let r := g (x.t.lane ty o.va.toNat l) (bOperand x.t x.b o ty l) (x.t.lane ty o.vc.toNat l)
      (r.bits, countsOf r f))
    let one := fun (g : Fp.Fmt → Rm → Fp.Num → Fp.Res) => fp (fun a _ _ => g f rm (f.decode a))
    let dot := fun (n : Nat) (x : LaneRun) => laneResults x o 1 (fun l =>
      let r := dotRes o n (x.t.vreg o.va.toNat l).toNat (bWord x.t x.b o l).toNat (x.t.vreg o.vc.toNat l).toNat
      (r.bits, r.counts))
    gives 0x040 (.vFadd o) (fp (fun a b _ => Fp.deliver f rm (Fp.add rm (f.decode a) (f.decode b))))
    ∧ gives 0x041 (.vFsub o) (fp (fun a b _ => Fp.deliver f rm (Fp.add rm (f.decode a) (Fp.neg (f.decode b)))))
    ∧ gives 0x042 (.vFmul o) (fp (fun a b _ => Fp.deliver f rm (Fp.mul (f.decode a) (f.decode b))))
    ∧ gives 0x043 (.vFfma o) (fp (fun a b c => Fp.deliver f rm (Fp.add rm (Fp.mul (f.decode a) (f.decode b)) (f.decode c))))
    ∧ gives 0x044 (.vFmin o) (fp (fun a b _ => Fp.minMax f false false a b)) ∧ gives 0x045 (.vFmax o) (fp (fun a b _ => Fp.minMax f true false a b))
    ∧ gives 0x046 (.vFminn o) (fp (fun a b _ => Fp.minMax f false true a b)) ∧ gives 0x047 (.vFmaxn o) (fp (fun a b _ => Fp.minMax f true true a b))
    ∧ gives 0x048 (.vFcmp o) (fun x => lanePredicate x o (fun l => fcmpHolds o.mode.toNat (f.decode (x.t.lane ty o.va.toNat l)) (f.decode (bOperand x.t x.b o ty l))))
    ∧ gives 0x049 (.frnd o) (one Fp.roundInt)
    ∧ gives 0x04A (.fabs o) (fp (fun a _ _ => if Fp.isNan (f.decode a) then ⟨f.qnan, [.nan]⟩ else ⟨a % 2 ^ (f.ebits + f.fbits), []⟩))
    ∧ gives 0x04B (.fneg o) (fp (fun a _ _ => if Fp.isNan (f.decode a) then ⟨f.qnan, [.nan]⟩
        else ⟨(if f.signBit a then 0 else 2 ^ (f.ebits + f.fbits)) + a % 2 ^ (f.ebits + f.fbits), []⟩))
    ∧ gives 0x04C (.vFdiv o) (fp (fun a b _ => Fp.div f rm (f.decode a) (f.decode b)))
    ∧ gives 0x080 (.rcp o) (one Fp.rcp) ∧ gives 0x081 (.rsq o) (one Fp.rsq) ∧ gives 0x082 (.sqrt o) (one Fp.sqrt) ∧ gives 0x083 (.exp2 o) (one Fp.exp2)
    ∧ gives 0x084 (.log2 o) (one Fp.log2) ∧ gives 0x085 (.sin o) (one (fun f r => Fp.sinCos f r false)) ∧ gives 0x086 (.cos o) (one (fun f r => Fp.sinCos f r true))
    ∧ gives 0x100 (.dot4 o) (dot 4) ∧ gives 0x101 (.dot2 o) (dot 2)
    ∧ gives 0x3C0 (.arcp o) (fp (fun a _ _ => Fp.ardel Fp.rcp (Fp.f32.decode a))) ∧ gives 0x3C1 (.arsq o) (fp (fun a _ _ => Fp.ardel Fp.rsq (Fp.f32.decode a)))
    ∧ gives 0x3C2 (.aexp o) (fp (fun a _ _ => Fp.ardel Fp.exp2 (Fp.f32.decode a)))
    ∧ gives (0x3E0 + k.toNat) (.ucode k o) (fun x =>
      let r := laneResults x o ty (fun l =>
        let minor := ((s.die (dieOf (coreOf s.cur))).ops.get? (0x3E0 + k.toNat)).getD 0
        let fields := ty + 16 * o.mode.toNat + 256 * o.rm.toNat + (if o.sat then 1024 else 0)
        let a := BitVec.ofNat 64 (x.t.lane ty o.va.toNat l)
        let b := BitVec.ofNat 64 (bOperand x.t x.b o ty l)
        let c := BitVec.ofNat 64 (x.t.lane ty o.vc.toNat l)
        let counts := Config.ucodeEvents minor (0x3E0 + k.toNat) fields a b c
        ((Config.ucode minor (0x3E0 + k.toNat) fields a b c).toNat,
          if Fp.isFloat ty || ty == 14 then eventNums ty ((if counts.getLsbD 0 then [.nan] else []) ++ (if counts.getLsbD 1 then [.inf] else [])
            ++ (if counts.getLsbD 2 then [.over] else []) ++ (if counts.getLsbD 3 then [.under] else [])) else []))
      if (s.laneUses (0x3E0 + k.toNat) o).getLsbD 3 then r else { r with regs := [] })

/-- R145 to R147, R149 to R152: conversion and packing, and the instructions that read other lanes: reductions, scans, votes and movements. -/
def Obligations.CrossLaneResults : Prop :=
  ∀ (s : State) (o : LaneOps) (b : Batch),
    let ty := o.ty.toNat
    let rm := LaneOps.rmode o
    let ardel := (s.launchOf s.cur).hdr.ardel
    let g := groupSize ardel s.me.width
    let gives := fun (op : Nat) (i : Instr) (out : LaneRun → LaneOut) =>
      s.lanePerforms op o b → Machine.exec i s = .next (s.laneAfter op i o b (fun _ _ => occupancy op o) (out (s.laneRun op o b)))
    let all := fun (x : LaneRun) (ls : List Nat) => reduceAll ty o.mode.toNat o.sat rm (ls.map (x.t.lane ty o.va.toNat))
    let toReg := fun (v : W64) => ({ g := some (LaneOps.gd o, v) } : LaneOut)
    let move := fun (src : LaneRun → Nat → Option Nat) (x : LaneRun) => laneResults x o ty (fun l =>
      (match src x l with | some k => x.t.source ty o.va.toNat k | none => 0, []))
    gives 0x0C0 (.cvt o) (fun x => laneResults x o ty (fun l =>
      let r := convert o.mode.toNat ty rm o.sat (x.t.lane o.mode.toNat o.va.toNat l)
      (r.bits, r.counts)))
    ∧ gives 0x0C1 (.packx o) (fun x =>
        let groups := ((x.lanes.map (· / g)).eraseDups).map (fun j => (j, packGroup o ((groupLanes g (g * j)).map (x.t.source 1 o.va.toNat))))
        { laneResults x o 1 (fun l => (match groups.find? (fun q => q.1 == l / g) with | some q => q.2.1.getD (l % g) 0 | none => 0, [])) with
          events := groups.flatMap (fun q => q.2.2) })
    ∧ gives 0x0C2 (.unpackx o) (fun x => laneResults x o ty (fun l =>
        let word := fun p => x.t.source 1 o.va.toNat (l / g * g + p)
        let r := if o.mode = 14 then unpackBlockElement o g word (l % g) else unpackElement o word (l % g)
        (r.bits, r.counts)))
    ∧ gives 0x102 (.reduce o) (fun x => { toReg (toG ty (all x x.lanes).bits) with events := (all x x.lanes).counts })
    ∧ gives 0x103 (.scan o) (fun x => laneResults x o ty (fun l =>
        let r := all x (x.lanes.filter (fun k => k / (if ardel then 16 else 1024) == l / (if ardel then 16 else 1024) && (if o.vc = 1 then decide (k < l) else decide (k ≤ l))))
        (r.bits, r.counts)))
    ∧ gives 0x104 (.ballot o) (fun x => toReg (BitVec.ofNat 64
        ((x.lanes.filter (fun l => l / 64 == o.mode.toNat && x.t.vreg o.va.toNat l != 0)).map (fun l => 2 ^ (l % 64))).sum))
    ∧ gives 0x105 (.vote o) (fun x =>
        let vs := x.lanes.map (x.t.lane ty o.va.toNat)
        toReg (match o.mode.toNat with
          | 0 => if ∀ v ∈ vs, v ≠ 0 then 1 else 0
          | 1 => if ∃ v ∈ vs, v ≠ 0 then 1 else 0
          | 2 => if ∀ v ∈ vs, ∀ u ∈ vs, v = u then 1 else 0
          | _ => BitVec.ofNat 64 (vs.filter (fun v => decide (v ≠ 0))).length))
    ∧ gives 0x140 (.perm o) (move (fun x l => some (l / g * g + (bWord x.t x.b o l).toNat % g)))
    ∧ gives 0x141 (.bcast o) (move (fun x l =>
        let k := (bWord x.t x.b o l).toNat
        if ardel then some (l / 16 * 16 + k % 16) else if k < s.me.width then some k else none))
    ∧ gives 0x142 (.lshift o) (move (fun x l =>
        let p : Int := (l % g : Nat) - (bWord x.t x.b o l).toInt
        if o.mode = 1 then some (l / g * g + (p % g).toNat) else if 0 ≤ p ∧ p < g then some (l / g * g + p.toNat) else none))

/-- R84, R88, R89, R134, R135, R47: what a performed lane instruction leaves: with LOOK 0 its results stand in its destination in each lane that has one, but where an earlier result in whose window it lies has been written, and everywhere else lane registers keep their words; with a window they wait; the cursor moves one on, and the windows with it; registers g, q, m, stack and PC stay; the g result waits for completion; outside the team nothing changes but lane-cycle counts with the bin that each pipe used last, the registers of the team that lie in the backing store, which go through L1 (R49), the teams of its row group that its pass carries, which it only marks (the model's choice: DESIGN CHOICE, log 27; whose bin counts the pass, log 68), event counts of the launch and, where a threshold is set, what an FPEVENT posting writes. A lane result of format TY reads back as its bits, in its own lane, and words of other lanes and of other registers are not written. -/
def Obligations.LaneWriteBack : Prop :=
  (∀ (s : State) (op : Nat) (i : Instr) (o : LaneOps) (b : Batch) (bs : List Batch) (cycles : List LaneRun → Nat → Nat) (r : LaneOut),
      i.laneOp = some (op, o) → s.me.lanes = b :: bs → b.left ≠ [] →
      let a := s.laneAfter op i o b cycles r
      let t := a.team s.cur
      let u := (s.settledFor op o).me
      let skips := if b.left.length = 1 then b.skips else 0
      let inside := u.pend.filter (fun p => p.before = 0 ∧ p.passed < p.window)
      t = { u with v := t.v, p := t.p, lanes := t.lanes, pend := t.pend, laneFaultAt := none, carried := false, laneWaiting := false }
      ∧ t.lanes = { b with idx := b.idx + 1, left := b.left.tail, gw := b.gw ++ (match r.g with | some x => [x] | none => []) } :: bs
      ∧ (o.look = 0 → (r.regs.map Prod.fst).Nodup →
          (∀ e ∈ r.regs, Sparse.get t.v e.1 = if ∃ p ∈ inside, e.1 ∈ p.wrote then Sparse.get u.v e.1 else e.2)
          ∧ ∀ k, k ∉ r.regs.map Prod.fst → Sparse.get t.v k = Sparse.get u.v k)
      ∧ (o.look ≠ 0 → t.v = u.v ∧ ∃ p ∈ t.pend, p.window = o.look.toNat ∧ p.dests = laneWrites op o (s.laneUses op o) ∧ p.before = 0 ∧ p.passed = skips ∧ p.idx = b.idx ∧ p.own = 0
          ∧ ∀ e, e ∈ p.vals ↔ e ∈ r.regs ∧ ∀ q ∈ inside, e.1 ∉ q.wrote ∧ e.1 ∉ q.vals.map Prod.fst)
      ∧ (∀ q ∈ u.pend, q.vals ≠ [] → { q with before := q.before - (1 + skips), passed := q.passed + (1 + skips - q.before) } ∈ t.pend)
      ∧ (∀ n xs, r.pred = some (n, xs) → (xs.map Prod.fst).Nodup → (∀ x ∈ xs, x.1 < 1024 → LaneMask.bit t.p[n.toNat] x.1 = x.2)
          ∧ (∀ l, l ∉ xs.map Prod.fst → LaneMask.bit t.p[n.toNat] l = LaneMask.bit u.p[n.toNat] l) ∧ ∀ (k : Fin 8), k.val ≠ n.toNat → t.p[k] = u.p[k])
      ∧ (r.pred = none → t.p = u.p)
      ∧ a.blocks = s.blocks ∧ a.slots = s.slots ∧ a.queues = s.queues ∧ s.sameCtxs a ∧ ((s.launchOf s.cur).hdr.vregs ≤ s.me.pregs → a.ctxs = s.ctxs) ∧ a.harts = s.harts
      ∧ (∀ k, k ≠ s.cur → { a.team k with carried := (s.team k).carried } = s.team k)
      ∧ (∀ c, { a.core c with lcyc := (s.core c).lcyc, lastBins := (s.core c).lastBins, l1 := (s.core c).l1 } = s.core c)
      ∧ ((∀ x ∈ (s.launchOf s.cur).thr, x = 0) → sameMemory s a ∧ a.seq = s.seq))
  ∧ (∀ (t : Team) (ty r l x : Nat), ty ≤ 13 → l < 1024 →
      let t' := { t with v := Sparse.setAll t.v (laneWords ty r l x) }
      t'.lane ty r l = x % 2 ^ Fp.width ty ∧ ∀ r' l', l' < 1024 → (l' ≠ l ∨ (r' ≠ r ∧ (Fp.width ty = 64 → r' ≠ r + 1))) → t'.vreg r' l' = t.vreg r' l')

/-- R181 to R186, R188, R164, R161: a lane load or store whose lanes all pass the checks of R171, with its lines there and no earlier write of the team in its way, is performed: loads write the extended values of every active lane, as what its lane queue has acquired lets it see them, stores leave in each byte what the highest lane writes there and no other byte of memory changed; a load changes no memory. -/
def Obligations.LaneMemoryResults : Prop :=
  ∀ (s : State) (o : LaneOps) (b : Batch),
    let n := tyBytes o
    let near := fun (op : Nat) => s.settledFor op o
    let run := fun (op : Nat) => s.laneRun op o b
    let lines := globalCycles (fun x l => globalLane x o false l)
    let banks := localCycles (s.blockOf s.cur).ltab.length (fun x l => shortLane x o l) n
    let loads := fun (op : Nat) (i : Instr) (cyc : List LaneRun → Nat → Nat) (ps : List (Nat × Plan)) =>
      s.lanePerforms op o b → s.loads s.path s.me.blk (wholePlan ps) →
      ∃ t, Machine.exec i s = .next t ∧ t.team s.cur = (s.laneAfter op i o b cyc
          { regs := ps.flatMap (fun p => laneWords o.ty.toNat o.vd.toNat p.1 (leNat (planBytes s (.lanes s.cur) s.me.blk p.2))) }).team s.cur
        ∧ sameMemory s t ∧ t.blocks = s.blocks
    let stores := fun (op : Nat) (i : Instr) (cyc : List LaneRun → Nat → Nat) (ps : List (Nat × Plan)) =>
      let bytes := fun l => leBytes n (bOperand (run op).t b o o.ty.toNat l)
      s.lanePerforms op o b → s.writesTo s.path (wholePlan ps) →
      ∃ t, Machine.exec i s = .next t ∧ t.team s.cur = (s.laneAfter op i o b cyc {}).team s.cur
        ∧ (∀ a, readByte t a = Sparse.get (lanesMem ps bytes s.mem) a)
        ∧ (∀ a, Sparse.get (t.blockOf s.cur).loc a = Sparse.get (lanesLoc ps bytes (s.blockOf s.cur).loc) a)
        ∧ (∀ a, Sparse.get (t.blockOf s.cur).ob a = Sparse.get (lanesOb ps bytes (s.blockOf s.cur).ob) a)
        ∧ (∀ a, (∀ p ∈ ps, ¬p.2.touches a) → readByte t a = readByte s a) ∧ (∀ k, k ≠ s.me.blk → t.block k = s.block k)
    (∀ ps, globalLanes (near 0x180) (run 0x180).lanes .read (globalLane (run 0x180) o false) n = .ok ps → loads 0x180 (.ldg o) lines ps)
    ∧ (∀ ps, localLanes (near 0x182) (run 0x182).lanes .read (shortLane (run 0x182) o) n = .ok ps → loads 0x182 (.ldl o) banks ps)
    ∧ (∀ ps, obLanes (near 0x184) (run 0x184).lanes o (shortLane (run 0x184) o) n = .ok ps → loads 0x184 (.ldb o) (fun _ _ => 1) ps)
    ∧ (∀ ps, globalLanes (near 0x181) (run 0x181).lanes .write (globalLane (run 0x181) o false) n = .ok ps → stores 0x181 (.stg o) lines ps)
    ∧ (∀ ps, globalLanes (near 0x188) (run 0x188).lanes .write (globalLane (run 0x188) o false) n = .ok ps → stores 0x188 (.sto o) lines ps)
    ∧ (∀ ps, localLanes (near 0x183) (run 0x183).lanes .write (shortLane (run 0x183) o) n = .ok ps → stores 0x183 (.stl o) banks ps)
    ∧ (∀ ps, obLanes (near 0x185) (run 0x185).lanes o (shortLane (run 0x185) o) n = .ok ps → stores 0x185 (.stb o) (fun _ _ => 1) ps)

/-- R187, R163, R173, R189, R286: LDT reads tile words, as any word is read, once no earlier MMA or MZERO of its team on those tiles is unfinished; the lane atomics take their lanes in order, each on the word as the lanes before left it, and return the old words; an acquire among them is remembered for the team's scalar accesses. -/
def Obligations.LaneTileAndAtomicResults : Prop :=
  ∀ (s : State) (o : LaneOps) (b : Batch),
    let n := tyBytes o
    let run := fun (op : Nat) => s.laneRun op o b
    let e := fun l => (run 0x189).t.vreg o.va.toNat l
    let atomics := fun (op : Nat) (i : Instr) (cyc : List LaneRun → Nat → Nat) (ps : List (Nat × Plan)) =>
      s.lanePerforms op o b → s.me.partDone = { lanes := [], regs := [], events := [] } → s.writesTo s.path (wholePlan ps) →
      let r := lanesAtomic (run op) o ps { mem := s.mem, loc := (s.blockOf s.cur).loc, out := {} }
      ∃ t, Machine.exec i s = .next t
        ∧ t.team s.cur = { (s.laneAfter op i o b cyc r.out).team s.cur with
            laneAcqs := s.me.laneAcqs ++ (if (MemOrder.ofBits o.rm).acquires then [(b.order, s.writes)] else []) }
        ∧ ((∀ x ∈ (s.launchOf s.cur).thr, x = 0) → (∀ a, readByte t a = Sparse.get r.mem a) ∧ (∀ a, (∀ p ∈ ps, ¬p.2.touches a) → readByte t a = readByte s a))
        ∧ (∀ a, Sparse.get (t.blockOf s.cur).loc a = Sparse.get r.loc a) ∧ (t.blockOf s.cur).ob = (s.blockOf s.cur).ob
    (s.lanePerforms 0x189 o b → (∀ l ∈ (run 0x189).lanes, (e l).toNat < 65536 ∧ tileOf o (e l) < (s.launchOf s.cur).hdr.tiles) →
      (∀ m ∈ (s.core (coreOf s.cur)).queue, m.team = s.cur → m.op.isDrain = true ∨ cursorPlace (run 0x189).t < m.behind
        ∨ ∀ t ∈ m.op.tiles, t ∉ (run 0x189).lanes.map (fun l => tileOf o (e l))) →
      ∃ t, Machine.exec (.ldt o) s = .next t ∧ t = { s.laneAfter 0x189 (.ldt o) o b (fun _ _ => 1)
        { regs := (run 0x189).lanes.map (fun l => (1024 * o.vd.toNat + l, tileSeen s (.lanes s.cur) s.me.blk (4096 * tileOf o (e l) + (e l).toNat % 4096))) } with hist := t.hist })
    ∧ (∀ p blk w, s.hist = [] → tileSeen s p blk w = Sparse.get (s.block blk).tiles w)
    ∧ (∀ ps, globalLanes (s.settledFor 0x186 o) (run 0x186).lanes .write (globalLane (run 0x186) o true) n = .ok ps →
        atomics 0x186 (.atomg o) (globalCycles (fun x l => globalLane x o true l)) ps)
    ∧ (∀ ps, localLanes (s.settledFor 0x187 o) (run 0x187).lanes .write (shortLane (run 0x187) o) n = .ok ps →
        atomics 0x187 (.atoml o) (localCycles (s.blockOf s.cur).ltab.length (fun x l => shortLane x o l) n) ps)

/-- R85, R86, R88, R91: BATCH_COMPLETE of a batch all of whose instructions, and whose writes, have been performed takes it off the queue and writes its g results in order; a waiting lane result is written pass by pass; an arriving scalar result ends its register's interlock. R232, R68 to R70: a wake ends a wait; a fetch from a slot brings the words from the PC on; a reload of overlay 0 makes a slot hold its words. -/
def Obligations.CompletionEvents : Prop :=
  ∀ (s : State) (k : Nat),
    (∀ b bs, (s.team k).lanes = b :: bs → b.left = [] → laneStalls s (.team k) b.order = false → ∃ t, Machine.exec (.batchComplete k) s = .next t
      ∧ (t.team k).lanes = bs ∧ (t.team k).pc = (s.team k).pc ∧ (t.team k).m = (s.team k).m ∧ (t.team k).p = (s.team k).p ∧ sameMemory s t
      ∧ ∀ r : GReg, (t.team k).reg r = (if r = 0 then 0 else match b.gw.reverse.find? (fun x => x.1 == r) with | some x => x.2 | none => (s.team k).reg r))
    ∧ (∀ r, (s.teams.get? k).isSome = true → Machine.exec (.scalarResultReturn k r) s = .next (s.putTeam k (fun m => { m with await := m.await.filter (fun x => x != r) })))
    ∧ (∀ n p j, (s.teams.get? k).isSome = true → (s.team k).pend[n]? = some p → (p.vals.map Prod.fst).Nodup → ∃ t, Machine.exec (.laneResultWrite k n j) s = .next t
      ∧ t = { s with teams := s.teams.put k (t.team k), ctxs := t.ctxs } ∧ s.sameCtxs t ∧ ∀ e ∈ p.vals, e.1 % 1024 / 32 = j → Sparse.get (t.team k).v e.1 = e.2)
    ∧ Machine.exec (.syncWaitWake k) s = .next (if (s.teams.get? k).isSome then s.putTeam k (fun m => { m with waiting := false }) else s)
    ∧ (∀ n j o, (s.teams.get? k).isSome = true → ((s.team k).tcause ≠ 0 ∨ (s.team k).pending = []) → pcMatched (s.team k) = none → slotOf? s k (s.team k).pc = some j → (s.core (coreOf k)).slots[j]? = some o →
      ∃ t, Machine.exec (.scalarFetch k n) s = .next t ∧ t.team k = { s.team k with ahead := (t.team k).ahead } ∧ (∀ i, i ≠ k → t.team i = s.team i)
      ∧ (1 ≤ n → ((t.team k).ahead.head?).map (fun w => (w.pc, w.word)) = some ((s.team k).pc, o.word ((s.team k).pc.toNat - o.base.toNat)))
      ∧ (∀ w ∈ (t.team k).ahead, w.word = o.word (w.pc.toNat - o.base.toNat)) ∧ (t.team k).ahead.length ≤ min n 16 ∧ sameMemory s t ∧ t.blocks = s.blocks)
    ∧ (∀ j x r, let v := overlay0 s k
      let p := s.spaceOf k
      (s.teams.get? k).isSome = true → reloadSlot s k = some j → (s.core (coreOf k)).slots[j]? = some x → ¬(x.valid = true ∧ x.asid = p.asid ∧ x.base = v.base ∧ x.slen = v.slen ∧ x.lcount = v.lcount) → (s.core (coreOf k)).slots.length = 4 →
      xlate s p .exec (pagesOf v.base (overlaySize v)) = .ok r →
      ∃ t u, Machine.exec (.overlay0Reload k) s = .next t ∧ (t.core (coreOf k)).slots[j]? = some
          { asid := p.asid, base := v.base, slen := v.slen, lcount := v.lcount, valid := true, loading := false, used := u, words := overlayWords (r.parts.flatMap (fun q => bytesSeen s (.team k) q.1 q.2)) }
        ∧ (∀ i, i ≠ j → (t.core (coreOf k)).slots[i]? = (s.core (coreOf k)).slots[i]?) ∧ t.teams = s.teams ∧ sameMemory s t)

/-! ## Matrix instructions at issue (R260 to R271) -/

/-- R260, R263, R264: OBRES gives a valid record that overlaps no other range to range n, OBREL frees it, PANEL writes a valid panel record, in a speculation the team's own copy (R273); R262: a record that fails its checks raises OBRANGE or ILLEGAL. -/
def Obligations.RangesAndPanels : Prop :=
  ∀ (s : State) (n : BitVec 4) (a : GReg),
    let r := s.me.reg a
    let b := s.blockOf s.cur
    let f := r.toNat % 16
    let u : Use := { reads := [a] }
    let v : Use := { reads := [a], spec := true }
    let disjoint := ∀ e ∈ b.ranges, e.1 ≠ n.toNat → rrBase e.2 + rrLen e.2 ≤ rrBase r ∨ rrBase r + rrLen r ≤ rrBase e.2
    let recordOk := 0 < r.toNat / 2 ^ 52 ∧ 1 ≤ rrLen r ∧ rrLen r ≤ 256 ∧ (f = 14 ∧ r.toNat / 16 % 4 < 3 ∧ r.toNat / 2 ^ 24 % 2 ^ 18 % 16 = 0
      ∨ f ∈ [4, 8, 9, 10, 12, 13] ∧ r.toNat / 16 % 4 = 0 ∧ r.toNat / 2 ^ 24 % 2 ^ 18 = 0 ∧ r.toNat / 2 ^ 42 % 2 ^ 10 = 0)
    let changes := fun (i : Instr) (u : Use) (f : Block → Block) => Machine.exec i s = .next { s.completed u id with blocks := s.blocks.put s.me.blk (f b) }
    (s.issues u → (recordOk ∧ rrBase r + rrLen r ≤ (s.launchOf s.cur).hdr.obkb ∧ disjoint → captures s s.me.blk n.toNat = false →
        changes (.obres n a) u (fun b => { b with ranges := b.ranges.put n.toNat r }))
      ∧ (s.me.canTrap → ¬recordOk → Machine.exec (.obres n a) s = .next (s.traps 0x09 (BitVec.ofNat 64 (2 * 2 ^ 16 + n.toNat))))
      ∧ (s.me.canTrap → recordOk → ((s.launchOf s.cur).hdr.obkb < rrBase r + rrLen r ∨ ¬disjoint) →
        Machine.exec (.obres n a) s = .next (s.traps 0x09 (BitVec.ofNat 64 (2 ^ 16 + n.toNat)))))
    ∧ (s.issues {} → (b.ranges.get? n.toNat ≠ none → captures s s.me.blk n.toNat = false →
        changes (.obrel n) {} (fun b => { b with ranges := b.ranges.del n.toNat }))
      ∧ (s.me.canTrap → b.ranges.get? n.toNat = none → Machine.exec (.obrel n) s = .next (s.traps 0x09 (BitVec.ofNat 64 n.toNat))))
    ∧ (s.issues v → panValid r = true → (s.me.spec = none → changes (.panel n a) v (fun b => { b with panels := b.panels.put n.toNat r }))
      ∧ (s.me.spec ≠ none → Machine.exec (.panel n a) s = .next (s.completed v (fun t => { t with spec := t.spec.map (fun p => { p with panels := p.panels.put n.toNat r }) }))))
    ∧ (s.issues v → s.me.canTrap → panValid r = false → Machine.exec (.panel n a) s = .next (s.traps 0x01 s.me.pc))

/-- R265 to R269, R271, R273: MZERO, MMA and MDRAIN whose checks pass join the core's matrix queue with the operands captured at issue, and change no tile and no memory; with no entry free they wait with what they captured, and join later with that and nothing else; in a speculation one that lacks proof tiles waits until it resolves. -/
def Obligations.MatrixIssue : Prop :=
  ∀ (s : State) (t : BitVec 5) (n : BitVec 2) (r p : BitVec 4) (x : GReg) (f : BitVec 2),
    let u : Use := { spec := true }
    let v : Use := { reads := [x], spec := true }
    let w : Use := { reads := [x] }
    let d := s.me.reg x
    let k := d.toNat % 2 ^ 16
    let m := d.toNat / 2 ^ 16 % 2 ^ 8
    let b := s.blockOf s.cur
    let tiles := (s.launchOf s.cur).hdr.tiles
    let joins := fun (s : State) (i : Instr) (u : Use) (op : MatrixOp) =>
      if (∃ q, s.me.spec = some q ∧ (q.full = true ∨ lacksProofs s s.cur op.proofs = true)) then
        s.putTeam s.cur (fun t => { t with waiting := true, captured := some op, spec := t.spec.map (fun p => { p with full := true }) })
      else if queueFull s s.cur then s.captures op else s.joins u i op
    (∀ op, s.me.captured = some op → (s.issues u → Machine.exec (.mzero t n) s = .next (joins s (.mzero t n) u op))
      ∧ (s.issues v → Machine.exec (.mma t r p x f) s = .next (joins s (.mma t r p x f) v op))
      ∧ (s.issues w → Machine.exec (.mdrain t x) s = .next (joins s (.mdrain t x) w op)))
    ∧ (s.me.captured = none →
      (s.issues u → (t.toNat + n.toNat < tiles → Machine.exec (.mzero t n) s = .next (joins s (.mzero t n) u (.mzero t.toNat (n.toNat + 1))))
        ∧ (s.me.canTrap → tiles ≤ t.toNat + n.toNat → Machine.exec (.mzero t n) s = .next (s.traps 0x0A (BitVec.ofNat 64 (t.toNat + n.toNat)))))
      ∧ (s.issues v → d.toNat / 2 ^ 24 % 2 ^ 8 = 0 → 1 ≤ k → 1 ≤ m → m ≤ 64 →
          ∀ pan, (match s.me.spec.bind (fun q => q.panels.get? p.toNat) with | some w => some w | none => b.panels.get? p.toNat) = some pan →
          (∀ res, b.ranges.get? r.toNat = some res → combination (recFmt res) (recFmt pan) f = true →
            (t.toNat + (m + 15) / 16 ≤ tiles → aEnd res d ≤ rrLen res * 1024 →
              Machine.exec (.mma t r p x f) s = .next (joins s (.mma t r p x f) v (.mma t.toNat r.toNat p.toNat f d res pan)))
            ∧ (s.me.canTrap → tiles < t.toNat + (m + 15) / 16 → Machine.exec (.mma t r p x f) s = .next (s.traps 0x0A (BitVec.ofNat 64 (t.toNat + (m + 15) / 16 - 1)))))
          ∧ (s.me.canTrap → b.ranges.get? r.toNat = none → Machine.exec (.mma t r p x f) s = .next (s.traps 0x09 (BitVec.ofNat 64 r.toNat))))
      ∧ (s.issues v → s.me.canTrap → (d.toNat / 2 ^ 24 % 2 ^ 8 ≠ 0 ∨ k = 0 ∨ m = 0 ∨ 64 < m ∨ b.panels.get? p.toNat = none) →
          Machine.exec (.mma t r p x f) s = .next (s.traps 0x01 s.me.pc))
      ∧ (s.issues w → (d.toNat % 16 = 0 → ∀ pl, localPlan s (s.spaceOf s.cur) b .read d 32 = .ok pl →
          s.reads s.path s.me.blk pl →
          let rec' := planBytes s s.path s.me.blk pl
          let res := b.ranges.get? ((Drain.addr rec').toNat / 2 ^ 20)
          Drain.valid rec' = true → t.toNat < tiles → drainCheck s s.me.blk rec' res = none →
          ∀ y z, drainPlans ((noteTlb (s.spaceOf s.cur) pl.used).final s) s.cur rec' res = .ok (y, z) → queueFull s s.cur = false → s.me.spec = none →
            ∃ s'', Machine.exec (.mdrain t x) s = .next s'' ∧ sameMemory s s'' ∧ s''.blocks = s.blocks ∧ s.me.loaded (s''.team s.cur) 0 0
              ∧ (s''.core (coreOf s.cur)).queue = (s.core (coreOf s.cur)).queue ++ [s.matrixEntry (.mdrain t x) (.mdrain t.toNat rec' (res.getD 0))])
        ∧ (s.me.canTrap → d.toNat % 16 ≠ 0 → Machine.exec (.mdrain t x) s = .next (s.traps 0x03 d))))

/-- R270: MCOMMIT closes the team's open group under the next ticket, which it returns; MWAIT completes when no instruction of the named group or an earlier one is left in the queue, and otherwise waits; a ticket not yet issued names the newest. -/
def Obligations.GroupResults : Prop :=
  ∀ (s : State) (d a : GReg),
    let w : Use := { writes := [d] }
    let r : Use := { reads := [a] }
    let core := coreOf s.cur
    let x := (s.me.reg a).setWidth 32
    let group : W32 := if (s.me.ticket - x).toNat < 2 ^ 31 then x else s.me.ticket
    let pending := ∃ e ∈ (s.core core).queue, e.team = s.cur ∧ ∃ k, e.group = some k ∧ (group - k).toNat < 2 ^ 31
    (s.issues w → ∃ t, Machine.exec (.mcommit d) s = .next t ∧ (t.team s.cur).ticket = s.me.ticket + 1
      ∧ (∀ r, (t.team s.cur).reg r = if r = 0 then 0 else if r = d then (s.me.ticket + 1).setWidth 64 else s.me.reg r) ∧ (t.team s.cur).pc = s.me.pc + 4
      ∧ (t.core core).queue = (s.core core).queue.map (fun e => if e.team = s.cur ∧ e.group = none then { e with group := some (s.me.ticket + 1) } else e)
      ∧ sameMemory s t ∧ t.blocks = s.blocks ∧ ∀ c, c ≠ core → t.core c = s.core c)
    ∧ (s.issues r → ¬pending → ∃ t, Machine.exec (.mwait a) s = .next t ∧ s.me.loaded (t.team s.cur) 0 0
        ∧ t = { s with teams := s.teams.put s.cur (t.team s.cur), hist := t.hist, cores := t.cores } ∧ ∀ c, { t.core c with l1 := (s.core c).l1 } = s.core c)
    ∧ (s.issues r → pending → Machine.exec (.mwait a) s = .next s.waits)
    ∧ (∀ k, (s.teams.get? k).isSome = true → Machine.exec (.mwaitWake k) s = .next (s.putTeam k (fun m => { m with waiting := false })))

/-! ## The term array (R240 to R258) -/

/-- R244, R246: the terms of a weight σ × N × 2^q are the signed powers of two of the non-adjacent form of N: no two at adjacent places, none below the lowest bit, and their sum is the weight; their number is the term count; a zero weight has none. N is the significand with its implicit bit, a subnormal's fraction for a subnormal, and |v| with q = 0 for an i8 weight. An e2m1x weight has the terms of its element, or of EXTRA, with the block's scale 2^(E − 127) folded into each; in a NaN block it is a NaN marker. -/
def Obligations.TermRecoding : Prop :=
  (∀ (neg : Bool) (n : Nat) (q : Int),
    recode (.fin neg 0 q) = .zero
    ∧ (0 < n → ∃ ts, recode (.fin neg n q) = .terms ts ∧ ts.Pairwise (fun x y => x.2 + 2 ≤ y.2) ∧ (∀ x ∈ ts, q ≤ x.2)
        ∧ (ts.map (fun x => (if x.1 then (-1 : Int) else 1) * 2 ^ (x.2 - q).toNat)).sum = (if neg then -(n : Int) else n) ∧ (recode (.fin neg n q)).count = ts.length))
  ∧ (∀ f ∈ [Fp.e4m3, Fp.e5m2, Fp.f16, Fp.bf16], ∀ (x : Nat) neg n q, f.decode x = .fin neg n q →
      neg = f.signBit x ∧ n = (if f.expField x = 0 then f.frac x else 2 ^ f.fbits + f.frac x) ∧ q = (max (f.expField x) 1 : Nat) - (f.bias : Int) - f.fbits)
  ∧ (∀ x : Int, Fp.ofInt x = .fin (decide (x < 0)) x.natAbs 0)
  ∧ ∀ (e x c : Nat), x < 256 → c < 16 →
      let v := if c = 8 then (if x % 128 = 0 then .fin false 0 0 else Fp.e4m3.decode x) else Fp.e2m1.decode c
      (e < 255 → recode (elemValue 14 (256 * e + x) c) = (match recode v with
        | .terms ts => .terms (ts.map (fun t => (t.1, t.2 + ((e : Int) - 127))))
        | w => w))
      ∧ (e < 255 → recode (elemValue 14 (256 * e + x) 3) = .terms [(true, (e : Int) - 128), (false, (e : Int) - 126)])
      ∧ recode (elemValue 14 (256 * 255 + x) c) = .markNan

/-- R254: in integer mode a chunk adds the exact integer sum of the products of weights and A elements to the accumulator, modulo 2^32, or clamped to the i32 range. -/
def Obligations.IntegerChunk : Prop :=
  ∀ (acc : Nat) (xs : List (Int × Int)) (sat : Bool), acc < 2 ^ 32 →
    let c := (xs.map (fun x => intProduct (recode (Fp.ofInt x.1)) (Fp.ofInt x.2))).sum
    let exact := signedOf 32 acc + (xs.map (fun x => x.1 * x.2)).sum
    signedOf 32 (updateI32 acc sat c) = if sat then max (-2 ^ 31) (min (2 ^ 31 - 1) exact) else signedOf 32 (exact % 2 ^ 32).toNat

/-- R251, R252, R258, R247, R245: the chunk value of f32 mode depends on the products alone and not on their order; a NaN product, or infinities of both signs, give the canonical NaN, infinities of one sign that infinity, and no product +0. For every chunk TERMUSED + GROUPWAIT rises by 1,024 times what TERMSTEPS rises by; a row step lasts at least one term and, under a valid panel record, at most six. -/
def Obligations.ChunkValueAndTerms : Prop :=
  (∀ (ps qs : List Part),
      (ps.Perm qs → chunkValue ps = chunkValue qs)
      ∧ (Part.nan ∈ ps ∨ (Part.inf true ∈ ps ∧ Part.inf false ∈ ps) → (chunkValue ps).bits = 0x7FC00000)
      ∧ (Part.nan ∉ ps → Part.inf true ∉ ps → Part.inf false ∈ ps → (chunkValue ps).bits = 0x7F800000)
      ∧ (Part.nan ∉ ps → Part.inf true ∈ ps → Part.inf false ∉ ps → (chunkValue ps).bits = 0xFF800000)
      ∧ (chunkValue []).bits = 0
      ∧ (∀ n m e, 0 < m → ps.Perm [.prod n m e] → chunkValue ps = Fp.round Fp.f32 .rne n (m * 2 ^ (80 - m.log2)) (m.log2 + e - 80) false ∨ 80 < m.log2))
  ∧ (∀ (c : Core) (ctx : Nat) (pan d : W64) (g ch m : Nat),
      let r := chunkTerms m (groupWeights c ctx pan d g ch)
      r.getD 0 0 + r.getD 2 0 = 1024 * r.getD 1 0 ∧ m ≤ r.getD 1 0 ∧ (panValid pan = true → r.getD 1 0 ≤ 6 * m))

/-- R250, R253, R254, R258, R265, R267, R271, R256: the steps of the matrix engine for entry n of a core's queue that is not speculative: the head starts, an MMA without groups ends as it starts, and any other stays; a group that has stepped a chunk updates its 8 columns of every row, from the words as they stood, and nothing else of the tiles, and adds to the team's counters; chunks that started MMAs of any team of the block still owe the tiles come first (R271); an MMA completes once every group has written its last chunk, and adds the cycles of its schedule, and more where a replay, a reload or a stop came between; MZERO writes zeros; a reload restores a column's rows from its source record, and waits at a page fault. -/
def Obligations.MatrixEngine : Prop :=
  ∀ (s : State) (c n : Nat) (e : MatrixEntry),
    let core := s.core c
    let blk := (s.team e.team).blk
    let left := core.queue.eraseIdx n
    let takes := fun (q : List MatrixEntry) => { s with cores := s.cores.put c { core with queue := q, matrixTurn := slotOf e.team } }
    (core.queue[n]? = some e → e.spec = false →
      (isHead s c n = false → Machine.exec (.matrixStart c n) s = .next s)
      ∧ (isHead s c n = true →
        (∀ t k, e.op = .mzero t k → Machine.exec (.matrixStart c n) s = .next (takes (core.queue.modify n (fun e => { e with started := true, since := s.clock }))))
        ∧ (∀ t r p f d res pan, e.op = .mma t r p f d res pan →
          (d.toNat / 2 ^ 32 = 0 → Machine.exec (.matrixStart c n) s = .next (takes left))
          ∧ (d.toNat / 2 ^ 32 ≠ 0 → e.next = [] → ∃ o,
              let next := (List.range 32).map (fun g => if d.getLsbD (32 + g) then 0 else (d.toNat % 2 ^ 16 + 127) / 128)
              Machine.exec (.matrixStart c n) s = .next (takes (core.queue.modify n (fun e =>
                { e with started := true, since := s.clock, overlap := o, next := next, steps := next.map (2 * ·) })))))
        ∧ (∀ t r res x y, e.op = .mdrain t r res → drainPlans s e.team r (some res) = .ok (x, y) → ∃ u, Machine.exec (.matrixStart c n) s = .next u
          ∧ (u.core c).queue = core.queue.modify n (fun e => { e with started := true, spots := x.pieces, amaxAt := y.pieces }) ∧ u.teams = s.teams ∧ u.blocks = s.blocks ∧ sameMemory s u))
      ∧ (e.started = true → engineEnds s e = true →
        (∀ t r p f d res pan, e.op = .mma t r p f d res pan →
          (∀ g, canWrite e d g = true → e.op.reloading core = false → olderWritten s c e (some g) = true → ∃ u, Machine.exec (.chunkWrite c n g) s = .next u ∧
            let ch := e.next.getD g 0
            let ws := fun (j : Nat) => chunkWeights core (s.block blk).ctx pan d (8 * g + j) ch
            let a := aValue (placeSeen s (.matrix e.team) (.ob blk)) res
            let xs := fun (m : Nat) => (List.range 128).map (fun i => if 128 * ch + i < dimK d then a m (128 * ch + i) else .fin false 0 0)
            let word := fun (m j : Nat) => 4096 * (t + m / 16) + 256 * (m % 16) + 8 * g + j
            let old := fun (w : Nat) => (Sparse.get (s.block blk).tiles w).toNat
            let adds := chunkTerms (dimM d) ((List.range 8).map ws)
            (∀ m j, m < dimM d → j < 8 → (Sparse.get (u.block blk).tiles (word m j)).toNat = (
              if f.getLsbD 0 then updateI32 (old (word m j)) (f.getLsbD 1) ((List.zip (ws j) (xs m)).map (fun x => intProduct x.1 x.2)).sum
              else (updateF32 (old (word m j)) ((List.zip (ws j) (xs m)).flatMap (fun x => partsOf x.1 x.2))).1) % 2 ^ 32)
            ∧ (∀ w, (∀ m j, m < dimM d → j < 8 → w ≠ word m j) → Sparse.get (u.block blk).tiles w = Sparse.get (s.block blk).tiles w)
            ∧ (∃ k, (u.core c).queue = core.queue.modify n (fun e => { e with next := e.next.set g (ch + 1), fails := e.fails.del g, times := e.times.put (32 * ch + g) k, begunTerms := e.begunTerms.del (32 * ch + g) }))
            ∧ (u.team e.team).termused = BitVec.ofNat 64 (min ((s.team e.team).termused.toNat + adds.getD 0 0) (2 ^ 64 - 1))
            ∧ (u.team e.team).termsteps = BitVec.ofNat 64 (min ((s.team e.team).termsteps.toNat + adds.getD 1 0) (2 ^ 64 - 1))
            ∧ (u.team e.team).groupwait = BitVec.ofNat 64 (min ((s.team e.team).groupwait.toNat + adds.getD 2 0) (2 ^ 64 - 1))
            ∧ (∀ r, (u.team e.team).reg r = (s.team e.team).reg r) ∧ (u.team e.team).pc = (s.team e.team).pc)
          ∧ ((∀ g, g < 32 → d.getLsbD (32 + g) = true → chunks d ≤ e.next.getD g 0) → ∃ u, Machine.exec (.matrixComplete c n) s = .next u
            ∧ (u.core c).queue = left ∧ sameMemory s u ∧ (∀ w, Sparse.get (u.block blk).tiles w = Sparse.get (s.block blk).tiles w)
            ∧ (e.overlap = false → ∃ k, (e.disturbed = false → k = 0) ∧ (e.disturbed = true → 0 < k) ∧ (u.team e.team).mmacyc
                = BitVec.ofNat 64 (min ((s.team e.team).mmacyc.toNat + (mmaCycles e.times d res pan + k - e.counted)) (2 ^ 64 - 1)))))
        ∧ (∀ t k, e.op = .mzero t k → olderWritten s c e none = true → ∃ u, Machine.exec (.matrixComplete c n) s = .next u ∧ (u.core c).queue = left ∧ sameMemory s u ∧ u.teams = s.teams
          ∧ ∀ w, Sparse.get (u.block blk).tiles w = if t ≤ w / 4096 ∧ w / 4096 < t + k then 0 else Sparse.get (s.block blk).tiles w)))
    ∧ (∀ col r, core.reloads.get? col = none → core.sources.get? col = some [r] →
      let b := (s.team (reloadTeam s c col)).blk
      (∀ p, globalPlan s (ctxSpace s r.ctx c) .read r.src (32 * r.rows) = .ok p → s.holds (.copy b) .plain (linesOf p.phys) → ∃ u, Machine.exec (.sliceReload c col) s = .next u
        ∧ sameMemory s u ∧ u.teams = s.teams ∧ u.blocks = s.blocks ∧ (u.core c).reloads.get? col = none
        ∧ (u.core c).queue = core.queue.map (fun e => if e.started && e.op.runs col then { e with disturbed := true } else e)
        ∧ (u.core c).slices = Sparse.setRun core.slices (32 * (1024 * col + r.row)) (planBytes s (.copy b) b p))
      ∧ (∀ k va, globalPlan s (ctxSpace s r.ctx c) .read r.src (32 * r.rows) = .error (.page k va) → ∃ u h, Machine.exec (.sliceReload c col) s = .next u
        ∧ sameMemory s u ∧ u.teams = s.teams ∧ u.blocks = s.blocks ∧ (u.core c).slices = core.slices ∧ (u.core c).reloads.get? col = some ([r], some h)))

/-- R269, R272 to R274: a started MDRAIN writes its converted rows, takes the amax word by FMAX and clears its rows with ZERO, and leaves the queue once its writes are performed; SPECULATION_RESOLVE keeps a speculation whose prediction holds (its panel records become the block's, and each tile that it shadowed holds what its proof tile held: R264, R273), and otherwise restores g and q and goes to the other path. -/
def Obligations.DrainAndResolution : Prop :=
  ∀ (s : State),
    (∀ (c n : Nat) (e : MatrixEntry) t r res, (s.core c).queue[n]? = some e → e.op = .mdrain t r res → e.started = true → engineEnds s e = true →
      let p := Path.matrix e.team
      let blk := (s.team e.team).blk
      let b := s.block blk
      let xs := (List.range (Drain.rows r)).map (fun i => (List.range 256).map (fun j => drainValue s e.team t r i j))
      let bytes := xs.flatMap (fun row => (drainRow r row).1)
      let amax := leBytes 4 (Fp.minMax Fp.f32 true false (leNat (planNow s blk { pieces := e.amaxAt, used := [] })) (drainAmax xs.flatten)).bits
      (e.written = false → s.writesTo p { pieces := e.spots, used := [] } → s.writesTo p { pieces := e.amaxAt, used := [] } →
        ∃ u, Machine.exec (.matrixComplete c n) s = .next u ∧ (u.core c).queue = (s.core c).queue.modify n (fun e => { e with written := true }) ∧ u.teams = s.teams
          ∧ ((∀ z ∈ (s.launch b.launch).thr, z = 0) → u.mem = if Drain.amax r = 0 then piecesMem e.spots bytes s.mem
              else piecesMem e.amaxAt amax (piecesMem e.spots bytes s.mem))
          ∧ (Drain.amax r = 0 → (u.block blk).loc = piecesLoc e.spots bytes b.loc ∧ (u.block blk).ob = piecesOb e.spots bytes b.ob)
          ∧ ∀ w, Sparse.get (u.block blk).tiles w = if Drain.zero r = true ∧ 4096 * t ≤ w ∧ w < 4096 * t + 256 * Drain.rows r then 0 else Sparse.get b.tiles w)
      ∧ (e.written = true → Machine.exec (.matrixComplete c n) s = .next (if pathStalls s p then s
          else { s with cores := s.cores.put c { s.core c with queue := (s.core c).queue.eraseIdx n } })))
    ∧ (∀ (k : Nat) (p : Spec), (s.team k).spec = some p → (s.team k).awaits p.a p.b = false →
      let x := fun (r : GReg) => if r = 0 then 0 else p.g[r.toNat]
      let blk := (s.team k).blk
      ∃ u, Machine.exec (.speculationResolve k) s = .next u ∧ (u.team k).spec = none ∧ (u.team k).waiting = false
        ∧ (Cond.holds p.cond 64 (x p.a) (x p.b) = p.hint →
            (u.team k).g = (s.team k).g ∧ (u.team k).q = (s.team k).q ∧ (u.team k).pc = (s.team k).pc ∧ (∀ e ∈ (u.core (coreOf k)).queue, e.team = k → e.spec = false)
            ∧ (u.core (coreOf k)).queue.map (·.op) = (s.core (coreOf k)).queue.map (·.op)
            ∧ (∀ n, (u.block blk).panels.get? n = match p.panels.reverse.find? (fun e => e.1 == n) with | some e => some e.2 | none => (s.block blk).panels.get? n)
            ∧ ((p.tiles.map Prod.fst).Nodup → (∀ e ∈ p.tiles, (e.2.map Prod.fst).Nodup) →
                (∀ e ∈ p.tiles, ∀ w, w < 4096 → Sparse.get (u.block blk).tiles (4096 * e.1 + w) = Sparse.get e.2 w)
                ∧ ∀ w, w / 4096 ∉ p.tiles.map Prod.fst → Sparse.get (u.block blk).tiles w = Sparse.get (s.block blk).tiles w))
        ∧ (Cond.holds p.cond 64 (x p.a) (x p.b) ≠ p.hint →
            (u.team k).g = p.g ∧ (u.team k).q = p.q ∧ (u.team k).pc = p.other ∧ (u.block blk).panels = (s.block blk).panels ∧ (u.block blk).tiles = (s.block blk).tiles
            ∧ (u.core (coreOf k)).queue = (s.core (coreOf k)).queue.filter (fun e => !(e.team == k && e.spec))))

/-! ## Copy rings (R192 to R209) -/

/-- R195, R201 to R207, R209: the next entry of a ring (NOP, COPY, GATHER, FILL, SLOAD, OVL, RESTRICT, PROLONG, SEAL, UNSEAL or SIGNAL) starts where every check passes: CONS moves past it, it joins the entries in progress, a ring-kind entry takes a place, SIGNAL arrives, OVL marks its slot loading; where a check fails the ring halts with the lowest reason and its publisher receives COPYFAULT; where no place is free it has not started, nor where a page that its checks read faults, on which the ring waits (a record that cannot be read breaks none of its own checks yet, nor those of the slot, which come later: R213); WAITY starts once its slot satisfies it, and holds the ring before. -/
def Obligations.CopyEntryStarts : Prop :=
  ∀ (s : State),
    let b := s.curBlk
    let r := (s.block b).ring
    let next := (r.cons + 1) % 2 ^ 32
    let space := engineSpace s b
    let team := s.team r.publisher
    let halts := fun (i : Instr) (x : Nat) => ∀ pl, r.halting = [] → localPlan s space (s.block b) .write 0x10 4 = .ok pl →
      ∃ t, Machine.exec i s = .next t ∧ (t.block b).ring = r.stops
        ∧ (team.canTrap → team.suspended = none → team.stopped = false →
          (t.team r.publisher).tcause = 0x13 ∧ (t.team r.publisher).tval = BitVec.ofNat 64 (r.cons % 2 ^ 32 + 2 ^ 32 * x)
          ∧ (t.team r.publisher).tpc = team.pc ∧ (t.team r.publisher).pc = team.thandler
          ∧ (s.writesTo (.copy b) pl → t.mem = piecesMem pl.pieces (leBytes 4 (2 ^ 31 + 2 ^ 8 * x)) s.mem
              ∧ (t.block b).loc = piecesLoc pl.pieces (leBytes 4 (2 ^ 31 + 2 ^ 8 * x)) (s.block b).loc))
    (∀ i c plan, entryChecks i = some (c, plan) → s.ringReady c → (∀ o, i = .cOvl o → ovlBusy s (s.block b).core (o.dst.toNat % 4) = false) →
      let p := plan s b
      let slot := s.slot b c.slot.toNat
      let bad := p.bad ++ if p.blind then [] else slotBad s b c
      let full := noPlace s b c && (slotBad s b c).isEmpty
      (∀ pl, lowest (p.bad ++ slotBad s b c) = none → noPlace s b c = false → p.fault = none → planStalls s (.copy b) b p.reads = false →
        s.holds (.copy b) .plain (linesOf p.reads.phys) → localPlan ((noteTlb space p.reads.used).final s) space (s.block b) .write 8 4 = .ok pl →
        (∀ o f, i = .cSignal o → firings s (coreOf r.publisher) b c.slot.toNat true f slot (SlotOp.arrive.apply slot) = []) →
        ∃ t, Machine.exec i s = .next t
          ∧ (t.block b).ring = r.joined i p (if c.kind = 3 then (match slot with | .ring _ _ _ _ _ put _ => some put | _ => none) else none)
          ∧ t.slot b c.slot.toNat = (if c.kind = 3 then SlotOp.put.apply slot else match i with | .cSignal _ => SlotOp.arrive.apply slot | _ => slot)
          ∧ (∀ o, i = .cOvl o → (t.core (s.block b).core).slots = (s.core (s.block b).core).slots.modify (o.dst.toNat % 4) (fun x =>
              { x with asid := space.asid, base := o.src, slen := ovlSlen o, lcount := ovlCount o, valid := false, loading := true }))
          ∧ ((∀ o, i ≠ .cSignal o) → t.teams = s.teams)
          ∧ (s.writesTo (.copy b) pl → t.mem = piecesMem pl.pieces (leBytes 4 next) s.mem ∧ (t.block b).loc = piecesLoc pl.pieces (leBytes 4 next) (s.block b).loc))
      ∧ (∀ x, lowest bad = some x → halts i x)
      ∧ (lowest bad = none → full = true → Machine.exec i s = .next s)
      ∧ (∀ va, lowest bad = none → full = false → p.fault = some va →
          ∃ t h, Machine.exec i s = .next t ∧ (t.block b).ring = { r with faultAt := (h, r.publisher) :: r.faultAt.filter (fun f => f.1 != h && f.1 != 1024) }
            ∧ (∀ k, k ≠ b → t.block k = s.block k) ∧ t.slots = s.slots ∧ t.teams = s.teams ∧ t.mem = s.mem))
    ∧ (∀ c i, (i = .cWaity c ∧ s.ringReady c ∧ plainBad c true = [] ∧ c.slot.toNat < (s.launch (s.block b).launch).hdr.slots)
        ∨ (i = .waitySatisfied b ∧ r.waity = some c ∧ engineRuns s b = true ∧ r.faulted = false ∧ ∀ e ∈ r.entries, e.faultAt = none) →
      (∀ v pl, slotCond (s.slot b c.slot.toNat) c.src = some (true, v) → (s.slot b c.slot.toNat).mode ≠ 4 → localPlan s space (s.block b) .write 8 4 = .ok pl →
        ∃ t, Machine.exec i s = .next t ∧ (t.block b).ring = r.joined (.cWaity c) {} none ∧ (c.kind = 0 → t.slots = s.slots) ∧ t.teams = s.teams)
      ∧ (∀ v, slotCond (s.slot b c.slot.toNat) c.src = some (false, v) → (s.slot b c.slot.toNat).mode ≠ 4 →
        Machine.exec i s = .next { s with blocks := s.blocks.put b { s.block b with ring := { r with waity := some c } } })
      ∧ ((s.slot b c.slot.toNat).mode = 4 → halts i 8)
      ∧ ((s.slot b c.slot.toNat).mode = 1 → 2 ≤ c.src.toNat → halts i 2))

/-- R192 to R195: the engine observes a team's publish: the first latches CONFIG, and clears CONS, DONECNT and STATUS in local memory; a later one takes the PIDX that it stored (the model's reading of R193: DEDUCED, log 40), with its team the publisher of the new entries, and of those that a publish before it added and that were not taken up; while STATUS.HALT reads 1 it has no effect but that the next one brings its entries too; a halted ring whose STATUS has been cleared resumes with the CONFIG it then reads; an invalid CONFIG halts the ring with reason 14, as do reserved bytes of the header that are not zero (the model's choice: DESIGN CHOICE, log 60), and a PIDX beyond the ring with reason 13; a publish that halts the ring has published its entries all the same. A PIDX beyond every earlier one names its team the publisher of what it adds, one that names the same entries again names nobody, and one that takes entries back leaves the others to their publishers. -/
def Obligations.RingPublish : Prop :=
  (∀ (s : State) (b k pidx : Nat) (rest : List (Nat × Nat)) (pl : Plan),
    let y := s.block b
    let r := y.ring
    let space := engineSpace s b
    let lblk := (s.launch y.launch).hdr.lblk
    r.told = (k, pidx) :: rest → r.halting = [] → r.faulted = false → engineRuns s b = true → localPlan s space y .read 0 32 = .ok pl →
    planStalls s (.copy b) b pl = false → s.holds (.copy b) .plain (linesOf pl.phys) →
    let w := planBytes ((Upd.hist (releaseTo b k)).apply s) (.copy b) b pl
    let config := field w 4 4
    let told := r.idle ++ [(k, pidx)]
    let good : Bool := configOk config lblk && field w 0x14 12 == 0
    let adds := fun (cons : Nat) => told.foldl (addPublisher cons) r.publishers
    let first := { r with told := rest, cons := 0, donecnt := 0, idle := [], publishers := adds 0 }
    let later := { r with told := rest, idle := [], publishers := adds r.cons }
    let stopped := fun (f : Ring) => { f with halted := true, waity := none }
    let ends := fun (f : Ring) => ∃ t, Machine.exec (.ringPublish b k) s = .next t ∧ (t.block b).ring = f
    (r.latched = none → r.halted = false → y.ltab ≠ [] → 0 < lblk →
      (good = true → pidx % 2 ^ 32 ≤ 2 ^ (config % 16) → ∃ t, Machine.exec (.ringPublish b k) s = .next t
        ∧ (t.block b).ring = { first with latched := some (BitVec.ofNat 32 config), pidx := pidx, halted := false }
        ∧ (pathStalls s (.copy b) = false → Sparse.run (t.block b).loc 8 12 = List.replicate 12 0) ∧ sameMemory s t ∧ t.teams = s.teams)
      ∧ (good = false ∨ 2 ^ (config % 16) < pidx % 2 ^ 32 → ends (stopped { first with pidx := 0 })))
    ∧ (∀ g, r.latched = some g → r.halted = false → field w 0x10 4 < 2 ^ 31 →
      (ahead r.cons pidx ≤ 2 ^ (g.toNat % 16) → ends { later with pidx := pidx })
      ∧ (2 ^ (g.toNat % 16) < ahead r.cons pidx → y.ltab ≠ [] → 0 < lblk → ends (stopped later)))
    ∧ (r.halted = true → field w 0x10 4 < 2 ^ 31 →
      (good = true → ahead r.cons pidx ≤ 2 ^ (config % 16) → ends { later with latched := some (BitVec.ofNat 32 config), pidx := pidx, halted := false })
      ∧ (good = false ∨ 2 ^ (config % 16) < ahead r.cons pidx → y.ltab ≠ [] → 0 < lblk → ends (stopped later)))
    ∧ (r.latched ≠ none ∨ r.halted = true → (field w 0x10 4).testBit 31 = true → ends { r with told := rest, idle := told }))
  ∧ (∀ (cons : Nat) (ps : List (Nat × Nat)) (x : Nat × Nat), 0 < ahead cons x.2 →
      ((∀ p ∈ ps, ahead cons p.1 < ahead cons x.2) → addPublisher cons ps x = ps ++ [(x.2, x.1)])
      ∧ ((∃ p ∈ ps, ahead cons p.1 = ahead cons x.2) → (∀ p ∈ ps, ahead cons p.1 ≤ ahead cons x.2) → addPublisher cons ps x = ps)
      ∧ (∀ k i t later, ps = k ++ (i, t) :: later → (∀ p ∈ k, ahead cons p.1 < ahead cons x.2) → ahead cons x.2 < ahead cons i → (∀ p ∈ later, ahead cons x.2 < ahead cons p.1) →
        addPublisher cons ps x = k ++ [(x.2, t)]))

/-- R199 to R203, R206 to R208, R218, R230: a sub-operation whose lines are there writes its bytes over its destinations, and nothing else of memory where no FP event can post, and then signals its slot; SLOAD writes columns and records their source in place of the records that it covers, and halts with reason 11 where it may not, a check that the model makes again at the sub-operation (its reading: DEDUCED, log 41; R204 makes it before the start); OVL makes its slot valid; a tag mismatch of UNSEAL halts with reason 12; an entry all of whose sub-operations are done leaves the ring, fills its ring place after the fills of the earlier places, and counts in DONECNT, and waits while an earlier entry waits on a page fault (R200). -/
def Obligations.CopyProgress : Prop :=
  ∀ (s : State) (b i : Nat) (e : Entry), (s.block b).ring.entry? i = some e → e.done = none →
    let y := s.block b
    let r := y.ring
    let p := Path.copy b
    let quiet := ∀ z ∈ (s.launch y.launch).thr, z = 0
    let exec := Machine.exec (.subopComplete b i) s
    let reads := fun (x : Plan) => planStalls s p b x = false ∧ s.holds p .plain (linesOf x.phys) ∧ pathStalls s p = false
    let fails := fun (x : Nat) => ∀ pl, r.halting = [] → localPlan s (engineSpace s b) y .write 0x10 4 = .ok pl →
      ∃ t, exec = .next t ∧ (t.block b).ring = (r.without i).stops
        ∧ ((s.team e.team).canTrap → (s.team e.team).suspended = none → (s.team e.team).stopped = false →
          (t.team e.team).tcause = 0x13 ∧ (t.team e.team).tval = BitVec.ofNat 64 (e.idx % 2 ^ 32 + 2 ^ 32 * x)
          ∧ (s.writesTo p pl → t.mem = piecesMem pl.pieces (leBytes 4 (2 ^ 31 + 2 ^ 8 * x)) s.mem))
    (subRuns s b e = true →
      (∀ c w, s.workOf b e = some (c, .ok w) → reads w.reads → s.writesTo p w.writes →
        c.kind ≠ 1 ∧ c.kind ≠ 2 ∨ c.kind = 1 ∧ (s.slot b c.slot.toNat).mode = 2 ∨ c.kind = 2 ∧ (s.slot b c.slot.toNat).mode = 3 → ∃ t, exec = .next t
        ∧ (quiet → t.mem = piecesMem w.writes.pieces w.bytes s.mem ∧ ∀ a, ¬w.writes.touches a → readByte t a = readByte s a)
        ∧ (t.block b).ring = r.advanced i ∧ (t.block b).loc = piecesLoc w.writes.pieces w.bytes y.loc ∧ (t.block b).ob = piecesOb w.writes.pieces w.bytes y.ob ∧ t.teams = s.teams
        ∧ t.slot b c.slot.toNat = (if c.kind = 1 then SlotOp.apply (.addBytes w.bytes.length) (s.slot b c.slot.toNat)
            else if c.kind = 2 then SlotOp.apply (.setBits (chunkBits w.runs)) (s.slot b c.slot.toNat) else s.slot b c.slot.toNat))
      ∧ (∀ c, e.op = .cUnseal c → sealWork true c s b e = .ok none → fails 12)
      ∧ (∀ c q, e.op = .cSload c → c.kind = 0 →
        let cols := (List.range (min (sloadCols c) (c.yext.toNat - e.pos * sloadCols c))).map (fun j => e.pos * sloadCols c + j)
        let n := c.xext.toNat
        let row := sloadRow c
        let others := fun (j : Nat) => (((s.core y.core).sources.get? (sloadCol c + j)).getD []).filter (fun x => ¬(row ≤ x.row ∧ x.row + x.rows ≤ row + n / 32))
        let kept := ∀ j ∈ cols, (others j).length < 4 ∧ ∀ x ∈ others j, x.row + x.rows ≤ row ∨ row + n / 32 ≤ x.row
        runPlans s b [] 0 c.src .read (cols.map (fun j => (j * c.spitch.toNat, n))) = .ok q →
        (kept → reads q → 32 * row + n ≤ 32768 → ∃ t, exec = .next t ∧ (t.block b).ring = r.advanced i ∧ sameMemory s t ∧
          ∀ k j, cols[k]? = some j →
            Sparse.run (t.core y.core).slices (32 * (1024 * (sloadCol c + j) + row)) n = ((planBytes s p b q).drop (k * n)).take n
            ∧ (t.core y.core).sources.get? (sloadCol c + j)
                = some (others j ++ [{ row := row, rows := n / 32, src := c.src + BitVec.ofNat 64 (j * c.spitch.toNat), ctx := y.ctx }]))
        ∧ (¬kept → fails 11))
      ∧ (∀ c q, e.op = .cOvl c → c.kind = 0 → globalPlan s (engineSpace s b) .exec c.src (overlaySize (ovlRef c)) = .ok q → reads q →
        c.dst.toNat % 4 < (s.core y.core).slots.length → ∃ t u, exec = .next t ∧ (t.block b).ring = r.advanced i ∧ sameMemory s t
          ∧ (t.core y.core).slots[c.dst.toNat % 4]? = some
              { asid := (engineSpace s b).asid, base := c.src, slen := ovlSlen c, lcount := ovlCount c, valid := true, loading := false, used := u,
                words := overlayWords (planBytes s p b q) }))
    ∧ (r.goesOn i = false → Machine.exec (.entryComplete b i) s = .next s)
    ∧ (engineRuns s b = true → r.goesOn i = true → e.subs ≤ e.pos → ∀ c, e.ops = some c →
      let done := fun (t : State) (f : Ring) => Machine.exec (.entryComplete b i) s = .next t ∧ (t.block b).ring = f ∧ t.teams = s.teams
      (c.kind ≠ 3 → c.notify = false → ∃ t, done t (r.without i) ∧ t.slots = s.slots ∧ sameMemory s t)
      ∧ (∀ pl, c.kind ≠ 3 → c.notify = true → localPlan s (engineSpace s b) y .write 0xC 4 = .ok pl → ∃ t, done t { r.without i with donecnt := (r.donecnt + 1) % 2 ^ 32 }
          ∧ t.slots = s.slots
          ∧ (s.writesTo p pl → t.mem = piecesMem pl.pieces (leBytes 4 ((r.donecnt + 1) % 2 ^ 32)) s.mem
              ∧ (t.block b).loc = piecesLoc pl.pieces (leBytes 4 ((r.donecnt + 1) % 2 ^ 32)) y.loc))
      ∧ (∀ size free tp fl tc pu ge k, c.kind = 3 → c.notify = false → e.place = some k → s.slot b c.slot.toNat = .ring size free (tp + 1) fl tc pu ge →
          let from' := (pu + size - k - 1) % size + 1
          (tp + 1 ≤ from' → ∃ t, done t (r.without i) ∧ t.slot b c.slot.toNat = .ring size free tp (fl + 1) tc pu ge)
          ∧ (from' < tp + 1 → Machine.exec (.entryComplete b i) s = .next s)))

/-! ## Notifications and the front ends (R26 to R41) -/

/-- R28, R39, R40, R133: a queue without a notification queue drops a posting and nothing else happens; otherwise a posting draws one SEQ, writes its record at the producer index and then steps the index with release, or, where the queue is full, sets OVF and counts nothing; one that cannot access its queue is counted; an event that brings a count to its threshold for the first time posts, and any other does not. -/
def Obligations.Notifications : Prop :=
  ∀ (s : State) (q type code : Nat) (i0 i1 : W64),
    let k := s.queue q
    let x := k.ctx
    let t := (notify q type code i0 i1).final s
    let s0 := { s with seq := s.seq + 1 }
    (k.nq = 0 → t = s)
    ∧ (k.nq ≠ 0 → t.seq = s.seq + 1)
    ∧ (k.nq ≠ 0 → (∃ e, readDesc s x k.nq = .error e) → t.pkg.dropped = s.pkg.dropped + 1)
    ∧ (k.nq ≠ 0 → ∀ d, readDesc s x k.nq = .ok d → d.ok = true →
      (d.pidx - d.cidx ≠ BitVec.ofNat 64 (2 ^ d.log2n) → ∀ pa po,
        let s1 := s0.stored x false pa (noteBytes (BitVec.ofNat 64 s.seq) type code (sourceOf q x) i0 i1)
        s0.storable x (d.slot 32) 32 pa → s1.storable x k.nq 8 po → t = s1.stored x true po (leBytes 8 (d.pidx + 1).toNat))
      ∧ (d.pidx - d.cidx = BitVec.ofNat 64 (2 ^ d.log2n) →
        (∀ pa, s0.storable x (k.nq + 0x1C) 4 pa → t = s0.stored x false pa (leBytes 4 1))
        ∧ ((∃ e, ctxRun s0 x .write (k.nq + 0x1C) 4 = .error e) → t.pkg.dropped = s.pkg.dropped + 1)))
    ∧ (∀ l n e, n < (s.launch l).fev.length →
        let c := min ((s.launch l).fev.getD n 0 + e) (2 ^ 64 - 1)
        let thr := ((s.launch l).thr.getD n 0).toNat
        let r := (addEvent l n e).final s
        (r.launch l).fev.getD n 0 = c
        ∧ ((thr = 0 ∨ c < thr ∨ n ∈ (s.launch l).posted) → r = { s with launches := s.launches.put l { s.launch l with fev := (s.launch l).fev.set n c } })
        ∧ (thr ≠ 0 ∧ thr ≤ c ∧ n ∉ (s.launch l).posted → n ∈ (r.launch l).posted ∧ ((s.queue (s.launch l).queue).nq ≠ 0 → r.seq = s.seq + 1)))

/-- R26 to R31, R34, R35: the steps of a front end for queue q: WRIDX is observed, and one beyond the ring faults the queue; a record that keeps every check becomes a launch and RDIDX steps, one that does not faults the queue with its reason and stays; a dependence is read again after a store to its line, and is met once its word has reached its value; each of these reads once the front end's die holds its line (R289); of the producers' stores to CTRL, oldest first, one resumes a faulted queue with the KILL that it stored, one destroys a queue, and any other is written over; a destroy ends with the queue and its launches gone.  That a store which keeps STATE keeps its KILL, that CTRL is stored as one word, and that WRIDX is observed again on resume are the model's choices (DESIGN CHOICE, log 16; no WRIDX is observed once the queue is being destroyed: log 61). -/
def Obligations.FrontEnd : Prop :=
  ∀ (s : State) (q : Nat),
    let k := s.queue q
    let x := k.ctx
    let runs := fun (i : Instr) (P : State → Prop) => ∃ t, Machine.exec i s = .next t ∧ P t
    let faulted := fun (r : Nat) (t : State) => (t.queue q).state = (if k.state = .active then .faulted else k.state) ∧ (t.queue q).reason = r ∧ (t.queue q).rdidx = k.rdidx
      ∧ t.launches = s.launches ∧ t.blocks = s.blocks ∧ t.teams = s.teams
    (bound s q = true → k.state ≠ .destroying → s.frontReads x [(k.desc, 8)] → ∀ w, ctxNat s x k.desc 8 = .ok w →
      let d := (BitVec.ofNat 64 w - k.rdidx).toNat
      (k.state = .active ∧ 2 ^ k.log2n < d → runs (.wridxObserve q) (fun t => faulted 0x12 t ∧ (t.queue q).wridx = BitVec.ofNat 64 w))
      ∧ (k.state ≠ .active ∨ d ≤ 2 ^ k.log2n →
        Machine.exec (.wridxObserve q) s = .next { s.having (.front x) (s.frontLines x [(k.desc, 8)]) with queues := s.queues.put q { k with wridx := BitVec.ofNat 64 w } }))
    ∧ (mayTake s q = true → takeStalls s q = false → s.frontReads x (recordWords s q) → (∀ l, readRecord s q = .ok l → runs (.takeRecord q) (fun t => { t.launch s.pkg.nextLaunch with ready := none } = l ∧ (t.queue q).rdidx = k.rdidx + 1
          ∧ (t.queue q).state = .active ∧ t.pkg.nextLaunch = s.pkg.nextLaunch + 1 ∧ t.blocks = s.blocks ∧ t.teams = s.teams))
        ∧ ∀ r a, readRecord s q = .error (r, a) → runs (.takeRecord q) (faulted r))
    ∧ (mayTake s q = false ∨ takeStalls s q = true → Machine.exec (.takeRecord q) s = .next s)
    ∧ (∀ l n a v r, (s.launches.get? l).isSome = true → (s.launch l).unplaced = true → n ∉ (s.launch l).met → (s.launch l).queue = q →
        (s.launch l).deps[n]? = some (a, v) → (s.launch l).depRead.get? n = some r →
        (lineStored s r = false ∨ (n ∈ (s.launch l).depHeld ∧ k.state ≠ .active) → Machine.exec (.dependenceReread l n) s = .next s)
        ∧ (lineStored s r = true → n ∉ (s.launch l).depHeld ∨ k.state = .active → ctxStalls s (s.launch l).ctx a 8 = false → s.frontReads (s.launch l).ctx [(a, 8)] →
          (∀ w, ctxNat s (s.launch l).ctx a 8 = .ok w → runs (.dependenceReread l n) (fun t => (n ∈ (t.launch l).met ↔ v.toNat ≤ w) ∧ n ∉ (t.launch l).depHeld
            ∧ sameMemory s t ∧ t.queues = s.queues))
          ∧ ∀ e, ctxNat s (s.launch l).ctx a 8 = .error e → runs (.dependenceReread l n) (fun t => (t.queue q).state = (if k.state = .active then .faulted else k.state)
            ∧ (t.queue q).reason = 0x11 ∧ n ∈ (t.launch l).depHeld ∧ n ∉ (t.launch l).met)))
    ∧ (ctrlStore s q = none → ∀ i ∈ [Instr.queueResume q, .queueDestroy q, .ctrlReject q], Machine.exec i s = .next s)
    ∧ (∀ n v, bound s q = true → ctrlStore s q = some (n, v) → s.frontReads x [(k.desc + 8, 4)] →
        let asked : Bool := v / 4 % 2 == 1
        let ctrl := fun (y : QueueCtx) => leBytes 4 (y.reason * 256 + (if y.kill then 4 else 0) + y.state.code)
        let s1 := fun (y : QueueCtx) => { s.having (.front x) (s.frontLines x [(k.desc + 8, 4)]) with queues := s.queues.put q y }
        let kept := { k with ctrlSeen := n + 1, kill := if v % 4 = k.state.code then asked else k.kill }
        let freed := { k with ctrlSeen := n + 1, state := .active, reason := 0, kill := asked }
        let ends := { k with ctrlSeen := n + 1, state := .destroying, kill := asked, endval := -1 }
        (k.state = .faulted → v % 4 = 0 → (∀ l ∈ queueLaunches s q, l.2.depHeld = []) → ∀ pa, s.storable x (k.desc + 8) 4 pa →
          let s2 := (s1 freed).stored x false pa (ctrl freed)
          ∀ w, ctxNat s2 x k.desc 8 = .ok w → (BitVec.ofNat 64 w - k.rdidx).toNat ≤ 2 ^ k.log2n →
          Machine.exec (.queueResume q) s = .next { s2 with queues := s.queues.put q { freed with wridx := BitVec.ofNat 64 w } })
        ∧ (k.state = .active ∨ k.state = .faulted → v % 4 = 2 → runs (.queueDestroy q) (fun t => t.queue q = ends
          ∧ (∀ pa, s.storable x (k.desc + 8) 4 pa → t.mem = Sparse.setRun s.mem pa (ctrl ends)) ∧ (asked = false → t.blocks = s.blocks)
          ∧ (asked = true → ∀ b ∈ s.blocks, (s.launch b.2.launch).queue = q → (s.launch b.2.launch).call = none → (t.block b.1).phase = (s.block b.1).phase.condemned)))
        ∧ (¬(k.state = .faulted ∧ v % 4 = 0) → ¬((k.state = .active ∨ k.state = .faulted) ∧ v % 4 = 2) → ∀ pa, s.storable x (k.desc + 8) 4 pa →
          Machine.exec (.ctrlReject q) s = .next ((s1 kept).stored x false pa (ctrl kept))))
    ∧ (bound s q = true → k.state = .destroying → queueHasBlocks s q = false → (s.ctx x).resetCode = 0 → (∀ l ∈ queueLaunches s q, l.2.ending = false) →
        runs (.destroyComplete q) (fun t => t.queues.get? q = none ∧ (∀ l ∈ queueLaunches s q, t.launches.get? l.1 = none)
          ∧ (∀ l, (∀ e ∈ queueLaunches s q, e.1 ≠ l) → t.launch l = s.launch l) ∧ t.blocks = s.blocks ∧ t.teams = s.teams))

/-- R36, R313, R347: LAUNCH_COMPLETE once a launch's blocks are gone: the completion store writes CVAL, NOTIFY posts, and the launch is complete; a killed launch writes −2 and faults its queue with reason 0x15; a host call's launch is gone. -/
def Obligations.LaunchCompletion : Prop :=
  ∀ (s : State) (l : Nat),
    let x := s.launch l
    (s.launches.get? l).isSome = true → x.completed = false → (∀ b ∈ s.blocks, b.2.launch ≠ l) → (s.ctx x.ctx).resetCode = 0 →
    let runs := fun (P : State → Prop) => ∃ t, Machine.exec (.launchComplete l) s = .next t ∧ t.teams = s.teams ∧ t.blocks = s.blocks ∧ P t
    let quiet := x.profBlock = 0
    (x.killed = false → x.retired = x.total → x.call = none →
        (x.caddr = 0 → runs (fun t => (t.launch l).completed = true ∧ (quiet → x.notify = false → sameMemory s t)))
        ∧ (∀ pa, x.caddr ≠ 0 → s.storable x.ctx x.caddr 8 pa → quiet → runs (fun t => (t.launch l).completed = true
            ∧ (x.notify = false → t.mem = Sparse.setRun s.mem pa (leBytes 8 x.cval.toNat) ∧ t.seq = s.seq)
            ∧ (∀ h ∈ t.hist, h.blk ∈ x.blks → h.blk ≠ 0 → h.cover = true)
            ∧ (x.notify = true → (s.queue x.queue).nq ≠ 0 → t.seq = s.seq + 1)))
        ∧ (x.caddr ≠ 0 → quiet → (∃ e, ctxRun s x.ctx .write x.caddr 8 = .error e) → runs (fun t => (t.launch l).completed = true ∧ (t.queue x.queue).reason = 0x16)))
    ∧ (x.killed = false → x.retired = x.total → x.call ≠ none → runs (fun t => t.launches.get? l = none))
    ∧ (x.killed = true → x.call = none → runs (fun t => (t.launch l).completed = true ∧ (x.caddr = 0 → (t.queue x.queue).reason = 0x15)
        ∧ ∀ pa pb, x.caddr ≠ 0 → s.storable x.ctx x.caddr 8 pa →
          let k := s.queue x.queue
          (s.stored x.ctx true pa (leBytes 8 (2 ^ 64 - 2))).storable k.ctx (k.desc + 8) 4 pb → k.nq = 0 → (t.queue x.queue).reason = 0x15
            ∧ t.mem = Sparse.setRun (Sparse.setRun s.mem pa (leBytes 8 (2 ^ 64 - 2))) pb
              (leBytes 4 (0x15 * 256 + (if k.kill then 4 else 0) + (if k.state = .active then 1 else k.state.code)))))
    ∧ (x.killed = true → x.call ≠ none → hostSlotFree s x.ctx = true → runs (fun t => t.launches.get? l = none))
    ∧ (x.killed = false → x.retired ≠ x.total → Machine.exec (.launchComplete l) s = .next s)

/-! ## Distributors (R42 to R58, R237, R238) -/

/-- R52, R53, R54, R312: PLACE_BLOCK, once the launch's turn has come and a core fits: the next block of the launch exists on the core that the rule chooses, and each of its teams starts with the state of the table of R53, or, for a host call, with its record's registers; with ZERO its registers and its storage are zero. -/
def Obligations.BlockPlacement : Prop :=
  ∀ (s : State) (l : Nat) (f : Fit) (r : Run),
    let x := s.launch l
    let h := x.hdr
    let n := x.next
    let b := s.pkg.nextBlock
    let w : Waiting := { prio := x.prio, class' := 1, order := x.ready.getD 0, launch := l, blk := none }
    (s.launches.get? l).isSome = true → launchWaits s x = true → turnOf s w = true → waitFit s w = some f → xlate s (ctxSpace s x.ctx f.core) .write (spillFills x f) = .ok r →
    (∀ p ∈ r.parts, lockedTo s p.1 = none) → (linesOf r.parts).any s.coh.lineBusy = false →
    (placeFor s x false = some f → f.core ∈ partitionCores s (s.ctx x.ctx).part ∧
        ∀ c ∈ partitionCores s (s.ctx x.ctx).part, ∀ g, fitOn s x.ctx h false [] none c = some g → f.inUse < g.inUse ∨ (f.inUse = g.inUse ∧ f.core ≤ c))
    ∧ f.slots.length = h.teams
    ∧ ∃ t, Machine.exec (.placeBlock l) s = .next t
      ∧ (t.launch l).next = n + 1 ∧ t.pkg.nextBlock = b + 1
      ∧ (t.block b).ctx = x.ctx ∧ (t.block b).launch = l ∧ (t.block b).lin = n ∧ (t.block b).core = f.core ∧ (t.block b).phase = .placed
      ∧ (t.block b).x = n % x.gx ∧ (t.block b).y = n / x.gx % x.gy ∧ (t.block b).z = n / x.gx / x.gy
      ∧ (h.zero = true → (t.block b).loc = [] ∧ (t.block b).ob = [] ∧ (t.block b).tiles = [])
      ∧ (t.block b).teams = f.slots.map (fun k => 32 * f.core + k) ∧ (∀ j, (∀ k ∈ f.slots, j ≠ 32 * f.core + k) → t.team j = s.team j)
      ∧ ∀ (i k : Nat), f.slots[i]? = some k →
        let m := t.team (32 * f.core + k)
        m.blk = b ∧ m.idx = i ∧ m.width = h.width ∧ (m.pregs, m.rows) = f.rows.getD i (0, []) ∧ (h.zero = true → m.v = []) ∧ (∀ lane, lane < 1024 → LaneMask.bit m.present lane = decide (lane < h.width))
        ∧ m.stack = [] ∧ m.q = Vector.replicate 4 0 ∧ m.p = Vector.replicate 8 0 ∧ m.tcause = 0 ∧ m.thandler = 0 ∧ m.lanes = [] ∧ m.exited = false
        ∧ m.teamid = BitVec.ofNat 32 (dieOf f.core * 2 ^ 30 + f.core % 96 * 2 ^ 23 + k % 32 * 2 ^ 18 + (((s.core f.core).gens.get? k).getD 0 + 1) % 2 ^ 18)
        ∧ (x.call = none → m.m = m.present ∧ m.pc = ((x.ovs[0]?).map (·.base)).getD 0 + BitVec.ofNat 64 h.entry
            ∧ ∀ r : GReg, m.reg r = (
              if r = 10 then x.args else if r = 11 then BitVec.ofNat 64 (n % x.gx + n / x.gx % x.gy * 2 ^ 16 + n / x.gx / x.gy * 2 ^ 32)
              else if r = 12 then BitVec.ofNat 64 i else if r = 13 then BitVec.ofNat 64 (x.gx + x.gy * 2 ^ 16 + x.gz * 2 ^ 32) else 0))
        ∧ (∀ target g, x.call = some (target, g) → m.pc = target ∧ m.token = some x.token ∧ m.m = (if x.widened then m.present else 1)
            ∧ ∀ r : GReg, m.reg r = (if r = 0 then 0 else g.getD r.toNat 0))

/-- R54, R57, R58, R237, R238, R347: a head that fits nowhere holds its partition; a starved team is served; a YIELD expires; FETCHWORK withdraws a block and writes its mailbox, where of a successor whose queue is being destroyed and that is not ready the answer is DONE or NOTREADY, left open (log 39); BLOCK_RETIRE ends a block all of whose work is done, its teams and its slots, and counts it and what it withdrew. -/
def Obligations.Distributor : Prop :=
  ∀ (s : State),
    (∀ l w, headOf s (partOf s l) = some w →
      (w.launch = l → waitFit s w = none → w.blk = none → Machine.exec (.headHoldTimeout l) s = .next { s with launches := s.launches.put l { s.launch l with holds := true } })
      ∧ (∀ b, w.launch = l → waitFit s w = none → w.blk = some b → Machine.exec (.headHoldTimeout l) s = .next { s with blocks := s.blocks.put b { s.block b with holds := true } })
      ∧ (w.launch ≠ l ∨ waitFit s w ≠ none → Machine.exec (.headHoldTimeout l) s = .next s))
    ∧ (∀ k, ready s k = true → Machine.exec (.issueStarvation k) s = .next (s.putTeam k (fun m => { m with starved := true })))
    ∧ (∀ k, (s.teams.get? k).isSome = true → Machine.exec (.yieldExpiry k) s = .next (s.putTeam k (fun m => { m with yieldTo := [] })))
    ∧ (∀ k r p, (s.team k).fetchReq = some r → (s.blockOf k).phase = .placed →
        let ans := workAnswer s (s.blockOf k).launch r.sel.toNat
        let w := mailFields s r.sel ans.2
        let parts : Piece → List (Piece × List Byte) := fun y => [(y.part w.1 w.2.length, w.2), (y.part 12 4, leBytes 4 0), (y.part 8 4, leBytes 4 ans.1)]
        localPlan s (engineSpace s (s.team k).blk) (s.blockOf k) .write r.addr 16 = .ok p → ∀ y, p.pieces = [y] → planStalls s (.team k) (s.team k).blk p = false →
        ∃ t, Machine.exec (.fetchworkServe k) s = .next t ∧ t.teams = s.teams.put k { s.team k with fetchReq := none }
          ∧ (s.pkg.locks = [] → pathStalls s (.mail (s.team k).blk) = false → s.holds (.mail (s.team k).blk) .write (linesOf p.phys) →
            t.mem = (parts y).foldl (fun m x => piecesMem [x.1] x.2 m) s.mem ∧ (t.blockOf k).loc = (parts y).foldl (fun m x => piecesLoc [x.1] x.2 m) (s.blockOf k).loc)
          ∧ (r.sel = 0 → (s.launch (s.blockOf k).launch).unplaced = false → ans = (0xFFFFFFFF, none))
          ∧ (15 < r.sel.toNat → ans = (0xFFFFFFFD, none))
          ∧ (r.sel.toNat ≤ 15 → workTarget s (s.blockOf k).launch r.sel.toNat = none → ans = (0xFFFFFFFE, none))
          ∧ (ans.1 ∈ [1, 0xFFFFFFFD, 0xFFFFFFFE, 0xFFFFFFFF] ∧ t.fresh = s.fresh + (if answerOpen s (s.blockOf k).launch r.sel.toNat then 1 else 0))
          ∧ (∀ l n, ans.2 = some (l, n) → ans.1 = 1 ∧ n = (s.launch l).next ∧ (t.launch l).next = n + 1 ∧ (t.blockOf k).withdrawn = (l, n) :: (s.blockOf k).withdrawn)
          ∧ (ans.2 = none → t.launches = s.launches ∧ (t.blockOf k).withdrawn = (s.blockOf k).withdrawn))
    ∧ (∀ b, mayRetire s b = true →
        let y := s.block b
        ∃ t, Machine.exec (.blockRetire b) s = .next t ∧ t.blocks.get? b = none ∧ (∀ k ∈ y.teams, t.teams.get? k = none) ∧ (∀ n, n < 64 → t.slot b n = .off)
          ∧ (∀ c, c ≠ b → t.block c = s.block c)
          ∧ ∀ l, (t.launch l).retired = (s.launch l).retired + (if l = y.launch then 1 else 0) + (y.withdrawn.filter (fun w => w.1 == l)).length)
    ∧ (∀ b, mayRetire s b = false → Machine.exec (.blockRetire b) s = .next s)

/-! ## Interruption (R326, R331 to R341) -/

/-- R326, R331, R332, R335, R336, R341: kills, context resets, firmware events, and the pre-emption, save and restore of blocks: a killed block and its teams are gone; a reset context is dead and its queues and launches are gone; an event enters firmware, and a fault on a device page of another, protected context is refused (R340); the victims are placed blocks of lower priority; a save and a restore keep every team's state. Where firmware's events enter and which team runs them (log 7), which faults firmware refuses at the event (log 13), the image with the block's state kept beside it (log 18) and what a context that a reset has ended leaves (log 22) are the model's choices. -/
def Obligations.Interruption : Prop :=
  ∀ (s : State) (b : Nat),
    let y := s.block b
    let runs := fun (i : Instr) (P : State → Prop) => ∃ t, Machine.exec i s = .next t ∧ P t
    ((s.blocks.get? b).isSome = true → (y.phase = .killed false ∧ killWaits s b = false) ∨ y.phase = .killed true → (∀ k ∈ y.teams, (s.team k).blk = b) →
      runs (.blockKill b) (fun t => t.blocks.get? b = none ∧ (∀ k ∈ y.teams, t.teams.get? k = none) ∧ (∀ n, n < 64 → t.slot b n = .off) ∧ ∀ c, c ≠ b → t.block c = s.block c))
    ∧ (∀ x code, (s.ctxs.get? x).isSome = true → code ≠ 0 → (s.ctx x).resetCode = code → (∀ e ∈ s.blocks, e.2.ctx ≠ x) →
      runs (.contextReset x code) (fun t => (t.ctx x).dead = true ∧ (t.ctx x).resetCode = 0 ∧ (t.ctx x).tokens = [] ∧ (∀ q ∈ s.queues, q.2.ctx = x → t.queues.get? q.1 = none)
        ∧ (∀ l ∈ s.launches, l.2.ctx = x → t.launches.get? l.1 = none) ∧ t.teams = s.teams ∧ t.blocks = s.blocks))
    ∧ (∀ d cause val rest, (s.core (96 * d)).events = (cause, val) :: rest →
      ((s.core (96 * d)).inEvent = false → (cause = 5 → (handleOf s val.toNat).any (refusedPage s) = false) → runs (.firmwareEvent d) (fun t =>
          let c := t.core (96 * d)
          let m := s.team (firmwareTeam d)
          c.events = rest ∧ c.inEvent = true ∧ c.fcause = BitVec.ofNat 32 cause ∧ c.fval = val ∧ c.fepc = m.pc + (if m.sywb.any (fun y => y.got.isSome) then 4 else 0)
          ∧ (m.sywb = none → t.team (firmwareTeam d) = { m with pc := Config.firmwareEntry, waiting := false, faultAt := none, migr := none, captured := none })
          ∧ (t.team (firmwareTeam d)).pc = Config.firmwareEntry ∧ (t.team (firmwareTeam d)).sywb = none ∧ (cause ≠ 5 → sameMemory s t ∧ t.seq = s.seq)))
      ∧ (∀ f, (s.core (96 * d)).inEvent = false → cause = 5 → handleOf s val.toNat = some f → refusedPage s f = true → runs (.firmwareEvent d) (fun t => handleOf t val.toNat = none))
      ∧ ((s.core (96 * d)).inEvent = true → Machine.exec (.firmwareEvent d) s = .next s))
    ∧ (∀ l w g, headOf s (partOf s l) = some w → w.launch = l → waitFit s w = none → victimPlan s w = some g →
        (∀ e ∈ s.blocks, (s.ctx e.2.ctx).part = partOf s l → e.2.phase ≠ .stopping ∧ e.2.phase ≠ .stopped) →
      runs (.preemptTimeout l) (fun t => (∀ k ∈ g, t.block k = { s.block k with phase := .stopping } ∧ ∃ e ∈ s.blocks, e.1 = k ∧ e.2.phase = .placed ∧ w.prio < blockPrio s e.2)
        ∧ (∀ k, k ∉ g → t.block k = s.block k) ∧ t.teams = s.teams ∧ sameMemory s t))
    ∧ ((s.blocks.get? b).isSome = true → y.phase = .stopping → mustEnd s b = false → blockStalls s b = false → (∀ k ∈ y.teams, specWaits s k = false) →
      runs (.blockStop b) (fun t => (t.block b).phase = .stopped ∧ ∀ k ∈ y.teams, (t.team k).waiting = false ∧ (t.team k).await = [] ∧ (t.team k).spec = none
        ∧ ((s.team k).spec = none → (s.team k).sywb = none → (t.team k).g = (s.team k).g ∧ (t.team k).pc = (s.team k).pc ∧ (t.team k).lanes = (s.team k).lanes
          ∧ (t.team k).v = (s.team k).settleAll.v ∧ (t.team k).tbatch = (s.team k).tbatch ∧ (t.team k).ahead = [])))
    ∧ ((s.blocks.get? b).isSome = true → y.phase = .stopped → partStopped s (s.ctx y.ctx).part = true → y.teams.length ≤ 32 → (∀ k ∈ y.teams, k < 2 ^ 24) → ((s.ctx y.ctx).prot = true → (s.ctx y.ctx).counter + 1 < 2 ^ 48 - 1) →
      runs (.blockSave b) (fun t => (t.block b).phase = .saved ∧ (t.block b).shadow = shadowPlace s (s.ctx y.ctx).part (storedSize s y) ∧ (t.block b).loc = y.loc ∧ (t.block b).tiles = y.tiles
        ∧ (t.block b).savedMatrix.map (fun e => (e.behind, e.record, e.times, e.counted))
            = ((s.core y.core).queue.filter (fun e => y.teams.contains e.team)).map (fun e => (e.behind, resumeRecord e, e.times, e.counted))
        ∧ (t.core y.core).queue = (s.core y.core).queue.filter (fun e => !y.teams.contains e.team)
        ∧ (t.block b).image = storedImage s b ((s.ctx y.ctx).counter + 1)
        ∧ (let h := (t.block b).image.take 256
          h.length = 256 ∧ field h 0 4 = 0x53564B42 ∧ field h 4 4 = (if (s.ctx y.ctx).prot then 1 else 0) ∧ field h 0x10 4 = y.ctx % 2 ^ 24 ∧ field h 0x28 4 = imageSize s y % 2 ^ 32
            ∧ ((s.ctx y.ctx).prot = true → sealGood t b = true))
        ∧ (∀ (i k : Nat), y.teams[i]? = some k → { t.team (savedKey b i) with yieldTo := [] } = { s.team k with yieldTo := [] })
        ∧ ((s.ctx y.ctx).prot = true → (t.ctx y.ctx).counter = (s.ctx y.ctx).counter + 1 ∧ t.pkg.saves.get? b = some ((s.ctx y.ctx).counter + 1))))
    ∧ (let w : Waiting := { prio := blockPrio s y, class' := 0, order := y.order, launch := y.launch, blk := some b }
      y.isSaved = true → (s.blocks.get? b).isSome = true → ctxIdle s y.ctx = false → turnOf s w = true →
      (∀ f, ((s.ctx y.ctx).prot = true → sealGood s b = true) → restoreFit s [] y = some f → f.slots.Nodup → (∀ k ∈ y.teams, 32 * y.core + 31 < k) →
        runs (.blockRestore b) (fun t => (t.block b).phase = .placed ∧ (t.block b).savedMatrix = [] ∧ (t.block b).loc = y.loc ∧ (t.block b).tiles = y.tiles
          ∧ (t.core y.core).queue.map (·.op) = (s.core y.core).queue.map (·.op) ++ y.savedMatrix.filterMap (fun e => recordOp y e.record)
          ∧ ∀ (i k : Nat), y.teams[i]? = some k → ∃ j, (t.block b).teams[i]? = some j ∧ { t.team j with rows := [], issuedAt := 0 } = { s.team k with rows := [], issuedAt := 0 }))
      ∧ ((s.ctx y.ctx).prot = true → sealGood s b = false → (s.ctxs.get? y.ctx).isSome = true → (s.ctx y.ctx).resetCode = 0 →
        runs (.blockRestore b) (fun t => (t.ctx y.ctx).resetCode = 4 ∧ (t.block b).phase = .killed true)))
    ∧ (∀ p, Machine.exec (.partitionSwap p false) s = .next { s with pkg := { s.pkg with partsOut := s.pkg.partsOut.filter (· != p) } }
      ∧ runs (.partitionSwap p true) (fun t => p ∈ t.pkg.partsOut ∧ ∀ e ∈ partBlocks s p, e.2.phase = .placed → (t.block e.1).phase = .stopping))

/-! ## Coherence (R299 to R302) -/

/-- R299 to R302, R343: a die asks for a line that it does not hold, or may not write, once its L2 has a way for it, and evicts what it holds (which line a full set gives up is the model's choice, log 31; that a message event sends one that is not in flight and else takes its source's oldest, and what DONE carries, too, log 23); a message in flight is taken in its source's order: a holder answers FWDS, FWDX, INV and BINV as its state says, or GONE where it holds nothing, and its cores' L1s drop a line that it loses; the home serves a request by its holders; a requester with data and grant holds the line, and DONE ends the transaction; a write marks its sector, and memory has it once it comes back; a retry of a link changes nothing. -/
def Obligations.CoherenceMessages : Prop :=
  ∀ (s : State) (m : Packet),
    let c := s.coh
    let home := lineHome m.line
    let full := s.filled
    let becomes := fun (i : Instr) (c' : Coh) => Machine.exec i s = .next { s with coh := full c' }
    let loses := fun (i : Instr) (P : Coh → Prop) => ∃ t, Machine.exec i s = .next t ∧ t = { s with coh := t.coh, cores := t.cores } ∧ P t.coh
      ∧ ∀ n, t.core n = { s.core n with l1 := if dieOf n = m.dst then (s.core n).l1.filter (fun e => e.1 != m.line) else (s.core n).l1 }
    let fresh := m.dst = home ∧ m.src ≤ 4 ∧ c.asking m.line m.src = none
    let room := c.makeRoom m.line m.src
    let mayAsk := fresh ∧ room.hasRoom m.line m.src = true
    let asks := fun (k : MsgKind) (n : Nat) => (room.setAsking m.line m.src (some n)).send k (Coh.packet m.line m.src home)
    let flies := fun (k : MsgKind) => c.nextOf k m = some m
    let toHome := Coh.packet m.line m.dst home
    let toReq := Coh.packet m.line m.dst m.req
    let gone := fun (k : MsgKind) => (c.takeOff k m).send .gone { toHome with req := 1 }
    let drops := fun (i : Instr) (k : MsgKind) (answer : LineState → BitVec 4 → MsgKind × Packet) =>
      (∀ x n, c.held m.line m.dst = some (x, n) → c.asking m.line m.dst = none →
          loses i (fun c' => c' = full (((c.takeOff k m).drop m.line m.dst).send (answer x n).1 (answer x n).2)))
        ∧ (∀ x n, c.held m.line m.dst = some (x, n) → c.asking m.line m.dst = some 2 → loses i (fun c' => c'.held m.line m.dst = none ∧ c'.asking m.line m.dst = some 1
          ∧ (c'.net.getLast?).map (fun e => (e.1, e.2.line, e.2.dst)) = some ((answer x n).1, m.line, (answer x n).2.dst)))
        ∧ (c.held m.line m.dst = none → loses i (fun c' => c' = full (gone k)))
    (c.nextOf .rds m = none → mayAsk → c.held m.line m.src = none → becomes (.msgRds m) (asks .rds 0))
    ∧ (c.nextOf .rdx m = none → mayAsk → c.held m.line m.src = none → becomes (.msgRdx m) (asks .rdx 1))
    ∧ (c.hasRoom m.line m.src = true → room = c)
    ∧ (∀ v, c.hasRoom m.line m.src = false → (c.setLines m.line m.src).find? (fun l => l != m.line && (c.asking l m.src).isNone && !c.lineBusy l) = some v → room = c.evictLine v m.src)
    ∧ (∀ k, c.nextOf .upg m = none → mayAsk → c.held m.line m.src = some (.s, k) ∨ c.held m.line m.src = some (.o, k) → becomes (.msgUpg m) (asks .upg 2))
    ∧ (∀ x k, c.nextOf .wb m = none → fresh → c.held m.line m.src = some (x, k) → k ≠ 0 →
        (m.src ≠ home → becomes (.msgWb m) ((c.drop m.line m.src).send .wb { Coh.packet m.line m.src home with mask := k }))
        ∧ (m.src = home → becomes (.msgWb m) (((c.drop m.line m.src).writeBack m.line k).forget m.line m.src)))
    ∧ (∀ x, c.nextOf .evc m = none → fresh → c.held m.line m.src = some (x, 0) → m.src ≠ home →
        becomes (.msgEvc m) ((c.drop m.line m.src).send .evc (Coh.packet m.line m.src home)))
    ∧ (flies .fwds →
        let o := c.takeOff .fwds m
        (∀ k, c.held m.line m.dst = some (.e, k) → becomes (.msgFwds m) ((o.setHeld m.line m.dst .s 0).send .data toReq))
        ∧ (∀ k, c.held m.line m.dst = some (.m, k) → becomes (.msgFwds m) ((o.setHeld m.line m.dst .o k).send .data { toReq with dirty := true, mask := k }))
        ∧ (∀ k, c.held m.line m.dst = some (.o, k) → becomes (.msgFwds m) (o.send .data { toReq with dirty := true, mask := k }))
        ∧ (c.held m.line m.dst = none → becomes (.msgFwds m) (gone .fwds)))
    ∧ (flies .fwdx → drops (.msgFwdx m) .fwdx (fun x k => (.data, { toReq with dirty := x == .m || x == .o, mask := k })))
    ∧ (flies .inv → drops (.msgInv m) .inv (fun _ k => (.iack, { toHome with mask := k, req := 1 })))
    ∧ (flies .binv → drops (.msgBinv m) .binv (fun _ k => (if k = 0 then .biack else .wb, { toHome with mask := k, req := 1 })))
    ∧ (∀ n, c.asking m.line m.dst = some n → (∀ e ∈ s.pkg.stalled, e.place = .phys → pathDie s e.path = m.dst → e.pa / 256 ≠ m.line) →
        let ends := fun (i : Instr) (x : LineState) (k : BitVec 4) => ∃ c', becomes i c' ∧ c'.held m.line m.dst = some (x, k) ∧ c'.asking m.line m.dst = none
          ∧ (c'.net.getLast?).map (fun e => (e.1, e.2.line, e.2.src, e.2.dst)) = some (.done, m.line, m.dst, home)
        (flies .data → (m.grant = .e → ends (.msgData m) .e 0) ∧ (m.grant = .s → ends (.msgData m) .s 0) ∧ (m.grant = .m → ends (.msgData m) .m m.mask)
          ∧ (m.grant = .none → n = 0 → ends (.msgData m) .s 0) ∧ (m.grant = .none → n = 9 → ends (.msgData m) .m m.mask)
          ∧ (m.grant = .none → n = 1 → ∃ c', becomes (.msgData m) c' ∧ c'.asking m.line m.dst = some (5 + 16 * m.mask.toNat)))
        ∧ (flies .gnt → (∀ x k, n = 2 → c.held m.line m.dst = some (x, k) → ends (.msgGnt m) .m (k ||| m.mask))
          ∧ (∀ k : BitVec 4, n = 5 + 16 * k.toNat → ends (.msgGnt m) .m (k ||| m.mask)) ∧ (n = 1 → ∃ c', becomes (.msgGnt m) c' ∧ c'.asking m.line m.dst = some 9)))
    ∧ (∀ k i, (k, i) ∈ [(0, Instr.msgRds m), (1, .msgRdx m), (2, .msgUpg m)] →
        let kind : MsgKind := if k = 0 then .rds else if k = 1 then .rdx else .upg
        let others := (c.holders m.line).filter (· != m.src)
        let owner := (c.owner.get? m.line).filter (· != m.src)
        let whole := k = 1 ∨ (k = 2 ∧ m.src ∉ c.holders m.line)
        let answers := fun (ms : List (MsgKind × Nat × Grant)) => ∃ c', becomes i c' ∧ c'.lineBusy m.line = true
          ∧ c'.net.map (fun e => (e.1, e.2.line, e.2.dst, e.2.grant)) = (c.takeOff kind m).net.map (fun e => (e.1, e.2.line, e.2.dst, e.2.grant)) ++ ms.map (fun x => (x.1, m.line, x.2))
        flies kind →
        (c.mustQueue m.line k = true → becomes i { c.takeOff kind m with queued := c.queued ++ [(m.line, m.src, k)] })
        ∧ (c.mustQueue m.line k = false → m.src = home ∨ m.line ∈ c.filter →
          (k = 0 → others = [] → answers [(.data, m.src, .e)])
          ∧ (k = 0 → others ≠ [] → owner = none → answers [(.data, m.src, .s)])
          ∧ (∀ x, k = 0 → owner = some x → answers [(.fwds, x, .none)])
          ∧ (whole → others = [] → answers [(.data, m.src, .m)])
          ∧ (whole → others ≠ [] → owner = none → answers (others.map (fun d => (.inv, d, .none))))
          ∧ (∀ x, whole → owner = some x → answers ((.fwdx, x, .none) :: (others.filter (· != x)).map (fun d => (.inv, d, .none))
              ++ (if others.filter (· != x) = [] then [(.gnt, m.src, .none)] else [])))
          ∧ (k = 2 → m.src ∈ c.holders m.line → answers (others.map (fun d => (.inv, d, .none)) ++ (if others = [] then [(.gnt, m.src, .none)] else [])))))
    ∧ (∀ t, (∀ e ∈ c.busy, e.evict = none) → c.busy.find? (fun t => t.line == m.line) = some t → (∀ e ∈ c.busy, e.line = m.line → e = t) →
        (∀ k i, (k, i) ∈ [(MsgKind.iack, Instr.msgIack m), (.biack, .msgBiack m)] → flies k → ∃ c', becomes i c'
          ∧ (∀ u, c'.busy.find? (fun u => u.line == m.line) = some u → u.waits = t.waits.filter (· != m.src) ∧ u.mask = t.mask ||| m.mask))
        ∧ (flies .gone → t.fwd ≠ some m.src → ∃ c', becomes (.msgGone m) c' ∧ ∀ u, c'.busy.find? (fun u => u.line == m.line) = some u → u.waits = t.waits.filter (· != m.src))
        ∧ (flies .gone → t.fwd = some m.src → ∃ c', becomes (.msgGone m) c' ∧ ∀ u, c'.busy.find? (fun u => u.line == m.line) = some u → u.fwd = none)
        ∧ (flies .done → t.req = m.src → c.queued = [] → ∃ c', becomes (.msgDone m) c' ∧ c'.lineBusy m.line = false
          ∧ ((t.kind = 1 ∨ t.kind = 2) → c'.owner.get? m.line = some m.src ∧ c'.sharersOf m.line = [])
          ∧ (t.kind = 0 → t.fwd = none → t.shared = true → m.src ∈ c'.sharersOf m.line ∧ c'.owner.get? m.line = c.owner.get? m.line)))
    ∧ (flies .wb → m.req = 0 → c.queued = [] → ∃ c', becomes (.msgWb m) c' ∧ m.src ∉ c'.holders m.line
        ∧ ∀ k, k / 4 = m.line → m.mask.getLsbD (k % 4) = true → c'.behind.get? k = none)
    ∧ (flies .evc → m.req = 0 → c.queued = [] → ∃ c', becomes (.msgEvc m) c' ∧ m.src ∉ c'.holders m.line)
    ∧ (∀ p k pa bs, let d := pathDie s p
        c.held (pa / 256) d = some (.m, k) → bs ≠ [] → pa % 64 + bs.length ≤ 64 →
        let t := s.storedBy p false pa bs
        t.coh.held (pa / 256) d = some (.m, k ||| (1 <<< (pa % 256 / 64))) ∧ ∀ b, b / 64 = pa / 64 → memoryBehind t b = memoryBehind s b)
    ∧ (∀ a b, Machine.exec (.linkRetry a b) s = .next s)

/-! ## Calls across instruction sets (R305 to R317) -/

/-- R307 to R310, R312, R313, R315, R316: a team's migration is posted, record before index, and the team is suspended with its link written, or has ended where it returned to its caller; while the queue is full it waits; a RETURN that fits its team resumes it with the record's registers, and any other is discarded; an HCALL makes a launch; a landing thread takes a record, and a hart's fetch from a Darion page posts RETURN or HCALL. That a call token is the number of its thread and that the lowest idle landing thread takes a record are the model's choices (log 29), and so is that a landing queue whose descriptor is not valid is waited at (log 32). -/
def Obligations.ForeignCalls : Prop :=
  ∀ (s : State),
    let runs := fun (i : Instr) (P : State → Prop) => ∃ t, Machine.exec i s = .next t ∧ P t
    let mem := fun (ps : List (Nat × Nat)) (bs : List Byte) (m : List Host.Cell) => piecesMem (ps.map (fun r => .phys r.1 r.2)) bs m
    (∀ k kind i g p, (kind, i) ∈ [(1, Instr.callPost k), (5, .syscallPost k), (4, .hreturnPost k)] → (s.team k).migr = some g → g.kind = kind → mayPost s k (s.team k) g = true →
      let m := s.team k
      let a := (s.ctxOf k).hostLanding
      globalPlan s (s.spaceOf k) .read a 64 = .ok p →
      let d := descOf 32 (p.phys.flatMap (fun r => readBytes s r.1 r.2))
      let s1 := (noteTlb (s.spaceOf k) p.used).final s
      (d.ok = false ∨ d.pidx - d.cidx = BitVec.ofNat 64 (2 ^ d.log2n) → Machine.exec i s = .next s1)
      ∧ (∀ w x, d.ok = true → d.pidx - d.cidx ≠ BitVec.ofNat 64 (2 ^ d.log2n) → globalPlan s1 (s.spaceOf k) .write (d.record d.pidx) 0x300 = .ok w →
        globalPlan ((noteTlb (s.spaceOf k) w.used).final s1) (s.spaceOf k) .write a 8 = .ok x →
        anyStalls s (p.phys ++ w.phys) = false → s.pkg.locks = [] → s.holds (.team k) .write (linesOf (p.phys ++ w.phys)) →
        (kind ≠ 4 → runs i (fun t => t.seq = s.seq + 1 ∧ (t.team k).suspended = some { raddr := (carried m g).getD 1 0 } ∧ (t.team k).migr = none ∧ (t.team k).pc = m.pc
            ∧ (∀ r, (t.team k).reg r = if r = 0 then 0 else if g.link = some r then m.pc + 4 else m.reg r)
            ∧ t.mem = piecesMem x.pieces (leBytes 8 (d.pidx + 1).toNat) (piecesMem w.pieces (teamRecord m g (BitVec.ofNat 64 s.seq)) s.mem)))
        ∧ (kind = 4 → m.pending = [] → runs i (fun t => t.seq = s.seq + 1 ∧ (t.team k).exited = true
            ∧ t.mem = piecesMem x.pieces (leBytes 8 (d.pidx + 1).toNat) (piecesMem w.pieces (teamRecord m g (BitVec.ofNat 64 s.seq)) s.mem)))))
    ∧ (∀ x d b, oldestRecord s x (s.ctx x).devLanding = some (d, b) → (s.ctx x).dead = false →
      (∀ k m, field b 0 4 = 2 → recordReserved b = true → returnTeam s x b = some (k, m) →
        (returnMatches m b = true → blockRuns s k = true → runs (.returnRec x) (fun t => (t.team k).pc = field64 b 0x18 ∧ (t.team k).suspended = none
            ∧ t.pkg.discarded = s.pkg.discarded ∧ (∀ r, (t.team k).reg r = if r = 0 then 0 else (recordRegs b).getD r.toNat 0)
            ∧ { t.team k with g := (s.team k).g, pc := (s.team k).pc, suspended := (s.team k).suspended } = s.team k
            ∧ ∀ pa, s.storable x ((s.ctx x).devLanding + 8) 8 pa → t.mem = Sparse.setRun s.mem pa (leBytes 8 (d.cidx + 1).toNat)))
        ∧ (returnMatches m b = true → blockRuns s k = false → Machine.exec (.returnRec x) s = .next s)
        ∧ (returnMatches m b = false → runs (.returnRec x) (fun t => t.teams = s.teams ∧ t.pkg.discarded = s.pkg.discarded + 1)))
      ∧ (field b 0 4 ≠ 3 → field b 0 4 ≠ 2 ∨ recordReserved b = false ∨ returnTeam s x b = none →
        runs (.returnRec x) (fun t => t.teams = s.teams ∧ t.pkg.discarded = s.pkg.discarded + 1))
      ∧ (field b 0 4 = 3 → s.pkg.microcode = [] → (s.ctx x).teardown = false →
        (recordReserved b = true → hasProfile (s.ctx x) = true →
          (∀ h ovs, readHeader s x (s.ctx x).profile = .ok (h, ovs) → h.spill = false → runs (.hcall x) (fun t =>
              t.launch s.pkg.nextLaunch = callLaunch s x ((profileQueue s x).getD 256) h ovs b ∧ t.pkg.nextLaunch = s.pkg.nextLaunch + 1 ∧ t.teams = s.teams))
          ∧ (∀ r e, readHeader s x (s.ctx x).profile = .error (r, e) → hostSlotFree s x = true → runs (.hcall x) (fun t => t.launches = s.launches ∧ s.seq < t.seq)))
        ∧ (recordReserved b = false ∨ hasProfile (s.ctx x) = false → runs (.hcall x) (fun t => t.launches = s.launches ∧ t.pkg.discarded = s.pkg.discarded + 1))))
    ∧ (∀ x h d b, oldestRecord s x (s.ctx x).hostLanding = some (d, b) → pathStalls s (hartPath h) = false → descQuiet s x (s.ctx x).hostLanding = true →
      let taken := fun (t : State) => t.teams = s.teams ∧ ∀ pa, ctxRun s x .write ((s.ctx x).hostLanding + 8) 8 = .ok [(pa, 8)] → pa % 256 + 8 ≤ 256 →
        s.writesTo (hartPath h) { pieces := [.phys pa 8], used := [] } → t.mem = Sparse.setRun s.mem pa (leBytes 8 (d.cidx + 1).toNat)
      (field b 0 4 = 4 → runs (.hostSlotFreed ⟨x, h⟩) (fun t => taken t ∧ t.ctxs = (s.putCtx x (fun y => { y with calls := y.calls.keep (fun _ k => k != field64 b 0x10) })).ctxs))
      ∧ (∀ n, field b 0 4 ≠ 4 → landingThread (s.ctx x) = some n → runs (.hostSlotFreed ⟨x, h⟩) (fun t => taken t ∧ t.ctxs = (s.putCtx x (fun y =>
          { y with tokens := y.tokens.put n ((BitVec.ofNat 32 (field b 0x10 4), field64 b 0x20) :: (y.tokens.get? n).getD []) })).ctxs))
      ∧ (field b 0 4 ≠ 4 → landingThread (s.ctx x) = none → Machine.exec (.hostSlotFreed ⟨x, h⟩) s = .next s))
    ∧ (∀ f : HartFetch, (s.ctx f.ctx).dead = false → (s.ctx f.ctx).calls.get? f.thread = none → hartFinds s f.ctx f.target = true →
      let x := s.ctx f.ctx
      let p := hartPath f.hart
      let stack := (x.tokens.get? f.thread).getD []
      ∀ d w po bs, readDesc s f.ctx x.devLanding = .ok d → d.ok = true → x.devLanding ≠ 0 → d.pidx - d.cidx ≠ BitVec.ofNat 64 (2 ^ d.log2n) → descQuiet s f.ctx x.devLanding = true →
        ctxRun s f.ctx .write (d.record d.pidx) 0x300 = .ok w → ctxRun { s with mem := mem w bs s.mem } f.ctx .write x.devLanding 8 = .ok po →
        s.calm p → s.holds p .write (linesOf w ++ linesOf po) →
        let posts := fun (g : Ctx → Ctx) => runs (.hartDarionFetch f) (fun t => t.ctxs = (s.putCtx f.ctx g).ctxs ∧ t.teams = s.teams ∧ t.seq = s.seq + 1
          ∧ t.mem = mem po (leBytes 8 (d.pidx + 1).toNat) (mem w bs s.mem))
        (∀ token rest, stack = (token, f.target) :: rest → bs = recordBytes 2 (BitVec.ofNat 64 s.seq) (token.setWidth 64) f.target f.target 0 0 (0 :: f.regs) 0 →
          posts (fun y => { y with tokens := y.tokens.put f.thread rest }))
        ∧ ((stack.head?).map Prod.snd ≠ some f.target → hasProfile x = true →
            bs = recordBytes 3 (BitVec.ofNat 64 s.seq) (BitVec.ofNat 64 f.thread) f.target 0 0 0 (0 :: f.regs) 0 →
          posts (fun y => { y with calls := y.calls.put f.thread (BitVec.ofNat 64 f.thread) })))

/-! ## From outside, repair and the package (R41, R174, R291, R292, R342, R359 to R367) -/

/-- R41, R291, R292, R340, R174, R342, R364: an inbound message is written and published, or refused and counted, with its acknowledgment; outer accesses read and write their bytes where their context, its ranges and its pages allow it, and a store-conditional only where its reservation holds; a migration ends with its stalled writes on the new page; an error costs what R342 gives; microcode is installed once nothing is placed, with every operation of the minors up to its own. That a hart's reservation is of exactly the pieces that LR read is presumed (log 19); which device pages are barred (log 13), the faults' names, and what an installed minor adds (log 12) are the model's. -/
def Obligations.OutsideAndRepair : Prop :=
  ∀ (s : State),
    let runs := fun (i : Instr) (P : State → Prop) => ∃ t, Machine.exec i s = .next t ∧ P t
    let acked := fun (good : Bool) => s.putPkg (fun g => { g with nack := !good })
    (∀ i : Inbound, let c := s.ctx i.ctx
      let becomes := fun (t : State) => Machine.exec (.inboundMessage i) s = .next t
      ((s.ctxs.get? i.ctx = none ∨ 48 < i.payload.length) → becomes (s.putPkg (fun g => { g with nack := true, refusedMsgs := g.refusedMsgs + 1 })))
      ∧ (s.ctxs.get? i.ctx ≠ none → i.payload.length ≤ 48 →
        (c.teardown = true → becomes ((acked false).putCtx i.ctx (fun y => { y with lateMsgs := y.lateMsgs + 1 })))
        ∧ (c.teardown = false → c.dead = false → c.inbound = 0 → becomes (s.putPkg (fun g => { g with nack := true, refusedMsgs := g.refusedMsgs + 1 })))
        ∧ (c.teardown = false → c.dead = false → c.inbound ≠ 0 → ∀ d, readDesc s i.ctx c.inbound 40 = .ok d → d.ok = true →
          (d.pidx - d.cidx ≠ BitVec.ofNat 64 (2 ^ d.log2n) → ∀ pa po,
            let s1 := (acked true).stored i.ctx false pa (messageBytes i)
            s.storable i.ctx (d.slot 64) 64 pa → s1.storable i.ctx c.inbound 8 po → becomes (s1.stored i.ctx true po (leBytes 8 (d.pidx + 1).toNat)))
          ∧ (d.pidx - d.cidx = BitVec.ofNat 64 (2 ^ d.log2n) → ∀ n pa, ctxNat s i.ctx (c.inbound + 0x20) 8 = .ok n → s.storable i.ctx (c.inbound + 0x20) 8 pa →
            becomes ((acked false).stored i.ctx false pa (leBytes 8 (BitVec.ofNat 64 (n + 1)).toNat))))))
    ∧ (∀ a i p, (i = Instr.hostHartAccess a ∧ p = hartPath a.agent) ∨ (i = .peerAccess a ∧ p = .peer a.agent ∧ inShared (s.ctx a.ctx) a = true ∧ hartOnly a.op = false) →
      let refused := fun (f : HartFault) (e : W64) => (i = .peerAccess a → Machine.exec i s = .next (acked false))
        ∧ (i = .hostHartAccess a → runs i (fun t => t = { s with harts := t.harts } ∧ t.hart (a.agent % 32) = { s.hart (a.agent % 32) with fault := some (f, e) }
          ∧ ∀ h, h ≠ a.agent % 32 → t.hart h = s.hart h))
      (s.ctxs.get? a.ctx = none → refused .page a.addr)
      ∧ (s.ctxs.get? a.ctx ≠ none → a.atomicOk = false → refused .misaligned a.addr)
      ∧ (s.ctxs.get? a.ctx ≠ none → a.atomicOk = true → ∀ e, ctxRun s a.ctx a.need a.addr a.size = .error e → refused (refusedBy s a.ctx a.need e) e)
      ∧ (s.ctxs.get? a.ctx ≠ none → a.atomicOk = true → ∀ ps, ctxRun s a.ctx a.need a.addr a.size = .ok ps → ps.any (fun r => barred s none r.1) = true → refused .access a.addr)
      ∧ (s.ctxs.get? a.ctx ≠ none → a.atomicOk = true → ∀ ps, ctxRun s a.ctx a.need a.addr a.size = .ok ps → ps.any (fun r => barred s none r.1) = false →
          s.calm p → (∀ w ∈ s.pkg.outers, w.1 ≠ p) → s.holds p (outerUse a false) (linesOf ps) →
        (∀ n, a.op = .read n → a.release = false → runs i (fun t => sameMemory s t ∧ t.teams = s.teams
            ∧ t.pkg.port = ps.flatMap (fun r => bytesSeen (if a.acquire then (noteAcquire p (wordsOfRun ps)).final s else s) p r.1 r.2)))
        ∧ (∀ bs pa, a.op = .write bs → ps = [(pa, bs.length)] → runs i (fun t => t.mem = Sparse.setRun s.mem pa bs ∧ t.teams = s.teams ∧ t.pkg.stalled = s.pkg.stalled))
        ∧ (∀ op w x pa, a.op = .atomic op w x → ps = [(pa, if w then 8 else 4)] →
            let n := if w then 8 else 4
            let old := readNat s pa n
            runs i (fun t => t.pkg.port = leBytes n old ∧ t.mem = Sparse.setRun s.mem pa (leBytes n (atomicOp op.toNat (8 * n) old (x.toNat % 2 ^ (8 * n))).1)
              ∧ (op = 0 → t.mem = Sparse.setRun s.mem pa (leBytes n (x.toNat % 2 ^ (8 * n))))
              ∧ (op = 1 → t.mem = Sparse.setRun s.mem pa (leBytes n ((old + x.toNat) % 2 ^ (8 * n))))))
        ∧ (∀ w, a.op = .lr w → runs i (fun t => t.pkg.port = leBytes (if w then 8 else 4) (leNat (piecesNow s ps)) ∧ sameMemory s t
            ∧ (t.hart (a.agent % 32)).reserve = some (ps, s.writes)))
        ∧ (∀ w x pa, a.op = .sc w x → ps = [(pa, if w then 8 else 4)] →
            let good := reserved s p (s.hart (a.agent % 32)) ps
            runs i (fun t => t.pkg.port = [if good then 0 else 1] ∧ (t.hart (a.agent % 32)).reserve = none
              ∧ t.mem = if good then Sparse.setRun s.mem pa (leBytes (if w then 8 else 4) x.toNat) else s.mem))))
    ∧ (∀ a, inShared (s.ctx a.ctx) a = false ∨ hartOnly a.op = true → Machine.exec (.peerAccess a) s = .next (acked false))
    ∧ (∀ page new, s.pkg.locks.find? (fun l => l.1 == page) = some (page, new) → drainRuns s = false → s.coh.pageBusy page = false → runs (.migrationComplete page) (fun t =>
        t.pkg.locks = s.pkg.locks.filter (fun l => l.1 != page) ∧ t.teams = s.teams ∧ (∀ line d, d < 8 → line / 16 = page → page ≠ new → t.coh.held line d = none)
        ∧ (∀ c, ∀ e ∈ (t.core c).tlb, ¬(e.pa ≤ 4096 * page ∧ 4096 * page < e.pa + e.size))
        ∧ ∀ e, s.pkg.locks = [(page, new)] → page ≠ new → s.coh.busy = [] → s.coh.queued = [] → s.pkg.stalled = [e] → e.place = .phys → e.pa / 4096 = page → e.rmw = false → underReset s e = false →
            t.pkg.stalled = [] ∧ ∀ i, i < e.bytes.length → readByte t (4096 * new + e.pa % 4096 + i) = e.bytes.getD i 0))
    ∧ (∀ page, (s.pkg.locks.find? (fun l => l.1 == page) = none ∨ drainRuns s = true ∨ s.coh.pageBusy page = true) → Machine.exec (.migrationComplete page) s = .next s)
    ∧ (∀ e : SoftError, runs (.softError e) (fun t => ((∀ c n g, e.place = .datapath c n g → entryAt s c n ≠ none) → s.seq < t.seq) ∧ (match e.place with
        | .overlaySlot c i => ∀ o, (s.core c).slots[i]? = some o → (t.core c).slots[i]? = some { o with valid := false }
        | .tlbEntry c n => (t.core c).tlb = (s.core c).tlb.eraseIdx n ∧ t.teams = s.teams
        | .dieTlbEntry d n => (t.die d).tlb = (s.die d).tlb.eraseIdx n ∧ t.teams = s.teams
        | .held x => (s.ctxs.get? x).isSome = true → (s.ctx x).resetCode = 0 → (s.ctx x).dead = false → (t.ctx x).resetCode = 2 ∧ (t.ctx x).teardown = true
        | .proofTile k => (t.team k).spec = none
        | .datapath c n g => ∀ e, entryAt s c n = some e → ((e.fails.get? g).getD 0 < 2 →
              entryAt t c n = some { e with fails := e.fails.put g ((e.fails.get? g).getD 0 + 1), disturbed := true }) ∧ (2 ≤ (e.fails.get? g).getD 0 → (s.ctxs.get? (s.blockOf e.team).ctx).isSome = true →
            (s.ctx (s.blockOf e.team).ctx).resetCode = 0 → (s.ctx (s.blockOf e.team).ctx).dead = false → (t.ctx (s.blockOf e.team).ctx).resetCode = 3)
        | .cleanLine _ | .corrected _ | .sliceRow _ _ _ => t.ctxs = s.ctxs
        | .hbmPage p => (∀ x ∈ ctxsMapping s p, (s.ctxs.get? x).isSome = true → (s.ctx x).resetCode = 0 → (s.ctx x).dead = false → (t.ctx x).resetCode = 2) ∧ p ∈ t.pkg.retired)))
    ∧ (∀ i rest, s.pkg.microcode = i :: rest → (∀ b ∈ s.blocks, b.2.resident = false) → runs .microcodeInstall (fun t => t.pkg.microcode = rest ∧ t.pkg.image = some i
        ∧ (t.pkg.version.toNat / 2 ^ 16 % 2 ^ 8 = Config.imageMinor i % 2 ^ 8) ∧ (∀ d, d < 4 → (t.die d).minor = Config.imageMinor i
          ∧ (∀ op n, (s.die d).ops.get? op = some n → (t.die d).ops.get? op = some n)
          ∧ ∀ n k, k < 32 → 0 < n → n ≤ Config.imageMinor i → Config.minorAdds n (0x3E0 + k) = true → (t.die d).ops.get? (0x3E0 + k) ≠ none) ∧ t.teams = s.teams))
    ∧ (s.pkg.microcode = [] ∨ (∃ b ∈ s.blocks, b.2.resident = true) → Machine.exec .microcodeInstall s = .next s)

/-- R20, R359, R362, R365 to R367: power-up and power-off leave the package as reset does, but for the count of power-ups; boot runs its checks in order, and a failing one sets its code and halts; FWQ is latched once; cores and dies change their power state; the ports and a read of the management BAR answer. What answers while the package is down or halted, 0x81 for a misaligned IMGADDR and when POWER_UP acts are the model's (log 24), and so are the reset values (log 3) and where firmware stands (log 7). -/
def Obligations.PackageEvents : Prop :=
  ∀ (s : State),
    let g := s.pkg
    let runs := fun (i : Instr) (P : State → Prop) => ∃ t, Machine.exec i s = .next t ∧ P t
    let empty := fun (t : State) => t.mem = [] ∧ t.teams = [] ∧ t.blocks = [] ∧ t.slots = [] ∧ t.cores = [] ∧ t.dies = [] ∧ t.launches = [] ∧ t.queues = [] ∧ t.ctxs = [] ∧ t.harts = [] ∧ t.hist = []
    let code := fun (i : Instr) (v : W64) (a : BitVec 8) (b : BitVec 4) (h : Bool) =>
      Machine.exec i s = .next (s.putPkg (fun g => { g with imgaddr := v, bootcode := a, bootdie := b, halted := h }))
    let boots := fun (i : Instr) (v : W64) =>
      let n := g.imglen.toNat
      let sound := n % 16 = 0 ∧ 4096 ≤ n ∧ n ≤ 2 ^ 26 ∧ v.toNat % 4096 = 0 ∧ Config.imageReadable v n = true
      let ed := Config.imageEd25519 v n = true
      let ml := Config.imageMlDsa65 v n = true
      let rb := Config.imageRollbackOk v n = true
      let measured := (List.range 48).map (Config.digestByte 1 [v.toNat, n])
      (¬sound → code i v 0x81 0 false) ∧ (sound → ¬ed → code i v 0x82 0 true) ∧ (sound → ed → ¬ml → code i v 0x83 0 true) ∧ (sound → ed → ml → ¬rb → code i v 0x85 0 true)
      ∧ (sound → ed → ml → rb → (∀ d, d < 4 → Config.dieTrains d = false → (∀ e, e < d → Config.dieTrains e = true) →
          Machine.exec i s = .next (s.putPkg (fun g => { g with imgaddr := v, measured := measured, bootcode := 0x84, bootdie := BitVec.ofNat 4 d, halted := true })))
        ∧ ((∀ d, d < 4 → Config.dieTrains d = true) → runs i (fun t => t.mem = [] ∧ t.pkg.bootcode = 2 ∧ t.pkg.measured = measured ∧ t.pkg.bootdie = 0 ∧ t.pkg.halted = false
            ∧ ∀ d, d < 4 → (t.team (firmwareTeam d)).pc = Config.firmwareEntry)))
    (g.down = true ∨ (g.bootcode = 0 ∧ g.halted = false) → runs .powerUp (fun t => empty t ∧ t.pkg = { State.resetPkg with bootcode := 1, powerups := g.powerups + 1, poweredAt := s.clock }))
    ∧ (g.down = false → g.bootcode ≠ 0 ∨ g.halted = true → Machine.exec .powerUp s = .next s)
    ∧ (∀ i ∈ [Instr.powerOff, .thermalShutdown], runs i (fun t => empty t ∧ t.pkg = { State.resetPkg with down := true, powerups := g.powerups, poweredAt := s.clock }))
    ∧ (∀ b, Machine.exec (.thermalThrottle b) s = .next (s.putPkg (fun g => { g with throttled := b })))
    ∧ (g.bootcode = 1 → (∀ v, boots (.imgaddrWrite v) v) ∧ (∀ v, boots (.managementRegisterWrite 0x0C v) (v ++ g.imgaddr.setWidth 32))
        ∧ (∀ v, Machine.exec (.managementRegisterWrite 0x04 v) s = .next (s.putPkg (fun g => { g with imglen := v })))
        ∧ (∀ v, Machine.exec (.managementRegisterWrite 0x08 v) s = .next (s.putPkg (fun g => { g with imgaddr := g.imgaddr.extractLsb' 32 32 ++ v }))))
    ∧ (∀ v, g.bootcode ≠ 1 → Machine.exec (.imgaddrWrite v) s = .next s)
    ∧ (∀ v, g.bootcode = 2 → g.fwqLatched = false → Machine.exec (.fwqWrite v) s = .next (s.putPkg (fun g => { g with fwq := v, fwqLatched := true })))
    ∧ (∀ v, g.bootcode ≠ 2 ∨ g.fwqLatched = true → Machine.exec (.fwqWrite v) s = .next s)
    ∧ (∀ c, (s.cores.get? c).isSome = true → s.corePower c = .active → fMode c = false → (∀ b ∈ s.blocks, b.2.core = c → b.2.resident = false) →
        Machine.exec (.coreIdle c) s = .next { s with cores := s.cores.put c { s.core c with power := .idle } })
    ∧ (∀ d, d < 4 → (s.die d).on = true → dieUsed s d = false → s.coh.asksNone d = true → runs (.diePowerOff d) (fun t => (t.die d).on = false ∧ (t.die d).tlb = [] ∧ (t.die d).handles = [] ∧ sameMemory s t
        ∧ (∀ e ∈ t.coh.l2, e.1 % 8 ≠ d) ∧ t.teams.get? (firmwareTeam d) = none ∧ ∀ c, dieOf c = d → t.corePower c = .off))
    ∧ (∀ d, d < 4 → (s.die d).on = false → Config.dieTrains d = true → runs (.diePowerOn d) (fun t => (t.die d).on = true ∧ (t.die d).minor = (s.die d).minor ∧ (t.die d).ops = (s.die d).ops
        ∧ (∀ pa, addressDie pa = d → readByte t pa = 0) ∧ (∀ pa, addressDie pa ≠ d → readByte t pa = readByte s pa) ∧ (t.team (firmwareTeam d)).pc = Config.firmwareEntry))
    ∧ (∀ d, d < 4 → (s.die d).on = false → Config.dieTrains d = false → Machine.exec (.diePowerOn d) s = .next (s.putPkg (fun g => { g with bootcode := 0x84, bootdie := BitVec.ofNat 4 d, halted := true })))
    ∧ (∀ n, Machine.exec (.i3cRead n) s = .next (s.putPkg (fun g => { g with port := [Config.i3cByte n s.clock] })))
    ∧ Machine.exec .boundaryScan s = .next (s.putPkg (fun g => { g with port := [0x15, 0x0E, 0x38, 0x04, BitVec.ofNat 8 g.bootcode.toNat, BitVec.ofNat 8 g.bootdie.toNat, 0, 0] }))
    ∧ (g.down = true → ∀ off, readBar g off = none)
    ∧ (g.down = false → readBar g 0 = some (BitVec.ofNat 32 (g.bootdie.toNat * 256 + g.bootcode.toNat)) ∧ (g.halted = false →
        readBar g 4 = some g.imglen ∧ readBar g 8 = some (g.imgaddr.setWidth 32) ∧ readBar g 0xC = some (g.imgaddr.extractLsb' 32 32)
        ∧ readBar g 0x10 = some (g.fwq.setWidth 32) ∧ readBar g 0x14 = some (g.fwq.extractLsb' 32 32)
        ∧ ∀ off, off % 4 = 0 → off < 4096 → off = 0x18 ∨ 0x20 ≤ off → readBar g off = some 0))

/-! ## Requests (R360, R361) -/

/-- R360, R361, R363, R364: the request at the head of the queue is served once: its effect, then STATUS, then CIDX; one with a reserved field, an argument out of range or an unlisted CODE is invalid (3) and one about no live context, or that the state forbids, is refused (2), both without effect. The places and codes of the arguments that R361 does not give are the model's (log 9), and so are the STATUS answers that it does not list, and what a request about a dead context comes to (log 10, log 22). -/
def Obligations.FirmwareRequests : Prop :=
  ∀ (s : State) (r : Request), nextRequest s = some r → lockedTo s (r.slot + 4) = none → lockedTo s (s.pkg.fwq.toNat + 8) = none →
    (r.slot + 4) % 256 + 4 ≤ 256 → (s.pkg.fwq.toNat + 8) % 256 + 8 ≤ 256 → s.late = false → pathStalls s firmwarePath = false →
    s.holds firmwarePath .write (linesOf [(r.slot + 4, 4), (s.pkg.fwq.toNat + 8, 8)]) →
    let x := r.ctx
    let is := fun (i : Instr) (t : State) (status : Nat) => Machine.exec i s = .next (t.serves r status)
    let ctxs := [(2, Instr.resetContext), (3, .bindQueue), (4, .registerFpThresholds), (5, .registerLanding), (6, .registerObservation), (7, .registerInboundQueue),
      (8, .externalSharedRange), (12, .swapContext), (14, .debugControl)]
    let others := [(1, Instr.createContext), (10, .invalidateTranslation), (11, .migratePage), (13, .setPartitions), (15, .loadMicrocode), (16, .attest)]
    let live := liveCtx s x = true
    let sets := fun (i : Instr) (f : Ctx → Ctx) => is i (s.putCtx x f) 1
    (∀ k i, (k, i) ∈ ctxs ++ others → (r.code = k → r.bad = true → is i s 3) ∧ (r.code ≠ k → Machine.exec i s = .next s))
    ∧ (∀ k i, (k, i) ∈ [(2, Instr.resetContext), (4, .registerFpThresholds), (7, .registerInboundQueue)] → r.code = k → r.bad = false → r.arg 0 = 0 → ¬live → is i s 2)
    ∧ ((r.code = 0 ∨ 16 < r.code) → is .unknownRequest s 3)
    ∧ (r.code = 9 → r.bad = true ∨ 1024 ≤ (r.arg 0).toNat ∨ 1 < r.arg 1 → (r.arg 1 = 0 → is .pageFaultRetry s 3) ∧ (r.arg 1 ≠ 0 → is .pageFaultRefuse s 3))
    ∧ (r.bad = false →
      (r.code = 1 → ((r.arg 0).toNat < 8 → (r.arg 1).toNat % 4096 = 0 → (r.arg 2).toNat < 2 ^ 16 → (r.arg 3).toNat ≤ 1 →
          (s.ctxs.get? x = none ∨ (s.ctx x).dead = true → (r.arg 0).toNat ∈ s.pkg.parts → (runningCtxs s (r.arg 0).toNat).length < 64 →
            sets .createContext (fun _ => { State.blankCtx with asid := (r.arg 2).toNat, root := r.arg 1, part := (r.arg 0).toNat, prot := r.arg 3 == 1,
                                                                 key := if (s.ctx x).prot then (s.ctx x).key else if r.arg 3 = 1 then Config.contextKey s.pkg.powerups x else 0, counter := (s.ctx x).counter }))
          ∧ (s.ctxs.get? x ≠ none → (s.ctx x).dead = false → is .createContext s 2))
        ∧ (8 ≤ (r.arg 0).toNat → is .createContext s 3))
      ∧ (r.code = 2 → live → is .resetContext ((beginReset x 5).final s) 1)
      ∧ (r.code = 3 → live → goodAddr (r.arg 0) 256 = true → ∀ b q, ctxBytes s x (r.arg 0) 128 = .ok b → freeQueue s x = some q → descriptorOk b = true →
          (∀ k ∈ ctxQueues s x, k.2.desc ≠ r.arg 0) → is .bindQueue { s with queues := s.queues.put q { State.blankQueue with
            ctx := x, desc := r.arg 0, base := field64 b 0x48, log2n := field b 0x50 4 % 32, prio := field b 0x50 4 / 2 ^ 8 % 4, nq := field64 b 0x58, state := .active,
            reason := field b 8 4 / 2 ^ 8 % 2 ^ 8, kill := (field b 8 4).testBit 2, ctrlSeen := s.writes, wridx := field64 b 0, rdidx := field64 b 0x40 } } 1)
      ∧ (r.code = 4 → live → zeroOr 256 (r.arg 0) = true → sets .registerFpThresholds (fun y => { y with thrAddr := r.arg 0 }))
      ∧ (r.code = 5 → live → zeroOr 64 (r.arg 0) = true → zeroOr 64 (r.arg 1) = true → canonical (r.arg 3) = true → zeroOr 64 (r.arg 4) = true → (r.arg 5).toNat / 4 % 2 = 0 → (r.arg 5).toNat / 16 % 16 = 0 →
          (r.arg 5 = 0 ∨ ∃ q ∈ ctxQueues s x, q.2.desc = r.arg 5 &&& ~~~(0xFF : W64)) → (r.arg 2 = 0 ∨ r.arg 0 ≠ 0) →
          sets .registerLanding (fun y => { y with hostLanding := r.arg 0, devLanding := r.arg 1, threads := (r.arg 2).toNat, service := r.arg 3, profile := r.arg 4, profileWord := r.arg 5 }))
      ∧ (r.code = 6 → live → zeroOr 64 (r.arg 0) = true → zeroOr 64 (r.arg 1) = true → canonical (r.arg 2) = true →
          sets .registerObservation (fun y => { y with profBlock := r.arg 0, traceQ := r.arg 1, dumpBuf := r.arg 2, dumpLen := (r.arg 3).toNat }))
      ∧ (r.code = 7 → live → zeroOr 64 (r.arg 0) = true → sets .registerInboundQueue (fun y => { y with inbound := r.arg 0 }))
      ∧ (r.code = 8 → live → (goodAddr (r.arg 0) (2 ^ 21) = true → (r.arg 1).toNat % 2 ^ 21 = 0 →
          sets .externalSharedRange (fun y => { y with shared := (r.arg 0, r.arg 1) :: y.shared.filter (fun z => z.1 != r.arg 0) }))
        ∧ ((r.arg 1).toNat % 2 ^ 21 ≠ 0 → is .externalSharedRange s 3))
      ∧ (∀ f, r.code = 9 → (r.arg 0).toNat < 1024 → handleOf s (r.arg 0).toNat = some f → f.ctx = x →
          let h := (r.arg 0).toNat
          let closed := { s with dies := s.dies.put (h / 256) { s.die (h / 256) with handles := (s.die (h / 256)).handles.del (h % 256) } }
          (r.arg 1 = 0 → is .pageFaultRetry ((releaseWaiters h).final closed) 1 ∧ ∀ k, ((releaseWaiters h).final closed).team k =
            { s.team k with faultAt := if (s.team k).faultAt = some h then none else (s.team k).faultAt,
                            laneFaultAt := if (s.team k).laneFaultAt = some h then none else (s.team k).laneFaultAt,
                            migr := if (s.team k).faultAt = some h then none else (s.team k).migr })
          ∧ (r.arg 1 = 1 → ∀ u, u = (refuseWaiters h f).final closed → u.pkg.locks = s.pkg.locks → pathStalls u firmwarePath = false → u.pkg.fwq = s.pkg.fwq → u.late = false → u.holds firmwarePath .write (linesOf [(r.slot + 4, 4), (s.pkg.fwq.toNat + 8, 8)]) → is .pageFaultRefuse u 1))
      ∧ (r.code = 9 → (r.arg 0).toNat < 1024 → handleOf s (r.arg 0).toNat = none → (r.arg 1 = 0 → is .pageFaultRetry s 2) ∧ (r.arg 1 = 1 → is .pageFaultRefuse s 2))
      ∧ (r.code = 10 → drainRuns s = false → writesDue s = false → ∃ u, is .invalidateTranslation u 1 ∧ u.mem = s.mem ∧ u.teams = s.teams
          ∧ ∀ c, (u.core c).tlb = (s.core c).tlb.filter (fun e => !tlbMatches ((r.arg 0).getLsbD 0) ((r.arg 1).getLsbD 16) ((r.arg 1).toNat % 2 ^ 16) (r.arg 0) e))
      ∧ (let old := (r.arg 0).toNat
        let new := (r.arg 1).toNat
        r.code = 11 → old % 4096 = 0 → new % 4096 = 0 → (homeDie s old).isSome = true → (homeDie s new).isSome = true → old ≠ new → (s.pkg.locks = [] → s.coh.pageBusy (old / 4096) = false → s.coh.pageBusy (new / 4096) = false →
          (r.slot + 4) / 4096 ≠ old / 4096 → (s.pkg.fwq.toNat + 8) / 4096 ≠ old / 4096 → (r.slot + 4) / 4096 ≠ new / 4096 → (s.pkg.fwq.toNat + 8) / 4096 ≠ new / 4096 → ∃ u, is .migratePage u 1 ∧ u.mem = Sparse.setRun s.mem new (readBytes s old 4096)
            ∧ u.pkg = { s.pkg with locks := [(old / 4096, new / 4096)] } ∧ u.teams = s.teams)
        ∧ (∀ n, (old / 4096, n) ∈ s.pkg.locks → is .migratePage s 2))
      ∧ (r.code = 12 → live → ((s.ctx x).swapped = true → ((runningCtxs s (s.ctx x).part).length < 64 → sets .swapContext (fun y => { y with swapped := false }))
          ∧ (64 ≤ (runningCtxs s (s.ctx x).part).length → is .swapContext s 2))
        ∧ ((s.ctx x).swapped = false → ∃ u, is .swapContext u 1 ∧ (u.ctx x).swapped = true ∧ ∀ b ∈ s.blocks, b.2.ctx = x → b.2.phase = .placed → (u.block b.1).phase = .stopping))
      ∧ (r.code = 13 → (∀ p ∈ partMap r, p < 8) → (∀ n ∈ carveMap r, n ≤ 20) →
          ((∀ b ∈ s.blocks, b.2.resident = false) → (∀ c ∈ s.ctxs, c.2.dead = false → c.2.part ∈ partMap r) →
            pathDie (s.putPkg (fun g => { g with parts := partMap r })) firmwarePath = pathDie s firmwarePath → ∃ u, is .setPartitions u 1 ∧ u.pkg = { s.pkg with parts := partMap r } ∧ ∀ d, d < 4 → (u.die d).carved = (carveMap r).getD d 0)
          ∧ (∀ b ∈ s.blocks, b.2.resident = true → (s.ctx b.2.ctx).part ∈ affected s r → is .setPartitions s 2)
          ∧ (∀ c ∈ s.ctxs, c.2.dead = false → c.2.part ∉ partMap r → is .setPartitions s 2))
      ∧ (∀ k, r.code = 14 → live → (r.arg 0).toNat ≤ 5 → (r.arg 2).toNat ≤ 3 → (teamNamed s x (r.arg 1) = none → is .debugControl s 2)
        ∧ (teamNamed s x (r.arg 1) = some k → (r.arg 0 = 2 → is .debugControl (s.putTeam k (fun m => { m with stopped := false })) 1)
          ∧ (r.arg 0 = 4 → ∃ u, is .debugControl u 1 ∧ ∃ v, u = s.putTeam k (fun m => { m with pcmatch := v }) ∧ v[(r.arg 2).toNat]? = some (r.arg 3 &&& 0x81FFFFFFFFFFFFFC))
          ∧ (r.arg 0 = 0 → (s.team k).exited = false → ∃ u, Machine.exec .debugControl s = .next u ∧ (u.team k).stopped = true)))
      ∧ (let a := r.arg 0
        let good := Config.imageReadable a 0 = true ∧ Config.imageEd25519 a 0 = true ∧ Config.imageMlDsa65 a 0 = true ∧ Config.imageRollbackOk a 0 = true
          ∧ s.pkg.version.toNat / 2 ^ 16 % 2 ^ 8 < Config.imageMinor a ∧ ∀ i ∈ s.pkg.microcode, Config.imageMinor i < Config.imageMinor a
        r.code = 15 → (good → is .loadMicrocode (s.putPkg (fun g => { g with microcode := g.microcode ++ [a] })) 1) ∧ (¬good → is .loadMicrocode s 2))
      ∧ (r.code = 16 → (∀ pa, (s.ctxs.get? x).isSome = true → ctxRun s x .write (r.arg 4) 4096 = .ok [(pa, 4096)] → lockedTo s pa = none → s.holds firmwarePath .write (linesOf [(pa, 4096)]) →
          ∃ u, is .attest u 1 ∧ u.mem = Sparse.setRun s.mem pa (report s r (some x)) ∧ u.teams = s.teams)
        ∧ (s.ctxs.get? x = none → x ≠ 0 → is .attest s 2)))

/-! ## A step (R20, R68, R70, R84, R195, R360, R362) -/

/-- R70, R84, R195, R360: a step runs the decoded instruction: the scalar word at the PC of the team whose turn it is, ILLEGAL where it decodes to none, the lane instruction at the cursor, the copy entry at CONS, the request at the head of the queue, or the event that is due; before it the turn has left the agenda, and nothing else has changed but what reading the instruction does: the slot's last use and the team's place in the order of issue, who waits for its issue, lines and translations kept, and reads noted. -/
def Obligations.StepRuns : Prop :=
  ∀ (s : State) (k : Nat), dead s = false →
    let v := s.tickOn
    (turnOf? s = some (.scalar k) → mayIssue v k = true → (s.team k).tcause ≠ 0 ∨ (s.team k).pending = [] → pcMatched (s.team k) = none → ∀ w, wordAt v k = some w →
      ∃ u, step s = Machine.exec (match decodeScalar w with | .ok i => i | .error _ => .illegalInstruction) u
        ∧ u = { v with cur := k, cores := u.cores, teams := u.teams }
        ∧ (∀ j, u.team j = { s.team j with yieldTo := (s.team j).yieldTo.filter (· != k), issuedAt := if j = k then v.clock else (s.team j).issuedAt })
        ∧ ∀ c, u.core c = { s.core c with slots := (u.core c).slots, turn := if c = coreOf k then slotOf k else (s.core c).turn }
          ∧ (u.core c).slots.map (fun o => { o with used := 0 }) = (s.core c).slots.map (fun o => { o with used := 0 }))
    ∧ (∀ j o, (s.team k).ahead = [] → slotOf? s k (s.team k).pc = some j → (s.core (coreOf k)).slots[j]? = some o →
      wordAt s k = some (Sparse.get o.words (((s.team k).pc.toNat - o.base.toNat) / 4)))
    ∧ (turnOf? s = some (.lanes k) → lanesRun v k = true → ∀ i, nextLane (s.team k) = some i → step s = Machine.exec i { v with cur := k })
    ∧ (let y := s.block k
      turnOf? s = some (.ring k) → y.ring.faulted = false → y.ring.halting = [] → y.ring.canTake = true → engineRuns v k = true →
      ∀ p i, localPlan v (engineSpace v k) y .read (BitVec.ofNat 64 y.ring.entryAddr) 32 = .ok p → v.reads (.copy k) k p →
      decodeCopy (BitVec.ofNat 256 (leNat (planBytes v (.copy k) k p))) = .ok i →
      ∃ u, step s = Machine.exec i u ∧ u = { v with curBlk := k, cores := u.cores, dies := u.dies, hist := u.hist, coh := u.coh }
        ∧ (∀ c, u.core c = { s.core c with tlb := (u.core c).tlb }) ∧ (∀ d, u.die d = { s.die d with tlb := (u.die d).tlb })
        ∧ u.coh.l2 = s.coh.l2)
    ∧ (turnOf? s = some .request → ∀ r, nextRequest v = some r → step s = Machine.exec (requestInstr r) v)
    ∧ (∀ i, turnOf? s = some (.ev i) → step s = Machine.exec i v)
    ∧ (∀ t, turnOf? s = some (.late t) → step s = (turnAct v t).late.perform v)

/-- Every step of every state answers a next state: the spec's errors are traps, notifications, statuses or discarded records, and no step stops the machine. R362, R365: a package that is down does nothing but power up, and one that is halted also powers off and answers its test port (what answers a package that is down or halted is the model's choice, log 24). -/
def Obligations.StepAlwaysGoesOn : Prop :=
  ∀ (s : State), (∃ t, step s = .next t) ∧ (∀ t, dead s = true → turnOf? s = some t → wakes s t = false → step s = .next s.tickOn)
    ∧ ∀ i : Instr, ∃ t, Machine.exec i s = .next t

/-- Every step keeps the canonical form of memory and the bounds of R227, R228 and R230: fewer arrivals than EXPECT, 64-bit byte counts, FREE + TAKENP + FILLED + TAKENC = SIZE and both indexes below SIZE. -/
def Obligations.StepKeepsInvariants : Prop :=
  ∀ (s t : State), step s = .next t → (s.memWf = true → t.memWf = true) ∧ (s.slotsOk = true → t.slotsOk = true)

/-- R20, R359, R362: at power-up BOOTSTAT, IMGLEN, IMGADDR and FWQ read zero, VERSION names major 2 and minor 0, no byte of memory is other than zero (the choice of log 3 before boot has cleared it), no team, block, slot, launch, queue or context exists, no overlay slot is valid, and both invariants hold; the first step brings BOOTSTAT to 1. -/
def Obligations.ResetState : Prop :=
  let s := State.reset
  s.memWf = true ∧ s.slotsOk = true ∧ (∀ pa, readByte s pa = 0) ∧ s.pkg.bootcode = 0 ∧ s.pkg.bootdie = 0 ∧ s.pkg.imglen = 0 ∧ s.pkg.imgaddr = 0 ∧ s.pkg.fwq = 0
  ∧ s.pkg.version.toNat / 2 ^ 16 = 0x200 ∧ s.teams = [] ∧ s.blocks = [] ∧ s.slots = [] ∧ s.launches = [] ∧ s.queues = [] ∧ s.ctxs = []
  ∧ (∀ c, (s.core c).slots.all (fun o => !o.valid && !o.loading) = true ∧ (s.core c).queue = [] ∧ (s.core c).fcause = 0)
  ∧ ∃ t, Machine.exec .powerUp s = .next t ∧ t.pkg.bootcode = 1
end

