-- ==== Sys2Proof/Laws/KMap.lean ====
section
/-! SUPPORT. Laws of keyed maps and of sparse memories: reading after writing, and the canonical form. -/

namespace Sys2Proof

namespace KMap

variable {α : Type}

@[simp] theorem get?_nil (a : Nat) : get? ([] : KMap α) a = none := rfl

@[simp] theorem get?_put_same (m : KMap α) (a : Nat) (x : α) : (m.put a x).get? a = some x := by
  induction m with
  | nil => simp [put, get?]
  | cons e m ih =>
    obtain ⟨k, v⟩ := e
    simp only [put]
    split
    · simp [get?]
    · split
      · simp [get?]
      · rename_i h _; simp [get?, h, ih]

theorem get?_put_ne (m : KMap α) {a b : Nat} (x : α) (h : b ≠ a) : (m.put a x).get? b = m.get? b := by
  induction m with
  | nil => simp [put, get?, Ne.symm h]
  | cons e m ih =>
    obtain ⟨k, v⟩ := e
    simp only [put]
    split
    · rename_i hk; subst hk; simp [get?, Ne.symm h]
    · split
      · simp [get?, Ne.symm h]
      · simp [get?, ih]

@[simp] theorem get?_put (m : KMap α) (a b : Nat) (x : α) : (m.put a x).get? b = if b = a then some x else m.get? b := by
  by_cases h : b = a
  · subst h; simp
  · simp [h, get?_put_ne m x h]

@[simp] theorem put_put (m : KMap α) (a : Nat) (x y : α) : (m.put a x).put a y = m.put a y := by
  induction m with
  | nil => simp [put]
  | cons e m ih =>
    obtain ⟨k, v⟩ := e
    simp only [put]
    split
    · simp [put]
    · split
      · simp [put]
      · rename_i h1 h2; simp [put, h1, h2, ih]

theorem mem_put {m : KMap α} {a : Nat} {x : α} {e : Nat × α} (h : e ∈ m.put a x) : e = (a, x) ∨ e ∈ m := by
  induction m with
  | nil => simpa [put] using h
  | cons d m ih =>
    obtain ⟨k, v⟩ := d
    simp only [put] at h
    split at h
    · simp only [List.mem_cons] at h ⊢; tauto
    · split at h
      · simp only [List.mem_cons] at h ⊢; tauto
      · simp only [List.mem_cons] at h ⊢
        rcases h with h | h
        · tauto
        · rcases ih h with h | h <;> tauto

/-- What holds of every entry holds of every entry after a put of a value of which it holds. -/
theorem all_put {m : KMap α} {p : Nat × α → Bool} {a : Nat} {x : α} (hm : m.all p) (hx : p (a, x)) : (m.put a x).all p := by
  rw [List.all_eq_true] at hm ⊢
  intro e he
  rcases mem_put he with rfl | h
  · exact hx
  · exact hm e h

theorem all_keep {m : KMap α} {p : Nat × α → Bool} {q : Nat → α → Bool} (hm : m.all p) : (m.keep q).all p := by
  rw [List.all_eq_true] at hm ⊢
  exact fun e he => hm e (List.mem_filter.mp he).1

theorem mem_of_get? {m : KMap α} {a : Nat} {x : α} (h : m.get? a = some x) : (a, x) ∈ m := by
  induction m with
  | nil => simp [get?] at h
  | cons e m ih =>
    obtain ⟨k, v⟩ := e
    simp only [get?] at h
    split at h
    · rename_i hk; subst hk; simp at h; simp [h]
    · exact List.mem_cons_of_mem _ (ih h)

end KMap

end Sys2Proof
end

