-- ==== Sys2Proof/Laws/State.lean ====
section
/-! SUPPORT. What each update does to each field of the state and of a team, and reading a part after writing it: one lemma per field per update, so that no proof unfolds a record update. -/

namespace Sys2Proof.Machine

/-! ## Updates of the state -/

@[simp] theorem Upd.team_mem (k : Nat) (f : Team → Team) (s : State) : ((Upd.team k f).apply s).mem = s.mem := rfl
@[simp] theorem Upd.team_hist (k : Nat) (f : Team → Team) (s : State) : ((Upd.team k f).apply s).hist = s.hist := rfl
@[simp] theorem Upd.team_teams (k : Nat) (f : Team → Team) (s : State) : ((Upd.team k f).apply s).teams = s.teams.put k (f (s.team k)) := rfl
@[simp] theorem Upd.team_blocks (k : Nat) (f : Team → Team) (s : State) : ((Upd.team k f).apply s).blocks = s.blocks := rfl
@[simp] theorem Upd.team_slots (k : Nat) (f : Team → Team) (s : State) : ((Upd.team k f).apply s).slots = s.slots := rfl
@[simp] theorem Upd.team_cores (k : Nat) (f : Team → Team) (s : State) : ((Upd.team k f).apply s).cores = s.cores := rfl
@[simp] theorem Upd.team_dies (k : Nat) (f : Team → Team) (s : State) : ((Upd.team k f).apply s).dies = s.dies := rfl
@[simp] theorem Upd.team_launches (k : Nat) (f : Team → Team) (s : State) : ((Upd.team k f).apply s).launches = s.launches := rfl
@[simp] theorem Upd.team_queues (k : Nat) (f : Team → Team) (s : State) : ((Upd.team k f).apply s).queues = s.queues := rfl
@[simp] theorem Upd.team_ctxs (k : Nat) (f : Team → Team) (s : State) : ((Upd.team k f).apply s).ctxs = s.ctxs := rfl
@[simp] theorem Upd.team_harts (k : Nat) (f : Team → Team) (s : State) : ((Upd.team k f).apply s).harts = s.harts := rfl
@[simp] theorem Upd.team_pkg (k : Nat) (f : Team → Team) (s : State) : ((Upd.team k f).apply s).pkg = s.pkg := rfl
@[simp] theorem Upd.team_coh (k : Nat) (f : Team → Team) (s : State) : ((Upd.team k f).apply s).coh = s.coh := rfl
@[simp] theorem Upd.team_seq (k : Nat) (f : Team → Team) (s : State) : ((Upd.team k f).apply s).seq = s.seq := rfl
@[simp] theorem Upd.team_writes (k : Nat) (f : Team → Team) (s : State) : ((Upd.team k f).apply s).writes = s.writes := rfl
@[simp] theorem Upd.team_cur (k : Nat) (f : Team → Team) (s : State) : ((Upd.team k f).apply s).cur = s.cur := rfl
@[simp] theorem Upd.team_curBlk (k : Nat) (f : Team → Team) (s : State) : ((Upd.team k f).apply s).curBlk = s.curBlk := rfl
@[simp] theorem Upd.team_agenda (k : Nat) (f : Team → Team) (s : State) : ((Upd.team k f).apply s).agenda = s.agenda := rfl
@[simp] theorem Upd.team_tick (k : Nat) (f : Team → Team) (s : State) : ((Upd.team k f).apply s).tick = s.tick := rfl
@[simp] theorem Upd.team_clock (k : Nat) (f : Team → Team) (s : State) : ((Upd.team k f).apply s).clock = s.clock := rfl
@[simp] theorem Upd.team_fresh (k : Nat) (f : Team → Team) (s : State) : ((Upd.team k f).apply s).fresh = s.fresh := rfl
@[simp] theorem Upd.team_late (k : Nat) (f : Team → Team) (s : State) : ((Upd.team k f).apply s).late = s.late := rfl

@[simp] theorem Upd.block_mem (k : Nat) (f : Block → Block) (s : State) : ((Upd.block k f).apply s).mem = s.mem := rfl
@[simp] theorem Upd.block_hist (k : Nat) (f : Block → Block) (s : State) : ((Upd.block k f).apply s).hist = s.hist := rfl
@[simp] theorem Upd.block_teams (k : Nat) (f : Block → Block) (s : State) : ((Upd.block k f).apply s).teams = s.teams := rfl
@[simp] theorem Upd.block_blocks (k : Nat) (f : Block → Block) (s : State) : ((Upd.block k f).apply s).blocks = s.blocks.put k (f (s.block k)) := rfl
@[simp] theorem Upd.block_slots (k : Nat) (f : Block → Block) (s : State) : ((Upd.block k f).apply s).slots = s.slots := rfl
@[simp] theorem Upd.block_cores (k : Nat) (f : Block → Block) (s : State) : ((Upd.block k f).apply s).cores = s.cores := rfl
@[simp] theorem Upd.block_dies (k : Nat) (f : Block → Block) (s : State) : ((Upd.block k f).apply s).dies = s.dies := rfl
@[simp] theorem Upd.block_launches (k : Nat) (f : Block → Block) (s : State) : ((Upd.block k f).apply s).launches = s.launches := rfl
@[simp] theorem Upd.block_queues (k : Nat) (f : Block → Block) (s : State) : ((Upd.block k f).apply s).queues = s.queues := rfl
@[simp] theorem Upd.block_ctxs (k : Nat) (f : Block → Block) (s : State) : ((Upd.block k f).apply s).ctxs = s.ctxs := rfl
@[simp] theorem Upd.block_harts (k : Nat) (f : Block → Block) (s : State) : ((Upd.block k f).apply s).harts = s.harts := rfl
@[simp] theorem Upd.block_pkg (k : Nat) (f : Block → Block) (s : State) : ((Upd.block k f).apply s).pkg = s.pkg := rfl
@[simp] theorem Upd.block_coh (k : Nat) (f : Block → Block) (s : State) : ((Upd.block k f).apply s).coh = s.coh := rfl
@[simp] theorem Upd.block_seq (k : Nat) (f : Block → Block) (s : State) : ((Upd.block k f).apply s).seq = s.seq := rfl
@[simp] theorem Upd.block_writes (k : Nat) (f : Block → Block) (s : State) : ((Upd.block k f).apply s).writes = s.writes := rfl
@[simp] theorem Upd.block_cur (k : Nat) (f : Block → Block) (s : State) : ((Upd.block k f).apply s).cur = s.cur := rfl
@[simp] theorem Upd.block_curBlk (k : Nat) (f : Block → Block) (s : State) : ((Upd.block k f).apply s).curBlk = s.curBlk := rfl
@[simp] theorem Upd.block_agenda (k : Nat) (f : Block → Block) (s : State) : ((Upd.block k f).apply s).agenda = s.agenda := rfl
@[simp] theorem Upd.block_tick (k : Nat) (f : Block → Block) (s : State) : ((Upd.block k f).apply s).tick = s.tick := rfl
@[simp] theorem Upd.block_clock (k : Nat) (f : Block → Block) (s : State) : ((Upd.block k f).apply s).clock = s.clock := rfl
@[simp] theorem Upd.block_fresh (k : Nat) (f : Block → Block) (s : State) : ((Upd.block k f).apply s).fresh = s.fresh := rfl
@[simp] theorem Upd.block_late (k : Nat) (f : Block → Block) (s : State) : ((Upd.block k f).apply s).late = s.late := rfl

@[simp] theorem Upd.core_mem (k : Nat) (f : Core → Core) (s : State) : ((Upd.core k f).apply s).mem = s.mem := rfl
@[simp] theorem Upd.core_hist (k : Nat) (f : Core → Core) (s : State) : ((Upd.core k f).apply s).hist = s.hist := rfl
@[simp] theorem Upd.core_teams (k : Nat) (f : Core → Core) (s : State) : ((Upd.core k f).apply s).teams = s.teams := rfl
@[simp] theorem Upd.core_blocks (k : Nat) (f : Core → Core) (s : State) : ((Upd.core k f).apply s).blocks = s.blocks := rfl
@[simp] theorem Upd.core_slots (k : Nat) (f : Core → Core) (s : State) : ((Upd.core k f).apply s).slots = s.slots := rfl
@[simp] theorem Upd.core_cores (k : Nat) (f : Core → Core) (s : State) : ((Upd.core k f).apply s).cores = s.cores.put k (f (s.core k)) := rfl
@[simp] theorem Upd.core_dies (k : Nat) (f : Core → Core) (s : State) : ((Upd.core k f).apply s).dies = s.dies := rfl
@[simp] theorem Upd.core_launches (k : Nat) (f : Core → Core) (s : State) : ((Upd.core k f).apply s).launches = s.launches := rfl
@[simp] theorem Upd.core_queues (k : Nat) (f : Core → Core) (s : State) : ((Upd.core k f).apply s).queues = s.queues := rfl
@[simp] theorem Upd.core_ctxs (k : Nat) (f : Core → Core) (s : State) : ((Upd.core k f).apply s).ctxs = s.ctxs := rfl
@[simp] theorem Upd.core_harts (k : Nat) (f : Core → Core) (s : State) : ((Upd.core k f).apply s).harts = s.harts := rfl
@[simp] theorem Upd.core_pkg (k : Nat) (f : Core → Core) (s : State) : ((Upd.core k f).apply s).pkg = s.pkg := rfl
@[simp] theorem Upd.core_coh (k : Nat) (f : Core → Core) (s : State) : ((Upd.core k f).apply s).coh = s.coh := rfl
@[simp] theorem Upd.core_seq (k : Nat) (f : Core → Core) (s : State) : ((Upd.core k f).apply s).seq = s.seq := rfl
@[simp] theorem Upd.core_writes (k : Nat) (f : Core → Core) (s : State) : ((Upd.core k f).apply s).writes = s.writes := rfl
@[simp] theorem Upd.core_cur (k : Nat) (f : Core → Core) (s : State) : ((Upd.core k f).apply s).cur = s.cur := rfl
@[simp] theorem Upd.core_curBlk (k : Nat) (f : Core → Core) (s : State) : ((Upd.core k f).apply s).curBlk = s.curBlk := rfl
@[simp] theorem Upd.core_agenda (k : Nat) (f : Core → Core) (s : State) : ((Upd.core k f).apply s).agenda = s.agenda := rfl
@[simp] theorem Upd.core_tick (k : Nat) (f : Core → Core) (s : State) : ((Upd.core k f).apply s).tick = s.tick := rfl
@[simp] theorem Upd.core_clock (k : Nat) (f : Core → Core) (s : State) : ((Upd.core k f).apply s).clock = s.clock := rfl
@[simp] theorem Upd.core_fresh (k : Nat) (f : Core → Core) (s : State) : ((Upd.core k f).apply s).fresh = s.fresh := rfl
@[simp] theorem Upd.core_late (k : Nat) (f : Core → Core) (s : State) : ((Upd.core k f).apply s).late = s.late := rfl

@[simp] theorem Upd.die_mem (k : Nat) (f : Die → Die) (s : State) : ((Upd.die k f).apply s).mem = s.mem := rfl
@[simp] theorem Upd.die_hist (k : Nat) (f : Die → Die) (s : State) : ((Upd.die k f).apply s).hist = s.hist := rfl
@[simp] theorem Upd.die_teams (k : Nat) (f : Die → Die) (s : State) : ((Upd.die k f).apply s).teams = s.teams := rfl
@[simp] theorem Upd.die_blocks (k : Nat) (f : Die → Die) (s : State) : ((Upd.die k f).apply s).blocks = s.blocks := rfl
@[simp] theorem Upd.die_slots (k : Nat) (f : Die → Die) (s : State) : ((Upd.die k f).apply s).slots = s.slots := rfl
@[simp] theorem Upd.die_cores (k : Nat) (f : Die → Die) (s : State) : ((Upd.die k f).apply s).cores = s.cores := rfl
@[simp] theorem Upd.die_dies (k : Nat) (f : Die → Die) (s : State) : ((Upd.die k f).apply s).dies = s.dies.put k (f (s.die k)) := rfl
@[simp] theorem Upd.die_launches (k : Nat) (f : Die → Die) (s : State) : ((Upd.die k f).apply s).launches = s.launches := rfl
@[simp] theorem Upd.die_queues (k : Nat) (f : Die → Die) (s : State) : ((Upd.die k f).apply s).queues = s.queues := rfl
@[simp] theorem Upd.die_ctxs (k : Nat) (f : Die → Die) (s : State) : ((Upd.die k f).apply s).ctxs = s.ctxs := rfl
@[simp] theorem Upd.die_harts (k : Nat) (f : Die → Die) (s : State) : ((Upd.die k f).apply s).harts = s.harts := rfl
@[simp] theorem Upd.die_pkg (k : Nat) (f : Die → Die) (s : State) : ((Upd.die k f).apply s).pkg = s.pkg := rfl
@[simp] theorem Upd.die_coh (k : Nat) (f : Die → Die) (s : State) : ((Upd.die k f).apply s).coh = s.coh := rfl
@[simp] theorem Upd.die_seq (k : Nat) (f : Die → Die) (s : State) : ((Upd.die k f).apply s).seq = s.seq := rfl
@[simp] theorem Upd.die_writes (k : Nat) (f : Die → Die) (s : State) : ((Upd.die k f).apply s).writes = s.writes := rfl
@[simp] theorem Upd.die_cur (k : Nat) (f : Die → Die) (s : State) : ((Upd.die k f).apply s).cur = s.cur := rfl
@[simp] theorem Upd.die_curBlk (k : Nat) (f : Die → Die) (s : State) : ((Upd.die k f).apply s).curBlk = s.curBlk := rfl
@[simp] theorem Upd.die_agenda (k : Nat) (f : Die → Die) (s : State) : ((Upd.die k f).apply s).agenda = s.agenda := rfl
@[simp] theorem Upd.die_tick (k : Nat) (f : Die → Die) (s : State) : ((Upd.die k f).apply s).tick = s.tick := rfl
@[simp] theorem Upd.die_clock (k : Nat) (f : Die → Die) (s : State) : ((Upd.die k f).apply s).clock = s.clock := rfl
@[simp] theorem Upd.die_fresh (k : Nat) (f : Die → Die) (s : State) : ((Upd.die k f).apply s).fresh = s.fresh := rfl
@[simp] theorem Upd.die_late (k : Nat) (f : Die → Die) (s : State) : ((Upd.die k f).apply s).late = s.late := rfl

@[simp] theorem Upd.launch_mem (k : Nat) (f : Launch → Launch) (s : State) : ((Upd.launch k f).apply s).mem = s.mem := rfl
@[simp] theorem Upd.launch_hist (k : Nat) (f : Launch → Launch) (s : State) : ((Upd.launch k f).apply s).hist = s.hist := rfl
@[simp] theorem Upd.launch_teams (k : Nat) (f : Launch → Launch) (s : State) : ((Upd.launch k f).apply s).teams = s.teams := rfl
@[simp] theorem Upd.launch_blocks (k : Nat) (f : Launch → Launch) (s : State) : ((Upd.launch k f).apply s).blocks = s.blocks := rfl
@[simp] theorem Upd.launch_slots (k : Nat) (f : Launch → Launch) (s : State) : ((Upd.launch k f).apply s).slots = s.slots := rfl
@[simp] theorem Upd.launch_cores (k : Nat) (f : Launch → Launch) (s : State) : ((Upd.launch k f).apply s).cores = s.cores := rfl
@[simp] theorem Upd.launch_dies (k : Nat) (f : Launch → Launch) (s : State) : ((Upd.launch k f).apply s).dies = s.dies := rfl
@[simp] theorem Upd.launch_launches (k : Nat) (f : Launch → Launch) (s : State) : ((Upd.launch k f).apply s).launches = s.launches.put k (f (s.launch k)) := rfl
@[simp] theorem Upd.launch_queues (k : Nat) (f : Launch → Launch) (s : State) : ((Upd.launch k f).apply s).queues = s.queues := rfl
@[simp] theorem Upd.launch_ctxs (k : Nat) (f : Launch → Launch) (s : State) : ((Upd.launch k f).apply s).ctxs = s.ctxs := rfl
@[simp] theorem Upd.launch_harts (k : Nat) (f : Launch → Launch) (s : State) : ((Upd.launch k f).apply s).harts = s.harts := rfl
@[simp] theorem Upd.launch_pkg (k : Nat) (f : Launch → Launch) (s : State) : ((Upd.launch k f).apply s).pkg = s.pkg := rfl
@[simp] theorem Upd.launch_coh (k : Nat) (f : Launch → Launch) (s : State) : ((Upd.launch k f).apply s).coh = s.coh := rfl
@[simp] theorem Upd.launch_seq (k : Nat) (f : Launch → Launch) (s : State) : ((Upd.launch k f).apply s).seq = s.seq := rfl
@[simp] theorem Upd.launch_writes (k : Nat) (f : Launch → Launch) (s : State) : ((Upd.launch k f).apply s).writes = s.writes := rfl
@[simp] theorem Upd.launch_cur (k : Nat) (f : Launch → Launch) (s : State) : ((Upd.launch k f).apply s).cur = s.cur := rfl
@[simp] theorem Upd.launch_curBlk (k : Nat) (f : Launch → Launch) (s : State) : ((Upd.launch k f).apply s).curBlk = s.curBlk := rfl
@[simp] theorem Upd.launch_agenda (k : Nat) (f : Launch → Launch) (s : State) : ((Upd.launch k f).apply s).agenda = s.agenda := rfl
@[simp] theorem Upd.launch_tick (k : Nat) (f : Launch → Launch) (s : State) : ((Upd.launch k f).apply s).tick = s.tick := rfl
@[simp] theorem Upd.launch_clock (k : Nat) (f : Launch → Launch) (s : State) : ((Upd.launch k f).apply s).clock = s.clock := rfl
@[simp] theorem Upd.launch_fresh (k : Nat) (f : Launch → Launch) (s : State) : ((Upd.launch k f).apply s).fresh = s.fresh := rfl
@[simp] theorem Upd.launch_late (k : Nat) (f : Launch → Launch) (s : State) : ((Upd.launch k f).apply s).late = s.late := rfl

@[simp] theorem Upd.queue_mem (k : Nat) (f : QueueCtx → QueueCtx) (s : State) : ((Upd.queue k f).apply s).mem = s.mem := rfl
@[simp] theorem Upd.queue_hist (k : Nat) (f : QueueCtx → QueueCtx) (s : State) : ((Upd.queue k f).apply s).hist = s.hist := rfl
@[simp] theorem Upd.queue_teams (k : Nat) (f : QueueCtx → QueueCtx) (s : State) : ((Upd.queue k f).apply s).teams = s.teams := rfl
@[simp] theorem Upd.queue_blocks (k : Nat) (f : QueueCtx → QueueCtx) (s : State) : ((Upd.queue k f).apply s).blocks = s.blocks := rfl
@[simp] theorem Upd.queue_slots (k : Nat) (f : QueueCtx → QueueCtx) (s : State) : ((Upd.queue k f).apply s).slots = s.slots := rfl
@[simp] theorem Upd.queue_cores (k : Nat) (f : QueueCtx → QueueCtx) (s : State) : ((Upd.queue k f).apply s).cores = s.cores := rfl
@[simp] theorem Upd.queue_dies (k : Nat) (f : QueueCtx → QueueCtx) (s : State) : ((Upd.queue k f).apply s).dies = s.dies := rfl
@[simp] theorem Upd.queue_launches (k : Nat) (f : QueueCtx → QueueCtx) (s : State) : ((Upd.queue k f).apply s).launches = s.launches := rfl
@[simp] theorem Upd.queue_queues (k : Nat) (f : QueueCtx → QueueCtx) (s : State) : ((Upd.queue k f).apply s).queues = s.queues.put k (f (s.queue k)) := rfl
@[simp] theorem Upd.queue_ctxs (k : Nat) (f : QueueCtx → QueueCtx) (s : State) : ((Upd.queue k f).apply s).ctxs = s.ctxs := rfl
@[simp] theorem Upd.queue_harts (k : Nat) (f : QueueCtx → QueueCtx) (s : State) : ((Upd.queue k f).apply s).harts = s.harts := rfl
@[simp] theorem Upd.queue_pkg (k : Nat) (f : QueueCtx → QueueCtx) (s : State) : ((Upd.queue k f).apply s).pkg = s.pkg := rfl
@[simp] theorem Upd.queue_coh (k : Nat) (f : QueueCtx → QueueCtx) (s : State) : ((Upd.queue k f).apply s).coh = s.coh := rfl
@[simp] theorem Upd.queue_seq (k : Nat) (f : QueueCtx → QueueCtx) (s : State) : ((Upd.queue k f).apply s).seq = s.seq := rfl
@[simp] theorem Upd.queue_writes (k : Nat) (f : QueueCtx → QueueCtx) (s : State) : ((Upd.queue k f).apply s).writes = s.writes := rfl
@[simp] theorem Upd.queue_cur (k : Nat) (f : QueueCtx → QueueCtx) (s : State) : ((Upd.queue k f).apply s).cur = s.cur := rfl
@[simp] theorem Upd.queue_curBlk (k : Nat) (f : QueueCtx → QueueCtx) (s : State) : ((Upd.queue k f).apply s).curBlk = s.curBlk := rfl
@[simp] theorem Upd.queue_agenda (k : Nat) (f : QueueCtx → QueueCtx) (s : State) : ((Upd.queue k f).apply s).agenda = s.agenda := rfl
@[simp] theorem Upd.queue_tick (k : Nat) (f : QueueCtx → QueueCtx) (s : State) : ((Upd.queue k f).apply s).tick = s.tick := rfl
@[simp] theorem Upd.queue_clock (k : Nat) (f : QueueCtx → QueueCtx) (s : State) : ((Upd.queue k f).apply s).clock = s.clock := rfl
@[simp] theorem Upd.queue_fresh (k : Nat) (f : QueueCtx → QueueCtx) (s : State) : ((Upd.queue k f).apply s).fresh = s.fresh := rfl
@[simp] theorem Upd.queue_late (k : Nat) (f : QueueCtx → QueueCtx) (s : State) : ((Upd.queue k f).apply s).late = s.late := rfl

@[simp] theorem Upd.ctx_mem (k : Nat) (f : Ctx → Ctx) (s : State) : ((Upd.ctx k f).apply s).mem = s.mem := rfl
@[simp] theorem Upd.ctx_hist (k : Nat) (f : Ctx → Ctx) (s : State) : ((Upd.ctx k f).apply s).hist = s.hist := rfl
@[simp] theorem Upd.ctx_teams (k : Nat) (f : Ctx → Ctx) (s : State) : ((Upd.ctx k f).apply s).teams = s.teams := rfl
@[simp] theorem Upd.ctx_blocks (k : Nat) (f : Ctx → Ctx) (s : State) : ((Upd.ctx k f).apply s).blocks = s.blocks := rfl
@[simp] theorem Upd.ctx_slots (k : Nat) (f : Ctx → Ctx) (s : State) : ((Upd.ctx k f).apply s).slots = s.slots := rfl
@[simp] theorem Upd.ctx_cores (k : Nat) (f : Ctx → Ctx) (s : State) : ((Upd.ctx k f).apply s).cores = s.cores := rfl
@[simp] theorem Upd.ctx_dies (k : Nat) (f : Ctx → Ctx) (s : State) : ((Upd.ctx k f).apply s).dies = s.dies := rfl
@[simp] theorem Upd.ctx_launches (k : Nat) (f : Ctx → Ctx) (s : State) : ((Upd.ctx k f).apply s).launches = s.launches := rfl
@[simp] theorem Upd.ctx_queues (k : Nat) (f : Ctx → Ctx) (s : State) : ((Upd.ctx k f).apply s).queues = s.queues := rfl
@[simp] theorem Upd.ctx_ctxs (k : Nat) (f : Ctx → Ctx) (s : State) : ((Upd.ctx k f).apply s).ctxs = s.ctxs.put k (f (s.ctx k)) := rfl
@[simp] theorem Upd.ctx_harts (k : Nat) (f : Ctx → Ctx) (s : State) : ((Upd.ctx k f).apply s).harts = s.harts := rfl
@[simp] theorem Upd.ctx_pkg (k : Nat) (f : Ctx → Ctx) (s : State) : ((Upd.ctx k f).apply s).pkg = s.pkg := rfl
@[simp] theorem Upd.ctx_coh (k : Nat) (f : Ctx → Ctx) (s : State) : ((Upd.ctx k f).apply s).coh = s.coh := rfl
@[simp] theorem Upd.ctx_seq (k : Nat) (f : Ctx → Ctx) (s : State) : ((Upd.ctx k f).apply s).seq = s.seq := rfl
@[simp] theorem Upd.ctx_writes (k : Nat) (f : Ctx → Ctx) (s : State) : ((Upd.ctx k f).apply s).writes = s.writes := rfl
@[simp] theorem Upd.ctx_cur (k : Nat) (f : Ctx → Ctx) (s : State) : ((Upd.ctx k f).apply s).cur = s.cur := rfl
@[simp] theorem Upd.ctx_curBlk (k : Nat) (f : Ctx → Ctx) (s : State) : ((Upd.ctx k f).apply s).curBlk = s.curBlk := rfl
@[simp] theorem Upd.ctx_agenda (k : Nat) (f : Ctx → Ctx) (s : State) : ((Upd.ctx k f).apply s).agenda = s.agenda := rfl
@[simp] theorem Upd.ctx_tick (k : Nat) (f : Ctx → Ctx) (s : State) : ((Upd.ctx k f).apply s).tick = s.tick := rfl
@[simp] theorem Upd.ctx_clock (k : Nat) (f : Ctx → Ctx) (s : State) : ((Upd.ctx k f).apply s).clock = s.clock := rfl
@[simp] theorem Upd.ctx_fresh (k : Nat) (f : Ctx → Ctx) (s : State) : ((Upd.ctx k f).apply s).fresh = s.fresh := rfl
@[simp] theorem Upd.ctx_late (k : Nat) (f : Ctx → Ctx) (s : State) : ((Upd.ctx k f).apply s).late = s.late := rfl

@[simp] theorem Upd.hart_mem (k : Nat) (f : Hart → Hart) (s : State) : ((Upd.hart k f).apply s).mem = s.mem := rfl
@[simp] theorem Upd.hart_hist (k : Nat) (f : Hart → Hart) (s : State) : ((Upd.hart k f).apply s).hist = s.hist := rfl
@[simp] theorem Upd.hart_teams (k : Nat) (f : Hart → Hart) (s : State) : ((Upd.hart k f).apply s).teams = s.teams := rfl
@[simp] theorem Upd.hart_blocks (k : Nat) (f : Hart → Hart) (s : State) : ((Upd.hart k f).apply s).blocks = s.blocks := rfl
@[simp] theorem Upd.hart_slots (k : Nat) (f : Hart → Hart) (s : State) : ((Upd.hart k f).apply s).slots = s.slots := rfl
@[simp] theorem Upd.hart_cores (k : Nat) (f : Hart → Hart) (s : State) : ((Upd.hart k f).apply s).cores = s.cores := rfl
@[simp] theorem Upd.hart_dies (k : Nat) (f : Hart → Hart) (s : State) : ((Upd.hart k f).apply s).dies = s.dies := rfl
@[simp] theorem Upd.hart_launches (k : Nat) (f : Hart → Hart) (s : State) : ((Upd.hart k f).apply s).launches = s.launches := rfl
@[simp] theorem Upd.hart_queues (k : Nat) (f : Hart → Hart) (s : State) : ((Upd.hart k f).apply s).queues = s.queues := rfl
@[simp] theorem Upd.hart_ctxs (k : Nat) (f : Hart → Hart) (s : State) : ((Upd.hart k f).apply s).ctxs = s.ctxs := rfl
@[simp] theorem Upd.hart_harts (k : Nat) (f : Hart → Hart) (s : State) : ((Upd.hart k f).apply s).harts = s.harts.put k (f (s.hart k)) := rfl
@[simp] theorem Upd.hart_pkg (k : Nat) (f : Hart → Hart) (s : State) : ((Upd.hart k f).apply s).pkg = s.pkg := rfl
@[simp] theorem Upd.hart_coh (k : Nat) (f : Hart → Hart) (s : State) : ((Upd.hart k f).apply s).coh = s.coh := rfl
@[simp] theorem Upd.hart_seq (k : Nat) (f : Hart → Hart) (s : State) : ((Upd.hart k f).apply s).seq = s.seq := rfl
@[simp] theorem Upd.hart_writes (k : Nat) (f : Hart → Hart) (s : State) : ((Upd.hart k f).apply s).writes = s.writes := rfl
@[simp] theorem Upd.hart_cur (k : Nat) (f : Hart → Hart) (s : State) : ((Upd.hart k f).apply s).cur = s.cur := rfl
@[simp] theorem Upd.hart_curBlk (k : Nat) (f : Hart → Hart) (s : State) : ((Upd.hart k f).apply s).curBlk = s.curBlk := rfl
@[simp] theorem Upd.hart_agenda (k : Nat) (f : Hart → Hart) (s : State) : ((Upd.hart k f).apply s).agenda = s.agenda := rfl
@[simp] theorem Upd.hart_tick (k : Nat) (f : Hart → Hart) (s : State) : ((Upd.hart k f).apply s).tick = s.tick := rfl
@[simp] theorem Upd.hart_clock (k : Nat) (f : Hart → Hart) (s : State) : ((Upd.hart k f).apply s).clock = s.clock := rfl
@[simp] theorem Upd.hart_fresh (k : Nat) (f : Hart → Hart) (s : State) : ((Upd.hart k f).apply s).fresh = s.fresh := rfl
@[simp] theorem Upd.hart_late (k : Nat) (f : Hart → Hart) (s : State) : ((Upd.hart k f).apply s).late = s.late := rfl

@[simp] theorem Upd.dropTeam_mem (k : Nat) (s : State) : ((Upd.dropTeam k).apply s).mem = s.mem := rfl
@[simp] theorem Upd.dropTeam_hist (k : Nat) (s : State) : ((Upd.dropTeam k).apply s).hist = s.hist := rfl
@[simp] theorem Upd.dropTeam_teams (k : Nat) (s : State) : ((Upd.dropTeam k).apply s).teams = s.teams.del k := rfl
@[simp] theorem Upd.dropTeam_blocks (k : Nat) (s : State) : ((Upd.dropTeam k).apply s).blocks = s.blocks := rfl
@[simp] theorem Upd.dropTeam_slots (k : Nat) (s : State) : ((Upd.dropTeam k).apply s).slots = s.slots := rfl
@[simp] theorem Upd.dropTeam_cores (k : Nat) (s : State) : ((Upd.dropTeam k).apply s).cores = s.cores := rfl
@[simp] theorem Upd.dropTeam_dies (k : Nat) (s : State) : ((Upd.dropTeam k).apply s).dies = s.dies := rfl
@[simp] theorem Upd.dropTeam_launches (k : Nat) (s : State) : ((Upd.dropTeam k).apply s).launches = s.launches := rfl
@[simp] theorem Upd.dropTeam_queues (k : Nat) (s : State) : ((Upd.dropTeam k).apply s).queues = s.queues := rfl
@[simp] theorem Upd.dropTeam_ctxs (k : Nat) (s : State) : ((Upd.dropTeam k).apply s).ctxs = s.ctxs := rfl
@[simp] theorem Upd.dropTeam_harts (k : Nat) (s : State) : ((Upd.dropTeam k).apply s).harts = s.harts := rfl
@[simp] theorem Upd.dropTeam_pkg (k : Nat) (s : State) : ((Upd.dropTeam k).apply s).pkg = s.pkg := rfl
@[simp] theorem Upd.dropTeam_coh (k : Nat) (s : State) : ((Upd.dropTeam k).apply s).coh = s.coh := rfl
@[simp] theorem Upd.dropTeam_seq (k : Nat) (s : State) : ((Upd.dropTeam k).apply s).seq = s.seq := rfl
@[simp] theorem Upd.dropTeam_writes (k : Nat) (s : State) : ((Upd.dropTeam k).apply s).writes = s.writes := rfl
@[simp] theorem Upd.dropTeam_cur (k : Nat) (s : State) : ((Upd.dropTeam k).apply s).cur = s.cur := rfl
@[simp] theorem Upd.dropTeam_curBlk (k : Nat) (s : State) : ((Upd.dropTeam k).apply s).curBlk = s.curBlk := rfl
@[simp] theorem Upd.dropTeam_agenda (k : Nat) (s : State) : ((Upd.dropTeam k).apply s).agenda = s.agenda := rfl
@[simp] theorem Upd.dropTeam_tick (k : Nat) (s : State) : ((Upd.dropTeam k).apply s).tick = s.tick := rfl
@[simp] theorem Upd.dropTeam_clock (k : Nat) (s : State) : ((Upd.dropTeam k).apply s).clock = s.clock := rfl
@[simp] theorem Upd.dropTeam_fresh (k : Nat) (s : State) : ((Upd.dropTeam k).apply s).fresh = s.fresh := rfl
@[simp] theorem Upd.dropTeam_late (k : Nat) (s : State) : ((Upd.dropTeam k).apply s).late = s.late := rfl

@[simp] theorem Upd.dropBlock_mem (k : Nat) (s : State) : ((Upd.dropBlock k).apply s).mem = s.mem := rfl
@[simp] theorem Upd.dropBlock_hist (k : Nat) (s : State) : ((Upd.dropBlock k).apply s).hist = s.hist.filter (fun h => h.word < 2 ^ 48 || (h.word - 2 ^ 48) / 2 ^ 20 != k) := rfl
@[simp] theorem Upd.dropBlock_teams (k : Nat) (s : State) : ((Upd.dropBlock k).apply s).teams = s.teams := rfl
@[simp] theorem Upd.dropBlock_blocks (k : Nat) (s : State) : ((Upd.dropBlock k).apply s).blocks = s.blocks.del k := rfl
@[simp] theorem Upd.dropBlock_slots (k : Nat) (s : State) : ((Upd.dropBlock k).apply s).slots = s.slots := rfl
@[simp] theorem Upd.dropBlock_cores (k : Nat) (s : State) : ((Upd.dropBlock k).apply s).cores = s.cores := rfl
@[simp] theorem Upd.dropBlock_dies (k : Nat) (s : State) : ((Upd.dropBlock k).apply s).dies = s.dies := rfl
@[simp] theorem Upd.dropBlock_launches (k : Nat) (s : State) : ((Upd.dropBlock k).apply s).launches = s.launches := rfl
@[simp] theorem Upd.dropBlock_queues (k : Nat) (s : State) : ((Upd.dropBlock k).apply s).queues = s.queues := rfl
@[simp] theorem Upd.dropBlock_ctxs (k : Nat) (s : State) : ((Upd.dropBlock k).apply s).ctxs = s.ctxs := rfl
@[simp] theorem Upd.dropBlock_harts (k : Nat) (s : State) : ((Upd.dropBlock k).apply s).harts = s.harts := rfl
@[simp] theorem Upd.dropBlock_pkg (k : Nat) (s : State) : ((Upd.dropBlock k).apply s).pkg = s.pkg := rfl
@[simp] theorem Upd.dropBlock_coh (k : Nat) (s : State) : ((Upd.dropBlock k).apply s).coh = s.coh := rfl
@[simp] theorem Upd.dropBlock_seq (k : Nat) (s : State) : ((Upd.dropBlock k).apply s).seq = s.seq := rfl
@[simp] theorem Upd.dropBlock_writes (k : Nat) (s : State) : ((Upd.dropBlock k).apply s).writes = s.writes := rfl
@[simp] theorem Upd.dropBlock_cur (k : Nat) (s : State) : ((Upd.dropBlock k).apply s).cur = s.cur := rfl
@[simp] theorem Upd.dropBlock_curBlk (k : Nat) (s : State) : ((Upd.dropBlock k).apply s).curBlk = s.curBlk := rfl
@[simp] theorem Upd.dropBlock_agenda (k : Nat) (s : State) : ((Upd.dropBlock k).apply s).agenda = s.agenda := rfl
@[simp] theorem Upd.dropBlock_tick (k : Nat) (s : State) : ((Upd.dropBlock k).apply s).tick = s.tick := rfl
@[simp] theorem Upd.dropBlock_clock (k : Nat) (s : State) : ((Upd.dropBlock k).apply s).clock = s.clock := rfl
@[simp] theorem Upd.dropBlock_fresh (k : Nat) (s : State) : ((Upd.dropBlock k).apply s).fresh = s.fresh := rfl
@[simp] theorem Upd.dropBlock_late (k : Nat) (s : State) : ((Upd.dropBlock k).apply s).late = s.late := rfl

@[simp] theorem Upd.dropLaunch_mem (k : Nat) (s : State) : ((Upd.dropLaunch k).apply s).mem = s.mem := rfl
@[simp] theorem Upd.dropLaunch_hist (k : Nat) (s : State) : ((Upd.dropLaunch k).apply s).hist = s.hist := rfl
@[simp] theorem Upd.dropLaunch_teams (k : Nat) (s : State) : ((Upd.dropLaunch k).apply s).teams = s.teams := rfl
@[simp] theorem Upd.dropLaunch_blocks (k : Nat) (s : State) : ((Upd.dropLaunch k).apply s).blocks = s.blocks := rfl
@[simp] theorem Upd.dropLaunch_slots (k : Nat) (s : State) : ((Upd.dropLaunch k).apply s).slots = s.slots := rfl
@[simp] theorem Upd.dropLaunch_cores (k : Nat) (s : State) : ((Upd.dropLaunch k).apply s).cores = s.cores := rfl
@[simp] theorem Upd.dropLaunch_dies (k : Nat) (s : State) : ((Upd.dropLaunch k).apply s).dies = s.dies := rfl
@[simp] theorem Upd.dropLaunch_launches (k : Nat) (s : State) : ((Upd.dropLaunch k).apply s).launches = s.launches.del k := rfl
@[simp] theorem Upd.dropLaunch_queues (k : Nat) (s : State) : ((Upd.dropLaunch k).apply s).queues = s.queues := rfl
@[simp] theorem Upd.dropLaunch_ctxs (k : Nat) (s : State) : ((Upd.dropLaunch k).apply s).ctxs = s.ctxs := rfl
@[simp] theorem Upd.dropLaunch_harts (k : Nat) (s : State) : ((Upd.dropLaunch k).apply s).harts = s.harts := rfl
@[simp] theorem Upd.dropLaunch_pkg (k : Nat) (s : State) : ((Upd.dropLaunch k).apply s).pkg = s.pkg := rfl
@[simp] theorem Upd.dropLaunch_coh (k : Nat) (s : State) : ((Upd.dropLaunch k).apply s).coh = s.coh := rfl
@[simp] theorem Upd.dropLaunch_seq (k : Nat) (s : State) : ((Upd.dropLaunch k).apply s).seq = s.seq := rfl
@[simp] theorem Upd.dropLaunch_writes (k : Nat) (s : State) : ((Upd.dropLaunch k).apply s).writes = s.writes := rfl
@[simp] theorem Upd.dropLaunch_cur (k : Nat) (s : State) : ((Upd.dropLaunch k).apply s).cur = s.cur := rfl
@[simp] theorem Upd.dropLaunch_curBlk (k : Nat) (s : State) : ((Upd.dropLaunch k).apply s).curBlk = s.curBlk := rfl
@[simp] theorem Upd.dropLaunch_agenda (k : Nat) (s : State) : ((Upd.dropLaunch k).apply s).agenda = s.agenda := rfl
@[simp] theorem Upd.dropLaunch_tick (k : Nat) (s : State) : ((Upd.dropLaunch k).apply s).tick = s.tick := rfl
@[simp] theorem Upd.dropLaunch_clock (k : Nat) (s : State) : ((Upd.dropLaunch k).apply s).clock = s.clock := rfl
@[simp] theorem Upd.dropLaunch_fresh (k : Nat) (s : State) : ((Upd.dropLaunch k).apply s).fresh = s.fresh := rfl
@[simp] theorem Upd.dropLaunch_late (k : Nat) (s : State) : ((Upd.dropLaunch k).apply s).late = s.late := rfl

@[simp] theorem Upd.dropQueue_mem (k : Nat) (s : State) : ((Upd.dropQueue k).apply s).mem = s.mem := rfl
@[simp] theorem Upd.dropQueue_hist (k : Nat) (s : State) : ((Upd.dropQueue k).apply s).hist = s.hist := rfl
@[simp] theorem Upd.dropQueue_teams (k : Nat) (s : State) : ((Upd.dropQueue k).apply s).teams = s.teams := rfl
@[simp] theorem Upd.dropQueue_blocks (k : Nat) (s : State) : ((Upd.dropQueue k).apply s).blocks = s.blocks := rfl
@[simp] theorem Upd.dropQueue_slots (k : Nat) (s : State) : ((Upd.dropQueue k).apply s).slots = s.slots := rfl
@[simp] theorem Upd.dropQueue_cores (k : Nat) (s : State) : ((Upd.dropQueue k).apply s).cores = s.cores := rfl
@[simp] theorem Upd.dropQueue_dies (k : Nat) (s : State) : ((Upd.dropQueue k).apply s).dies = s.dies := rfl
@[simp] theorem Upd.dropQueue_launches (k : Nat) (s : State) : ((Upd.dropQueue k).apply s).launches = s.launches := rfl
@[simp] theorem Upd.dropQueue_queues (k : Nat) (s : State) : ((Upd.dropQueue k).apply s).queues = s.queues.del k := rfl
@[simp] theorem Upd.dropQueue_ctxs (k : Nat) (s : State) : ((Upd.dropQueue k).apply s).ctxs = s.ctxs := rfl
@[simp] theorem Upd.dropQueue_harts (k : Nat) (s : State) : ((Upd.dropQueue k).apply s).harts = s.harts := rfl
@[simp] theorem Upd.dropQueue_pkg (k : Nat) (s : State) : ((Upd.dropQueue k).apply s).pkg = s.pkg := rfl
@[simp] theorem Upd.dropQueue_coh (k : Nat) (s : State) : ((Upd.dropQueue k).apply s).coh = s.coh := rfl
@[simp] theorem Upd.dropQueue_seq (k : Nat) (s : State) : ((Upd.dropQueue k).apply s).seq = s.seq := rfl
@[simp] theorem Upd.dropQueue_writes (k : Nat) (s : State) : ((Upd.dropQueue k).apply s).writes = s.writes := rfl
@[simp] theorem Upd.dropQueue_cur (k : Nat) (s : State) : ((Upd.dropQueue k).apply s).cur = s.cur := rfl
@[simp] theorem Upd.dropQueue_curBlk (k : Nat) (s : State) : ((Upd.dropQueue k).apply s).curBlk = s.curBlk := rfl
@[simp] theorem Upd.dropQueue_agenda (k : Nat) (s : State) : ((Upd.dropQueue k).apply s).agenda = s.agenda := rfl
@[simp] theorem Upd.dropQueue_tick (k : Nat) (s : State) : ((Upd.dropQueue k).apply s).tick = s.tick := rfl
@[simp] theorem Upd.dropQueue_clock (k : Nat) (s : State) : ((Upd.dropQueue k).apply s).clock = s.clock := rfl
@[simp] theorem Upd.dropQueue_fresh (k : Nat) (s : State) : ((Upd.dropQueue k).apply s).fresh = s.fresh := rfl
@[simp] theorem Upd.dropQueue_late (k : Nat) (s : State) : ((Upd.dropQueue k).apply s).late = s.late := rfl

@[simp] theorem Upd.dropCtx_mem (k : Nat) (s : State) : ((Upd.dropCtx k).apply s).mem = s.mem := rfl
@[simp] theorem Upd.dropCtx_hist (k : Nat) (s : State) : ((Upd.dropCtx k).apply s).hist = s.hist := rfl
@[simp] theorem Upd.dropCtx_teams (k : Nat) (s : State) : ((Upd.dropCtx k).apply s).teams = s.teams := rfl
@[simp] theorem Upd.dropCtx_blocks (k : Nat) (s : State) : ((Upd.dropCtx k).apply s).blocks = s.blocks := rfl
@[simp] theorem Upd.dropCtx_slots (k : Nat) (s : State) : ((Upd.dropCtx k).apply s).slots = s.slots := rfl
@[simp] theorem Upd.dropCtx_cores (k : Nat) (s : State) : ((Upd.dropCtx k).apply s).cores = s.cores := rfl
@[simp] theorem Upd.dropCtx_dies (k : Nat) (s : State) : ((Upd.dropCtx k).apply s).dies = s.dies := rfl
@[simp] theorem Upd.dropCtx_launches (k : Nat) (s : State) : ((Upd.dropCtx k).apply s).launches = s.launches := rfl
@[simp] theorem Upd.dropCtx_queues (k : Nat) (s : State) : ((Upd.dropCtx k).apply s).queues = s.queues := rfl
@[simp] theorem Upd.dropCtx_ctxs (k : Nat) (s : State) : ((Upd.dropCtx k).apply s).ctxs = s.ctxs.del k := rfl
@[simp] theorem Upd.dropCtx_harts (k : Nat) (s : State) : ((Upd.dropCtx k).apply s).harts = s.harts := rfl
@[simp] theorem Upd.dropCtx_pkg (k : Nat) (s : State) : ((Upd.dropCtx k).apply s).pkg = s.pkg := rfl
@[simp] theorem Upd.dropCtx_coh (k : Nat) (s : State) : ((Upd.dropCtx k).apply s).coh = s.coh := rfl
@[simp] theorem Upd.dropCtx_seq (k : Nat) (s : State) : ((Upd.dropCtx k).apply s).seq = s.seq := rfl
@[simp] theorem Upd.dropCtx_writes (k : Nat) (s : State) : ((Upd.dropCtx k).apply s).writes = s.writes := rfl
@[simp] theorem Upd.dropCtx_cur (k : Nat) (s : State) : ((Upd.dropCtx k).apply s).cur = s.cur := rfl
@[simp] theorem Upd.dropCtx_curBlk (k : Nat) (s : State) : ((Upd.dropCtx k).apply s).curBlk = s.curBlk := rfl
@[simp] theorem Upd.dropCtx_agenda (k : Nat) (s : State) : ((Upd.dropCtx k).apply s).agenda = s.agenda := rfl
@[simp] theorem Upd.dropCtx_tick (k : Nat) (s : State) : ((Upd.dropCtx k).apply s).tick = s.tick := rfl
@[simp] theorem Upd.dropCtx_clock (k : Nat) (s : State) : ((Upd.dropCtx k).apply s).clock = s.clock := rfl
@[simp] theorem Upd.dropCtx_fresh (k : Nat) (s : State) : ((Upd.dropCtx k).apply s).fresh = s.fresh := rfl
@[simp] theorem Upd.dropCtx_late (k : Nat) (s : State) : ((Upd.dropCtx k).apply s).late = s.late := rfl

@[simp] theorem Upd.slot_mem (b n : Nat) (op : SlotOp) (s : State) : ((Upd.slot b n op).apply s).mem = s.mem := rfl
@[simp] theorem Upd.slot_hist (b n : Nat) (op : SlotOp) (s : State) : ((Upd.slot b n op).apply s).hist = s.hist := rfl
@[simp] theorem Upd.slot_teams (b n : Nat) (op : SlotOp) (s : State) : ((Upd.slot b n op).apply s).teams = s.teams := rfl
@[simp] theorem Upd.slot_blocks (b n : Nat) (op : SlotOp) (s : State) : ((Upd.slot b n op).apply s).blocks = s.blocks := rfl
@[simp] theorem Upd.slot_slots (b n : Nat) (op : SlotOp) (s : State) : ((Upd.slot b n op).apply s).slots = s.slots.put (64 * b + n) (op.apply (s.slot b n)) := rfl
@[simp] theorem Upd.slot_cores (b n : Nat) (op : SlotOp) (s : State) : ((Upd.slot b n op).apply s).cores = s.cores := rfl
@[simp] theorem Upd.slot_dies (b n : Nat) (op : SlotOp) (s : State) : ((Upd.slot b n op).apply s).dies = s.dies := rfl
@[simp] theorem Upd.slot_launches (b n : Nat) (op : SlotOp) (s : State) : ((Upd.slot b n op).apply s).launches = s.launches := rfl
@[simp] theorem Upd.slot_queues (b n : Nat) (op : SlotOp) (s : State) : ((Upd.slot b n op).apply s).queues = s.queues := rfl
@[simp] theorem Upd.slot_ctxs (b n : Nat) (op : SlotOp) (s : State) : ((Upd.slot b n op).apply s).ctxs = s.ctxs := rfl
@[simp] theorem Upd.slot_harts (b n : Nat) (op : SlotOp) (s : State) : ((Upd.slot b n op).apply s).harts = s.harts := rfl
@[simp] theorem Upd.slot_pkg (b n : Nat) (op : SlotOp) (s : State) : ((Upd.slot b n op).apply s).pkg = s.pkg := rfl
@[simp] theorem Upd.slot_coh (b n : Nat) (op : SlotOp) (s : State) : ((Upd.slot b n op).apply s).coh = s.coh := rfl
@[simp] theorem Upd.slot_seq (b n : Nat) (op : SlotOp) (s : State) : ((Upd.slot b n op).apply s).seq = s.seq := rfl
@[simp] theorem Upd.slot_writes (b n : Nat) (op : SlotOp) (s : State) : ((Upd.slot b n op).apply s).writes = s.writes := rfl
@[simp] theorem Upd.slot_cur (b n : Nat) (op : SlotOp) (s : State) : ((Upd.slot b n op).apply s).cur = s.cur := rfl
@[simp] theorem Upd.slot_curBlk (b n : Nat) (op : SlotOp) (s : State) : ((Upd.slot b n op).apply s).curBlk = s.curBlk := rfl
@[simp] theorem Upd.slot_agenda (b n : Nat) (op : SlotOp) (s : State) : ((Upd.slot b n op).apply s).agenda = s.agenda := rfl
@[simp] theorem Upd.slot_tick (b n : Nat) (op : SlotOp) (s : State) : ((Upd.slot b n op).apply s).tick = s.tick := rfl
@[simp] theorem Upd.slot_clock (b n : Nat) (op : SlotOp) (s : State) : ((Upd.slot b n op).apply s).clock = s.clock := rfl
@[simp] theorem Upd.slot_fresh (b n : Nat) (op : SlotOp) (s : State) : ((Upd.slot b n op).apply s).fresh = s.fresh := rfl
@[simp] theorem Upd.slot_late (b n : Nat) (op : SlotOp) (s : State) : ((Upd.slot b n op).apply s).late = s.late := rfl

@[simp] theorem Upd.dropSlots_mem (b : Nat) (s : State) : ((Upd.dropSlots b).apply s).mem = s.mem := rfl
@[simp] theorem Upd.dropSlots_hist (b : Nat) (s : State) : ((Upd.dropSlots b).apply s).hist = s.hist := rfl
@[simp] theorem Upd.dropSlots_teams (b : Nat) (s : State) : ((Upd.dropSlots b).apply s).teams = s.teams := rfl
@[simp] theorem Upd.dropSlots_blocks (b : Nat) (s : State) : ((Upd.dropSlots b).apply s).blocks = s.blocks := rfl
@[simp] theorem Upd.dropSlots_slots (b : Nat) (s : State) : ((Upd.dropSlots b).apply s).slots = s.slots.keep (fun k _ => k / 64 != b) := rfl
@[simp] theorem Upd.dropSlots_cores (b : Nat) (s : State) : ((Upd.dropSlots b).apply s).cores = s.cores := rfl
@[simp] theorem Upd.dropSlots_dies (b : Nat) (s : State) : ((Upd.dropSlots b).apply s).dies = s.dies := rfl
@[simp] theorem Upd.dropSlots_launches (b : Nat) (s : State) : ((Upd.dropSlots b).apply s).launches = s.launches := rfl
@[simp] theorem Upd.dropSlots_queues (b : Nat) (s : State) : ((Upd.dropSlots b).apply s).queues = s.queues := rfl
@[simp] theorem Upd.dropSlots_ctxs (b : Nat) (s : State) : ((Upd.dropSlots b).apply s).ctxs = s.ctxs := rfl
@[simp] theorem Upd.dropSlots_harts (b : Nat) (s : State) : ((Upd.dropSlots b).apply s).harts = s.harts := rfl
@[simp] theorem Upd.dropSlots_pkg (b : Nat) (s : State) : ((Upd.dropSlots b).apply s).pkg = s.pkg := rfl
@[simp] theorem Upd.dropSlots_coh (b : Nat) (s : State) : ((Upd.dropSlots b).apply s).coh = s.coh := rfl
@[simp] theorem Upd.dropSlots_seq (b : Nat) (s : State) : ((Upd.dropSlots b).apply s).seq = s.seq := rfl
@[simp] theorem Upd.dropSlots_writes (b : Nat) (s : State) : ((Upd.dropSlots b).apply s).writes = s.writes := rfl
@[simp] theorem Upd.dropSlots_cur (b : Nat) (s : State) : ((Upd.dropSlots b).apply s).cur = s.cur := rfl
@[simp] theorem Upd.dropSlots_curBlk (b : Nat) (s : State) : ((Upd.dropSlots b).apply s).curBlk = s.curBlk := rfl
@[simp] theorem Upd.dropSlots_agenda (b : Nat) (s : State) : ((Upd.dropSlots b).apply s).agenda = s.agenda := rfl
@[simp] theorem Upd.dropSlots_tick (b : Nat) (s : State) : ((Upd.dropSlots b).apply s).tick = s.tick := rfl
@[simp] theorem Upd.dropSlots_clock (b : Nat) (s : State) : ((Upd.dropSlots b).apply s).clock = s.clock := rfl
@[simp] theorem Upd.dropSlots_fresh (b : Nat) (s : State) : ((Upd.dropSlots b).apply s).fresh = s.fresh := rfl
@[simp] theorem Upd.dropSlots_late (b : Nat) (s : State) : ((Upd.dropSlots b).apply s).late = s.late := rfl

@[simp] theorem Upd.storePhys_mem (p : Path) (blk : Nat) (slots : List Nat) (role : Bool) (lane : Option Nat) (a : Nat) (bs : List Byte) (s : State) : ((Upd.store p .phys blk slots role lane a bs).apply s).mem = Sparse.setRun s.mem a bs := rfl
@[simp] theorem Upd.storePhys_hist (p : Path) (blk : Nat) (slots : List Nat) (role : Bool) (lane : Option Nat) (a : Nat) (bs : List Byte) (s : State) : ((Upd.store p .phys blk slots role lane a bs).apply s).hist = histOf s p .phys blk slots role lane a bs ++ s.hist := rfl
@[simp] theorem Upd.storePhys_teams (p : Path) (blk : Nat) (slots : List Nat) (role : Bool) (lane : Option Nat) (a : Nat) (bs : List Byte) (s : State) : ((Upd.store p .phys blk slots role lane a bs).apply s).teams = s.teams := rfl
@[simp] theorem Upd.storePhys_blocks (p : Path) (blk : Nat) (slots : List Nat) (role : Bool) (lane : Option Nat) (a : Nat) (bs : List Byte) (s : State) : ((Upd.store p .phys blk slots role lane a bs).apply s).blocks = s.blocks := rfl
@[simp] theorem Upd.storePhys_slots (p : Path) (blk : Nat) (slots : List Nat) (role : Bool) (lane : Option Nat) (a : Nat) (bs : List Byte) (s : State) : ((Upd.store p .phys blk slots role lane a bs).apply s).slots = s.slots := rfl
@[simp] theorem Upd.storePhys_cores (p : Path) (blk : Nat) (slots : List Nat) (role : Bool) (lane : Option Nat) (a : Nat) (bs : List Byte) (s : State) : ((Upd.store p .phys blk slots role lane a bs).apply s).cores = s.cores := rfl
@[simp] theorem Upd.storePhys_dies (p : Path) (blk : Nat) (slots : List Nat) (role : Bool) (lane : Option Nat) (a : Nat) (bs : List Byte) (s : State) : ((Upd.store p .phys blk slots role lane a bs).apply s).dies = s.dies := rfl
@[simp] theorem Upd.storePhys_launches (p : Path) (blk : Nat) (slots : List Nat) (role : Bool) (lane : Option Nat) (a : Nat) (bs : List Byte) (s : State) : ((Upd.store p .phys blk slots role lane a bs).apply s).launches = s.launches := rfl
@[simp] theorem Upd.storePhys_queues (p : Path) (blk : Nat) (slots : List Nat) (role : Bool) (lane : Option Nat) (a : Nat) (bs : List Byte) (s : State) : ((Upd.store p .phys blk slots role lane a bs).apply s).queues = s.queues := rfl
@[simp] theorem Upd.storePhys_ctxs (p : Path) (blk : Nat) (slots : List Nat) (role : Bool) (lane : Option Nat) (a : Nat) (bs : List Byte) (s : State) : ((Upd.store p .phys blk slots role lane a bs).apply s).ctxs = s.ctxs := rfl
@[simp] theorem Upd.storePhys_harts (p : Path) (blk : Nat) (slots : List Nat) (role : Bool) (lane : Option Nat) (a : Nat) (bs : List Byte) (s : State) : ((Upd.store p .phys blk slots role lane a bs).apply s).harts = s.harts := rfl
@[simp] theorem Upd.storePhys_pkg (p : Path) (blk : Nat) (slots : List Nat) (role : Bool) (lane : Option Nat) (a : Nat) (bs : List Byte) (s : State) : ((Upd.store p .phys blk slots role lane a bs).apply s).pkg = s.pkg := rfl
@[simp] theorem Upd.storePhys_coh (p : Path) (blk : Nat) (slots : List Nat) (role : Bool) (lane : Option Nat) (a : Nat) (bs : List Byte) (s : State) : ((Upd.store p .phys blk slots role lane a bs).apply s).coh = cohWrote s p a bs.length := rfl
@[simp] theorem Upd.storePhys_seq (p : Path) (blk : Nat) (slots : List Nat) (role : Bool) (lane : Option Nat) (a : Nat) (bs : List Byte) (s : State) : ((Upd.store p .phys blk slots role lane a bs).apply s).seq = s.seq := rfl
@[simp] theorem Upd.storePhys_writes (p : Path) (blk : Nat) (slots : List Nat) (role : Bool) (lane : Option Nat) (a : Nat) (bs : List Byte) (s : State) : ((Upd.store p .phys blk slots role lane a bs).apply s).writes = s.writes + (Place.phys.words a bs.length).length := rfl
@[simp] theorem Upd.storePhys_cur (p : Path) (blk : Nat) (slots : List Nat) (role : Bool) (lane : Option Nat) (a : Nat) (bs : List Byte) (s : State) : ((Upd.store p .phys blk slots role lane a bs).apply s).cur = s.cur := rfl
@[simp] theorem Upd.storePhys_curBlk (p : Path) (blk : Nat) (slots : List Nat) (role : Bool) (lane : Option Nat) (a : Nat) (bs : List Byte) (s : State) : ((Upd.store p .phys blk slots role lane a bs).apply s).curBlk = s.curBlk := rfl
@[simp] theorem Upd.storePhys_agenda (p : Path) (blk : Nat) (slots : List Nat) (role : Bool) (lane : Option Nat) (a : Nat) (bs : List Byte) (s : State) : ((Upd.store p .phys blk slots role lane a bs).apply s).agenda = s.agenda := rfl
@[simp] theorem Upd.storePhys_tick (p : Path) (blk : Nat) (slots : List Nat) (role : Bool) (lane : Option Nat) (a : Nat) (bs : List Byte) (s : State) : ((Upd.store p .phys blk slots role lane a bs).apply s).tick = s.tick := rfl
@[simp] theorem Upd.storePhys_clock (p : Path) (blk : Nat) (slots : List Nat) (role : Bool) (lane : Option Nat) (a : Nat) (bs : List Byte) (s : State) : ((Upd.store p .phys blk slots role lane a bs).apply s).clock = s.clock := rfl
@[simp] theorem Upd.storePhys_fresh (p : Path) (blk : Nat) (slots : List Nat) (role : Bool) (lane : Option Nat) (a : Nat) (bs : List Byte) (s : State) : ((Upd.store p .phys blk slots role lane a bs).apply s).fresh = s.fresh := rfl
@[simp] theorem Upd.storePhys_late (p : Path) (blk : Nat) (slots : List Nat) (role : Bool) (lane : Option Nat) (a : Nat) (bs : List Byte) (s : State) : ((Upd.store p .phys blk slots role lane a bs).apply s).late = s.late := rfl

@[simp] theorem Upd.storeLoc_mem (p : Path) (b blk : Nat) (slots : List Nat) (role : Bool) (lane : Option Nat) (a : Nat) (bs : List Byte) (s : State) : ((Upd.store p (.loc b) blk slots role lane a bs).apply s).mem = s.mem := rfl
@[simp] theorem Upd.storeLoc_hist (p : Path) (b blk : Nat) (slots : List Nat) (role : Bool) (lane : Option Nat) (a : Nat) (bs : List Byte) (s : State) : ((Upd.store p (.loc b) blk slots role lane a bs).apply s).hist = histOf s p (.loc b) blk slots role lane a bs ++ s.hist := rfl
@[simp] theorem Upd.storeLoc_teams (p : Path) (b blk : Nat) (slots : List Nat) (role : Bool) (lane : Option Nat) (a : Nat) (bs : List Byte) (s : State) : ((Upd.store p (.loc b) blk slots role lane a bs).apply s).teams = s.teams := rfl
@[simp] theorem Upd.storeLoc_blocks (p : Path) (b blk : Nat) (slots : List Nat) (role : Bool) (lane : Option Nat) (a : Nat) (bs : List Byte) (s : State) : ((Upd.store p (.loc b) blk slots role lane a bs).apply s).blocks = s.blocks.put b { s.block b with loc := Sparse.setRun (s.block b).loc a bs } := rfl
@[simp] theorem Upd.storeLoc_slots (p : Path) (b blk : Nat) (slots : List Nat) (role : Bool) (lane : Option Nat) (a : Nat) (bs : List Byte) (s : State) : ((Upd.store p (.loc b) blk slots role lane a bs).apply s).slots = s.slots := rfl
@[simp] theorem Upd.storeLoc_cores (p : Path) (b blk : Nat) (slots : List Nat) (role : Bool) (lane : Option Nat) (a : Nat) (bs : List Byte) (s : State) : ((Upd.store p (.loc b) blk slots role lane a bs).apply s).cores = s.cores := rfl
@[simp] theorem Upd.storeLoc_dies (p : Path) (b blk : Nat) (slots : List Nat) (role : Bool) (lane : Option Nat) (a : Nat) (bs : List Byte) (s : State) : ((Upd.store p (.loc b) blk slots role lane a bs).apply s).dies = s.dies := rfl
@[simp] theorem Upd.storeLoc_launches (p : Path) (b blk : Nat) (slots : List Nat) (role : Bool) (lane : Option Nat) (a : Nat) (bs : List Byte) (s : State) : ((Upd.store p (.loc b) blk slots role lane a bs).apply s).launches = s.launches := rfl
@[simp] theorem Upd.storeLoc_queues (p : Path) (b blk : Nat) (slots : List Nat) (role : Bool) (lane : Option Nat) (a : Nat) (bs : List Byte) (s : State) : ((Upd.store p (.loc b) blk slots role lane a bs).apply s).queues = s.queues := rfl
@[simp] theorem Upd.storeLoc_ctxs (p : Path) (b blk : Nat) (slots : List Nat) (role : Bool) (lane : Option Nat) (a : Nat) (bs : List Byte) (s : State) : ((Upd.store p (.loc b) blk slots role lane a bs).apply s).ctxs = s.ctxs := rfl
@[simp] theorem Upd.storeLoc_harts (p : Path) (b blk : Nat) (slots : List Nat) (role : Bool) (lane : Option Nat) (a : Nat) (bs : List Byte) (s : State) : ((Upd.store p (.loc b) blk slots role lane a bs).apply s).harts = s.harts := rfl
@[simp] theorem Upd.storeLoc_pkg (p : Path) (b blk : Nat) (slots : List Nat) (role : Bool) (lane : Option Nat) (a : Nat) (bs : List Byte) (s : State) : ((Upd.store p (.loc b) blk slots role lane a bs).apply s).pkg = s.pkg := rfl
@[simp] theorem Upd.storeLoc_coh (p : Path) (b blk : Nat) (slots : List Nat) (role : Bool) (lane : Option Nat) (a : Nat) (bs : List Byte) (s : State) : ((Upd.store p (.loc b) blk slots role lane a bs).apply s).coh = s.coh := rfl
@[simp] theorem Upd.storeLoc_seq (p : Path) (b blk : Nat) (slots : List Nat) (role : Bool) (lane : Option Nat) (a : Nat) (bs : List Byte) (s : State) : ((Upd.store p (.loc b) blk slots role lane a bs).apply s).seq = s.seq := rfl
@[simp] theorem Upd.storeLoc_writes (p : Path) (b blk : Nat) (slots : List Nat) (role : Bool) (lane : Option Nat) (a : Nat) (bs : List Byte) (s : State) : ((Upd.store p (.loc b) blk slots role lane a bs).apply s).writes = s.writes + ((Place.loc b).words a bs.length).length := rfl
@[simp] theorem Upd.storeLoc_cur (p : Path) (b blk : Nat) (slots : List Nat) (role : Bool) (lane : Option Nat) (a : Nat) (bs : List Byte) (s : State) : ((Upd.store p (.loc b) blk slots role lane a bs).apply s).cur = s.cur := rfl
@[simp] theorem Upd.storeLoc_curBlk (p : Path) (b blk : Nat) (slots : List Nat) (role : Bool) (lane : Option Nat) (a : Nat) (bs : List Byte) (s : State) : ((Upd.store p (.loc b) blk slots role lane a bs).apply s).curBlk = s.curBlk := rfl
@[simp] theorem Upd.storeLoc_agenda (p : Path) (b blk : Nat) (slots : List Nat) (role : Bool) (lane : Option Nat) (a : Nat) (bs : List Byte) (s : State) : ((Upd.store p (.loc b) blk slots role lane a bs).apply s).agenda = s.agenda := rfl
@[simp] theorem Upd.storeLoc_tick (p : Path) (b blk : Nat) (slots : List Nat) (role : Bool) (lane : Option Nat) (a : Nat) (bs : List Byte) (s : State) : ((Upd.store p (.loc b) blk slots role lane a bs).apply s).tick = s.tick := rfl
@[simp] theorem Upd.storeLoc_clock (p : Path) (b blk : Nat) (slots : List Nat) (role : Bool) (lane : Option Nat) (a : Nat) (bs : List Byte) (s : State) : ((Upd.store p (.loc b) blk slots role lane a bs).apply s).clock = s.clock := rfl
@[simp] theorem Upd.storeLoc_fresh (p : Path) (b blk : Nat) (slots : List Nat) (role : Bool) (lane : Option Nat) (a : Nat) (bs : List Byte) (s : State) : ((Upd.store p (.loc b) blk slots role lane a bs).apply s).fresh = s.fresh := rfl
@[simp] theorem Upd.storeLoc_late (p : Path) (b blk : Nat) (slots : List Nat) (role : Bool) (lane : Option Nat) (a : Nat) (bs : List Byte) (s : State) : ((Upd.store p (.loc b) blk slots role lane a bs).apply s).late = s.late := rfl

@[simp] theorem Upd.storeOb_mem (p : Path) (b blk : Nat) (slots : List Nat) (role : Bool) (lane : Option Nat) (a : Nat) (bs : List Byte) (s : State) : ((Upd.store p (.ob b) blk slots role lane a bs).apply s).mem = s.mem := rfl
@[simp] theorem Upd.storeOb_hist (p : Path) (b blk : Nat) (slots : List Nat) (role : Bool) (lane : Option Nat) (a : Nat) (bs : List Byte) (s : State) : ((Upd.store p (.ob b) blk slots role lane a bs).apply s).hist = histOf s p (.ob b) blk slots role lane a bs ++ s.hist := rfl
@[simp] theorem Upd.storeOb_teams (p : Path) (b blk : Nat) (slots : List Nat) (role : Bool) (lane : Option Nat) (a : Nat) (bs : List Byte) (s : State) : ((Upd.store p (.ob b) blk slots role lane a bs).apply s).teams = s.teams := rfl
@[simp] theorem Upd.storeOb_blocks (p : Path) (b blk : Nat) (slots : List Nat) (role : Bool) (lane : Option Nat) (a : Nat) (bs : List Byte) (s : State) : ((Upd.store p (.ob b) blk slots role lane a bs).apply s).blocks = s.blocks.put b { s.block b with ob := Sparse.setRun (s.block b).ob a bs } := rfl
@[simp] theorem Upd.storeOb_slots (p : Path) (b blk : Nat) (slots : List Nat) (role : Bool) (lane : Option Nat) (a : Nat) (bs : List Byte) (s : State) : ((Upd.store p (.ob b) blk slots role lane a bs).apply s).slots = s.slots := rfl
@[simp] theorem Upd.storeOb_cores (p : Path) (b blk : Nat) (slots : List Nat) (role : Bool) (lane : Option Nat) (a : Nat) (bs : List Byte) (s : State) : ((Upd.store p (.ob b) blk slots role lane a bs).apply s).cores = s.cores := rfl
@[simp] theorem Upd.storeOb_dies (p : Path) (b blk : Nat) (slots : List Nat) (role : Bool) (lane : Option Nat) (a : Nat) (bs : List Byte) (s : State) : ((Upd.store p (.ob b) blk slots role lane a bs).apply s).dies = s.dies := rfl
@[simp] theorem Upd.storeOb_launches (p : Path) (b blk : Nat) (slots : List Nat) (role : Bool) (lane : Option Nat) (a : Nat) (bs : List Byte) (s : State) : ((Upd.store p (.ob b) blk slots role lane a bs).apply s).launches = s.launches := rfl
@[simp] theorem Upd.storeOb_queues (p : Path) (b blk : Nat) (slots : List Nat) (role : Bool) (lane : Option Nat) (a : Nat) (bs : List Byte) (s : State) : ((Upd.store p (.ob b) blk slots role lane a bs).apply s).queues = s.queues := rfl
@[simp] theorem Upd.storeOb_ctxs (p : Path) (b blk : Nat) (slots : List Nat) (role : Bool) (lane : Option Nat) (a : Nat) (bs : List Byte) (s : State) : ((Upd.store p (.ob b) blk slots role lane a bs).apply s).ctxs = s.ctxs := rfl
@[simp] theorem Upd.storeOb_harts (p : Path) (b blk : Nat) (slots : List Nat) (role : Bool) (lane : Option Nat) (a : Nat) (bs : List Byte) (s : State) : ((Upd.store p (.ob b) blk slots role lane a bs).apply s).harts = s.harts := rfl
@[simp] theorem Upd.storeOb_pkg (p : Path) (b blk : Nat) (slots : List Nat) (role : Bool) (lane : Option Nat) (a : Nat) (bs : List Byte) (s : State) : ((Upd.store p (.ob b) blk slots role lane a bs).apply s).pkg = s.pkg := rfl
@[simp] theorem Upd.storeOb_coh (p : Path) (b blk : Nat) (slots : List Nat) (role : Bool) (lane : Option Nat) (a : Nat) (bs : List Byte) (s : State) : ((Upd.store p (.ob b) blk slots role lane a bs).apply s).coh = s.coh := rfl
@[simp] theorem Upd.storeOb_seq (p : Path) (b blk : Nat) (slots : List Nat) (role : Bool) (lane : Option Nat) (a : Nat) (bs : List Byte) (s : State) : ((Upd.store p (.ob b) blk slots role lane a bs).apply s).seq = s.seq := rfl
@[simp] theorem Upd.storeOb_writes (p : Path) (b blk : Nat) (slots : List Nat) (role : Bool) (lane : Option Nat) (a : Nat) (bs : List Byte) (s : State) : ((Upd.store p (.ob b) blk slots role lane a bs).apply s).writes = s.writes + ((Place.ob b).words a bs.length).length := rfl
@[simp] theorem Upd.storeOb_cur (p : Path) (b blk : Nat) (slots : List Nat) (role : Bool) (lane : Option Nat) (a : Nat) (bs : List Byte) (s : State) : ((Upd.store p (.ob b) blk slots role lane a bs).apply s).cur = s.cur := rfl
@[simp] theorem Upd.storeOb_curBlk (p : Path) (b blk : Nat) (slots : List Nat) (role : Bool) (lane : Option Nat) (a : Nat) (bs : List Byte) (s : State) : ((Upd.store p (.ob b) blk slots role lane a bs).apply s).curBlk = s.curBlk := rfl
@[simp] theorem Upd.storeOb_agenda (p : Path) (b blk : Nat) (slots : List Nat) (role : Bool) (lane : Option Nat) (a : Nat) (bs : List Byte) (s : State) : ((Upd.store p (.ob b) blk slots role lane a bs).apply s).agenda = s.agenda := rfl
@[simp] theorem Upd.storeOb_tick (p : Path) (b blk : Nat) (slots : List Nat) (role : Bool) (lane : Option Nat) (a : Nat) (bs : List Byte) (s : State) : ((Upd.store p (.ob b) blk slots role lane a bs).apply s).tick = s.tick := rfl
@[simp] theorem Upd.storeOb_clock (p : Path) (b blk : Nat) (slots : List Nat) (role : Bool) (lane : Option Nat) (a : Nat) (bs : List Byte) (s : State) : ((Upd.store p (.ob b) blk slots role lane a bs).apply s).clock = s.clock := rfl
@[simp] theorem Upd.storeOb_fresh (p : Path) (b blk : Nat) (slots : List Nat) (role : Bool) (lane : Option Nat) (a : Nat) (bs : List Byte) (s : State) : ((Upd.store p (.ob b) blk slots role lane a bs).apply s).fresh = s.fresh := rfl
@[simp] theorem Upd.storeOb_late (p : Path) (b blk : Nat) (slots : List Nat) (role : Bool) (lane : Option Nat) (a : Nat) (bs : List Byte) (s : State) : ((Upd.store p (.ob b) blk slots role lane a bs).apply s).late = s.late := rfl

@[simp] theorem Upd.storeTile_mem (p : Path) (b blk : Nat) (slots : List Nat) (role : Bool) (lane : Option Nat) (a : Nat) (bs : List Byte) (s : State) : ((Upd.store p (.tile b) blk slots role lane a bs).apply s).mem = s.mem := rfl
@[simp] theorem Upd.storeTile_hist (p : Path) (b blk : Nat) (slots : List Nat) (role : Bool) (lane : Option Nat) (a : Nat) (bs : List Byte) (s : State) : ((Upd.store p (.tile b) blk slots role lane a bs).apply s).hist = histOf s p (.tile b) blk slots role lane a bs ++ s.hist := rfl
@[simp] theorem Upd.storeTile_teams (p : Path) (b blk : Nat) (slots : List Nat) (role : Bool) (lane : Option Nat) (a : Nat) (bs : List Byte) (s : State) : ((Upd.store p (.tile b) blk slots role lane a bs).apply s).teams = s.teams := rfl
@[simp] theorem Upd.storeTile_blocks (p : Path) (b blk : Nat) (slots : List Nat) (role : Bool) (lane : Option Nat) (a : Nat) (bs : List Byte) (s : State) : ((Upd.store p (.tile b) blk slots role lane a bs).apply s).blocks = s.blocks.put b { s.block b with tiles := Sparse.setRun (s.block b).tiles (a / 4) ((List.range (bs.length / 4)).map (fun i => BitVec.ofNat 32 (leNat ((bs.drop (4 * i)).take 4)))) } := rfl
@[simp] theorem Upd.storeTile_slots (p : Path) (b blk : Nat) (slots : List Nat) (role : Bool) (lane : Option Nat) (a : Nat) (bs : List Byte) (s : State) : ((Upd.store p (.tile b) blk slots role lane a bs).apply s).slots = s.slots := rfl
@[simp] theorem Upd.storeTile_cores (p : Path) (b blk : Nat) (slots : List Nat) (role : Bool) (lane : Option Nat) (a : Nat) (bs : List Byte) (s : State) : ((Upd.store p (.tile b) blk slots role lane a bs).apply s).cores = s.cores := rfl
@[simp] theorem Upd.storeTile_dies (p : Path) (b blk : Nat) (slots : List Nat) (role : Bool) (lane : Option Nat) (a : Nat) (bs : List Byte) (s : State) : ((Upd.store p (.tile b) blk slots role lane a bs).apply s).dies = s.dies := rfl
@[simp] theorem Upd.storeTile_launches (p : Path) (b blk : Nat) (slots : List Nat) (role : Bool) (lane : Option Nat) (a : Nat) (bs : List Byte) (s : State) : ((Upd.store p (.tile b) blk slots role lane a bs).apply s).launches = s.launches := rfl
@[simp] theorem Upd.storeTile_queues (p : Path) (b blk : Nat) (slots : List Nat) (role : Bool) (lane : Option Nat) (a : Nat) (bs : List Byte) (s : State) : ((Upd.store p (.tile b) blk slots role lane a bs).apply s).queues = s.queues := rfl
@[simp] theorem Upd.storeTile_ctxs (p : Path) (b blk : Nat) (slots : List Nat) (role : Bool) (lane : Option Nat) (a : Nat) (bs : List Byte) (s : State) : ((Upd.store p (.tile b) blk slots role lane a bs).apply s).ctxs = s.ctxs := rfl
@[simp] theorem Upd.storeTile_harts (p : Path) (b blk : Nat) (slots : List Nat) (role : Bool) (lane : Option Nat) (a : Nat) (bs : List Byte) (s : State) : ((Upd.store p (.tile b) blk slots role lane a bs).apply s).harts = s.harts := rfl
@[simp] theorem Upd.storeTile_pkg (p : Path) (b blk : Nat) (slots : List Nat) (role : Bool) (lane : Option Nat) (a : Nat) (bs : List Byte) (s : State) : ((Upd.store p (.tile b) blk slots role lane a bs).apply s).pkg = s.pkg := rfl
@[simp] theorem Upd.storeTile_coh (p : Path) (b blk : Nat) (slots : List Nat) (role : Bool) (lane : Option Nat) (a : Nat) (bs : List Byte) (s : State) : ((Upd.store p (.tile b) blk slots role lane a bs).apply s).coh = s.coh := rfl
@[simp] theorem Upd.storeTile_seq (p : Path) (b blk : Nat) (slots : List Nat) (role : Bool) (lane : Option Nat) (a : Nat) (bs : List Byte) (s : State) : ((Upd.store p (.tile b) blk slots role lane a bs).apply s).seq = s.seq := rfl
@[simp] theorem Upd.storeTile_writes (p : Path) (b blk : Nat) (slots : List Nat) (role : Bool) (lane : Option Nat) (a : Nat) (bs : List Byte) (s : State) : ((Upd.store p (.tile b) blk slots role lane a bs).apply s).writes = s.writes + ((Place.tile b).words a bs.length).length := rfl
@[simp] theorem Upd.storeTile_cur (p : Path) (b blk : Nat) (slots : List Nat) (role : Bool) (lane : Option Nat) (a : Nat) (bs : List Byte) (s : State) : ((Upd.store p (.tile b) blk slots role lane a bs).apply s).cur = s.cur := rfl
@[simp] theorem Upd.storeTile_curBlk (p : Path) (b blk : Nat) (slots : List Nat) (role : Bool) (lane : Option Nat) (a : Nat) (bs : List Byte) (s : State) : ((Upd.store p (.tile b) blk slots role lane a bs).apply s).curBlk = s.curBlk := rfl
@[simp] theorem Upd.storeTile_agenda (p : Path) (b blk : Nat) (slots : List Nat) (role : Bool) (lane : Option Nat) (a : Nat) (bs : List Byte) (s : State) : ((Upd.store p (.tile b) blk slots role lane a bs).apply s).agenda = s.agenda := rfl
@[simp] theorem Upd.storeTile_tick (p : Path) (b blk : Nat) (slots : List Nat) (role : Bool) (lane : Option Nat) (a : Nat) (bs : List Byte) (s : State) : ((Upd.store p (.tile b) blk slots role lane a bs).apply s).tick = s.tick := rfl
@[simp] theorem Upd.storeTile_clock (p : Path) (b blk : Nat) (slots : List Nat) (role : Bool) (lane : Option Nat) (a : Nat) (bs : List Byte) (s : State) : ((Upd.store p (.tile b) blk slots role lane a bs).apply s).clock = s.clock := rfl
@[simp] theorem Upd.storeTile_fresh (p : Path) (b blk : Nat) (slots : List Nat) (role : Bool) (lane : Option Nat) (a : Nat) (bs : List Byte) (s : State) : ((Upd.store p (.tile b) blk slots role lane a bs).apply s).fresh = s.fresh := rfl
@[simp] theorem Upd.storeTile_late (p : Path) (b blk : Nat) (slots : List Nat) (role : Bool) (lane : Option Nat) (a : Nat) (bs : List Byte) (s : State) : ((Upd.store p (.tile b) blk slots role lane a bs).apply s).late = s.late := rfl

@[simp] theorem Upd.hist_mem (f : List HistWord → List HistWord) (s : State) : ((Upd.hist f).apply s).mem = s.mem := rfl
@[simp] theorem Upd.hist_hist (f : List HistWord → List HistWord) (s : State) : ((Upd.hist f).apply s).hist = f s.hist := rfl
@[simp] theorem Upd.hist_teams (f : List HistWord → List HistWord) (s : State) : ((Upd.hist f).apply s).teams = s.teams := rfl
@[simp] theorem Upd.hist_blocks (f : List HistWord → List HistWord) (s : State) : ((Upd.hist f).apply s).blocks = s.blocks := rfl
@[simp] theorem Upd.hist_slots (f : List HistWord → List HistWord) (s : State) : ((Upd.hist f).apply s).slots = s.slots := rfl
@[simp] theorem Upd.hist_cores (f : List HistWord → List HistWord) (s : State) : ((Upd.hist f).apply s).cores = s.cores := rfl
@[simp] theorem Upd.hist_dies (f : List HistWord → List HistWord) (s : State) : ((Upd.hist f).apply s).dies = s.dies := rfl
@[simp] theorem Upd.hist_launches (f : List HistWord → List HistWord) (s : State) : ((Upd.hist f).apply s).launches = s.launches := rfl
@[simp] theorem Upd.hist_queues (f : List HistWord → List HistWord) (s : State) : ((Upd.hist f).apply s).queues = s.queues := rfl
@[simp] theorem Upd.hist_ctxs (f : List HistWord → List HistWord) (s : State) : ((Upd.hist f).apply s).ctxs = s.ctxs := rfl
@[simp] theorem Upd.hist_harts (f : List HistWord → List HistWord) (s : State) : ((Upd.hist f).apply s).harts = s.harts := rfl
@[simp] theorem Upd.hist_pkg (f : List HistWord → List HistWord) (s : State) : ((Upd.hist f).apply s).pkg = s.pkg := rfl
@[simp] theorem Upd.hist_coh (f : List HistWord → List HistWord) (s : State) : ((Upd.hist f).apply s).coh = s.coh := rfl
@[simp] theorem Upd.hist_seq (f : List HistWord → List HistWord) (s : State) : ((Upd.hist f).apply s).seq = s.seq := rfl
@[simp] theorem Upd.hist_writes (f : List HistWord → List HistWord) (s : State) : ((Upd.hist f).apply s).writes = s.writes := rfl
@[simp] theorem Upd.hist_cur (f : List HistWord → List HistWord) (s : State) : ((Upd.hist f).apply s).cur = s.cur := rfl
@[simp] theorem Upd.hist_curBlk (f : List HistWord → List HistWord) (s : State) : ((Upd.hist f).apply s).curBlk = s.curBlk := rfl
@[simp] theorem Upd.hist_agenda (f : List HistWord → List HistWord) (s : State) : ((Upd.hist f).apply s).agenda = s.agenda := rfl
@[simp] theorem Upd.hist_tick (f : List HistWord → List HistWord) (s : State) : ((Upd.hist f).apply s).tick = s.tick := rfl
@[simp] theorem Upd.hist_clock (f : List HistWord → List HistWord) (s : State) : ((Upd.hist f).apply s).clock = s.clock := rfl
@[simp] theorem Upd.hist_fresh (f : List HistWord → List HistWord) (s : State) : ((Upd.hist f).apply s).fresh = s.fresh := rfl
@[simp] theorem Upd.hist_late (f : List HistWord → List HistWord) (s : State) : ((Upd.hist f).apply s).late = s.late := rfl

@[simp] theorem Upd.pkg_mem (f : Pkg → Pkg) (s : State) : ((Upd.pkg f).apply s).mem = s.mem := rfl
@[simp] theorem Upd.pkg_hist (f : Pkg → Pkg) (s : State) : ((Upd.pkg f).apply s).hist = s.hist := rfl
@[simp] theorem Upd.pkg_teams (f : Pkg → Pkg) (s : State) : ((Upd.pkg f).apply s).teams = s.teams := rfl
@[simp] theorem Upd.pkg_blocks (f : Pkg → Pkg) (s : State) : ((Upd.pkg f).apply s).blocks = s.blocks := rfl
@[simp] theorem Upd.pkg_slots (f : Pkg → Pkg) (s : State) : ((Upd.pkg f).apply s).slots = s.slots := rfl
@[simp] theorem Upd.pkg_cores (f : Pkg → Pkg) (s : State) : ((Upd.pkg f).apply s).cores = s.cores := rfl
@[simp] theorem Upd.pkg_dies (f : Pkg → Pkg) (s : State) : ((Upd.pkg f).apply s).dies = s.dies := rfl
@[simp] theorem Upd.pkg_launches (f : Pkg → Pkg) (s : State) : ((Upd.pkg f).apply s).launches = s.launches := rfl
@[simp] theorem Upd.pkg_queues (f : Pkg → Pkg) (s : State) : ((Upd.pkg f).apply s).queues = s.queues := rfl
@[simp] theorem Upd.pkg_ctxs (f : Pkg → Pkg) (s : State) : ((Upd.pkg f).apply s).ctxs = s.ctxs := rfl
@[simp] theorem Upd.pkg_harts (f : Pkg → Pkg) (s : State) : ((Upd.pkg f).apply s).harts = s.harts := rfl
@[simp] theorem Upd.pkg_pkg (f : Pkg → Pkg) (s : State) : ((Upd.pkg f).apply s).pkg = f s.pkg := rfl
@[simp] theorem Upd.pkg_coh (f : Pkg → Pkg) (s : State) : ((Upd.pkg f).apply s).coh = s.coh := rfl
@[simp] theorem Upd.pkg_seq (f : Pkg → Pkg) (s : State) : ((Upd.pkg f).apply s).seq = s.seq := rfl
@[simp] theorem Upd.pkg_writes (f : Pkg → Pkg) (s : State) : ((Upd.pkg f).apply s).writes = s.writes := rfl
@[simp] theorem Upd.pkg_cur (f : Pkg → Pkg) (s : State) : ((Upd.pkg f).apply s).cur = s.cur := rfl
@[simp] theorem Upd.pkg_curBlk (f : Pkg → Pkg) (s : State) : ((Upd.pkg f).apply s).curBlk = s.curBlk := rfl
@[simp] theorem Upd.pkg_agenda (f : Pkg → Pkg) (s : State) : ((Upd.pkg f).apply s).agenda = s.agenda := rfl
@[simp] theorem Upd.pkg_tick (f : Pkg → Pkg) (s : State) : ((Upd.pkg f).apply s).tick = s.tick := rfl
@[simp] theorem Upd.pkg_clock (f : Pkg → Pkg) (s : State) : ((Upd.pkg f).apply s).clock = s.clock := rfl
@[simp] theorem Upd.pkg_fresh (f : Pkg → Pkg) (s : State) : ((Upd.pkg f).apply s).fresh = s.fresh := rfl
@[simp] theorem Upd.pkg_late (f : Pkg → Pkg) (s : State) : ((Upd.pkg f).apply s).late = s.late := rfl

@[simp] theorem Upd.coh_mem (f : Coh → Coh) (s : State) : ((Upd.coh f).apply s).mem = s.mem := rfl
@[simp] theorem Upd.coh_hist (f : Coh → Coh) (s : State) : ((Upd.coh f).apply s).hist = s.hist := rfl
@[simp] theorem Upd.coh_teams (f : Coh → Coh) (s : State) : ((Upd.coh f).apply s).teams = s.teams := rfl
@[simp] theorem Upd.coh_blocks (f : Coh → Coh) (s : State) : ((Upd.coh f).apply s).blocks = s.blocks := rfl
@[simp] theorem Upd.coh_slots (f : Coh → Coh) (s : State) : ((Upd.coh f).apply s).slots = s.slots := rfl
@[simp] theorem Upd.coh_cores (f : Coh → Coh) (s : State) : ((Upd.coh f).apply s).cores = s.cores := rfl
@[simp] theorem Upd.coh_dies (f : Coh → Coh) (s : State) : ((Upd.coh f).apply s).dies = s.dies := rfl
@[simp] theorem Upd.coh_launches (f : Coh → Coh) (s : State) : ((Upd.coh f).apply s).launches = s.launches := rfl
@[simp] theorem Upd.coh_queues (f : Coh → Coh) (s : State) : ((Upd.coh f).apply s).queues = s.queues := rfl
@[simp] theorem Upd.coh_ctxs (f : Coh → Coh) (s : State) : ((Upd.coh f).apply s).ctxs = s.ctxs := rfl
@[simp] theorem Upd.coh_harts (f : Coh → Coh) (s : State) : ((Upd.coh f).apply s).harts = s.harts := rfl
@[simp] theorem Upd.coh_pkg (f : Coh → Coh) (s : State) : ((Upd.coh f).apply s).pkg = s.pkg := rfl
@[simp] theorem Upd.coh_coh (f : Coh → Coh) (s : State) : ((Upd.coh f).apply s).coh = f s.coh := rfl
@[simp] theorem Upd.coh_seq (f : Coh → Coh) (s : State) : ((Upd.coh f).apply s).seq = s.seq := rfl
@[simp] theorem Upd.coh_writes (f : Coh → Coh) (s : State) : ((Upd.coh f).apply s).writes = s.writes := rfl
@[simp] theorem Upd.coh_cur (f : Coh → Coh) (s : State) : ((Upd.coh f).apply s).cur = s.cur := rfl
@[simp] theorem Upd.coh_curBlk (f : Coh → Coh) (s : State) : ((Upd.coh f).apply s).curBlk = s.curBlk := rfl
@[simp] theorem Upd.coh_agenda (f : Coh → Coh) (s : State) : ((Upd.coh f).apply s).agenda = s.agenda := rfl
@[simp] theorem Upd.coh_tick (f : Coh → Coh) (s : State) : ((Upd.coh f).apply s).tick = s.tick := rfl
@[simp] theorem Upd.coh_clock (f : Coh → Coh) (s : State) : ((Upd.coh f).apply s).clock = s.clock := rfl
@[simp] theorem Upd.coh_fresh (f : Coh → Coh) (s : State) : ((Upd.coh f).apply s).fresh = s.fresh := rfl
@[simp] theorem Upd.coh_late (f : Coh → Coh) (s : State) : ((Upd.coh f).apply s).late = s.late := rfl

@[simp] theorem Upd.drawSeq_mem (s : State) : (Upd.drawSeq.apply s).mem = s.mem := rfl
@[simp] theorem Upd.drawSeq_hist (s : State) : (Upd.drawSeq.apply s).hist = s.hist := rfl
@[simp] theorem Upd.drawSeq_teams (s : State) : (Upd.drawSeq.apply s).teams = s.teams := rfl
@[simp] theorem Upd.drawSeq_blocks (s : State) : (Upd.drawSeq.apply s).blocks = s.blocks := rfl
@[simp] theorem Upd.drawSeq_slots (s : State) : (Upd.drawSeq.apply s).slots = s.slots := rfl
@[simp] theorem Upd.drawSeq_cores (s : State) : (Upd.drawSeq.apply s).cores = s.cores := rfl
@[simp] theorem Upd.drawSeq_dies (s : State) : (Upd.drawSeq.apply s).dies = s.dies := rfl
@[simp] theorem Upd.drawSeq_launches (s : State) : (Upd.drawSeq.apply s).launches = s.launches := rfl
@[simp] theorem Upd.drawSeq_queues (s : State) : (Upd.drawSeq.apply s).queues = s.queues := rfl
@[simp] theorem Upd.drawSeq_ctxs (s : State) : (Upd.drawSeq.apply s).ctxs = s.ctxs := rfl
@[simp] theorem Upd.drawSeq_harts (s : State) : (Upd.drawSeq.apply s).harts = s.harts := rfl
@[simp] theorem Upd.drawSeq_pkg (s : State) : (Upd.drawSeq.apply s).pkg = s.pkg := rfl
@[simp] theorem Upd.drawSeq_coh (s : State) : (Upd.drawSeq.apply s).coh = s.coh := rfl
@[simp] theorem Upd.drawSeq_seq (s : State) : (Upd.drawSeq.apply s).seq = s.seq + 1 := rfl
@[simp] theorem Upd.drawSeq_writes (s : State) : (Upd.drawSeq.apply s).writes = s.writes := rfl
@[simp] theorem Upd.drawSeq_cur (s : State) : (Upd.drawSeq.apply s).cur = s.cur := rfl
@[simp] theorem Upd.drawSeq_curBlk (s : State) : (Upd.drawSeq.apply s).curBlk = s.curBlk := rfl
@[simp] theorem Upd.drawSeq_agenda (s : State) : (Upd.drawSeq.apply s).agenda = s.agenda := rfl
@[simp] theorem Upd.drawSeq_tick (s : State) : (Upd.drawSeq.apply s).tick = s.tick := rfl
@[simp] theorem Upd.drawSeq_clock (s : State) : (Upd.drawSeq.apply s).clock = s.clock := rfl
@[simp] theorem Upd.drawSeq_fresh (s : State) : (Upd.drawSeq.apply s).fresh = s.fresh := rfl
@[simp] theorem Upd.drawSeq_late (s : State) : (Upd.drawSeq.apply s).late = s.late := rfl

@[simp] theorem Upd.drawFree_mem (s : State) : (Upd.drawFree.apply s).mem = s.mem := rfl
@[simp] theorem Upd.drawFree_hist (s : State) : (Upd.drawFree.apply s).hist = s.hist := rfl
@[simp] theorem Upd.drawFree_teams (s : State) : (Upd.drawFree.apply s).teams = s.teams := rfl
@[simp] theorem Upd.drawFree_blocks (s : State) : (Upd.drawFree.apply s).blocks = s.blocks := rfl
@[simp] theorem Upd.drawFree_slots (s : State) : (Upd.drawFree.apply s).slots = s.slots := rfl
@[simp] theorem Upd.drawFree_cores (s : State) : (Upd.drawFree.apply s).cores = s.cores := rfl
@[simp] theorem Upd.drawFree_dies (s : State) : (Upd.drawFree.apply s).dies = s.dies := rfl
@[simp] theorem Upd.drawFree_launches (s : State) : (Upd.drawFree.apply s).launches = s.launches := rfl
@[simp] theorem Upd.drawFree_queues (s : State) : (Upd.drawFree.apply s).queues = s.queues := rfl
@[simp] theorem Upd.drawFree_ctxs (s : State) : (Upd.drawFree.apply s).ctxs = s.ctxs := rfl
@[simp] theorem Upd.drawFree_harts (s : State) : (Upd.drawFree.apply s).harts = s.harts := rfl
@[simp] theorem Upd.drawFree_pkg (s : State) : (Upd.drawFree.apply s).pkg = s.pkg := rfl
@[simp] theorem Upd.drawFree_coh (s : State) : (Upd.drawFree.apply s).coh = s.coh := rfl
@[simp] theorem Upd.drawFree_seq (s : State) : (Upd.drawFree.apply s).seq = s.seq := rfl
@[simp] theorem Upd.drawFree_writes (s : State) : (Upd.drawFree.apply s).writes = s.writes := rfl
@[simp] theorem Upd.drawFree_cur (s : State) : (Upd.drawFree.apply s).cur = s.cur := rfl
@[simp] theorem Upd.drawFree_curBlk (s : State) : (Upd.drawFree.apply s).curBlk = s.curBlk := rfl
@[simp] theorem Upd.drawFree_agenda (s : State) : (Upd.drawFree.apply s).agenda = s.agenda := rfl
@[simp] theorem Upd.drawFree_tick (s : State) : (Upd.drawFree.apply s).tick = s.tick := rfl
@[simp] theorem Upd.drawFree_clock (s : State) : (Upd.drawFree.apply s).clock = s.clock := rfl
@[simp] theorem Upd.drawFree_fresh (s : State) : (Upd.drawFree.apply s).fresh = s.fresh + 1 := rfl
@[simp] theorem Upd.drawFree_late (s : State) : (Upd.drawFree.apply s).late = s.late := rfl

@[simp] theorem Upd.late_mem (s : State) : (Upd.late.apply s).mem = s.mem := rfl
@[simp] theorem Upd.late_hist (s : State) : (Upd.late.apply s).hist = s.hist := rfl
@[simp] theorem Upd.late_teams (s : State) : (Upd.late.apply s).teams = s.teams := rfl
@[simp] theorem Upd.late_blocks (s : State) : (Upd.late.apply s).blocks = s.blocks := rfl
@[simp] theorem Upd.late_slots (s : State) : (Upd.late.apply s).slots = s.slots := rfl
@[simp] theorem Upd.late_cores (s : State) : (Upd.late.apply s).cores = s.cores := rfl
@[simp] theorem Upd.late_dies (s : State) : (Upd.late.apply s).dies = s.dies := rfl
@[simp] theorem Upd.late_launches (s : State) : (Upd.late.apply s).launches = s.launches := rfl
@[simp] theorem Upd.late_queues (s : State) : (Upd.late.apply s).queues = s.queues := rfl
@[simp] theorem Upd.late_ctxs (s : State) : (Upd.late.apply s).ctxs = s.ctxs := rfl
@[simp] theorem Upd.late_harts (s : State) : (Upd.late.apply s).harts = s.harts := rfl
@[simp] theorem Upd.late_pkg (s : State) : (Upd.late.apply s).pkg = s.pkg := rfl
@[simp] theorem Upd.late_coh (s : State) : (Upd.late.apply s).coh = s.coh := rfl
@[simp] theorem Upd.late_seq (s : State) : (Upd.late.apply s).seq = s.seq := rfl
@[simp] theorem Upd.late_writes (s : State) : (Upd.late.apply s).writes = s.writes := rfl
@[simp] theorem Upd.late_cur (s : State) : (Upd.late.apply s).cur = s.cur := rfl
@[simp] theorem Upd.late_curBlk (s : State) : (Upd.late.apply s).curBlk = s.curBlk := rfl
@[simp] theorem Upd.late_agenda (s : State) : (Upd.late.apply s).agenda = s.agenda := rfl
@[simp] theorem Upd.late_tick (s : State) : (Upd.late.apply s).tick = s.tick := rfl
@[simp] theorem Upd.late_clock (s : State) : (Upd.late.apply s).clock = s.clock := rfl
@[simp] theorem Upd.late_fresh (s : State) : (Upd.late.apply s).fresh = s.fresh := rfl
@[simp] theorem Upd.late_late (s : State) : (Upd.late.apply s).late = true := rfl

@[simp] theorem Upd.cur_mem (t : Nat) (s : State) : ((Upd.cur t).apply s).mem = s.mem := rfl
@[simp] theorem Upd.cur_hist (t : Nat) (s : State) : ((Upd.cur t).apply s).hist = s.hist := rfl
@[simp] theorem Upd.cur_teams (t : Nat) (s : State) : ((Upd.cur t).apply s).teams = s.teams := rfl
@[simp] theorem Upd.cur_blocks (t : Nat) (s : State) : ((Upd.cur t).apply s).blocks = s.blocks := rfl
@[simp] theorem Upd.cur_slots (t : Nat) (s : State) : ((Upd.cur t).apply s).slots = s.slots := rfl
@[simp] theorem Upd.cur_cores (t : Nat) (s : State) : ((Upd.cur t).apply s).cores = s.cores := rfl
@[simp] theorem Upd.cur_dies (t : Nat) (s : State) : ((Upd.cur t).apply s).dies = s.dies := rfl
@[simp] theorem Upd.cur_launches (t : Nat) (s : State) : ((Upd.cur t).apply s).launches = s.launches := rfl
@[simp] theorem Upd.cur_queues (t : Nat) (s : State) : ((Upd.cur t).apply s).queues = s.queues := rfl
@[simp] theorem Upd.cur_ctxs (t : Nat) (s : State) : ((Upd.cur t).apply s).ctxs = s.ctxs := rfl
@[simp] theorem Upd.cur_harts (t : Nat) (s : State) : ((Upd.cur t).apply s).harts = s.harts := rfl
@[simp] theorem Upd.cur_pkg (t : Nat) (s : State) : ((Upd.cur t).apply s).pkg = s.pkg := rfl
@[simp] theorem Upd.cur_coh (t : Nat) (s : State) : ((Upd.cur t).apply s).coh = s.coh := rfl
@[simp] theorem Upd.cur_seq (t : Nat) (s : State) : ((Upd.cur t).apply s).seq = s.seq := rfl
@[simp] theorem Upd.cur_writes (t : Nat) (s : State) : ((Upd.cur t).apply s).writes = s.writes := rfl
@[simp] theorem Upd.cur_cur (t : Nat) (s : State) : ((Upd.cur t).apply s).cur = t := rfl
@[simp] theorem Upd.cur_curBlk (t : Nat) (s : State) : ((Upd.cur t).apply s).curBlk = s.curBlk := rfl
@[simp] theorem Upd.cur_agenda (t : Nat) (s : State) : ((Upd.cur t).apply s).agenda = s.agenda := rfl
@[simp] theorem Upd.cur_tick (t : Nat) (s : State) : ((Upd.cur t).apply s).tick = s.tick := rfl
@[simp] theorem Upd.cur_clock (t : Nat) (s : State) : ((Upd.cur t).apply s).clock = s.clock := rfl
@[simp] theorem Upd.cur_fresh (t : Nat) (s : State) : ((Upd.cur t).apply s).fresh = s.fresh := rfl
@[simp] theorem Upd.cur_late (t : Nat) (s : State) : ((Upd.cur t).apply s).late = s.late := rfl

@[simp] theorem Upd.curBlk_mem (b : Nat) (s : State) : ((Upd.curBlk b).apply s).mem = s.mem := rfl
@[simp] theorem Upd.curBlk_hist (b : Nat) (s : State) : ((Upd.curBlk b).apply s).hist = s.hist := rfl
@[simp] theorem Upd.curBlk_teams (b : Nat) (s : State) : ((Upd.curBlk b).apply s).teams = s.teams := rfl
@[simp] theorem Upd.curBlk_blocks (b : Nat) (s : State) : ((Upd.curBlk b).apply s).blocks = s.blocks := rfl
@[simp] theorem Upd.curBlk_slots (b : Nat) (s : State) : ((Upd.curBlk b).apply s).slots = s.slots := rfl
@[simp] theorem Upd.curBlk_cores (b : Nat) (s : State) : ((Upd.curBlk b).apply s).cores = s.cores := rfl
@[simp] theorem Upd.curBlk_dies (b : Nat) (s : State) : ((Upd.curBlk b).apply s).dies = s.dies := rfl
@[simp] theorem Upd.curBlk_launches (b : Nat) (s : State) : ((Upd.curBlk b).apply s).launches = s.launches := rfl
@[simp] theorem Upd.curBlk_queues (b : Nat) (s : State) : ((Upd.curBlk b).apply s).queues = s.queues := rfl
@[simp] theorem Upd.curBlk_ctxs (b : Nat) (s : State) : ((Upd.curBlk b).apply s).ctxs = s.ctxs := rfl
@[simp] theorem Upd.curBlk_harts (b : Nat) (s : State) : ((Upd.curBlk b).apply s).harts = s.harts := rfl
@[simp] theorem Upd.curBlk_pkg (b : Nat) (s : State) : ((Upd.curBlk b).apply s).pkg = s.pkg := rfl
@[simp] theorem Upd.curBlk_coh (b : Nat) (s : State) : ((Upd.curBlk b).apply s).coh = s.coh := rfl
@[simp] theorem Upd.curBlk_seq (b : Nat) (s : State) : ((Upd.curBlk b).apply s).seq = s.seq := rfl
@[simp] theorem Upd.curBlk_writes (b : Nat) (s : State) : ((Upd.curBlk b).apply s).writes = s.writes := rfl
@[simp] theorem Upd.curBlk_cur (b : Nat) (s : State) : ((Upd.curBlk b).apply s).cur = s.cur := rfl
@[simp] theorem Upd.curBlk_curBlk (b : Nat) (s : State) : ((Upd.curBlk b).apply s).curBlk = b := rfl
@[simp] theorem Upd.curBlk_agenda (b : Nat) (s : State) : ((Upd.curBlk b).apply s).agenda = s.agenda := rfl
@[simp] theorem Upd.curBlk_tick (b : Nat) (s : State) : ((Upd.curBlk b).apply s).tick = s.tick := rfl
@[simp] theorem Upd.curBlk_clock (b : Nat) (s : State) : ((Upd.curBlk b).apply s).clock = s.clock := rfl
@[simp] theorem Upd.curBlk_fresh (b : Nat) (s : State) : ((Upd.curBlk b).apply s).fresh = s.fresh := rfl
@[simp] theorem Upd.curBlk_late (b : Nat) (s : State) : ((Upd.curBlk b).apply s).late = s.late := rfl

@[simp] theorem Upd.agenda_mem (f : List Turn → List Turn) (s : State) : ((Upd.agenda f).apply s).mem = s.mem := rfl
@[simp] theorem Upd.agenda_hist (f : List Turn → List Turn) (s : State) : ((Upd.agenda f).apply s).hist = s.hist := rfl
@[simp] theorem Upd.agenda_teams (f : List Turn → List Turn) (s : State) : ((Upd.agenda f).apply s).teams = s.teams := rfl
@[simp] theorem Upd.agenda_blocks (f : List Turn → List Turn) (s : State) : ((Upd.agenda f).apply s).blocks = s.blocks := rfl
@[simp] theorem Upd.agenda_slots (f : List Turn → List Turn) (s : State) : ((Upd.agenda f).apply s).slots = s.slots := rfl
@[simp] theorem Upd.agenda_cores (f : List Turn → List Turn) (s : State) : ((Upd.agenda f).apply s).cores = s.cores := rfl
@[simp] theorem Upd.agenda_dies (f : List Turn → List Turn) (s : State) : ((Upd.agenda f).apply s).dies = s.dies := rfl
@[simp] theorem Upd.agenda_launches (f : List Turn → List Turn) (s : State) : ((Upd.agenda f).apply s).launches = s.launches := rfl
@[simp] theorem Upd.agenda_queues (f : List Turn → List Turn) (s : State) : ((Upd.agenda f).apply s).queues = s.queues := rfl
@[simp] theorem Upd.agenda_ctxs (f : List Turn → List Turn) (s : State) : ((Upd.agenda f).apply s).ctxs = s.ctxs := rfl
@[simp] theorem Upd.agenda_harts (f : List Turn → List Turn) (s : State) : ((Upd.agenda f).apply s).harts = s.harts := rfl
@[simp] theorem Upd.agenda_pkg (f : List Turn → List Turn) (s : State) : ((Upd.agenda f).apply s).pkg = s.pkg := rfl
@[simp] theorem Upd.agenda_coh (f : List Turn → List Turn) (s : State) : ((Upd.agenda f).apply s).coh = s.coh := rfl
@[simp] theorem Upd.agenda_seq (f : List Turn → List Turn) (s : State) : ((Upd.agenda f).apply s).seq = s.seq := rfl
@[simp] theorem Upd.agenda_writes (f : List Turn → List Turn) (s : State) : ((Upd.agenda f).apply s).writes = s.writes := rfl
@[simp] theorem Upd.agenda_cur (f : List Turn → List Turn) (s : State) : ((Upd.agenda f).apply s).cur = s.cur := rfl
@[simp] theorem Upd.agenda_curBlk (f : List Turn → List Turn) (s : State) : ((Upd.agenda f).apply s).curBlk = s.curBlk := rfl
@[simp] theorem Upd.agenda_agenda (f : List Turn → List Turn) (s : State) : ((Upd.agenda f).apply s).agenda = f s.agenda := rfl
@[simp] theorem Upd.agenda_tick (f : List Turn → List Turn) (s : State) : ((Upd.agenda f).apply s).tick = s.tick := rfl
@[simp] theorem Upd.agenda_clock (f : List Turn → List Turn) (s : State) : ((Upd.agenda f).apply s).clock = s.clock := rfl
@[simp] theorem Upd.agenda_fresh (f : List Turn → List Turn) (s : State) : ((Upd.agenda f).apply s).fresh = s.fresh := rfl
@[simp] theorem Upd.agenda_late (f : List Turn → List Turn) (s : State) : ((Upd.agenda f).apply s).late = s.late := rfl

@[simp] theorem Upd.clearMem_mem (s : State) : (Upd.clearMem.apply s).mem = [] := rfl
@[simp] theorem Upd.clearMem_hist (s : State) : (Upd.clearMem.apply s).hist = [] := rfl
@[simp] theorem Upd.clearMem_teams (s : State) : (Upd.clearMem.apply s).teams = s.teams := rfl
@[simp] theorem Upd.clearMem_blocks (s : State) : (Upd.clearMem.apply s).blocks = s.blocks := rfl
@[simp] theorem Upd.clearMem_slots (s : State) : (Upd.clearMem.apply s).slots = s.slots := rfl
@[simp] theorem Upd.clearMem_cores (s : State) : (Upd.clearMem.apply s).cores = s.cores := rfl
@[simp] theorem Upd.clearMem_dies (s : State) : (Upd.clearMem.apply s).dies = s.dies := rfl
@[simp] theorem Upd.clearMem_launches (s : State) : (Upd.clearMem.apply s).launches = s.launches := rfl
@[simp] theorem Upd.clearMem_queues (s : State) : (Upd.clearMem.apply s).queues = s.queues := rfl
@[simp] theorem Upd.clearMem_ctxs (s : State) : (Upd.clearMem.apply s).ctxs = s.ctxs := rfl
@[simp] theorem Upd.clearMem_harts (s : State) : (Upd.clearMem.apply s).harts = s.harts := rfl
@[simp] theorem Upd.clearMem_pkg (s : State) : (Upd.clearMem.apply s).pkg = s.pkg := rfl
@[simp] theorem Upd.clearMem_coh (s : State) : (Upd.clearMem.apply s).coh = { s.coh with behind := [] } := rfl
@[simp] theorem Upd.clearMem_seq (s : State) : (Upd.clearMem.apply s).seq = s.seq := rfl
@[simp] theorem Upd.clearMem_writes (s : State) : (Upd.clearMem.apply s).writes = s.writes := rfl
@[simp] theorem Upd.clearMem_cur (s : State) : (Upd.clearMem.apply s).cur = s.cur := rfl
@[simp] theorem Upd.clearMem_curBlk (s : State) : (Upd.clearMem.apply s).curBlk = s.curBlk := rfl
@[simp] theorem Upd.clearMem_agenda (s : State) : (Upd.clearMem.apply s).agenda = s.agenda := rfl
@[simp] theorem Upd.clearMem_tick (s : State) : (Upd.clearMem.apply s).tick = s.tick := rfl
@[simp] theorem Upd.clearMem_clock (s : State) : (Upd.clearMem.apply s).clock = s.clock := rfl
@[simp] theorem Upd.clearMem_fresh (s : State) : (Upd.clearMem.apply s).fresh = s.fresh := rfl
@[simp] theorem Upd.clearMem_late (s : State) : (Upd.clearMem.apply s).late = s.late := rfl

@[simp] theorem Upd.clearDie_mem (d : Nat) (s : State) : ((Upd.clearDie d).apply s).mem = s.mem.filter (fun c => addressDie c.1 != d) := rfl
@[simp] theorem Upd.clearDie_hist (d : Nat) (s : State) : ((Upd.clearDie d).apply s).hist = s.hist.filter (fun h => 2 ^ 46 ≤ h.word || addressDie (4 * h.word) != d) := rfl
@[simp] theorem Upd.clearDie_teams (d : Nat) (s : State) : ((Upd.clearDie d).apply s).teams = s.teams := rfl
@[simp] theorem Upd.clearDie_blocks (d : Nat) (s : State) : ((Upd.clearDie d).apply s).blocks = s.blocks := rfl
@[simp] theorem Upd.clearDie_slots (d : Nat) (s : State) : ((Upd.clearDie d).apply s).slots = s.slots := rfl
@[simp] theorem Upd.clearDie_cores (d : Nat) (s : State) : ((Upd.clearDie d).apply s).cores = s.cores := rfl
@[simp] theorem Upd.clearDie_dies (d : Nat) (s : State) : ((Upd.clearDie d).apply s).dies = s.dies := rfl
@[simp] theorem Upd.clearDie_launches (d : Nat) (s : State) : ((Upd.clearDie d).apply s).launches = s.launches := rfl
@[simp] theorem Upd.clearDie_queues (d : Nat) (s : State) : ((Upd.clearDie d).apply s).queues = s.queues := rfl
@[simp] theorem Upd.clearDie_ctxs (d : Nat) (s : State) : ((Upd.clearDie d).apply s).ctxs = s.ctxs := rfl
@[simp] theorem Upd.clearDie_harts (d : Nat) (s : State) : ((Upd.clearDie d).apply s).harts = s.harts := rfl
@[simp] theorem Upd.clearDie_pkg (d : Nat) (s : State) : ((Upd.clearDie d).apply s).pkg = s.pkg := rfl
@[simp] theorem Upd.clearDie_coh (d : Nat) (s : State) : ((Upd.clearDie d).apply s).coh = { s.coh with behind := s.coh.behind.keep (fun k _ => addressDie (64 * k) != d) } := rfl
@[simp] theorem Upd.clearDie_seq (d : Nat) (s : State) : ((Upd.clearDie d).apply s).seq = s.seq := rfl
@[simp] theorem Upd.clearDie_writes (d : Nat) (s : State) : ((Upd.clearDie d).apply s).writes = s.writes := rfl
@[simp] theorem Upd.clearDie_cur (d : Nat) (s : State) : ((Upd.clearDie d).apply s).cur = s.cur := rfl
@[simp] theorem Upd.clearDie_curBlk (d : Nat) (s : State) : ((Upd.clearDie d).apply s).curBlk = s.curBlk := rfl
@[simp] theorem Upd.clearDie_agenda (d : Nat) (s : State) : ((Upd.clearDie d).apply s).agenda = s.agenda := rfl
@[simp] theorem Upd.clearDie_tick (d : Nat) (s : State) : ((Upd.clearDie d).apply s).tick = s.tick := rfl
@[simp] theorem Upd.clearDie_clock (d : Nat) (s : State) : ((Upd.clearDie d).apply s).clock = s.clock := rfl
@[simp] theorem Upd.clearDie_fresh (d : Nat) (s : State) : ((Upd.clearDie d).apply s).fresh = s.fresh := rfl
@[simp] theorem Upd.clearDie_late (d : Nat) (s : State) : ((Upd.clearDie d).apply s).late = s.late := rfl

/-! ## Reading a part after it is written -/

theorem State.team_put (s : State) (k j : Nat) (x : Team) : State.team (s := ({ s with teams := s.teams.put k x } : State)) j = if j = k then x else s.team j := by
  by_cases h : j = k <;> simp [State.team, h]
@[simp] theorem Upd.team_team (k j : Nat) (f : Team → Team) (s : State) : ((Upd.team k f).apply s).team j = if j = k then f (s.team k) else s.team j :=
  State.team_put s k j _
@[simp] theorem Upd.block_get_team (k : Nat) (f : Block → Block) (j : Nat) (s : State) : ((Upd.block k f).apply s).team j = s.team j := rfl
@[simp] theorem Upd.core_get_team (k : Nat) (f : Core → Core) (j : Nat) (s : State) : ((Upd.core k f).apply s).team j = s.team j := rfl
@[simp] theorem Upd.die_get_team (k : Nat) (f : Die → Die) (j : Nat) (s : State) : ((Upd.die k f).apply s).team j = s.team j := rfl
@[simp] theorem Upd.launch_get_team (k : Nat) (f : Launch → Launch) (j : Nat) (s : State) : ((Upd.launch k f).apply s).team j = s.team j := rfl
@[simp] theorem Upd.queue_get_team (k : Nat) (f : QueueCtx → QueueCtx) (j : Nat) (s : State) : ((Upd.queue k f).apply s).team j = s.team j := rfl
@[simp] theorem Upd.ctx_get_team (k : Nat) (f : Ctx → Ctx) (j : Nat) (s : State) : ((Upd.ctx k f).apply s).team j = s.team j := rfl
@[simp] theorem Upd.hart_get_team (k : Nat) (f : Hart → Hart) (j : Nat) (s : State) : ((Upd.hart k f).apply s).team j = s.team j := rfl
@[simp] theorem Upd.dropBlock_get_team (k : Nat) (j : Nat) (s : State) : ((Upd.dropBlock k).apply s).team j = s.team j := rfl
@[simp] theorem Upd.dropLaunch_get_team (k : Nat) (j : Nat) (s : State) : ((Upd.dropLaunch k).apply s).team j = s.team j := rfl
@[simp] theorem Upd.dropQueue_get_team (k : Nat) (j : Nat) (s : State) : ((Upd.dropQueue k).apply s).team j = s.team j := rfl
@[simp] theorem Upd.dropCtx_get_team (k : Nat) (j : Nat) (s : State) : ((Upd.dropCtx k).apply s).team j = s.team j := rfl
@[simp] theorem Upd.slot_get_team (b n : Nat) (op : SlotOp) (j : Nat) (s : State) : ((Upd.slot b n op).apply s).team j = s.team j := rfl
@[simp] theorem Upd.dropSlots_get_team (b : Nat) (j : Nat) (s : State) : ((Upd.dropSlots b).apply s).team j = s.team j := rfl
@[simp] theorem Upd.storePhys_get_team (p : Path) (blk : Nat) (slots : List Nat) (role : Bool) (lane : Option Nat) (a : Nat) (bs : List Byte) (j : Nat) (s : State) : ((Upd.store p .phys blk slots role lane a bs).apply s).team j = s.team j := rfl
@[simp] theorem Upd.storeLoc_get_team (p : Path) (b blk : Nat) (slots : List Nat) (role : Bool) (lane : Option Nat) (a : Nat) (bs : List Byte) (j : Nat) (s : State) : ((Upd.store p (.loc b) blk slots role lane a bs).apply s).team j = s.team j := rfl
@[simp] theorem Upd.storeOb_get_team (p : Path) (b blk : Nat) (slots : List Nat) (role : Bool) (lane : Option Nat) (a : Nat) (bs : List Byte) (j : Nat) (s : State) : ((Upd.store p (.ob b) blk slots role lane a bs).apply s).team j = s.team j := rfl
@[simp] theorem Upd.storeTile_get_team (p : Path) (b blk : Nat) (slots : List Nat) (role : Bool) (lane : Option Nat) (a : Nat) (bs : List Byte) (j : Nat) (s : State) : ((Upd.store p (.tile b) blk slots role lane a bs).apply s).team j = s.team j := rfl
@[simp] theorem Upd.hist_get_team (f : List HistWord → List HistWord) (j : Nat) (s : State) : ((Upd.hist f).apply s).team j = s.team j := rfl
@[simp] theorem Upd.pkg_get_team (f : Pkg → Pkg) (j : Nat) (s : State) : ((Upd.pkg f).apply s).team j = s.team j := rfl
@[simp] theorem Upd.coh_get_team (f : Coh → Coh) (j : Nat) (s : State) : ((Upd.coh f).apply s).team j = s.team j := rfl
@[simp] theorem Upd.drawSeq_get_team (j : Nat) (s : State) : (Upd.drawSeq.apply s).team j = s.team j := rfl
@[simp] theorem Upd.drawFree_get_team (j : Nat) (s : State) : (Upd.drawFree.apply s).team j = s.team j := rfl
@[simp] theorem Upd.late_get_team (j : Nat) (s : State) : (Upd.late.apply s).team j = s.team j := rfl
@[simp] theorem Upd.cur_get_team (t : Nat) (j : Nat) (s : State) : ((Upd.cur t).apply s).team j = s.team j := rfl
@[simp] theorem Upd.curBlk_get_team (b : Nat) (j : Nat) (s : State) : ((Upd.curBlk b).apply s).team j = s.team j := rfl
@[simp] theorem Upd.agenda_get_team (f : List Turn → List Turn) (j : Nat) (s : State) : ((Upd.agenda f).apply s).team j = s.team j := rfl
@[simp] theorem Upd.clearMem_get_team (j : Nat) (s : State) : (Upd.clearMem.apply s).team j = s.team j := rfl
@[simp] theorem Upd.clearDie_get_team (d : Nat) (j : Nat) (s : State) : ((Upd.clearDie d).apply s).team j = s.team j := rfl

theorem State.block_put (s : State) (k j : Nat) (x : Block) : State.block (s := ({ s with blocks := s.blocks.put k x } : State)) j = if j = k then x else s.block j := by
  by_cases h : j = k <;> simp [State.block, h]
@[simp] theorem Upd.block_block (k j : Nat) (f : Block → Block) (s : State) : ((Upd.block k f).apply s).block j = if j = k then f (s.block k) else s.block j :=
  State.block_put s k j _
@[simp] theorem Upd.team_get_block (k : Nat) (f : Team → Team) (j : Nat) (s : State) : ((Upd.team k f).apply s).block j = s.block j := rfl
@[simp] theorem Upd.core_get_block (k : Nat) (f : Core → Core) (j : Nat) (s : State) : ((Upd.core k f).apply s).block j = s.block j := rfl
@[simp] theorem Upd.die_get_block (k : Nat) (f : Die → Die) (j : Nat) (s : State) : ((Upd.die k f).apply s).block j = s.block j := rfl
@[simp] theorem Upd.launch_get_block (k : Nat) (f : Launch → Launch) (j : Nat) (s : State) : ((Upd.launch k f).apply s).block j = s.block j := rfl
@[simp] theorem Upd.queue_get_block (k : Nat) (f : QueueCtx → QueueCtx) (j : Nat) (s : State) : ((Upd.queue k f).apply s).block j = s.block j := rfl
@[simp] theorem Upd.ctx_get_block (k : Nat) (f : Ctx → Ctx) (j : Nat) (s : State) : ((Upd.ctx k f).apply s).block j = s.block j := rfl
@[simp] theorem Upd.hart_get_block (k : Nat) (f : Hart → Hart) (j : Nat) (s : State) : ((Upd.hart k f).apply s).block j = s.block j := rfl
@[simp] theorem Upd.dropTeam_get_block (k : Nat) (j : Nat) (s : State) : ((Upd.dropTeam k).apply s).block j = s.block j := rfl
@[simp] theorem Upd.dropLaunch_get_block (k : Nat) (j : Nat) (s : State) : ((Upd.dropLaunch k).apply s).block j = s.block j := rfl
@[simp] theorem Upd.dropQueue_get_block (k : Nat) (j : Nat) (s : State) : ((Upd.dropQueue k).apply s).block j = s.block j := rfl
@[simp] theorem Upd.dropCtx_get_block (k : Nat) (j : Nat) (s : State) : ((Upd.dropCtx k).apply s).block j = s.block j := rfl
@[simp] theorem Upd.slot_get_block (b n : Nat) (op : SlotOp) (j : Nat) (s : State) : ((Upd.slot b n op).apply s).block j = s.block j := rfl
@[simp] theorem Upd.dropSlots_get_block (b : Nat) (j : Nat) (s : State) : ((Upd.dropSlots b).apply s).block j = s.block j := rfl
@[simp] theorem Upd.storePhys_get_block (p : Path) (blk : Nat) (slots : List Nat) (role : Bool) (lane : Option Nat) (a : Nat) (bs : List Byte) (j : Nat) (s : State) : ((Upd.store p .phys blk slots role lane a bs).apply s).block j = s.block j := rfl
@[simp] theorem Upd.hist_get_block (f : List HistWord → List HistWord) (j : Nat) (s : State) : ((Upd.hist f).apply s).block j = s.block j := rfl
@[simp] theorem Upd.pkg_get_block (f : Pkg → Pkg) (j : Nat) (s : State) : ((Upd.pkg f).apply s).block j = s.block j := rfl
@[simp] theorem Upd.coh_get_block (f : Coh → Coh) (j : Nat) (s : State) : ((Upd.coh f).apply s).block j = s.block j := rfl
@[simp] theorem Upd.drawSeq_get_block (j : Nat) (s : State) : (Upd.drawSeq.apply s).block j = s.block j := rfl
@[simp] theorem Upd.drawFree_get_block (j : Nat) (s : State) : (Upd.drawFree.apply s).block j = s.block j := rfl
@[simp] theorem Upd.late_get_block (j : Nat) (s : State) : (Upd.late.apply s).block j = s.block j := rfl
@[simp] theorem Upd.cur_get_block (t : Nat) (j : Nat) (s : State) : ((Upd.cur t).apply s).block j = s.block j := rfl
@[simp] theorem Upd.curBlk_get_block (b : Nat) (j : Nat) (s : State) : ((Upd.curBlk b).apply s).block j = s.block j := rfl
@[simp] theorem Upd.agenda_get_block (f : List Turn → List Turn) (j : Nat) (s : State) : ((Upd.agenda f).apply s).block j = s.block j := rfl
@[simp] theorem Upd.clearMem_get_block (j : Nat) (s : State) : (Upd.clearMem.apply s).block j = s.block j := rfl
@[simp] theorem Upd.clearDie_get_block (d : Nat) (j : Nat) (s : State) : ((Upd.clearDie d).apply s).block j = s.block j := rfl

theorem State.core_put (s : State) (k j : Nat) (x : Core) : State.core (s := ({ s with cores := s.cores.put k x } : State)) j = if j = k then x else s.core j := by
  by_cases h : j = k <;> simp [State.core, h]
@[simp] theorem Upd.core_core (k j : Nat) (f : Core → Core) (s : State) : ((Upd.core k f).apply s).core j = if j = k then f (s.core k) else s.core j :=
  State.core_put s k j _
@[simp] theorem Upd.team_get_core (k : Nat) (f : Team → Team) (j : Nat) (s : State) : ((Upd.team k f).apply s).core j = s.core j := rfl
@[simp] theorem Upd.block_get_core (k : Nat) (f : Block → Block) (j : Nat) (s : State) : ((Upd.block k f).apply s).core j = s.core j := rfl
@[simp] theorem Upd.die_get_core (k : Nat) (f : Die → Die) (j : Nat) (s : State) : ((Upd.die k f).apply s).core j = s.core j := rfl
@[simp] theorem Upd.launch_get_core (k : Nat) (f : Launch → Launch) (j : Nat) (s : State) : ((Upd.launch k f).apply s).core j = s.core j := rfl
@[simp] theorem Upd.queue_get_core (k : Nat) (f : QueueCtx → QueueCtx) (j : Nat) (s : State) : ((Upd.queue k f).apply s).core j = s.core j := rfl
@[simp] theorem Upd.ctx_get_core (k : Nat) (f : Ctx → Ctx) (j : Nat) (s : State) : ((Upd.ctx k f).apply s).core j = s.core j := rfl
@[simp] theorem Upd.hart_get_core (k : Nat) (f : Hart → Hart) (j : Nat) (s : State) : ((Upd.hart k f).apply s).core j = s.core j := rfl
@[simp] theorem Upd.dropTeam_get_core (k : Nat) (j : Nat) (s : State) : ((Upd.dropTeam k).apply s).core j = s.core j := rfl
@[simp] theorem Upd.dropBlock_get_core (k : Nat) (j : Nat) (s : State) : ((Upd.dropBlock k).apply s).core j = s.core j := rfl
@[simp] theorem Upd.dropLaunch_get_core (k : Nat) (j : Nat) (s : State) : ((Upd.dropLaunch k).apply s).core j = s.core j := rfl
@[simp] theorem Upd.dropQueue_get_core (k : Nat) (j : Nat) (s : State) : ((Upd.dropQueue k).apply s).core j = s.core j := rfl
@[simp] theorem Upd.dropCtx_get_core (k : Nat) (j : Nat) (s : State) : ((Upd.dropCtx k).apply s).core j = s.core j := rfl
@[simp] theorem Upd.slot_get_core (b n : Nat) (op : SlotOp) (j : Nat) (s : State) : ((Upd.slot b n op).apply s).core j = s.core j := rfl
@[simp] theorem Upd.dropSlots_get_core (b : Nat) (j : Nat) (s : State) : ((Upd.dropSlots b).apply s).core j = s.core j := rfl
@[simp] theorem Upd.storePhys_get_core (p : Path) (blk : Nat) (slots : List Nat) (role : Bool) (lane : Option Nat) (a : Nat) (bs : List Byte) (j : Nat) (s : State) : ((Upd.store p .phys blk slots role lane a bs).apply s).core j = s.core j := rfl
@[simp] theorem Upd.storeLoc_get_core (p : Path) (b blk : Nat) (slots : List Nat) (role : Bool) (lane : Option Nat) (a : Nat) (bs : List Byte) (j : Nat) (s : State) : ((Upd.store p (.loc b) blk slots role lane a bs).apply s).core j = s.core j := rfl
@[simp] theorem Upd.storeOb_get_core (p : Path) (b blk : Nat) (slots : List Nat) (role : Bool) (lane : Option Nat) (a : Nat) (bs : List Byte) (j : Nat) (s : State) : ((Upd.store p (.ob b) blk slots role lane a bs).apply s).core j = s.core j := rfl
@[simp] theorem Upd.storeTile_get_core (p : Path) (b blk : Nat) (slots : List Nat) (role : Bool) (lane : Option Nat) (a : Nat) (bs : List Byte) (j : Nat) (s : State) : ((Upd.store p (.tile b) blk slots role lane a bs).apply s).core j = s.core j := rfl
@[simp] theorem Upd.hist_get_core (f : List HistWord → List HistWord) (j : Nat) (s : State) : ((Upd.hist f).apply s).core j = s.core j := rfl
@[simp] theorem Upd.pkg_get_core (f : Pkg → Pkg) (j : Nat) (s : State) : ((Upd.pkg f).apply s).core j = s.core j := rfl
@[simp] theorem Upd.coh_get_core (f : Coh → Coh) (j : Nat) (s : State) : ((Upd.coh f).apply s).core j = s.core j := rfl
@[simp] theorem Upd.drawSeq_get_core (j : Nat) (s : State) : (Upd.drawSeq.apply s).core j = s.core j := rfl
@[simp] theorem Upd.drawFree_get_core (j : Nat) (s : State) : (Upd.drawFree.apply s).core j = s.core j := rfl
@[simp] theorem Upd.late_get_core (j : Nat) (s : State) : (Upd.late.apply s).core j = s.core j := rfl
@[simp] theorem Upd.cur_get_core (t : Nat) (j : Nat) (s : State) : ((Upd.cur t).apply s).core j = s.core j := rfl
@[simp] theorem Upd.curBlk_get_core (b : Nat) (j : Nat) (s : State) : ((Upd.curBlk b).apply s).core j = s.core j := rfl
@[simp] theorem Upd.agenda_get_core (f : List Turn → List Turn) (j : Nat) (s : State) : ((Upd.agenda f).apply s).core j = s.core j := rfl
@[simp] theorem Upd.clearMem_get_core (j : Nat) (s : State) : (Upd.clearMem.apply s).core j = s.core j := rfl
@[simp] theorem Upd.clearDie_get_core (d : Nat) (j : Nat) (s : State) : ((Upd.clearDie d).apply s).core j = s.core j := rfl

theorem State.die_put (s : State) (k j : Nat) (x : Die) : State.die (s := ({ s with dies := s.dies.put k x } : State)) j = if j = k then x else s.die j := by
  by_cases h : j = k <;> simp [State.die, h]
@[simp] theorem Upd.die_die (k j : Nat) (f : Die → Die) (s : State) : ((Upd.die k f).apply s).die j = if j = k then f (s.die k) else s.die j :=
  State.die_put s k j _
@[simp] theorem Upd.team_get_die (k : Nat) (f : Team → Team) (j : Nat) (s : State) : ((Upd.team k f).apply s).die j = s.die j := rfl
@[simp] theorem Upd.block_get_die (k : Nat) (f : Block → Block) (j : Nat) (s : State) : ((Upd.block k f).apply s).die j = s.die j := rfl
@[simp] theorem Upd.core_get_die (k : Nat) (f : Core → Core) (j : Nat) (s : State) : ((Upd.core k f).apply s).die j = s.die j := rfl
@[simp] theorem Upd.launch_get_die (k : Nat) (f : Launch → Launch) (j : Nat) (s : State) : ((Upd.launch k f).apply s).die j = s.die j := rfl
@[simp] theorem Upd.queue_get_die (k : Nat) (f : QueueCtx → QueueCtx) (j : Nat) (s : State) : ((Upd.queue k f).apply s).die j = s.die j := rfl
@[simp] theorem Upd.ctx_get_die (k : Nat) (f : Ctx → Ctx) (j : Nat) (s : State) : ((Upd.ctx k f).apply s).die j = s.die j := rfl
@[simp] theorem Upd.hart_get_die (k : Nat) (f : Hart → Hart) (j : Nat) (s : State) : ((Upd.hart k f).apply s).die j = s.die j := rfl
@[simp] theorem Upd.dropTeam_get_die (k : Nat) (j : Nat) (s : State) : ((Upd.dropTeam k).apply s).die j = s.die j := rfl
@[simp] theorem Upd.dropBlock_get_die (k : Nat) (j : Nat) (s : State) : ((Upd.dropBlock k).apply s).die j = s.die j := rfl
@[simp] theorem Upd.dropLaunch_get_die (k : Nat) (j : Nat) (s : State) : ((Upd.dropLaunch k).apply s).die j = s.die j := rfl
@[simp] theorem Upd.dropQueue_get_die (k : Nat) (j : Nat) (s : State) : ((Upd.dropQueue k).apply s).die j = s.die j := rfl
@[simp] theorem Upd.dropCtx_get_die (k : Nat) (j : Nat) (s : State) : ((Upd.dropCtx k).apply s).die j = s.die j := rfl
@[simp] theorem Upd.slot_get_die (b n : Nat) (op : SlotOp) (j : Nat) (s : State) : ((Upd.slot b n op).apply s).die j = s.die j := rfl
@[simp] theorem Upd.dropSlots_get_die (b : Nat) (j : Nat) (s : State) : ((Upd.dropSlots b).apply s).die j = s.die j := rfl
@[simp] theorem Upd.storePhys_get_die (p : Path) (blk : Nat) (slots : List Nat) (role : Bool) (lane : Option Nat) (a : Nat) (bs : List Byte) (j : Nat) (s : State) : ((Upd.store p .phys blk slots role lane a bs).apply s).die j = s.die j := rfl
@[simp] theorem Upd.storeLoc_get_die (p : Path) (b blk : Nat) (slots : List Nat) (role : Bool) (lane : Option Nat) (a : Nat) (bs : List Byte) (j : Nat) (s : State) : ((Upd.store p (.loc b) blk slots role lane a bs).apply s).die j = s.die j := rfl
@[simp] theorem Upd.storeOb_get_die (p : Path) (b blk : Nat) (slots : List Nat) (role : Bool) (lane : Option Nat) (a : Nat) (bs : List Byte) (j : Nat) (s : State) : ((Upd.store p (.ob b) blk slots role lane a bs).apply s).die j = s.die j := rfl
@[simp] theorem Upd.storeTile_get_die (p : Path) (b blk : Nat) (slots : List Nat) (role : Bool) (lane : Option Nat) (a : Nat) (bs : List Byte) (j : Nat) (s : State) : ((Upd.store p (.tile b) blk slots role lane a bs).apply s).die j = s.die j := rfl
@[simp] theorem Upd.hist_get_die (f : List HistWord → List HistWord) (j : Nat) (s : State) : ((Upd.hist f).apply s).die j = s.die j := rfl
@[simp] theorem Upd.pkg_get_die (f : Pkg → Pkg) (j : Nat) (s : State) : ((Upd.pkg f).apply s).die j = s.die j := rfl
@[simp] theorem Upd.coh_get_die (f : Coh → Coh) (j : Nat) (s : State) : ((Upd.coh f).apply s).die j = s.die j := rfl
@[simp] theorem Upd.drawSeq_get_die (j : Nat) (s : State) : (Upd.drawSeq.apply s).die j = s.die j := rfl
@[simp] theorem Upd.drawFree_get_die (j : Nat) (s : State) : (Upd.drawFree.apply s).die j = s.die j := rfl
@[simp] theorem Upd.late_get_die (j : Nat) (s : State) : (Upd.late.apply s).die j = s.die j := rfl
@[simp] theorem Upd.cur_get_die (t : Nat) (j : Nat) (s : State) : ((Upd.cur t).apply s).die j = s.die j := rfl
@[simp] theorem Upd.curBlk_get_die (b : Nat) (j : Nat) (s : State) : ((Upd.curBlk b).apply s).die j = s.die j := rfl
@[simp] theorem Upd.agenda_get_die (f : List Turn → List Turn) (j : Nat) (s : State) : ((Upd.agenda f).apply s).die j = s.die j := rfl
@[simp] theorem Upd.clearMem_get_die (j : Nat) (s : State) : (Upd.clearMem.apply s).die j = s.die j := rfl
@[simp] theorem Upd.clearDie_get_die (d : Nat) (j : Nat) (s : State) : ((Upd.clearDie d).apply s).die j = s.die j := rfl

theorem State.launch_put (s : State) (k j : Nat) (x : Launch) : State.launch (s := ({ s with launches := s.launches.put k x } : State)) j = if j = k then x else s.launch j := by
  by_cases h : j = k <;> simp [State.launch, h]
@[simp] theorem Upd.launch_launch (k j : Nat) (f : Launch → Launch) (s : State) : ((Upd.launch k f).apply s).launch j = if j = k then f (s.launch k) else s.launch j :=
  State.launch_put s k j _
@[simp] theorem Upd.team_get_launch (k : Nat) (f : Team → Team) (j : Nat) (s : State) : ((Upd.team k f).apply s).launch j = s.launch j := rfl
@[simp] theorem Upd.block_get_launch (k : Nat) (f : Block → Block) (j : Nat) (s : State) : ((Upd.block k f).apply s).launch j = s.launch j := rfl
@[simp] theorem Upd.core_get_launch (k : Nat) (f : Core → Core) (j : Nat) (s : State) : ((Upd.core k f).apply s).launch j = s.launch j := rfl
@[simp] theorem Upd.die_get_launch (k : Nat) (f : Die → Die) (j : Nat) (s : State) : ((Upd.die k f).apply s).launch j = s.launch j := rfl
@[simp] theorem Upd.queue_get_launch (k : Nat) (f : QueueCtx → QueueCtx) (j : Nat) (s : State) : ((Upd.queue k f).apply s).launch j = s.launch j := rfl
@[simp] theorem Upd.ctx_get_launch (k : Nat) (f : Ctx → Ctx) (j : Nat) (s : State) : ((Upd.ctx k f).apply s).launch j = s.launch j := rfl
@[simp] theorem Upd.hart_get_launch (k : Nat) (f : Hart → Hart) (j : Nat) (s : State) : ((Upd.hart k f).apply s).launch j = s.launch j := rfl
@[simp] theorem Upd.dropTeam_get_launch (k : Nat) (j : Nat) (s : State) : ((Upd.dropTeam k).apply s).launch j = s.launch j := rfl
@[simp] theorem Upd.dropBlock_get_launch (k : Nat) (j : Nat) (s : State) : ((Upd.dropBlock k).apply s).launch j = s.launch j := rfl
@[simp] theorem Upd.dropQueue_get_launch (k : Nat) (j : Nat) (s : State) : ((Upd.dropQueue k).apply s).launch j = s.launch j := rfl
@[simp] theorem Upd.dropCtx_get_launch (k : Nat) (j : Nat) (s : State) : ((Upd.dropCtx k).apply s).launch j = s.launch j := rfl
@[simp] theorem Upd.slot_get_launch (b n : Nat) (op : SlotOp) (j : Nat) (s : State) : ((Upd.slot b n op).apply s).launch j = s.launch j := rfl
@[simp] theorem Upd.dropSlots_get_launch (b : Nat) (j : Nat) (s : State) : ((Upd.dropSlots b).apply s).launch j = s.launch j := rfl
@[simp] theorem Upd.storePhys_get_launch (p : Path) (blk : Nat) (slots : List Nat) (role : Bool) (lane : Option Nat) (a : Nat) (bs : List Byte) (j : Nat) (s : State) : ((Upd.store p .phys blk slots role lane a bs).apply s).launch j = s.launch j := rfl
@[simp] theorem Upd.storeLoc_get_launch (p : Path) (b blk : Nat) (slots : List Nat) (role : Bool) (lane : Option Nat) (a : Nat) (bs : List Byte) (j : Nat) (s : State) : ((Upd.store p (.loc b) blk slots role lane a bs).apply s).launch j = s.launch j := rfl
@[simp] theorem Upd.storeOb_get_launch (p : Path) (b blk : Nat) (slots : List Nat) (role : Bool) (lane : Option Nat) (a : Nat) (bs : List Byte) (j : Nat) (s : State) : ((Upd.store p (.ob b) blk slots role lane a bs).apply s).launch j = s.launch j := rfl
@[simp] theorem Upd.storeTile_get_launch (p : Path) (b blk : Nat) (slots : List Nat) (role : Bool) (lane : Option Nat) (a : Nat) (bs : List Byte) (j : Nat) (s : State) : ((Upd.store p (.tile b) blk slots role lane a bs).apply s).launch j = s.launch j := rfl
@[simp] theorem Upd.hist_get_launch (f : List HistWord → List HistWord) (j : Nat) (s : State) : ((Upd.hist f).apply s).launch j = s.launch j := rfl
@[simp] theorem Upd.pkg_get_launch (f : Pkg → Pkg) (j : Nat) (s : State) : ((Upd.pkg f).apply s).launch j = s.launch j := rfl
@[simp] theorem Upd.coh_get_launch (f : Coh → Coh) (j : Nat) (s : State) : ((Upd.coh f).apply s).launch j = s.launch j := rfl
@[simp] theorem Upd.drawSeq_get_launch (j : Nat) (s : State) : (Upd.drawSeq.apply s).launch j = s.launch j := rfl
@[simp] theorem Upd.drawFree_get_launch (j : Nat) (s : State) : (Upd.drawFree.apply s).launch j = s.launch j := rfl
@[simp] theorem Upd.late_get_launch (j : Nat) (s : State) : (Upd.late.apply s).launch j = s.launch j := rfl
@[simp] theorem Upd.cur_get_launch (t : Nat) (j : Nat) (s : State) : ((Upd.cur t).apply s).launch j = s.launch j := rfl
@[simp] theorem Upd.curBlk_get_launch (b : Nat) (j : Nat) (s : State) : ((Upd.curBlk b).apply s).launch j = s.launch j := rfl
@[simp] theorem Upd.agenda_get_launch (f : List Turn → List Turn) (j : Nat) (s : State) : ((Upd.agenda f).apply s).launch j = s.launch j := rfl
@[simp] theorem Upd.clearMem_get_launch (j : Nat) (s : State) : (Upd.clearMem.apply s).launch j = s.launch j := rfl
@[simp] theorem Upd.clearDie_get_launch (d : Nat) (j : Nat) (s : State) : ((Upd.clearDie d).apply s).launch j = s.launch j := rfl

theorem State.queue_put (s : State) (k j : Nat) (x : QueueCtx) : State.queue (s := ({ s with queues := s.queues.put k x } : State)) j = if j = k then x else s.queue j := by
  by_cases h : j = k <;> simp [State.queue, h]
@[simp] theorem Upd.queue_queue (k j : Nat) (f : QueueCtx → QueueCtx) (s : State) : ((Upd.queue k f).apply s).queue j = if j = k then f (s.queue k) else s.queue j :=
  State.queue_put s k j _
@[simp] theorem Upd.team_get_queue (k : Nat) (f : Team → Team) (j : Nat) (s : State) : ((Upd.team k f).apply s).queue j = s.queue j := rfl
@[simp] theorem Upd.block_get_queue (k : Nat) (f : Block → Block) (j : Nat) (s : State) : ((Upd.block k f).apply s).queue j = s.queue j := rfl
@[simp] theorem Upd.core_get_queue (k : Nat) (f : Core → Core) (j : Nat) (s : State) : ((Upd.core k f).apply s).queue j = s.queue j := rfl
@[simp] theorem Upd.die_get_queue (k : Nat) (f : Die → Die) (j : Nat) (s : State) : ((Upd.die k f).apply s).queue j = s.queue j := rfl
@[simp] theorem Upd.launch_get_queue (k : Nat) (f : Launch → Launch) (j : Nat) (s : State) : ((Upd.launch k f).apply s).queue j = s.queue j := rfl
@[simp] theorem Upd.ctx_get_queue (k : Nat) (f : Ctx → Ctx) (j : Nat) (s : State) : ((Upd.ctx k f).apply s).queue j = s.queue j := rfl
@[simp] theorem Upd.hart_get_queue (k : Nat) (f : Hart → Hart) (j : Nat) (s : State) : ((Upd.hart k f).apply s).queue j = s.queue j := rfl
@[simp] theorem Upd.dropTeam_get_queue (k : Nat) (j : Nat) (s : State) : ((Upd.dropTeam k).apply s).queue j = s.queue j := rfl
@[simp] theorem Upd.dropBlock_get_queue (k : Nat) (j : Nat) (s : State) : ((Upd.dropBlock k).apply s).queue j = s.queue j := rfl
@[simp] theorem Upd.dropLaunch_get_queue (k : Nat) (j : Nat) (s : State) : ((Upd.dropLaunch k).apply s).queue j = s.queue j := rfl
@[simp] theorem Upd.dropCtx_get_queue (k : Nat) (j : Nat) (s : State) : ((Upd.dropCtx k).apply s).queue j = s.queue j := rfl
@[simp] theorem Upd.slot_get_queue (b n : Nat) (op : SlotOp) (j : Nat) (s : State) : ((Upd.slot b n op).apply s).queue j = s.queue j := rfl
@[simp] theorem Upd.dropSlots_get_queue (b : Nat) (j : Nat) (s : State) : ((Upd.dropSlots b).apply s).queue j = s.queue j := rfl
@[simp] theorem Upd.storePhys_get_queue (p : Path) (blk : Nat) (slots : List Nat) (role : Bool) (lane : Option Nat) (a : Nat) (bs : List Byte) (j : Nat) (s : State) : ((Upd.store p .phys blk slots role lane a bs).apply s).queue j = s.queue j := rfl
@[simp] theorem Upd.storeLoc_get_queue (p : Path) (b blk : Nat) (slots : List Nat) (role : Bool) (lane : Option Nat) (a : Nat) (bs : List Byte) (j : Nat) (s : State) : ((Upd.store p (.loc b) blk slots role lane a bs).apply s).queue j = s.queue j := rfl
@[simp] theorem Upd.storeOb_get_queue (p : Path) (b blk : Nat) (slots : List Nat) (role : Bool) (lane : Option Nat) (a : Nat) (bs : List Byte) (j : Nat) (s : State) : ((Upd.store p (.ob b) blk slots role lane a bs).apply s).queue j = s.queue j := rfl
@[simp] theorem Upd.storeTile_get_queue (p : Path) (b blk : Nat) (slots : List Nat) (role : Bool) (lane : Option Nat) (a : Nat) (bs : List Byte) (j : Nat) (s : State) : ((Upd.store p (.tile b) blk slots role lane a bs).apply s).queue j = s.queue j := rfl
@[simp] theorem Upd.hist_get_queue (f : List HistWord → List HistWord) (j : Nat) (s : State) : ((Upd.hist f).apply s).queue j = s.queue j := rfl
@[simp] theorem Upd.pkg_get_queue (f : Pkg → Pkg) (j : Nat) (s : State) : ((Upd.pkg f).apply s).queue j = s.queue j := rfl
@[simp] theorem Upd.coh_get_queue (f : Coh → Coh) (j : Nat) (s : State) : ((Upd.coh f).apply s).queue j = s.queue j := rfl
@[simp] theorem Upd.drawSeq_get_queue (j : Nat) (s : State) : (Upd.drawSeq.apply s).queue j = s.queue j := rfl
@[simp] theorem Upd.drawFree_get_queue (j : Nat) (s : State) : (Upd.drawFree.apply s).queue j = s.queue j := rfl
@[simp] theorem Upd.late_get_queue (j : Nat) (s : State) : (Upd.late.apply s).queue j = s.queue j := rfl
@[simp] theorem Upd.cur_get_queue (t : Nat) (j : Nat) (s : State) : ((Upd.cur t).apply s).queue j = s.queue j := rfl
@[simp] theorem Upd.curBlk_get_queue (b : Nat) (j : Nat) (s : State) : ((Upd.curBlk b).apply s).queue j = s.queue j := rfl
@[simp] theorem Upd.agenda_get_queue (f : List Turn → List Turn) (j : Nat) (s : State) : ((Upd.agenda f).apply s).queue j = s.queue j := rfl
@[simp] theorem Upd.clearMem_get_queue (j : Nat) (s : State) : (Upd.clearMem.apply s).queue j = s.queue j := rfl
@[simp] theorem Upd.clearDie_get_queue (d : Nat) (j : Nat) (s : State) : ((Upd.clearDie d).apply s).queue j = s.queue j := rfl

theorem State.ctx_put (s : State) (k j : Nat) (x : Ctx) : State.ctx (s := ({ s with ctxs := s.ctxs.put k x } : State)) j = if j = k then x else s.ctx j := by
  by_cases h : j = k <;> simp [State.ctx, h]
@[simp] theorem Upd.ctx_ctx (k j : Nat) (f : Ctx → Ctx) (s : State) : ((Upd.ctx k f).apply s).ctx j = if j = k then f (s.ctx k) else s.ctx j :=
  State.ctx_put s k j _
@[simp] theorem Upd.team_get_ctx (k : Nat) (f : Team → Team) (j : Nat) (s : State) : ((Upd.team k f).apply s).ctx j = s.ctx j := rfl
@[simp] theorem Upd.block_get_ctx (k : Nat) (f : Block → Block) (j : Nat) (s : State) : ((Upd.block k f).apply s).ctx j = s.ctx j := rfl
@[simp] theorem Upd.core_get_ctx (k : Nat) (f : Core → Core) (j : Nat) (s : State) : ((Upd.core k f).apply s).ctx j = s.ctx j := rfl
@[simp] theorem Upd.die_get_ctx (k : Nat) (f : Die → Die) (j : Nat) (s : State) : ((Upd.die k f).apply s).ctx j = s.ctx j := rfl
@[simp] theorem Upd.launch_get_ctx (k : Nat) (f : Launch → Launch) (j : Nat) (s : State) : ((Upd.launch k f).apply s).ctx j = s.ctx j := rfl
@[simp] theorem Upd.queue_get_ctx (k : Nat) (f : QueueCtx → QueueCtx) (j : Nat) (s : State) : ((Upd.queue k f).apply s).ctx j = s.ctx j := rfl
@[simp] theorem Upd.hart_get_ctx (k : Nat) (f : Hart → Hart) (j : Nat) (s : State) : ((Upd.hart k f).apply s).ctx j = s.ctx j := rfl
@[simp] theorem Upd.dropTeam_get_ctx (k : Nat) (j : Nat) (s : State) : ((Upd.dropTeam k).apply s).ctx j = s.ctx j := rfl
@[simp] theorem Upd.dropBlock_get_ctx (k : Nat) (j : Nat) (s : State) : ((Upd.dropBlock k).apply s).ctx j = s.ctx j := rfl
@[simp] theorem Upd.dropLaunch_get_ctx (k : Nat) (j : Nat) (s : State) : ((Upd.dropLaunch k).apply s).ctx j = s.ctx j := rfl
@[simp] theorem Upd.dropQueue_get_ctx (k : Nat) (j : Nat) (s : State) : ((Upd.dropQueue k).apply s).ctx j = s.ctx j := rfl
@[simp] theorem Upd.slot_get_ctx (b n : Nat) (op : SlotOp) (j : Nat) (s : State) : ((Upd.slot b n op).apply s).ctx j = s.ctx j := rfl
@[simp] theorem Upd.dropSlots_get_ctx (b : Nat) (j : Nat) (s : State) : ((Upd.dropSlots b).apply s).ctx j = s.ctx j := rfl
@[simp] theorem Upd.storePhys_get_ctx (p : Path) (blk : Nat) (slots : List Nat) (role : Bool) (lane : Option Nat) (a : Nat) (bs : List Byte) (j : Nat) (s : State) : ((Upd.store p .phys blk slots role lane a bs).apply s).ctx j = s.ctx j := rfl
@[simp] theorem Upd.storeLoc_get_ctx (p : Path) (b blk : Nat) (slots : List Nat) (role : Bool) (lane : Option Nat) (a : Nat) (bs : List Byte) (j : Nat) (s : State) : ((Upd.store p (.loc b) blk slots role lane a bs).apply s).ctx j = s.ctx j := rfl
@[simp] theorem Upd.storeOb_get_ctx (p : Path) (b blk : Nat) (slots : List Nat) (role : Bool) (lane : Option Nat) (a : Nat) (bs : List Byte) (j : Nat) (s : State) : ((Upd.store p (.ob b) blk slots role lane a bs).apply s).ctx j = s.ctx j := rfl
@[simp] theorem Upd.storeTile_get_ctx (p : Path) (b blk : Nat) (slots : List Nat) (role : Bool) (lane : Option Nat) (a : Nat) (bs : List Byte) (j : Nat) (s : State) : ((Upd.store p (.tile b) blk slots role lane a bs).apply s).ctx j = s.ctx j := rfl
@[simp] theorem Upd.hist_get_ctx (f : List HistWord → List HistWord) (j : Nat) (s : State) : ((Upd.hist f).apply s).ctx j = s.ctx j := rfl
@[simp] theorem Upd.pkg_get_ctx (f : Pkg → Pkg) (j : Nat) (s : State) : ((Upd.pkg f).apply s).ctx j = s.ctx j := rfl
@[simp] theorem Upd.coh_get_ctx (f : Coh → Coh) (j : Nat) (s : State) : ((Upd.coh f).apply s).ctx j = s.ctx j := rfl
@[simp] theorem Upd.drawSeq_get_ctx (j : Nat) (s : State) : (Upd.drawSeq.apply s).ctx j = s.ctx j := rfl
@[simp] theorem Upd.drawFree_get_ctx (j : Nat) (s : State) : (Upd.drawFree.apply s).ctx j = s.ctx j := rfl
@[simp] theorem Upd.late_get_ctx (j : Nat) (s : State) : (Upd.late.apply s).ctx j = s.ctx j := rfl
@[simp] theorem Upd.cur_get_ctx (t : Nat) (j : Nat) (s : State) : ((Upd.cur t).apply s).ctx j = s.ctx j := rfl
@[simp] theorem Upd.curBlk_get_ctx (b : Nat) (j : Nat) (s : State) : ((Upd.curBlk b).apply s).ctx j = s.ctx j := rfl
@[simp] theorem Upd.agenda_get_ctx (f : List Turn → List Turn) (j : Nat) (s : State) : ((Upd.agenda f).apply s).ctx j = s.ctx j := rfl
@[simp] theorem Upd.clearMem_get_ctx (j : Nat) (s : State) : (Upd.clearMem.apply s).ctx j = s.ctx j := rfl
@[simp] theorem Upd.clearDie_get_ctx (d : Nat) (j : Nat) (s : State) : ((Upd.clearDie d).apply s).ctx j = s.ctx j := rfl

theorem State.hart_put (s : State) (k j : Nat) (x : Hart) : State.hart (s := ({ s with harts := s.harts.put k x } : State)) j = if j = k then x else s.hart j := by
  by_cases h : j = k <;> simp [State.hart, h]
@[simp] theorem Upd.hart_hart (k j : Nat) (f : Hart → Hart) (s : State) : ((Upd.hart k f).apply s).hart j = if j = k then f (s.hart k) else s.hart j :=
  State.hart_put s k j _
@[simp] theorem Upd.team_get_hart (k : Nat) (f : Team → Team) (j : Nat) (s : State) : ((Upd.team k f).apply s).hart j = s.hart j := rfl
@[simp] theorem Upd.block_get_hart (k : Nat) (f : Block → Block) (j : Nat) (s : State) : ((Upd.block k f).apply s).hart j = s.hart j := rfl
@[simp] theorem Upd.core_get_hart (k : Nat) (f : Core → Core) (j : Nat) (s : State) : ((Upd.core k f).apply s).hart j = s.hart j := rfl
@[simp] theorem Upd.die_get_hart (k : Nat) (f : Die → Die) (j : Nat) (s : State) : ((Upd.die k f).apply s).hart j = s.hart j := rfl
@[simp] theorem Upd.launch_get_hart (k : Nat) (f : Launch → Launch) (j : Nat) (s : State) : ((Upd.launch k f).apply s).hart j = s.hart j := rfl
@[simp] theorem Upd.queue_get_hart (k : Nat) (f : QueueCtx → QueueCtx) (j : Nat) (s : State) : ((Upd.queue k f).apply s).hart j = s.hart j := rfl
@[simp] theorem Upd.ctx_get_hart (k : Nat) (f : Ctx → Ctx) (j : Nat) (s : State) : ((Upd.ctx k f).apply s).hart j = s.hart j := rfl
@[simp] theorem Upd.dropTeam_get_hart (k : Nat) (j : Nat) (s : State) : ((Upd.dropTeam k).apply s).hart j = s.hart j := rfl
@[simp] theorem Upd.dropBlock_get_hart (k : Nat) (j : Nat) (s : State) : ((Upd.dropBlock k).apply s).hart j = s.hart j := rfl
@[simp] theorem Upd.dropLaunch_get_hart (k : Nat) (j : Nat) (s : State) : ((Upd.dropLaunch k).apply s).hart j = s.hart j := rfl
@[simp] theorem Upd.dropQueue_get_hart (k : Nat) (j : Nat) (s : State) : ((Upd.dropQueue k).apply s).hart j = s.hart j := rfl
@[simp] theorem Upd.dropCtx_get_hart (k : Nat) (j : Nat) (s : State) : ((Upd.dropCtx k).apply s).hart j = s.hart j := rfl
@[simp] theorem Upd.slot_get_hart (b n : Nat) (op : SlotOp) (j : Nat) (s : State) : ((Upd.slot b n op).apply s).hart j = s.hart j := rfl
@[simp] theorem Upd.dropSlots_get_hart (b : Nat) (j : Nat) (s : State) : ((Upd.dropSlots b).apply s).hart j = s.hart j := rfl
@[simp] theorem Upd.storePhys_get_hart (p : Path) (blk : Nat) (slots : List Nat) (role : Bool) (lane : Option Nat) (a : Nat) (bs : List Byte) (j : Nat) (s : State) : ((Upd.store p .phys blk slots role lane a bs).apply s).hart j = s.hart j := rfl
@[simp] theorem Upd.storeLoc_get_hart (p : Path) (b blk : Nat) (slots : List Nat) (role : Bool) (lane : Option Nat) (a : Nat) (bs : List Byte) (j : Nat) (s : State) : ((Upd.store p (.loc b) blk slots role lane a bs).apply s).hart j = s.hart j := rfl
@[simp] theorem Upd.storeOb_get_hart (p : Path) (b blk : Nat) (slots : List Nat) (role : Bool) (lane : Option Nat) (a : Nat) (bs : List Byte) (j : Nat) (s : State) : ((Upd.store p (.ob b) blk slots role lane a bs).apply s).hart j = s.hart j := rfl
@[simp] theorem Upd.storeTile_get_hart (p : Path) (b blk : Nat) (slots : List Nat) (role : Bool) (lane : Option Nat) (a : Nat) (bs : List Byte) (j : Nat) (s : State) : ((Upd.store p (.tile b) blk slots role lane a bs).apply s).hart j = s.hart j := rfl
@[simp] theorem Upd.hist_get_hart (f : List HistWord → List HistWord) (j : Nat) (s : State) : ((Upd.hist f).apply s).hart j = s.hart j := rfl
@[simp] theorem Upd.pkg_get_hart (f : Pkg → Pkg) (j : Nat) (s : State) : ((Upd.pkg f).apply s).hart j = s.hart j := rfl
@[simp] theorem Upd.coh_get_hart (f : Coh → Coh) (j : Nat) (s : State) : ((Upd.coh f).apply s).hart j = s.hart j := rfl
@[simp] theorem Upd.drawSeq_get_hart (j : Nat) (s : State) : (Upd.drawSeq.apply s).hart j = s.hart j := rfl
@[simp] theorem Upd.drawFree_get_hart (j : Nat) (s : State) : (Upd.drawFree.apply s).hart j = s.hart j := rfl
@[simp] theorem Upd.late_get_hart (j : Nat) (s : State) : (Upd.late.apply s).hart j = s.hart j := rfl
@[simp] theorem Upd.cur_get_hart (t : Nat) (j : Nat) (s : State) : ((Upd.cur t).apply s).hart j = s.hart j := rfl
@[simp] theorem Upd.curBlk_get_hart (b : Nat) (j : Nat) (s : State) : ((Upd.curBlk b).apply s).hart j = s.hart j := rfl
@[simp] theorem Upd.agenda_get_hart (f : List Turn → List Turn) (j : Nat) (s : State) : ((Upd.agenda f).apply s).hart j = s.hart j := rfl
@[simp] theorem Upd.clearMem_get_hart (j : Nat) (s : State) : (Upd.clearMem.apply s).hart j = s.hart j := rfl
@[simp] theorem Upd.clearDie_get_hart (d : Nat) (j : Nat) (s : State) : ((Upd.clearDie d).apply s).hart j = s.hart j := rfl

@[simp] theorem Upd.slot_slot (b n c k : Nat) (op : SlotOp) (s : State) :
    ((Upd.slot b n op).apply s).slot c k = if 64 * c + k = 64 * b + n then op.apply (s.slot b n) else s.slot c k := by
  by_cases h : 64 * c + k = 64 * b + n <;> simp [State.slot, h]
@[simp] theorem Upd.team_get_slot (k : Nat) (f : Team → Team) (c i : Nat) (s : State) : ((Upd.team k f).apply s).slot c i = s.slot c i := rfl
@[simp] theorem Upd.block_get_slot (k : Nat) (f : Block → Block) (c i : Nat) (s : State) : ((Upd.block k f).apply s).slot c i = s.slot c i := rfl
@[simp] theorem Upd.core_get_slot (k : Nat) (f : Core → Core) (c i : Nat) (s : State) : ((Upd.core k f).apply s).slot c i = s.slot c i := rfl
@[simp] theorem Upd.die_get_slot (k : Nat) (f : Die → Die) (c i : Nat) (s : State) : ((Upd.die k f).apply s).slot c i = s.slot c i := rfl
@[simp] theorem Upd.launch_get_slot (k : Nat) (f : Launch → Launch) (c i : Nat) (s : State) : ((Upd.launch k f).apply s).slot c i = s.slot c i := rfl
@[simp] theorem Upd.queue_get_slot (k : Nat) (f : QueueCtx → QueueCtx) (c i : Nat) (s : State) : ((Upd.queue k f).apply s).slot c i = s.slot c i := rfl
@[simp] theorem Upd.ctx_get_slot (k : Nat) (f : Ctx → Ctx) (c i : Nat) (s : State) : ((Upd.ctx k f).apply s).slot c i = s.slot c i := rfl
@[simp] theorem Upd.hart_get_slot (k : Nat) (f : Hart → Hart) (c i : Nat) (s : State) : ((Upd.hart k f).apply s).slot c i = s.slot c i := rfl
@[simp] theorem Upd.dropTeam_get_slot (k : Nat) (c i : Nat) (s : State) : ((Upd.dropTeam k).apply s).slot c i = s.slot c i := rfl
@[simp] theorem Upd.dropBlock_get_slot (k : Nat) (c i : Nat) (s : State) : ((Upd.dropBlock k).apply s).slot c i = s.slot c i := rfl
@[simp] theorem Upd.dropLaunch_get_slot (k : Nat) (c i : Nat) (s : State) : ((Upd.dropLaunch k).apply s).slot c i = s.slot c i := rfl
@[simp] theorem Upd.dropQueue_get_slot (k : Nat) (c i : Nat) (s : State) : ((Upd.dropQueue k).apply s).slot c i = s.slot c i := rfl
@[simp] theorem Upd.dropCtx_get_slot (k : Nat) (c i : Nat) (s : State) : ((Upd.dropCtx k).apply s).slot c i = s.slot c i := rfl
@[simp] theorem Upd.storePhys_get_slot (p : Path) (blk : Nat) (slots : List Nat) (role : Bool) (lane : Option Nat) (a : Nat) (bs : List Byte) (c i : Nat) (s : State) : ((Upd.store p .phys blk slots role lane a bs).apply s).slot c i = s.slot c i := rfl
@[simp] theorem Upd.storeLoc_get_slot (p : Path) (b blk : Nat) (slots : List Nat) (role : Bool) (lane : Option Nat) (a : Nat) (bs : List Byte) (c i : Nat) (s : State) : ((Upd.store p (.loc b) blk slots role lane a bs).apply s).slot c i = s.slot c i := rfl
@[simp] theorem Upd.storeOb_get_slot (p : Path) (b blk : Nat) (slots : List Nat) (role : Bool) (lane : Option Nat) (a : Nat) (bs : List Byte) (c i : Nat) (s : State) : ((Upd.store p (.ob b) blk slots role lane a bs).apply s).slot c i = s.slot c i := rfl
@[simp] theorem Upd.storeTile_get_slot (p : Path) (b blk : Nat) (slots : List Nat) (role : Bool) (lane : Option Nat) (a : Nat) (bs : List Byte) (c i : Nat) (s : State) : ((Upd.store p (.tile b) blk slots role lane a bs).apply s).slot c i = s.slot c i := rfl
@[simp] theorem Upd.hist_get_slot (f : List HistWord → List HistWord) (c i : Nat) (s : State) : ((Upd.hist f).apply s).slot c i = s.slot c i := rfl
@[simp] theorem Upd.pkg_get_slot (f : Pkg → Pkg) (c i : Nat) (s : State) : ((Upd.pkg f).apply s).slot c i = s.slot c i := rfl
@[simp] theorem Upd.coh_get_slot (f : Coh → Coh) (c i : Nat) (s : State) : ((Upd.coh f).apply s).slot c i = s.slot c i := rfl
@[simp] theorem Upd.drawSeq_get_slot (c i : Nat) (s : State) : (Upd.drawSeq.apply s).slot c i = s.slot c i := rfl
@[simp] theorem Upd.drawFree_get_slot (c i : Nat) (s : State) : (Upd.drawFree.apply s).slot c i = s.slot c i := rfl
@[simp] theorem Upd.late_get_slot (c i : Nat) (s : State) : (Upd.late.apply s).slot c i = s.slot c i := rfl
@[simp] theorem Upd.cur_get_slot (t : Nat) (c i : Nat) (s : State) : ((Upd.cur t).apply s).slot c i = s.slot c i := rfl
@[simp] theorem Upd.curBlk_get_slot (b : Nat) (c i : Nat) (s : State) : ((Upd.curBlk b).apply s).slot c i = s.slot c i := rfl
@[simp] theorem Upd.agenda_get_slot (f : List Turn → List Turn) (c i : Nat) (s : State) : ((Upd.agenda f).apply s).slot c i = s.slot c i := rfl
@[simp] theorem Upd.clearMem_get_slot (c i : Nat) (s : State) : (Upd.clearMem.apply s).slot c i = s.slot c i := rfl
@[simp] theorem Upd.clearDie_get_slot (d : Nat) (c i : Nat) (s : State) : ((Upd.clearDie d).apply s).slot c i = s.slot c i := rfl

@[simp] theorem Upd.team_readByte (k : Nat) (f : Team → Team) (pa : Nat) (s : State) : readByte ((Upd.team k f).apply s) pa = readByte s pa := rfl
@[simp] theorem Upd.block_readByte (k : Nat) (f : Block → Block) (pa : Nat) (s : State) : readByte ((Upd.block k f).apply s) pa = readByte s pa := rfl
@[simp] theorem Upd.core_readByte (k : Nat) (f : Core → Core) (pa : Nat) (s : State) : readByte ((Upd.core k f).apply s) pa = readByte s pa := rfl
@[simp] theorem Upd.die_readByte (k : Nat) (f : Die → Die) (pa : Nat) (s : State) : readByte ((Upd.die k f).apply s) pa = readByte s pa := rfl
@[simp] theorem Upd.launch_readByte (k : Nat) (f : Launch → Launch) (pa : Nat) (s : State) : readByte ((Upd.launch k f).apply s) pa = readByte s pa := rfl
@[simp] theorem Upd.queue_readByte (k : Nat) (f : QueueCtx → QueueCtx) (pa : Nat) (s : State) : readByte ((Upd.queue k f).apply s) pa = readByte s pa := rfl
@[simp] theorem Upd.ctx_readByte (k : Nat) (f : Ctx → Ctx) (pa : Nat) (s : State) : readByte ((Upd.ctx k f).apply s) pa = readByte s pa := rfl
@[simp] theorem Upd.hart_readByte (k : Nat) (f : Hart → Hart) (pa : Nat) (s : State) : readByte ((Upd.hart k f).apply s) pa = readByte s pa := rfl
@[simp] theorem Upd.dropTeam_readByte (k : Nat) (pa : Nat) (s : State) : readByte ((Upd.dropTeam k).apply s) pa = readByte s pa := rfl
@[simp] theorem Upd.dropBlock_readByte (k : Nat) (pa : Nat) (s : State) : readByte ((Upd.dropBlock k).apply s) pa = readByte s pa := rfl
@[simp] theorem Upd.dropLaunch_readByte (k : Nat) (pa : Nat) (s : State) : readByte ((Upd.dropLaunch k).apply s) pa = readByte s pa := rfl
@[simp] theorem Upd.dropQueue_readByte (k : Nat) (pa : Nat) (s : State) : readByte ((Upd.dropQueue k).apply s) pa = readByte s pa := rfl
@[simp] theorem Upd.dropCtx_readByte (k : Nat) (pa : Nat) (s : State) : readByte ((Upd.dropCtx k).apply s) pa = readByte s pa := rfl
@[simp] theorem Upd.slot_readByte (b n : Nat) (op : SlotOp) (pa : Nat) (s : State) : readByte ((Upd.slot b n op).apply s) pa = readByte s pa := rfl
@[simp] theorem Upd.dropSlots_readByte (b : Nat) (pa : Nat) (s : State) : readByte ((Upd.dropSlots b).apply s) pa = readByte s pa := rfl
@[simp] theorem Upd.storeLoc_readByte (p : Path) (b blk : Nat) (slots : List Nat) (role : Bool) (lane : Option Nat) (a : Nat) (bs : List Byte) (pa : Nat) (s : State) : readByte ((Upd.store p (.loc b) blk slots role lane a bs).apply s) pa = readByte s pa := rfl
@[simp] theorem Upd.storeOb_readByte (p : Path) (b blk : Nat) (slots : List Nat) (role : Bool) (lane : Option Nat) (a : Nat) (bs : List Byte) (pa : Nat) (s : State) : readByte ((Upd.store p (.ob b) blk slots role lane a bs).apply s) pa = readByte s pa := rfl
@[simp] theorem Upd.storeTile_readByte (p : Path) (b blk : Nat) (slots : List Nat) (role : Bool) (lane : Option Nat) (a : Nat) (bs : List Byte) (pa : Nat) (s : State) : readByte ((Upd.store p (.tile b) blk slots role lane a bs).apply s) pa = readByte s pa := rfl
@[simp] theorem Upd.hist_readByte (f : List HistWord → List HistWord) (pa : Nat) (s : State) : readByte ((Upd.hist f).apply s) pa = readByte s pa := rfl
@[simp] theorem Upd.pkg_readByte (f : Pkg → Pkg) (pa : Nat) (s : State) : readByte ((Upd.pkg f).apply s) pa = readByte s pa := rfl
@[simp] theorem Upd.coh_readByte (f : Coh → Coh) (pa : Nat) (s : State) : readByte ((Upd.coh f).apply s) pa = readByte s pa := rfl
@[simp] theorem Upd.drawSeq_readByte (pa : Nat) (s : State) : readByte (Upd.drawSeq.apply s) pa = readByte s pa := rfl
@[simp] theorem Upd.drawFree_readByte (pa : Nat) (s : State) : readByte (Upd.drawFree.apply s) pa = readByte s pa := rfl
@[simp] theorem Upd.late_readByte (pa : Nat) (s : State) : readByte (Upd.late.apply s) pa = readByte s pa := rfl
@[simp] theorem Upd.cur_readByte (t : Nat) (pa : Nat) (s : State) : readByte ((Upd.cur t).apply s) pa = readByte s pa := rfl
@[simp] theorem Upd.curBlk_readByte (b : Nat) (pa : Nat) (s : State) : readByte ((Upd.curBlk b).apply s) pa = readByte s pa := rfl
@[simp] theorem Upd.agenda_readByte (f : List Turn → List Turn) (pa : Nat) (s : State) : readByte ((Upd.agenda f).apply s) pa = readByte s pa := rfl

/-! ## Updates of a team -/

@[simp] theorem Team.setReg_blk (t : Team) (r : GReg) (x : W64) : (t.setReg r x).blk = t.blk := by
  unfold Team.setReg; split <;> rfl
@[simp] theorem Team.setReg_idx (t : Team) (r : GReg) (x : W64) : (t.setReg r x).idx = t.idx := by
  unfold Team.setReg; split <;> rfl
@[simp] theorem Team.setReg_q (t : Team) (r : GReg) (x : W64) : (t.setReg r x).q = t.q := by
  unfold Team.setReg; split <;> rfl
@[simp] theorem Team.setReg_p (t : Team) (r : GReg) (x : W64) : (t.setReg r x).p = t.p := by
  unfold Team.setReg; split <;> rfl
@[simp] theorem Team.setReg_m (t : Team) (r : GReg) (x : W64) : (t.setReg r x).m = t.m := by
  unfold Team.setReg; split <;> rfl
@[simp] theorem Team.setReg_stack (t : Team) (r : GReg) (x : W64) : (t.setReg r x).stack = t.stack := by
  unfold Team.setReg; split <;> rfl
@[simp] theorem Team.setReg_pc (t : Team) (r : GReg) (x : W64) : (t.setReg r x).pc = t.pc := by
  unfold Team.setReg; split <;> rfl
@[simp] theorem Team.setReg_teamid (t : Team) (r : GReg) (x : W64) : (t.setReg r x).teamid = t.teamid := by
  unfold Team.setReg; split <;> rfl
@[simp] theorem Team.setReg_width (t : Team) (r : GReg) (x : W64) : (t.setReg r x).width = t.width := by
  unfold Team.setReg; split <;> rfl
@[simp] theorem Team.setReg_present (t : Team) (r : GReg) (x : W64) : (t.setReg r x).present = t.present := by
  unfold Team.setReg; split <;> rfl
@[simp] theorem Team.setReg_v (t : Team) (r : GReg) (x : W64) : (t.setReg r x).v = t.v := by
  unfold Team.setReg; split <;> rfl
@[simp] theorem Team.setReg_pregs (t : Team) (r : GReg) (x : W64) : (t.setReg r x).pregs = t.pregs := by
  unfold Team.setReg; split <;> rfl
@[simp] theorem Team.setReg_rows (t : Team) (r : GReg) (x : W64) : (t.setReg r x).rows = t.rows := by
  unfold Team.setReg; split <;> rfl
@[simp] theorem Team.setReg_tcause (t : Team) (r : GReg) (x : W64) : (t.setReg r x).tcause = t.tcause := by
  unfold Team.setReg; split <;> rfl
@[simp] theorem Team.setReg_tval (t : Team) (r : GReg) (x : W64) : (t.setReg r x).tval = t.tval := by
  unfold Team.setReg; split <;> rfl
@[simp] theorem Team.setReg_tpc (t : Team) (r : GReg) (x : W64) : (t.setReg r x).tpc = t.tpc := by
  unfold Team.setReg; split <;> rfl
@[simp] theorem Team.setReg_tbatch (t : Team) (r : GReg) (x : W64) : (t.setReg r x).tbatch = t.tbatch := by
  unfold Team.setReg; split <;> rfl
@[simp] theorem Team.setReg_thandler (t : Team) (r : GReg) (x : W64) : (t.setReg r x).thandler = t.thandler := by
  unfold Team.setReg; split <;> rfl
@[simp] theorem Team.setReg_termused (t : Team) (r : GReg) (x : W64) : (t.setReg r x).termused = t.termused := by
  unfold Team.setReg; split <;> rfl
@[simp] theorem Team.setReg_termsteps (t : Team) (r : GReg) (x : W64) : (t.setReg r x).termsteps = t.termsteps := by
  unfold Team.setReg; split <;> rfl
@[simp] theorem Team.setReg_groupwait (t : Team) (r : GReg) (x : W64) : (t.setReg r x).groupwait = t.groupwait := by
  unfold Team.setReg; split <;> rfl
@[simp] theorem Team.setReg_mmacyc (t : Team) (r : GReg) (x : W64) : (t.setReg r x).mmacyc = t.mmacyc := by
  unfold Team.setReg; split <;> rfl
@[simp] theorem Team.setReg_specdrop (t : Team) (r : GReg) (x : W64) : (t.setReg r x).specdrop = t.specdrop := by
  unfold Team.setReg; split <;> rfl
@[simp] theorem Team.setReg_lacheck (t : Team) (r : GReg) (x : W64) : (t.setReg r x).lacheck = t.lacheck := by
  unfold Team.setReg; split <;> rfl
@[simp] theorem Team.setReg_pcmatch (t : Team) (r : GReg) (x : W64) : (t.setReg r x).pcmatch = t.pcmatch := by
  unfold Team.setReg; split <;> rfl
@[simp] theorem Team.setReg_ticket (t : Team) (r : GReg) (x : W64) : (t.setReg r x).ticket = t.ticket := by
  unfold Team.setReg; split <;> rfl
@[simp] theorem Team.setReg_lanes (t : Team) (r : GReg) (x : W64) : (t.setReg r x).lanes = t.lanes := by
  unfold Team.setReg; split <;> rfl
@[simp] theorem Team.setReg_pend (t : Team) (r : GReg) (x : W64) : (t.setReg r x).pend = t.pend := by
  unfold Team.setReg; split <;> rfl
@[simp] theorem Team.setReg_carried (t : Team) (r : GReg) (x : W64) : (t.setReg r x).carried = t.carried := by
  unfold Team.setReg; split <;> rfl
@[simp] theorem Team.setReg_laneWaiting (t : Team) (r : GReg) (x : W64) : (t.setReg r x).laneWaiting = t.laneWaiting := by
  unfold Team.setReg; split <;> rfl
@[simp] theorem Team.setReg_partDone (t : Team) (r : GReg) (x : W64) : (t.setReg r x).partDone = t.partDone := by
  unfold Team.setReg; split <;> rfl
@[simp] theorem Team.setReg_laneAcqs (t : Team) (r : GReg) (x : W64) : (t.setReg r x).laneAcqs = t.laneAcqs := by
  unfold Team.setReg; split <;> rfl
@[simp] theorem Team.setReg_await (t : Team) (r : GReg) (x : W64) : (t.setReg r x).await = t.await := by
  unfold Team.setReg; split <;> rfl
@[simp] theorem Team.setReg_spec (t : Team) (r : GReg) (x : W64) : (t.setReg r x).spec = t.spec := by
  unfold Team.setReg; split <;> rfl
@[simp] theorem Team.setReg_pending (t : Team) (r : GReg) (x : W64) : (t.setReg r x).pending = t.pending := by
  unfold Team.setReg; split <;> rfl
@[simp] theorem Team.setReg_ahead (t : Team) (r : GReg) (x : W64) : (t.setReg r x).ahead = t.ahead := by
  unfold Team.setReg; split <;> rfl
@[simp] theorem Team.setReg_trail (t : Team) (r : GReg) (x : W64) : (t.setReg r x).trail = t.trail := by
  unfold Team.setReg; split <;> rfl
@[simp] theorem Team.setReg_waiting (t : Team) (r : GReg) (x : W64) : (t.setReg r x).waiting = t.waiting := by
  unfold Team.setReg; split <;> rfl
@[simp] theorem Team.setReg_captured (t : Team) (r : GReg) (x : W64) : (t.setReg r x).captured = t.captured := by
  unfold Team.setReg; split <;> rfl
@[simp] theorem Team.setReg_issuedAt (t : Team) (r : GReg) (x : W64) : (t.setReg r x).issuedAt = t.issuedAt := by
  unfold Team.setReg; split <;> rfl
@[simp] theorem Team.setReg_sywb (t : Team) (r : GReg) (x : W64) : (t.setReg r x).sywb = t.sywb := by
  unfold Team.setReg; split <;> rfl
@[simp] theorem Team.setReg_faultAt (t : Team) (r : GReg) (x : W64) : (t.setReg r x).faultAt = t.faultAt := by
  unfold Team.setReg; split <;> rfl
@[simp] theorem Team.setReg_laneFaultAt (t : Team) (r : GReg) (x : W64) : (t.setReg r x).laneFaultAt = t.laneFaultAt := by
  unfold Team.setReg; split <;> rfl
@[simp] theorem Team.setReg_yieldTo (t : Team) (r : GReg) (x : W64) : (t.setReg r x).yieldTo = t.yieldTo := by
  unfold Team.setReg; split <;> rfl
@[simp] theorem Team.setReg_starved (t : Team) (r : GReg) (x : W64) : (t.setReg r x).starved = t.starved := by
  unfold Team.setReg; split <;> rfl
@[simp] theorem Team.setReg_stopped (t : Team) (r : GReg) (x : W64) : (t.setReg r x).stopped = t.stopped := by
  unfold Team.setReg; split <;> rfl
@[simp] theorem Team.setReg_exited (t : Team) (r : GReg) (x : W64) : (t.setReg r x).exited = t.exited := by
  unfold Team.setReg; split <;> rfl
@[simp] theorem Team.setReg_suspended (t : Team) (r : GReg) (x : W64) : (t.setReg r x).suspended = t.suspended := by
  unfold Team.setReg; split <;> rfl
@[simp] theorem Team.setReg_migr (t : Team) (r : GReg) (x : W64) : (t.setReg r x).migr = t.migr := by
  unfold Team.setReg; split <;> rfl
@[simp] theorem Team.setReg_fetchReq (t : Team) (r : GReg) (x : W64) : (t.setReg r x).fetchReq = t.fetchReq := by
  unfold Team.setReg; split <;> rfl
@[simp] theorem Team.setReg_token (t : Team) (r : GReg) (x : W64) : (t.setReg r x).token = t.token := by
  unfold Team.setReg; split <;> rfl
@[simp] theorem Team.setReg_first (t : Team) (r : GReg) (x : W64) : (t.setReg r x).first = t.first := by
  unfold Team.setReg; split <;> rfl
@[simp] theorem Team.setReg_fired (t : Team) (r : GReg) (x : W64) : (t.setReg r x).fired = t.fired := by
  unfold Team.setReg; split <;> rfl
@[simp] theorem Team.setMask_blk (t : Team) (x : LaneMask) : (t.setMask x).blk = t.blk := rfl
@[simp] theorem Team.setMask_idx (t : Team) (x : LaneMask) : (t.setMask x).idx = t.idx := rfl
@[simp] theorem Team.setMask_g (t : Team) (x : LaneMask) : (t.setMask x).g = t.g := rfl
@[simp] theorem Team.setMask_q (t : Team) (x : LaneMask) : (t.setMask x).q = t.q := rfl
@[simp] theorem Team.setMask_p (t : Team) (x : LaneMask) : (t.setMask x).p = t.p := rfl
@[simp] theorem Team.setMask_m (t : Team) (x : LaneMask) : (t.setMask x).m = x &&& t.present := rfl
@[simp] theorem Team.setMask_stack (t : Team) (x : LaneMask) : (t.setMask x).stack = t.stack := rfl
@[simp] theorem Team.setMask_pc (t : Team) (x : LaneMask) : (t.setMask x).pc = t.pc := rfl
@[simp] theorem Team.setMask_teamid (t : Team) (x : LaneMask) : (t.setMask x).teamid = t.teamid := rfl
@[simp] theorem Team.setMask_width (t : Team) (x : LaneMask) : (t.setMask x).width = t.width := rfl
@[simp] theorem Team.setMask_present (t : Team) (x : LaneMask) : (t.setMask x).present = t.present := rfl
@[simp] theorem Team.setMask_v (t : Team) (x : LaneMask) : (t.setMask x).v = t.v := rfl
@[simp] theorem Team.setMask_pregs (t : Team) (x : LaneMask) : (t.setMask x).pregs = t.pregs := rfl
@[simp] theorem Team.setMask_rows (t : Team) (x : LaneMask) : (t.setMask x).rows = t.rows := rfl
@[simp] theorem Team.setMask_tcause (t : Team) (x : LaneMask) : (t.setMask x).tcause = t.tcause := rfl
@[simp] theorem Team.setMask_tval (t : Team) (x : LaneMask) : (t.setMask x).tval = t.tval := rfl
@[simp] theorem Team.setMask_tpc (t : Team) (x : LaneMask) : (t.setMask x).tpc = t.tpc := rfl
@[simp] theorem Team.setMask_tbatch (t : Team) (x : LaneMask) : (t.setMask x).tbatch = t.tbatch := rfl
@[simp] theorem Team.setMask_thandler (t : Team) (x : LaneMask) : (t.setMask x).thandler = t.thandler := rfl
@[simp] theorem Team.setMask_termused (t : Team) (x : LaneMask) : (t.setMask x).termused = t.termused := rfl
@[simp] theorem Team.setMask_termsteps (t : Team) (x : LaneMask) : (t.setMask x).termsteps = t.termsteps := rfl
@[simp] theorem Team.setMask_groupwait (t : Team) (x : LaneMask) : (t.setMask x).groupwait = t.groupwait := rfl
@[simp] theorem Team.setMask_mmacyc (t : Team) (x : LaneMask) : (t.setMask x).mmacyc = t.mmacyc := rfl
@[simp] theorem Team.setMask_specdrop (t : Team) (x : LaneMask) : (t.setMask x).specdrop = t.specdrop := rfl
@[simp] theorem Team.setMask_lacheck (t : Team) (x : LaneMask) : (t.setMask x).lacheck = t.lacheck := rfl
@[simp] theorem Team.setMask_pcmatch (t : Team) (x : LaneMask) : (t.setMask x).pcmatch = t.pcmatch := rfl
@[simp] theorem Team.setMask_ticket (t : Team) (x : LaneMask) : (t.setMask x).ticket = t.ticket := rfl
@[simp] theorem Team.setMask_lanes (t : Team) (x : LaneMask) : (t.setMask x).lanes = t.lanes := rfl
@[simp] theorem Team.setMask_pend (t : Team) (x : LaneMask) : (t.setMask x).pend = t.pend := rfl
@[simp] theorem Team.setMask_carried (t : Team) (x : LaneMask) : (t.setMask x).carried = t.carried := rfl
@[simp] theorem Team.setMask_laneWaiting (t : Team) (x : LaneMask) : (t.setMask x).laneWaiting = t.laneWaiting := rfl
@[simp] theorem Team.setMask_partDone (t : Team) (x : LaneMask) : (t.setMask x).partDone = t.partDone := rfl
@[simp] theorem Team.setMask_laneAcqs (t : Team) (x : LaneMask) : (t.setMask x).laneAcqs = t.laneAcqs := rfl
@[simp] theorem Team.setMask_await (t : Team) (x : LaneMask) : (t.setMask x).await = t.await := rfl
@[simp] theorem Team.setMask_spec (t : Team) (x : LaneMask) : (t.setMask x).spec = t.spec := rfl
@[simp] theorem Team.setMask_pending (t : Team) (x : LaneMask) : (t.setMask x).pending = t.pending := rfl
@[simp] theorem Team.setMask_ahead (t : Team) (x : LaneMask) : (t.setMask x).ahead = t.ahead := rfl
@[simp] theorem Team.setMask_trail (t : Team) (x : LaneMask) : (t.setMask x).trail = t.trail := rfl
@[simp] theorem Team.setMask_waiting (t : Team) (x : LaneMask) : (t.setMask x).waiting = t.waiting := rfl
@[simp] theorem Team.setMask_captured (t : Team) (x : LaneMask) : (t.setMask x).captured = t.captured := rfl
@[simp] theorem Team.setMask_issuedAt (t : Team) (x : LaneMask) : (t.setMask x).issuedAt = t.issuedAt := rfl
@[simp] theorem Team.setMask_sywb (t : Team) (x : LaneMask) : (t.setMask x).sywb = t.sywb := rfl
@[simp] theorem Team.setMask_faultAt (t : Team) (x : LaneMask) : (t.setMask x).faultAt = t.faultAt := rfl
@[simp] theorem Team.setMask_laneFaultAt (t : Team) (x : LaneMask) : (t.setMask x).laneFaultAt = t.laneFaultAt := rfl
@[simp] theorem Team.setMask_yieldTo (t : Team) (x : LaneMask) : (t.setMask x).yieldTo = t.yieldTo := rfl
@[simp] theorem Team.setMask_starved (t : Team) (x : LaneMask) : (t.setMask x).starved = t.starved := rfl
@[simp] theorem Team.setMask_stopped (t : Team) (x : LaneMask) : (t.setMask x).stopped = t.stopped := rfl
@[simp] theorem Team.setMask_exited (t : Team) (x : LaneMask) : (t.setMask x).exited = t.exited := rfl
@[simp] theorem Team.setMask_suspended (t : Team) (x : LaneMask) : (t.setMask x).suspended = t.suspended := rfl
@[simp] theorem Team.setMask_migr (t : Team) (x : LaneMask) : (t.setMask x).migr = t.migr := rfl
@[simp] theorem Team.setMask_fetchReq (t : Team) (x : LaneMask) : (t.setMask x).fetchReq = t.fetchReq := rfl
@[simp] theorem Team.setMask_token (t : Team) (x : LaneMask) : (t.setMask x).token = t.token := rfl
@[simp] theorem Team.setMask_first (t : Team) (x : LaneMask) : (t.setMask x).first = t.first := rfl
@[simp] theorem Team.setMask_fired (t : Team) (x : LaneMask) : (t.setMask x).fired = t.fired := rfl
@[simp] theorem Team.retire_blk (t : Team) (u : Use) (a : W64) : (t.retire u a).blk = t.blk := rfl
@[simp] theorem Team.retire_idx (t : Team) (u : Use) (a : W64) : (t.retire u a).idx = t.idx := rfl
@[simp] theorem Team.retire_g (t : Team) (u : Use) (a : W64) : (t.retire u a).g = t.g := rfl
@[simp] theorem Team.retire_q (t : Team) (u : Use) (a : W64) : (t.retire u a).q = t.q := rfl
@[simp] theorem Team.retire_p (t : Team) (u : Use) (a : W64) : (t.retire u a).p = t.p := rfl
@[simp] theorem Team.retire_m (t : Team) (u : Use) (a : W64) : (t.retire u a).m = t.m := rfl
@[simp] theorem Team.retire_stack (t : Team) (u : Use) (a : W64) : (t.retire u a).stack = t.stack := rfl
@[simp] theorem Team.retire_pc (t : Team) (u : Use) (a : W64) : (t.retire u a).pc = a := rfl
@[simp] theorem Team.retire_teamid (t : Team) (u : Use) (a : W64) : (t.retire u a).teamid = t.teamid := rfl
@[simp] theorem Team.retire_width (t : Team) (u : Use) (a : W64) : (t.retire u a).width = t.width := rfl
@[simp] theorem Team.retire_present (t : Team) (u : Use) (a : W64) : (t.retire u a).present = t.present := rfl
@[simp] theorem Team.retire_v (t : Team) (u : Use) (a : W64) : (t.retire u a).v = t.v := rfl
@[simp] theorem Team.retire_pregs (t : Team) (u : Use) (a : W64) : (t.retire u a).pregs = t.pregs := rfl
@[simp] theorem Team.retire_rows (t : Team) (u : Use) (a : W64) : (t.retire u a).rows = t.rows := rfl
@[simp] theorem Team.retire_tcause (t : Team) (u : Use) (a : W64) : (t.retire u a).tcause = t.tcause := rfl
@[simp] theorem Team.retire_tval (t : Team) (u : Use) (a : W64) : (t.retire u a).tval = t.tval := rfl
@[simp] theorem Team.retire_tpc (t : Team) (u : Use) (a : W64) : (t.retire u a).tpc = t.tpc := rfl
@[simp] theorem Team.retire_tbatch (t : Team) (u : Use) (a : W64) : (t.retire u a).tbatch = t.tbatch := rfl
@[simp] theorem Team.retire_thandler (t : Team) (u : Use) (a : W64) : (t.retire u a).thandler = t.thandler := rfl
@[simp] theorem Team.retire_termused (t : Team) (u : Use) (a : W64) : (t.retire u a).termused = t.termused := rfl
@[simp] theorem Team.retire_termsteps (t : Team) (u : Use) (a : W64) : (t.retire u a).termsteps = t.termsteps := rfl
@[simp] theorem Team.retire_groupwait (t : Team) (u : Use) (a : W64) : (t.retire u a).groupwait = t.groupwait := rfl
@[simp] theorem Team.retire_mmacyc (t : Team) (u : Use) (a : W64) : (t.retire u a).mmacyc = t.mmacyc := rfl
@[simp] theorem Team.retire_specdrop (t : Team) (u : Use) (a : W64) : (t.retire u a).specdrop = t.specdrop := rfl
@[simp] theorem Team.retire_lacheck (t : Team) (u : Use) (a : W64) : (t.retire u a).lacheck = t.lacheck := rfl
@[simp] theorem Team.retire_pcmatch (t : Team) (u : Use) (a : W64) : (t.retire u a).pcmatch = t.pcmatch := rfl
@[simp] theorem Team.retire_ticket (t : Team) (u : Use) (a : W64) : (t.retire u a).ticket = t.ticket := rfl
@[simp] theorem Team.retire_lanes (t : Team) (u : Use) (a : W64) : (t.retire u a).lanes = t.lanes := rfl
@[simp] theorem Team.retire_pend (t : Team) (u : Use) (a : W64) : (t.retire u a).pend = t.pend := rfl
@[simp] theorem Team.retire_carried (t : Team) (u : Use) (a : W64) : (t.retire u a).carried = t.carried := rfl
@[simp] theorem Team.retire_laneWaiting (t : Team) (u : Use) (a : W64) : (t.retire u a).laneWaiting = t.laneWaiting := rfl
@[simp] theorem Team.retire_partDone (t : Team) (u : Use) (a : W64) : (t.retire u a).partDone = t.partDone := rfl
@[simp] theorem Team.retire_laneAcqs (t : Team) (u : Use) (a : W64) : (t.retire u a).laneAcqs = t.laneAcqs := rfl
@[simp] theorem Team.retire_await (t : Team) (u : Use) (a : W64) : (t.retire u a).await = t.await.filter (fun r => !(u.reads.contains r || u.writes.contains r)) ++ (if u.long then u.writes.filter (· != 0) else []) := rfl
@[simp] theorem Team.retire_spec (t : Team) (u : Use) (a : W64) : (t.retire u a).spec = t.spec.map (fun p => { p with count := p.count + 1 }) := rfl
@[simp] theorem Team.retire_pending (t : Team) (u : Use) (a : W64) : (t.retire u a).pending = t.pending := rfl
@[simp] theorem Team.retire_ahead (t : Team) (u : Use) (a : W64) : (t.retire u a).ahead = t.ahead.filter (fun w => w.pc != t.pc) := rfl
@[simp] theorem Team.retire_trail (t : Team) (u : Use) (a : W64) : (t.retire u a).trail = (t.pc :: t.trail).take 64 := rfl
@[simp] theorem Team.retire_waiting (t : Team) (u : Use) (a : W64) : (t.retire u a).waiting = false := rfl
@[simp] theorem Team.retire_captured (t : Team) (u : Use) (a : W64) : (t.retire u a).captured = none := rfl
@[simp] theorem Team.retire_issuedAt (t : Team) (u : Use) (a : W64) : (t.retire u a).issuedAt = t.issuedAt := rfl
@[simp] theorem Team.retire_sywb (t : Team) (u : Use) (a : W64) : (t.retire u a).sywb = none := rfl
@[simp] theorem Team.retire_faultAt (t : Team) (u : Use) (a : W64) : (t.retire u a).faultAt = none := rfl
@[simp] theorem Team.retire_laneFaultAt (t : Team) (u : Use) (a : W64) : (t.retire u a).laneFaultAt = t.laneFaultAt := rfl
@[simp] theorem Team.retire_yieldTo (t : Team) (u : Use) (a : W64) : (t.retire u a).yieldTo = [] := rfl
@[simp] theorem Team.retire_starved (t : Team) (u : Use) (a : W64) : (t.retire u a).starved = false := rfl
@[simp] theorem Team.retire_stopped (t : Team) (u : Use) (a : W64) : (t.retire u a).stopped = t.stopped := rfl
@[simp] theorem Team.retire_exited (t : Team) (u : Use) (a : W64) : (t.retire u a).exited = t.exited := rfl
@[simp] theorem Team.retire_suspended (t : Team) (u : Use) (a : W64) : (t.retire u a).suspended = t.suspended := rfl
@[simp] theorem Team.retire_migr (t : Team) (u : Use) (a : W64) : (t.retire u a).migr = none := rfl
@[simp] theorem Team.retire_fetchReq (t : Team) (u : Use) (a : W64) : (t.retire u a).fetchReq = t.fetchReq := rfl
@[simp] theorem Team.retire_token (t : Team) (u : Use) (a : W64) : (t.retire u a).token = t.token := rfl
@[simp] theorem Team.retire_first (t : Team) (u : Use) (a : W64) : (t.retire u a).first = false := rfl

/-! ## General registers (R60) -/

@[simp] theorem Team.reg_zero (t : Team) : t.reg 0#6 = 0#64 := by simp [Team.reg]

theorem Team.setReg_zero (t : Team) (x : W64) : t.setReg 0 x = t := by simp [Team.setReg]

theorem Team.reg_setReg (t : Team) (r j : GReg) (x : W64) : (t.setReg r x).reg j = if j = 0 then 0 else if j = r then x else t.reg j := by
  by_cases hj : j = 0
  · subst hj; simp
  · by_cases hr : r = 0
    · subst hr; simp only [Team.setReg, if_pos, if_neg hj]
    · unfold Team.setReg Team.reg
      simp only [if_neg hj, if_neg hr]
      by_cases h : j = r
      · subst h; simp
      · have : ¬ r.toNat = j.toNat := fun e => h (BitVec.eq_of_toNat_eq e.symm)
        simp only [if_neg h, Vector.getElem_set, if_neg this]

@[simp] theorem Team.reg_retire (t : Team) (u : Use) (a : W64) (j : GReg) : (t.retire u a).reg j = t.reg j := rfl

@[simp] theorem Team.reg_setMask (t : Team) (x : LaneMask) (j : GReg) : (t.setMask x).reg j = t.reg j := rfl

end Sys2Proof.Machine
end

