-- ==== Sys2Proof/Laws/Memory.lean ====
section
/-! SUPPORT. Laws of memories: the canonical form, that every operation on a memory keeps it, and reading after writing. -/

namespace Sys2Proof.Sparse

variable {w : Nat}

theorem rising_iff (m : Sparse w) : rising m = true ↔ m.Pairwise (fun x y => x.1 < y.1) := by
  induction m with
  | nil => simp [rising]
  | cons x m ih =>
    cases m with
    | nil => simp [rising]
    | cons y m =>
      simp only [rising, Bool.and_eq_true, decide_eq_true_eq, ih, List.pairwise_cons (l := y :: m), List.mem_cons, forall_eq_or_imp]
      constructor
      · rintro ⟨h, hp⟩
        refine ⟨⟨h, fun z hz => lt_trans h ?_⟩, hp⟩
        exact (List.pairwise_cons.mp hp).1 z hz
      · rintro ⟨⟨h, _⟩, hp⟩
        exact ⟨h, hp⟩

theorem wf_iff (m : Sparse w) : wf m = true ↔ m.Pairwise (fun x y => x.1 < y.1) ∧ ∀ e ∈ m, e.2 ≠ 0 := by
  simp [wf, rising_iff]

@[simp] theorem wf_nil : wf ([] : Sparse w) = true := rfl

theorem wf_filter {m : Sparse w} (h : wf m = true) (p : Nat × BitVec w → Bool) : wf (m.filter p) = true := by
  rw [wf_iff] at h ⊢
  exact ⟨h.1.sublist List.filter_sublist, fun e he => h.2 e (List.mem_filter.mp he).1⟩

/-- Writing a run of words keeps the canonical form. -/
theorem wf_setRun {m : Sparse w} (h : wf m = true) (a : Nat) (xs : List (BitVec w)) : wf (setRun m a xs) = true := by
  rw [wf_iff] at h ⊢
  obtain ⟨hp, hz⟩ := h
  have mid : ∀ e ∈ ((List.range xs.length).map (fun i => (a + i, xs.getD i 0))).filter (fun e => e.2 != 0),
      a ≤ e.1 ∧ e.1 < a + xs.length ∧ e.2 ≠ 0 := by
    intro e he
    simp only [List.mem_filter, List.mem_map, List.mem_range, bne_iff_ne] at he
    obtain ⟨⟨i, hi, rfl⟩, hne⟩ := he
    exact ⟨Nat.le_add_right _ _, Nat.add_lt_add_left hi _, hne⟩
  unfold setRun
  constructor
  · rw [List.append_assoc, List.pairwise_append, List.pairwise_append]
    refine ⟨hp.sublist List.filter_sublist, ⟨?_, hp.sublist List.filter_sublist, ?_⟩, ?_⟩
    · refine List.Pairwise.filter _ ?_
      rw [List.pairwise_map]
      exact List.pairwise_lt_range.imp (fun h => by simpa using h)
    · intro x hx y hy
      have := mid x hx
      simp only [List.mem_filter, decide_eq_true_eq] at hy
      omega
    · intro x hx y hy
      simp only [List.mem_filter, decide_eq_true_eq] at hx
      rcases List.mem_append.mp hy with hy | hy
      · have := mid y hy
        omega
      · simp only [List.mem_filter, decide_eq_true_eq] at hy
        omega
  · intro e he
    simp only [List.mem_append] at he
    rcases he with (he | he) | he
    · exact hz e (List.mem_filter.mp he).1
    · exact (mid e he).2.2
    · exact hz e (List.mem_filter.mp he).1

theorem get_append (m n : Sparse w) (a : Nat) : get (m ++ n) a = if m.any (fun e => e.1 == a) then get m a else get n a := by
  induction m with
  | nil => simp
  | cons e m ih =>
    obtain ⟨k, v⟩ := e
    by_cases h : k = a
    · simp [get, h]
    · simp [get, h, ih]

theorem get_filter (m : Sparse w) (p : Nat → Bool) (a : Nat) : get (m.filter (fun e => p e.1)) a = if p a then get m a else 0 := by
  induction m with
  | nil => simp [get]
  | cons e m ih =>
    obtain ⟨k, v⟩ := e
    by_cases hk : k = a
    · subst hk
      by_cases hp : p k
      · simp [get, hp]
      · simp only [List.filter_cons, hp, Bool.false_eq_true, if_false, ih]
    · by_cases hp : p k
      · simp [get, hk, hp, ih]
      · simp [get, hk, hp, ih]

theorem get_of_not_any (m : Sparse w) (a : Nat) (h : m.any (fun e => e.1 == a) = false) : get m a = 0 := by
  induction m with
  | nil => rfl
  | cons e m ih =>
    obtain ⟨k, v⟩ := e
    simp only [List.any_cons, Bool.or_eq_false_iff, beq_eq_false_iff_ne] at h
    simp [get, h.1, ih h.2]

theorem get_run_aux (a : Nat) (f : Nat → BitVec w) (x : Nat) : ∀ l : List Nat,
    get ((l.map (fun i => (a + i, f i))).filter (fun e => e.2 != 0)) x = if a ≤ x ∧ x - a ∈ l then f (x - a) else 0 := by
  intro l
  induction l with
  | nil => simp [get]
  | cons i l ih =>
    by_cases hx : a + i = x
    · have h1 : a ≤ x := by omega
      have h2 : x - a = i := by omega
      by_cases hf : f i = 0
      · simp only [List.map_cons, List.filter_cons, hf, bne_self_eq_false, Bool.false_eq_true, if_false, ih]
        simp only [h1, h2, true_and, List.mem_cons, true_or, if_true, hf]
        split <;> rfl
      · have hb : (f i != 0) = true := by simpa using hf
        simp only [List.map_cons, List.filter_cons, hb, if_true, get, if_pos hx, h1, h2, List.mem_cons, true_or, and_self]
    · have h2 : ¬ (a ≤ x ∧ x - a = i) := by omega
      by_cases hf : f i = 0
      · simp only [List.map_cons, List.filter_cons, hf, bne_self_eq_false, Bool.false_eq_true, if_false, ih, List.mem_cons]
        by_cases h1 : a ≤ x
        · have : ¬ x - a = i := fun h => h2 ⟨h1, h⟩
          simp [h1, this]
        · simp [h1]
      · have hb : (f i != 0) = true := by simpa using hf
        simp only [List.map_cons, List.filter_cons, hb, if_true, get, if_neg hx, ih, List.mem_cons]
        by_cases h1 : a ≤ x
        · have : ¬ x - a = i := fun h => h2 ⟨h1, h⟩
          simp [h1, this]
        · simp [h1]

/-- Reading after writing a run: the words of the run, and every other word as before. -/
theorem get_setRun (m : Sparse w) (a : Nat) (xs : List (BitVec w)) (x : Nat) :
    get (setRun m a xs) x = if a ≤ x ∧ x < a + xs.length then xs.getD (x - a) 0 else get m x := by
  unfold setRun
  have h1 := get_filter m (fun k => decide (k < a)) x
  have h3 := get_filter m (fun k => decide (a + xs.length ≤ k)) x
  have h2 := get_run_aux a (fun i => xs.getD i 0) x (List.range xs.length)
  rw [List.append_assoc, get_append, get_append, h1, h2, h3]
  simp only [List.mem_range]
  by_cases hlo : x < a
  · have e : ¬ (a ≤ x ∧ x < a + xs.length) := by omega
    simp only [hlo, decide_true, if_true, if_neg e]
    split
    · rfl
    · rename_i hn
      have hz : get m x = 0 := by
        have := get_of_not_any (m.filter (fun e => decide (e.1 < a))) x (Bool.eq_false_iff.mpr hn)
        rw [h1] at this; simpa [hlo] using this
      have n1 : ¬ (a ≤ x ∧ x - a < xs.length) := by omega
      have n2 : ¬ (a + xs.length ≤ x) := by omega
      simp [n1, n2, hz]
  · have ha : a ≤ x := by omega
    have hm : (m.filter (fun e => decide (e.1 < a))).any (fun e => e.1 == x) = false := by
      rw [List.any_eq_false]
      intro e he
      simp only [List.mem_filter, decide_eq_true_eq] at he
      simp only [beq_iff_eq]; omega
    rw [hm]
    simp only [Bool.false_eq_true, if_false]
    by_cases hi : x < a + xs.length
    · have e1 : a ≤ x ∧ x - a < xs.length := by omega
      simp only [ha, hi, true_and, if_true, if_pos e1.2]
      split
      · rfl
      · rename_i hn
        have hz := get_of_not_any _ x (Bool.eq_false_iff.mpr hn)
        have h2' := h2
        simp only [List.mem_range, ha, true_and, if_pos e1.2] at h2'
        rw [h2'] at hz
        have n2 : ¬ (a + xs.length ≤ x) := by omega
        rw [hz]; simp [n2]
    · have e : ¬ (x - a < xs.length) := by omega
      have hm2 : (((List.range xs.length).map (fun i => (a + i, xs.getD i 0))).filter (fun e => e.2 != 0)).any (fun e => e.1 == x) = false := by
        rw [List.any_eq_false]
        intro e he
        simp only [List.mem_filter, List.mem_map, List.mem_range] at he
        obtain ⟨⟨i, hi', rfl⟩, _⟩ := he
        simp only [beq_iff_eq]; omega
      rw [hm2]
      have h5 : a + xs.length ≤ x := by omega
      simp [hi, h5]

theorem get_set (m : Sparse w) (a x : Nat) (v : BitVec w) : get (set m a v) x = if x = a then v else get m x := by
  unfold set
  rw [get_setRun]
  by_cases h : x = a
  · subst h; simp
  · have : ¬ (a ≤ x ∧ x < a + [v].length) := by simp; omega
    rw [if_neg this, if_neg h]

theorem run_length (m : Sparse w) (a n : Nat) : (run m a n).length = n := by simp [run]

/-- A run read after it is written is what was written. -/
theorem run_setRun (m : Sparse w) (a : Nat) (xs : List (BitVec w)) : run (setRun m a xs) a xs.length = xs := by
  apply List.ext_getElem
  · simp [run]
  · intro i h1 h2
    simp [run, get_setRun, h2]

end Sys2Proof.Sparse

namespace Sys2Proof.Machine

/-- Every update keeps the canonical form of physical memory. -/
theorem Upd.apply_wf (u : Upd) {s : State} (h : Sparse.wf s.mem = true) : Sparse.wf (u.apply s).mem = true := by
  cases u
  case store p x blk slots role lane a bs => cases x <;> first | exact h | exact Sparse.wf_setRun h _ _
  case clearMem => rfl
  case clearDie d => exact Sparse.wf_filter h _
  case power f => rfl
  all_goals exact h

theorem Upd.store_readByte (p : Path) (blk : Nat) (slots : List Nat) (role : Bool) (lane : Option Nat) (pa : Nat) (bs : List Byte) (a : Nat) (s : State) :
    readByte ((Upd.store p .phys blk slots role lane pa bs).apply s) a = if pa ≤ a ∧ a < pa + bs.length then bs.getD (a - pa) 0 else readByte s a :=
  Sparse.get_setRun _ _ _ _

end Sys2Proof.Machine
end

