-- ==== Sys2Proof/Laws/Prog.lean ====
section
/-! SUPPORT. Laws of programs: the state after each way of building one, what holds after every program whose updates keep it, and what the shared operations of scalar instructions do. -/

namespace Sys2Proof.Machine

namespace Prog

@[simp] theorem final_ret (s : State) : Prog.ret.final s = s := rfl
@[simp] theorem final_get (k : State → Prog) (s : State) : (Prog.get k).final s = (k s).final s := rfl
@[simp] theorem final_upd (u : Upd) (k : Prog) (s : State) : (Prog.upd u k).final s = k.final (u.apply s) := rfl
@[simp] theorem run_eq (p : Prog) (s : State) : p.run s = .next (p.final s) := rfl
@[simp] theorem final_one (u : Upd) (s : State) : (Prog.one u).final s = u.apply s := rfl

@[simp] theorem final_seq (p q : Prog) (s : State) : (p.seq q).final s = q.final (p.final s) := by
  induction p generalizing s with
  | ret => rfl
  | get k ih => exact ih s s
  | upd u k ih => exact ih (u.apply s)

@[simp] theorem final_all_nil (s : State) : (Prog.all []).final s = s := rfl
@[simp] theorem final_all_cons (p : Prog) (ps : List Prog) (s : State) : (Prog.all (p :: ps)).final s = (Prog.all ps).final (p.final s) := by
  simp [Prog.all]
@[simp] theorem final_each_nil {α : Type} (f : α → Prog) (s : State) : (Prog.each [] f).final s = s := rfl
@[simp] theorem final_each_cons {α : Type} (x : α) (xs : List α) (f : α → Prog) (s : State) :
    (Prog.each (x :: xs) f).final s = (Prog.each xs f).final ((f x).final s) := by
  simp [Prog.each]
@[simp] theorem final_when_true (p : Prog) (s : State) : (Prog.when true p).final s = p.final s := rfl
@[simp] theorem final_when_false (p : Prog) (s : State) : (Prog.when false p).final s = s := rfl
theorem final_when (c : Bool) (p : Prog) (s : State) : (Prog.when c p).final s = if c then p.final s else s := by cases c <;> rfl

/-- Every update that a program can come to, from whatever states it reads, is of a kind. -/
def Within (K : Upd → Prop) : Prog → Prop
  | .ret => True
  | .get k => ∀ s, Within K (k s)
  | .upd u k => K u ∧ Within K k

/-- What every update of a kind keeps, from state to state, a program within that kind keeps. -/
theorem Within.keeps {K : Upd → Prop} {R : State → State → Prop} (refl : ∀ s, R s s) (trans : ∀ a b c, R a b → R b c → R a c)
    (step : ∀ u, K u → ∀ s, R s (u.apply s)) {p : Prog} (h : p.Within K) (s : State) : R s (p.final s) := by
  induction p generalizing s with
  | ret => exact refl s
  | get k ih => exact ih s (h s) s
  | upd u k ih => exact trans _ _ _ (step u h.1 s) (ih h.2 _)

/-- What every update keeps of a state, every program keeps. -/
theorem final_keeps {P : State → Prop} (step : ∀ (u : Upd) s, P s → P (u.apply s)) (p : Prog) {s : State} (h : P s) : P (p.final s) := by
  induction p generalizing s with
  | ret => exact h
  | get k ih => exact ih s h
  | upd u k ih => exact ih (step u s h)

section Closure
variable {K : Upd → Prop}

@[simp] theorem within_ret : Prog.ret.Within K := trivial
@[simp] theorem within_get (k : State → Prog) : (Prog.get k).Within K ↔ ∀ s, (k s).Within K := Iff.rfl
@[simp] theorem within_upd (u : Upd) (k : Prog) : (Prog.upd u k).Within K ↔ K u ∧ k.Within K := Iff.rfl
@[simp] theorem within_one (u : Upd) : (Prog.one u).Within K ↔ K u := by simp [Prog.one]

theorem within_seq {p q : Prog} (hp : p.Within K) (hq : q.Within K) : (p.seq q).Within K := by
  induction p with
  | ret => exact hq
  | get k ih => exact fun s => ih s (hp s)
  | upd u k ih => exact ⟨hp.1, ih hp.2⟩

theorem within_all {ps : List Prog} (h : ∀ p ∈ ps, p.Within K) : (Prog.all ps).Within K := by
  induction ps with
  | nil => trivial
  | cons p ps ih => exact within_seq (h p (by simp)) (ih (fun q hq => h q (by simp [hq])))

theorem within_each {α : Type} {xs : List α} {f : α → Prog} (h : ∀ x, (f x).Within K) : (Prog.each xs f).Within K :=
  within_all (fun p hp => by obtain ⟨x, _, rfl⟩ := List.mem_map.mp hp; exact h x)

theorem within_when {c : Bool} {p : Prog} (h : p.Within K) : (Prog.when c p).Within K := by cases c <;> [trivial; exact h]

theorem Within.mono {L : Upd → Prop} (h : ∀ u, K u → L u) {p : Prog} (hp : p.Within K) : p.Within L := by
  induction p with
  | ret => trivial
  | get k ih => exact fun s => ih s (hp s)
  | upd u k ih => exact ⟨h u hp.1, ih hp.2⟩

end Closure

end Prog

/-! ## Teams of a state -/

@[simp] theorem State.putTeam_team (s : State) (k j : Nat) (f : Team → Team) : (s.putTeam k f).team j = if j = k then f (s.team k) else s.team j :=
  State.team_put s k j _

@[simp] theorem State.putTeam_mem (s : State) (k : Nat) (f : Team → Team) : (s.putTeam k f).mem = s.mem := rfl
@[simp] theorem State.putTeam_hist (s : State) (k : Nat) (f : Team → Team) : (s.putTeam k f).hist = s.hist := rfl
@[simp] theorem State.putTeam_blocks (s : State) (k : Nat) (f : Team → Team) : (s.putTeam k f).blocks = s.blocks := rfl
@[simp] theorem State.putTeam_slots (s : State) (k : Nat) (f : Team → Team) : (s.putTeam k f).slots = s.slots := rfl
@[simp] theorem State.putTeam_cores (s : State) (k : Nat) (f : Team → Team) : (s.putTeam k f).cores = s.cores := rfl
@[simp] theorem State.putTeam_dies (s : State) (k : Nat) (f : Team → Team) : (s.putTeam k f).dies = s.dies := rfl
@[simp] theorem State.putTeam_launches (s : State) (k : Nat) (f : Team → Team) : (s.putTeam k f).launches = s.launches := rfl
@[simp] theorem State.putTeam_queues (s : State) (k : Nat) (f : Team → Team) : (s.putTeam k f).queues = s.queues := rfl
@[simp] theorem State.putTeam_ctxs (s : State) (k : Nat) (f : Team → Team) : (s.putTeam k f).ctxs = s.ctxs := rfl
@[simp] theorem State.putTeam_pkg (s : State) (k : Nat) (f : Team → Team) : (s.putTeam k f).pkg = s.pkg := rfl
@[simp] theorem State.putTeam_coh (s : State) (k : Nat) (f : Team → Team) : (s.putTeam k f).coh = s.coh := rfl
@[simp] theorem State.putTeam_seq (s : State) (k : Nat) (f : Team → Team) : (s.putTeam k f).seq = s.seq := rfl
@[simp] theorem State.putTeam_cur (s : State) (k : Nat) (f : Team → Team) : (s.putTeam k f).cur = s.cur := rfl
@[simp] theorem State.putTeam_curBlk (s : State) (k : Nat) (f : Team → Team) : (s.putTeam k f).curBlk = s.curBlk := rfl
@[simp] theorem State.putTeam_agenda (s : State) (k : Nat) (f : Team → Team) : (s.putTeam k f).agenda = s.agenda := rfl
@[simp] theorem State.putTeam_tick (s : State) (k : Nat) (f : Team → Team) : (s.putTeam k f).tick = s.tick := rfl
@[simp] theorem State.putTeam_clock (s : State) (k : Nat) (f : Team → Team) : (s.putTeam k f).clock = s.clock := rfl
@[simp] theorem State.putTeam_fresh (s : State) (k : Nat) (f : Team → Team) : (s.putTeam k f).fresh = s.fresh := rfl
@[simp] theorem State.putTeam_harts (s : State) (k : Nat) (f : Team → Team) : (s.putTeam k f).harts = s.harts := rfl
@[simp] theorem State.putTeam_writes (s : State) (k : Nat) (f : Team → Team) : (s.putTeam k f).writes = s.writes := rfl
@[simp] theorem State.putTeam_late (s : State) (k : Nat) (f : Team → Team) : (s.putTeam k f).late = s.late := rfl

theorem State.putTeam_putTeam (s : State) (k : Nat) (f g : Team → Team) : (s.putTeam k f).putTeam k g = s.putTeam k (fun t => g (f t)) := by
  simp [State.putTeam, State.team]

/-! ## Scalar instructions -/

/-- A scalar instruction that issues does what its body does. -/
theorem scalar_final {s : State} {u : Use} (h : s.issues u) (body : Team → Prog) : (scalar u body).final s = (body s.me).final s := by
  unfold State.issues State.me at h
  simp [scalar, onTeam, h, State.me]

/-- A scalar instruction that a lane result or a speculation holds back waits (R86, R272). -/
theorem scalar_waits {s : State} {u : Use} (h : s.me.mustWait u = true) (body : Team → Prog) : (scalar u body).final s = s.waits := by
  unfold State.me at h
  simp [scalar, onTeam, h, waitHere, setTeam, State.waits, State.putTeam, Upd.apply]

@[simp] theorem finish_final (u : Use) (f : Team → Team) (s : State) : (finish u f).final s = s.completed u f := rfl
@[simp] theorem finishAt_final (u : Use) (pc : W64) (f : Team → Team) (s : State) : (finishAt u pc f).final s = s.completedAt u pc f := rfl
@[simp] theorem waitHere_final (s : State) : waitHere.final s = s.waits := rfl
@[simp] theorem setTeam_final (f : Team → Team) (s : State) : (setTeam f).final s = s.putTeam s.cur f := rfl
@[simp] theorem noteIssued_final (s : State) : noteIssued.final s = s.issued := rfl

/-! ## What an issue leaves of its team -/

theorem Team.onlyIssue_refl (t : Team) : t.onlyIssue t := rfl

theorem Team.onlyIssue_trans {a b c : Team} (h : a.onlyIssue b) (k : b.onlyIssue c) : a.onlyIssue c := by
  unfold Team.onlyIssue at *
  rw [k, h]

theorem Team.onlyIssue_retire (t : Team) (u : Use) (a : W64) : t.onlyIssue (t.retire u a) := rfl

theorem Team.onlyIssue_setReg (t : Team) (r : GReg) (x : W64) : t.onlyIssue (t.setReg r x) := by
  unfold Team.setReg
  split <;> rfl

/-- A scalar instruction whose body completes: it waits, or it has completed. -/
theorem scalar_finish (s : State) (u : Use) (f : Team → Team) :
    (scalar u (fun _ => finish u f)).final s = if s.me.mustWait u then s.waits else s.completed u f := by
  by_cases h : s.me.mustWait u = true
  · rw [if_pos h, scalar_waits h]
  · rw [if_neg h]; exact scalar_final (by simpa [State.issues] using h) _

@[simp] theorem State.completed_team (s : State) (u : Use) (f : Team → Team) (j : Nat) :
    (s.completed u f).team j = if j = s.cur then (f s.me).retire u (s.me.pc + 4) else s.team j := by
  simp [State.completed, State.me]

@[simp] theorem State.waits_team (s : State) (j : Nat) : s.waits.team j = if j = s.cur then { s.me with waiting := true } else s.team j := by
  simp [State.waits, State.me]

theorem State.onlyTeam_putTeam (s : State) (f : Team → Team) : s.onlyTeam (s.putTeam s.cur f) := by
  simp [State.onlyTeam, State.putTeam, State.team]

end Sys2Proof.Machine
end

