-- ==== Sys2Proof/Laws/Store.lean ====
section
/-! SUPPORT. What a performed write can do: its bytes, and besides them only the memory order, the lines' states, the cores' L1s and the count of writes. -/

namespace Sys2Proof.Machine

/-- Two states agree on all but the memory order, the lines' states and the cores. -/
def State.caching (s t : State) : Prop := t = { s with hist := t.hist, coh := t.coh, cores := t.cores }

/-- Updates of the memory order and of the cores. -/
def Upd.caches : Upd → Prop
  | .hist _ | .core _ _ => True
  | _ => False

theorem Upd.caches_caching {u : Upd} (h : u.caches) (s : State) : s.caching (u.apply s) := by
  cases u <;> first | rfl | exact h.elim

theorem State.caching_trans (a b c : State) (h : a.caching b) (k : b.caching c) : a.caching c := by
  unfold State.caching at *
  rw [k, h]

theorem caching_final {p : Prog} (h : p.Within Upd.caches) (s : State) : s.caching (p.final s) :=
  h.keeps (R := State.caching) (fun _ => rfl) State.caching_trans (fun _ hu s => Upd.caches_caching hu s) s

theorem release_within (w : Writer) : w.release.Within Upd.caches := by
  have h (p : Path) : (noteRelease p).Within Upd.caches := fun s => Prog.within_when (by simp [Upd.caches])
  unfold Writer.release
  repeat' split
  all_goals first | trivial | exact h _ | exact Prog.within_seq (h _) (h _)

theorem ownWords_within (p : Path) (pa n : Nat) : (ownWords p pa n).Within Upd.caches := by
  intro s
  refine Prog.within_all (fun q hq => ?_)
  simp only [List.mem_cons, List.not_mem_nil, or_false] at hq
  rcases hq with rfl | rfl
  · exact Prog.within_each (fun _ => by simp [Upd.caches])
  · unfold throughL1
    split
    · exact Prog.within_when (by simp [Upd.caches])
    · trivial

/-- A performed write to physical memory stores its bytes, counts, and otherwise touches only the memory order, the lines and the cores. -/
theorem performWrite_final (w : Writer) (pa : Nat) (bs : List Byte) (s : State) :
    ∃ hs co cs n, (performWrite w .phys pa bs).final s = { s with mem := Sparse.setRun s.mem pa bs, hist := hs, coh := co, cores := cs, writes := n } := by
  have h1 := caching_final (release_within w) s
  have h2 := caching_final (ownWords_within w.path pa bs.length) ((Upd.store w.path .phys w.blk w.slots w.role w.lane pa bs).apply (w.release.final s))
  simp only [performWrite, Prog.final_all_cons, Prog.final_all_nil, Prog.final_one, if_true]
  unfold State.caching at h1 h2
  generalize ha : w.release.final s = a at *
  generalize (ownWords w.path pa bs.length).final _ = c at *
  rw [h2]
  subst ha
  rw [h1]
  exact ⟨_, _, _, _, rfl⟩

/-- What a store of an agent of the device leaves: its bytes in memory, and all but the caches and the memory order as it was. -/
theorem storedBy_eq (s : State) (p : Path) (role : Bool) (pa : Nat) (bs : List Byte) :
    ∃ hs co cs n, s.storedBy p role pa bs = { s with mem := Sparse.setRun s.mem pa bs, hist := hs, coh := co, cores := cs, writes := n } :=
  let ⟨hs, co, cs, n, h⟩ := performWrite_final { path := p, role := role } pa bs (s.having p (linesOf [(pa, bs.length)]))
  ⟨hs, co, cs, n, h⟩

@[simp] theorem storedBy_mem (s : State) (p : Path) (role : Bool) (pa : Nat) (bs : List Byte) : (s.storedBy p role pa bs).mem = Sparse.setRun s.mem pa bs := by
  obtain ⟨_, _, _, _, h⟩ := storedBy_eq s p role pa bs; rw [h]
@[simp] theorem storedBy_teams (s : State) (p : Path) (role : Bool) (pa : Nat) (bs : List Byte) : (s.storedBy p role pa bs).teams = s.teams := by
  obtain ⟨_, _, _, _, h⟩ := storedBy_eq s p role pa bs; rw [h]
@[simp] theorem storedBy_blocks (s : State) (p : Path) (role : Bool) (pa : Nat) (bs : List Byte) : (s.storedBy p role pa bs).blocks = s.blocks := by
  obtain ⟨_, _, _, _, h⟩ := storedBy_eq s p role pa bs; rw [h]
@[simp] theorem storedBy_slots (s : State) (p : Path) (role : Bool) (pa : Nat) (bs : List Byte) : (s.storedBy p role pa bs).slots = s.slots := by
  obtain ⟨_, _, _, _, h⟩ := storedBy_eq s p role pa bs; rw [h]
@[simp] theorem storedBy_launches (s : State) (p : Path) (role : Bool) (pa : Nat) (bs : List Byte) : (s.storedBy p role pa bs).launches = s.launches := by
  obtain ⟨_, _, _, _, h⟩ := storedBy_eq s p role pa bs; rw [h]
@[simp] theorem storedBy_queues (s : State) (p : Path) (role : Bool) (pa : Nat) (bs : List Byte) : (s.storedBy p role pa bs).queues = s.queues := by
  obtain ⟨_, _, _, _, h⟩ := storedBy_eq s p role pa bs; rw [h]
@[simp] theorem storedBy_ctxs (s : State) (p : Path) (role : Bool) (pa : Nat) (bs : List Byte) : (s.storedBy p role pa bs).ctxs = s.ctxs := by
  obtain ⟨_, _, _, _, h⟩ := storedBy_eq s p role pa bs; rw [h]
@[simp] theorem storedBy_dies (s : State) (p : Path) (role : Bool) (pa : Nat) (bs : List Byte) : (s.storedBy p role pa bs).dies = s.dies := by
  obtain ⟨_, _, _, _, h⟩ := storedBy_eq s p role pa bs; rw [h]
@[simp] theorem storedBy_harts (s : State) (p : Path) (role : Bool) (pa : Nat) (bs : List Byte) : (s.storedBy p role pa bs).harts = s.harts := by
  obtain ⟨_, _, _, _, h⟩ := storedBy_eq s p role pa bs; rw [h]
@[simp] theorem storedBy_pkg (s : State) (p : Path) (role : Bool) (pa : Nat) (bs : List Byte) : (s.storedBy p role pa bs).pkg = s.pkg := by
  obtain ⟨_, _, _, _, h⟩ := storedBy_eq s p role pa bs; rw [h]
@[simp] theorem storedBy_seq (s : State) (p : Path) (role : Bool) (pa : Nat) (bs : List Byte) : (s.storedBy p role pa bs).seq = s.seq := by
  obtain ⟨_, _, _, _, h⟩ := storedBy_eq s p role pa bs; rw [h]
@[simp] theorem storedBy_fresh (s : State) (p : Path) (role : Bool) (pa : Nat) (bs : List Byte) : (s.storedBy p role pa bs).fresh = s.fresh := by
  obtain ⟨_, _, _, _, h⟩ := storedBy_eq s p role pa bs; rw [h]

/-- The bytes stored are read back, and every other byte reads as before. -/
theorem storedBy_readByte (s : State) (p : Path) (role : Bool) (pa : Nat) (bs : List Byte) (a : Nat) :
    readByte (s.storedBy p role pa bs) a = if pa ≤ a ∧ a < pa + bs.length then bs.getD (a - pa) 0 else readByte s a := by
  simp only [readByte, storedBy_mem]
  exact Sparse.get_setRun _ _ _ _

end Sys2Proof.Machine
end

