-- ==== Sys2Proof/Laws/Trap.lean ====
section
/-! SUPPORT. What taking a trap does (R320, R321), for a team that can take one, and what a scalar instruction that raises one leaves. -/

namespace Sys2Proof.Machine

@[simp] theorem team_update (k : Nat) (f : Team → Team) (s : State) : (Upd.team k f).apply s = s.putTeam k f := rfl

/-- Taking out what is not there changes nothing. -/
theorem filter_none {α : Type} {p : α → Bool} {xs : List α} (h : xs.any p = false) : xs.filter (fun x => !p x) = xs := by
  simp only [List.any_eq_false] at h
  exact List.filter_eq_self.mpr (fun x hx => by simp [h x hx])

@[simp] theorem State.unasked_team (s : State) (k j : Nat) : (s.unasked k).team j = s.team j := rfl

/-- A team that waits at no SYWB only stops waiting, and leaves its home (R232). -/
theorem endWait_final {s : State} {k : Nat} (h : (s.team k).sywb = none) :
    (endWait k).final s = (s.unasked k).putTeam k (fun m => { m with waiting := false, sywb := none, faultAt := none, migr := none, captured := none }) := by
  have e1 : (Prog.when (s.pkg.stalled.any (fun e => e.rmw && e.path == .team k && e.lane.isNone)) (.one (.pkg (fun g =>
      { g with stalled := g.stalled.filter (fun e => !(e.rmw && e.path == .team k && e.lane.isNone)) })))).final s
      = { s with pkg := { s.pkg with stalled := s.pkg.stalled.filter (fun e => !(e.rmw && e.path == .team k && e.lane.isNone)) } } := by
    cases hc : s.pkg.stalled.any (fun e => e.rmw && e.path == .team k && e.lane.isNone) with
    | false => simp only [Prog.final_when_false, filter_none hc]
    | true => rfl
  have e2 : ∀ t : State, (Prog.when (s.coh.wants.any (fun w => w.path == .team k)) (.one (.coh (fun c =>
      { c with wants := c.wants.filter (fun w => w.path != .team k) })))).final { t with coh := s.coh }
      = { t with coh := { s.coh with wants := s.coh.wants.filter (fun w => w.path != .team k) } } := by
    intro t
    cases hc : s.coh.wants.any (fun w => w.path == .team k) with
    | false =>
      simp only [Prog.final_when_false]
      have := filter_none hc
      simp only [bne]
      rw [this]
    | true => rfl
  simp only [endWait, Prog.final_get, Prog.final_all_cons, Prog.final_all_nil, h, Prog.final_ret, Prog.final_one, team_update]
  rw [e1]
  exact congrArg (fun t => State.putTeam t k _)
    (e2 { s with pkg := { s.pkg with stalled := s.pkg.stalled.filter (fun e => !(e.rmw && e.path == .team k && e.lane.isNone)) } })

/-- Without a speculation there is none to drop. -/
theorem dropSpec_none {s : State} {k : Nat} (h : (s.team k).spec = none) (f : Spec → W64) : (dropSpec k f).final s = s := by
  simp [dropSpec, h]

/-- A cause that a team can take: the team's trap registers and PC, and nothing else. -/
theorem takeTrap_final {s : State} {k : Nat} (h : (s.team k).canTrap) (c : Nat) (v tpc : W64) :
    (takeTrap k c v tpc false false).final s = (s.unasked k).putTeam k (fun m => m.trapped c v tpc) := by
  obtain ⟨h1, h2, h3, h4, h5⟩ := h
  have h2' : ¬(s.team k).thandler = 0#64 := h2
  simp [takeTrap, h1, h2', h3, h4, h5, endWait_final h5, dropSpec_none, State.putTeam_putTeam, Team.trapped]

/-- The cursor of a team that has issued an instruction, and its trap registers, are as before. -/
theorem issued_canTrap {s : State} (h : s.me.canTrap) : (s.issued.team s.issued.cur).canTrap := by
  simpa [State.issued, Team.canTrap, State.me] using h

theorem trapHere_final {s : State} (h : s.me.canTrap) (c : Nat) (v : W64) : (trapHere c v).final s = s.traps c v := by
  have := issued_canTrap h
  simp only [trapHere, Prog.final_seq, noteIssued_final, Prog.final_get]
  rw [takeTrap_final this]
  simp [State.traps, State.trapsAt, State.issued, State.me]

theorem illegal_final {s : State} (h : s.me.canTrap) : illegal.final s = s.traps 0x01 s.me.pc := by
  simp only [illegal, onTeam, Prog.final_get]; exact trapHere_final h _ _

theorem privileged_final {s : State} (h : s.me.canTrap) : privileged.final s = s.traps 0x02 s.me.pc := by
  simp only [privileged, onTeam, Prog.final_get]; exact trapHere_final h _ _

theorem trapOrWait_final {s : State} (h : s.me.canTrap) (c : Nat) (v : W64) : (trapOrWait c v).final s = s.traps c v := by
  have h4 : (s.team s.cur).spec = none := h.2.2.2.1
  simp only [trapOrWait, onTeam, Prog.final_get, h4]; exact trapHere_final h _ _

end Sys2Proof.Machine
end

