-- ==== Sys2Proof/Tests/Slice0.lean ====
section
/-! SUPPORT. Tests against words, tables and examples that the spec works out, and a witness of the hypotheses of each statement. -/

namespace Sys2Proof.Tests

-- one test at a time: tests checked side by side take a thread each
set_option Elab.async false

open Sys2Proof Sys2Proof.Machine


/-! ## Well-formedness and decoding -/

/-- A lane instruction with every field zero. -/
def lane0 : LaneOps :=
  { ty := 0, vd := 0, va := 0, srcb := 0, vb := 0, vc := 0, pen := false, pneg := false, pidx := 0, look := 0, rm := 0, sat := false, mode := 0, imm := 0 }

/-- A copy entry with every field zero. -/
def copy0 : CopyOps :=
  { dsp := 0, ssp := 0, kind := 0, notify := false, order := false, slot := 0, rm := 0, sfmt := 0, dfmt := 0, src := 0, dst := 0, xext := 0, yext := 0, spitch := 0,
    zext := 0, w7 := 0 }

/-- R175: a store of a natural size; R83: a format that the opcode does not take, a source of B that none gives, an odd pair, a field that the opcode does not use, SAT and RM where they are not taken, a guard number without a guard, and lookahead on a short opcode. -/
theorem test_wellFormed_refusals :
    WellFormed (.st 1 2 .n32 false 0) = false ∧ WellFormed (.stRel 1 2 .n8 false 0) = false
    ∧ WellFormed (.iadd { lane0 with ty := 8 }) = false ∧ WellFormed (.iadd { lane0 with ty := 15 }) = false ∧ WellFormed (.iadd { lane0 with srcb := 3 }) = false
    ∧ WellFormed (.iadd { lane0 with ty := 6, vd := 1 }) = false ∧ WellFormed (.iadd { lane0 with vc := 1 }) = false
    ∧ WellFormed (.vAnd { lane0 with ty := 1, sat := true }) = false ∧ WellFormed (.iadd { lane0 with rm := 1 }) = false
    ∧ WellFormed (.iadd { lane0 with pidx := 1 }) = false ∧ WellFormed (.iadd { lane0 with look := 1 }) = false ∧ WellFormed (.iadd { lane0 with imm := 1 }) = false
    ∧ WellFormed (.iadd lane0) = true := by decide +kernel

/-- Scalar words of the spec's encodings (R71 to R81), one or more for each family. -/
theorem test_decode_integer :
    decodeScalar 0x04618540 = .ok (.add 6 6 5 true) ∧ decodeScalar 0x05450700 = .ok (.add 20 20 7 false) ∧ decodeScalar 0x08500000 = .ok (.addi 5 0 0)
    ∧ decodeScalar 0x1851A804 = .ok (.srai 5 6 true 4) ∧ decodeScalar 0x2050007F = .ok (.lix 5 0x7F) := by decide +kernel
theorem test_decode_float :
    decodeScalar 0x32AAEC80 = .ok (.fadd 42 43 44 true .rne) ∧ decodeScalar 0x305A002E = .ok (.fcvtI 5 40 false .rz)
    ∧ decodeScalar 0x3055002E = .ok (.fcvtI 5 20 false .rz) ∧ decodeScalar 0x368A6A60 = .ok (.ffma 40 41 42 false .ru) := by decide +kernel
theorem test_decode_control :
    decodeScalar 0x60851FFE = .ok (.b .lt 5 7 (-2)) ∧ decodeScalar 0x640903FF = .ok (.bz 9 (-1)) ∧ decodeScalar 0x64450004 = .ok (.bnz 5 4)
    ∧ decodeScalar 0x80000300 = .ok (.msplit 3) ∧ decodeScalar 0x80000001 = .ok .melse ∧ decodeScalar 0x80000002 = .ok .mjoin
    ∧ decodeScalar 0x80508003 = .ok (.mrd 5 2) ∧ decodeScalar 0x80118004 = .ok (.mwr 1 6) ∧ decodeScalar 0x80600005 = .ok (.mcnt 6) := by decide +kernel
theorem test_decode_memory :
    decodeScalar 0x4052B000 = .ok (.ld 5 10 .d64 false 0) ∧ decodeScalar 0x4471A000 = .ok (.st 7 6 .i32 false 0)
    ∧ decodeScalar 0x4C81A010 = .ok (.stRel 8 6 .i32 false 16) ∧ decodeScalar 0x4891A810 = .ok (.ldAcq 9 6 .n32 false 16) := by decide +kernel
theorem test_decode_issue_and_system :
    decodeScalar 0x88800000 = .ok (.lx 2 0) ∧ decodeScalar 0x89000000 = .ok (.lx 4 0) ∧ decodeScalar 0x8D01C000 = .ok (.qset 1 7) ∧ decodeScalar 0x90000003 = .ok (.waitl 3)
    ∧ decodeScalar 0xC0700005 = .ok (.sywb 7 0) ∧ decodeScalar 0xCC000000 = .ok .syscall ∧ decodeScalar 0xCC014001 = .ok (.trap 5) ∧ decodeScalar 0xCC000002 = .ok .bkpt
    ∧ decodeScalar 0xCC000004 = .ok .exit ∧ decodeScalar 0xCC000007 = .ok .eret ∧ decodeScalar 0xCC014608 = .ok (.tlbinv 5 6) ∧ decodeScalar 0xCC000009 = .ok .cflush := by decide +kernel
/-- Major 0x2C and 0x28 to 0x2F by R73 and the formats of R79. -/
theorem test_decode_matrix :
    decodeScalar 0xA0014000 = .ok (.obres 0 5) ∧ decodeScalar 0xA4300000 = .ok (.obrel 3) ∧ decodeScalar 0xA8214000 = .ok (.panel 2 5)
    ∧ decodeScalar 0xB8500000 = .ok (.mcommit 5) ∧ decodeScalar 0xBC014000 = .ok (.mwait 5) := by decide +kernel
/-- The words of the team-wide sum (chapter 07) and a copy opcode. -/
theorem test_decode_lane_and_copy :
    decodeLane (laneOfWords 0x05040400 0 0) = .ok (.laneid { lane0 with ty := 1, vd := 1 })
    ∧ decodeLane (laneOfWords 0x30200804 1 0) = .ok (.cvt { lane0 with ty := 8, vd := 2, va := 1, mode := 1 })
    ∧ decodeLane (laneOfWords 0x40C00C04 0 0) = .ok (.scan { lane0 with ty := 0, vd := 3, va := 1 })
    ∧ decodeLane (laneOfWords 0x40A05008 0 0) = .ok (.reduce { lane0 with ty := 8, vd := 20, va := 2 })
    ∧ decodeCopy 0x0A000000 = .ok (.cSignal copy0) := by decide +kernel
/-- R72 and the unlisted codes of R73 to R81 are ILLEGAL. -/
theorem test_decode_illegal :
    decodeScalar 0 = .error .opcode ∧ decodeScalar 0xFFFFFFFF = .error .opcode ∧ decodeScalar 0xCC000006 = .error .function ∧ decodeScalar 0xCC100000 = .error .unused
    ∧ decodeScalar 0x4471A800 = .error .function ∧ decodeScalar 0x18000040 = .error .unused ∧ decodeScalar 0x18003000 = .error .function
    ∧ decodeLane (laneOfWords 0x05040401 0 0) = .error .laneField ∧ decodeCopy 0x0C000000 = .error .opcode := by decide +kernel

/-! ## Arithmetic that the spec works out -/

/-- The small state that the tests begin with: one 32-lane team, with a handler at 0x1000, its PC at 0x40. -/
def base : State := ({ State.reset.withTeam with cur := hostTeam }).putTeam hostTeam (fun t => { t with thandler := 0x1000, pc := 0x40 })

/-- The same with two registers. -/
def regs (x y : W64) : State := base.putTeam hostTeam (fun t => (t.setReg 6 x).setReg 7 y)

/-- The register 5 that an instruction leaves. -/
def gives (i : Instr) (s : State) (x : W64) : Bool :=
  match Machine.exec i s with
  | .next t => (t.team hostTeam).reg 5 == x && (t.team hostTeam).pc == 0x44
  | _ => false

/-- The table of R94. -/
theorem test_divide_corners :
    gives (.divI 5 6 7 true) (regs 7 (-2)) (-3) ∧ gives (.remI 5 6 7 true) (regs (-7) 2) (-1) ∧ gives (.divI 5 6 7 true) (regs 5 0) (-1) ∧ gives (.remI 5 6 7 true) (regs 5 0) 5
    ∧ gives (.divI 5 6 7 false) (regs 0x80000000 0xFFFFFFFF) 0xFFFFFFFF80000000 ∧ gives (.remI 5 6 7 false) (regs 0x80000000 0xFFFFFFFF) 0
    ∧ gives (.divN 5 6 7 false) (regs 0xFFFFFFFF 1) (-1) := by decide +kernel
theorem test_integer_table :
    gives (.add 5 6 7 false) (regs 0x7FFFFFFF 1) 0xFFFFFFFF80000000 ∧ gives (.shl 5 6 7 false) (regs 1 33) 2 ∧ gives (.rol 5 6 7 true) (regs 0x8000000000000001 1) 3
    ∧ gives (.mulhN 5 6 7 true) (regs 0x8000000000000000 4) 2 ∧ gives (.mulhI 5 6 7 true) (regs 0x8000000000000000 4) 0xFFFFFFFFFFFFFFFE
    ∧ gives (.minN 5 6 7 false) (regs 0xFFFFFFFF 1) 1 ∧ gives (.minI 5 6 7 false) (regs 0xFFFFFFFF 1) (-1)
    ∧ gives (.popc 5 6 false) (regs 0xFFFFFFFF0000000F 0) 4 ∧ gives (.clz 5 6 true) (regs 0 0) 64 ∧ gives (.ctz 5 6 false) (regs 0 0) 32 := by decide +kernel
/-- The example of R99. -/
theorem test_cmp : gives (.cmp 5 6 7 false .ltn) (regs 0xFFFFFFFF 1) 0 ∧ gives (.cmp 5 6 7 false .lt) (regs 0xFFFFFFFF 1) 1 := by decide +kernel

/-! ## The term array -/

/-- The table of R245. -/
theorem test_term_counts :
    (List.range 8).map (fun f => (recode (Fp.e4m3.decode (8 + f))).count) = [1, 2, 2, 3, 2, 3, 2, 2]
    ∧ (List.range 8).map (fun f => (recode (Fp.e4m3.decode f)).count) = [0, 1, 1, 2, 1, 2, 2, 2]
    ∧ (List.range 4).map (fun f => (recode (Fp.e5m2.decode (4 + f))).count) = [1, 2, 2, 2] ∧ (List.range 4).map (fun f => (recode (Fp.e5m2.decode f)).count) = [0, 1, 1, 2]
    ∧ (recode (Fp.ofInt (-128))).count = 1 ∧ (recode (Fp.ofInt 85)).count = 4 := by decide +kernel

/-- The products of the example of R251 and R252: e4m3 weights 16, 1, 16, 1 with these bf16 elements. -/
def chunkExample (a b c d : Nat) : Nat :=
  (chunkValue ((List.zip [0x58, 0x38, 0x58, 0x38] [a, b, c, d]).flatMap (fun x => partsOf (recode (Fp.e4m3.decode x.1)) (Fp.bf16.decode x.2)))).bits
theorem test_chunk_cases :
    chunkExample 0x4980 0x3F80 0xC980 0 = 0x3F800000 ∧ chunkExample 0x4980 0 0xC980 0x2180 = 0 ∧ chunkExample 0 0 0 0x2180 = 0x21800000 := by decide +kernel

/-! ## Witnesses of the statements' hypotheses -/

/-- The same small state with memory mapped onto itself by one leaf at the top level of its page table at 0x2000: readable, writable and executable by the Darion. -/
def paged : State :=
  { base.putCtx 1 (fun c => { c with root := 0x2000 }) with mem := Sparse.setRun [] 0x2000 (leBytes 8 0x00800000000000DF) }

/-- What a plan or another partial answer gives, tested. -/
def okAnd {ε α : Type} (x : Except ε α) (p : α → Bool) : Bool := match x with | .ok a => p a | .error _ => false

theorem witness_encodings :
    encodeScalar (.add 6 6 5 true) = some 0x04618540 ∧ WellFormed (.add 6 6 5 true) = true ∧ encodeLane (.laneid { lane0 with ty := 1, vd := 1 }) = some 0x050404000000000000000000
    ∧ WellFormed (.laneid { lane0 with ty := 1, vd := 1 }) = true ∧ encodeCopy (.cSignal copy0) = some 0x0A000000 := by decide +kernel
theorem witness_integer : base.issues (use2 5 6 7) ∧ base.issues (use1 5 6) ∧ base.me.canTrap := by decide +kernel
/-- Words of majors 2 to 8, SHI with each operation and with each of its illegal fields, and CMP with a listed, a wide and an unlisted condition. -/
theorem witness_immediates :
    (fld (0x08500000 : W32) 26 6).toNat = 2 ∧ (fld (0x0C500000 : W32) 26 6).toNat = 3 ∧ (fld (0x10500000 : W32) 26 6).toNat = 4 ∧ (fld (0x14500000 : W32) 26 6).toNat = 5
    ∧ (fld (0x1851A804 : W32) 26 6).toNat = 6 ∧ fld (0x1851A804 : W32) 6 5 = 0 ∧ fld (0x1851A804 : W32) 12 2 = 2 ∧ fld (0x18500000 : W32) 12 2 = 0 ∧ fld (0x18501000 : W32) 12 2 = 1
    ∧ fld (0x18003000 : W32) 12 2 = 3 ∧ fld (0x18000040 : W32) 6 5 ≠ 0 ∧ (fld (0x1C500001 : W32) 26 6).toNat = 7 ∧ (fld (0x2050007F : W32) 26 6).toNat = 8
    ∧ (fld (0x28518700 : W32) 26 6).toNat = 0x0A ∧ fld (0x28518700 : W32) 7 1 = 0 ∧ (fld (0x28518705 : W32) 0 6).toNat = Cond.gen.code
    ∧ fld (0x28518780 : W32) 7 1 = 1 ∧ 6 ≤ (fld (0x28518706 : W32) 0 6).toNat := by decide +kernel
theorem witness_quiet : ∀ x ∈ (base.launchOf base.cur).thr, x = 0 := fun _ h => List.eq_of_mem_replicate h
theorem witness_frames :
    integerDest (.add 5 6 7 true) = some 5 ∧ fpDest (.fadd 5 6 7 true .rne) = some 5
    ∧ gives (.add 5 6 7 true) (regs 2 3) 5 = true
    ∧ (Fp.deliver Fp.f64 .rne (Fp.add .rne (Fp.f64.decode 0x3FF0000000000000) (Fp.f64.decode 0x4000000000000000))).bits = 0x4008000000000000 := by decide +kernel
/-- A quiet and a signalling NaN, infinities of both signs, zeros and a negative number, as f64 and as f32. -/
theorem witness_invalid :
    nanBits Fp.f64 0x7FF8000000000000 = true ∧ nanBits Fp.f64 0xFFF0000000000001 = true ∧ nanBits Fp.f32 0x7F800001 = true
    ∧ magBits Fp.f64 0xFFF0000000000000 = (2 ^ 11 - 1) * 2 ^ 52 ∧ Fp.f64.signBit 0xFFF0000000000000 ≠ Fp.f64.signBit 0x7FF0000000000000
    ∧ magBits Fp.f32 0x80000000 = 0 ∧ Fp.f32.signBit 0xBF800000 = true ∧ magBits Fp.f32 0xBF800000 ≠ 0
    ∧ (regs 0x7FF8000000000000 0xFFF0000000000000).issues (use2 5 6 7) := by decide +kernel
/-- Loads and stores of global and of local memory, each aligned and with a misaligned address. -/
theorem witness_memory :
    okAnd (accessPlan paged hostTeam false .read (memAddress paged.me 0 .i32 4) 4) (fun p => !readStalls paged paged.path p.phys) = true
    ∧ okAnd (accessPlan paged hostTeam true .read (memAddress paged.me 0 .d64 1) 8) (fun p => !readStalls paged paged.path p.phys) = true
    ∧ paged.issues (useLoad 5 0 true) ∧ paged.issues (useLoad 5 0 false) ∧ paged.issues (useStore 5 0) ∧ (memAddress paged.me 0 .i32 4).toNat % 4 = 0
    ∧ okAnd (accessPlan paged hostTeam false .write (memAddress paged.me 0 .i32 4) 4) (fun _ => true) = true ∧ pathStalls paged paged.path = false
    ∧ (regs 0x11 0).me.canTrap ∧ (memAddress (regs 0x11 0).me 6 .i32 0).toNat % 4 ≠ 0 ∧ (regs 0x11 0).issues (use2 5 6 7) ∧ paged.hist = [] := by decide +kernel
theorem witness_atomics :
    let s := paged.putTeam hostTeam (fun t => t.setReg 6 0x5000)
    s.issues (use2 5 6 7) ∧ s.me.spec = none ∧ (s.me.reg 6).toNat % 8 = 0 ∧ pathStalls s s.path = false
    ∧ okAnd (accessPlan s s.cur false .write (s.me.reg 6) 8) (fun p => !planLocked s p) = true ∧ okAnd (accessPlan s s.cur true .write 0x3FFC 4) (fun p => !planLocked s p) = true := by decide +kernel

/-! ## Witnesses: for each statement, states and operands that meet its hypotheses together -/

/-- States that differ from `paged` in the team, its block, its launch, its core, its context or the package. -/
def teamed (f : Team → Team) : State := paged.putTeam hostTeam f
def blocked (f : Block → Block) : State := { paged with blocks := paged.blocks.put 1 (f (paged.block 1)) }
def launched (f : Launch → Launch) (s : State) : State := { s with launches := s.launches.put 1 (f (s.launch 1)) }
def cored (f : Core → Core) (s : State) : State := { s with cores := s.cores.put 1 (f (s.core 1)) }
/-- Die 0 and the switch hold these lines in M. -/
def owning (ls : List Nat) (s : State) : State :=
  { s with coh := { s.coh with l2 := ls.flatMap (fun l => [(8 * l, (LineState.m, (0 : BitVec 4))), (8 * l + 4, (LineState.m, 0))]) } }
def owns (s : State) (d : Nat) (ls : List Nat) : Bool := ls.all (fun l => match s.coh.held l d with | some (.m, _) => true | _ => false)
theorem holds_of_owns {s : State} {p : Path} {d : Nat} {ls : List Nat} {use : LineUse} (hd : pathDie s p = d) (h : owns s d ls = true) : s.holds p use ls := by
  intro l hl
  have h' := List.all_eq_true.mp h l hl
  revert h'
  unfold Coh.has
  rw [hd]
  rcases s.coh.held l d with _ | ⟨_ | _ | _ | _, k⟩ <;> simp

/-- An overlay of one scalar word and one lane instruction. -/
def overlay (w : W96) : Overlay :=
  { asid := 1, base := 0, slen := 4, lcount := 1, valid := true, loading := false, used := 0
    words := [(4, w.extractLsb' 64 32), (5, w.extractLsb' 32 32), (6, w.extractLsb' 0 32)] }

/-- An integer branch with equal and with unequal registers, the zero and the non-zero one, an empty and a full mask. -/
theorem witness_branches :
    base.issues { spec := true } ∧ base.issues { writes := [1], spec := true } ∧ base.issues (use1 5 6) ∧ (regs 5 7).me.reg 6 ≠ (regs 5 7).me.reg 7
    ∧ base.me.reg 6 = base.me.reg 7 ∧ base.me.reg 6 = 0 ∧ base.me.m = base.me.present ∧ (teamed (fun t => { t with m := 0 })).me.m = 0 := by decide +kernel
/-- Targets that are misaligned, not canonical, in a loaded overlay, on a Darion page, on a RISC-V page with and without landing threads, and on no page. -/
theorem witness_transfers :
    (0x41 : W64).toNat % 4 ≠ 0 ∧ canonical (0x0100000000000000 : W64) = false ∧ (0x5000 : W64).toNat % 4 = 0 ∧ canonical (0x5000 : W64) = true
    ∧ paged.me.canTrap ∧ (teamed (fun t => { t with spec := none })).me.spec = none
    ∧ (slotOf? (cored (fun c => { c with slots := c.slots.set 0 (overlay 0) }) paged) hostTeam 0).isSome = true
    ∧ (slotOf? paged hostTeam 0x5000).isSome = false ∧ loadingHit paged hostTeam 0x5000 = false ∧ inOverlay0 paged hostTeam 0x5000 = false
    ∧ pageTag paged (paged.spaceOf hostTeam) 0x5000 = some 2 ∧ pageTag base (base.spaceOf hostTeam) 0x5000 = none
    ∧ (let s := { paged with mem := Sparse.setRun [] 0x2000 (leBytes 8 0x00400000000000DF) }
       pageTag s (s.spaceOf hostTeam) 0x5000 = some 1 ∧ (s.ctxOf s.cur).threads = 0 ∧ ((s.putCtx 1 (fun c => { c with threads := 1 })).ctxOf hostTeam).threads ≠ 0) := by decide +kernel
theorem witness_speculation :
    let s := teamed (fun t => { t with await := [6] })
    s.issues { spec := true } ∧ s.me.awaits 5 6 = true ∧ s.me.awaits 5 7 = false ∧ s.me.spec = none ∧ checkTarget s s.cur (s.me.pc + 8) = .good
    ∧ (s.putTeam hostTeam (fun t => { t with spec := some { pc := 0, g := t.g, q := t.q, cond := .eq, a := 6, b := 7, hint := false, other := 0, count := 0, events := [], terms := [], panels := [], tiles := [], full := false } })).me.spec ≠ none := by decide +kernel
/-- A mask stack that is empty, one with an entry and one that is full, and a team with a batch outstanding. -/
theorem witness_mask :
    let b : Batch := { order := 0, lx := 0, base := 0, idx := 0, left := [], q := Vector.replicate 4 0, m := 1, gw := [], skips := 0 }
    paged.me.lanes = [] ∧ paged.issues {} ∧ paged.issues { writes := [5] } ∧ paged.issues { reads := [6] } ∧ paged.issues { writes := [5], spec := true } ∧ paged.me.stack = []
    ∧ (teamed (fun t => { t with stack := [(1, 2)] })).me.stack = [(1, 2)] ∧ (teamed (fun t => { t with stack := List.replicate 16 (1, 2) })).me.stack.length = 16
    ∧ (teamed (fun t => { t with stack := List.replicate 16 (1, 2) })).me.canTrap ∧ (teamed (fun t => { t with lanes := [b] })).me.lanes ≠ []
    ∧ (teamed (fun t => { t with lanes := [b] })).issues { writes := [5] } := by decide +kernel
/-- An LX with its run in its overlay, one past the end of it, one whose instruction breaks R83, an empty mask, and full and held queues. -/
theorem witness_laneIssue :
    let s := fun (w : W96) (f : Team → Team) => cored (fun c => { c with slots := c.slots.set 0 (overlay w) }) (teamed (fun t => f { t with pc := 0 }))
    let run := fun (w : W96) => decodeRun (laneEnv (s w id) hostTeam) (overlay w) 0 1
    (s 0 id).issues {} ∧ (s 0 id).me.lanes.length < 16 ∧ (s 0 id).me.held = false ∧ slotOf? (s 0 id) hostTeam 0 = some 0
    ∧ (s 0 id).issues { spec := true } ∧ (s 0 id).issues { reads := [6], spec := true }
    ∧ ((s 0 id).core 1).slots[0]? = some (overlay 0) ∧ sameOverlay (s 0 id).me (overlay 0) = true ∧ (s 0 id).me.canTrap ∧ (s 0 id).me.m ≠ 0
    ∧ okAnd (run 0x050404000000000000000000) (fun xs => xs == [.laneid { lane0 with ty := 1, vd := 1 }]) = true
    ∧ (match run 0x050404010000000000000000 with | .error b => b == 0 | .ok _ => false) = true
    ∧ (s 0 (fun t => { t with m := 0 })).me.m = 0 ∧ (s 0 id).me.pend = [] ∧ (overlay 0).lcount < 0 + 2
    ∧ (s 0 (fun t => { t with tbatch := 0x40000000 })).me.held = true
    ∧ (s 0 (fun t => { t with lanes := List.replicate 16 { order := 0, lx := 0, base := 0, idx := 0, left := [], q := t.q, m := 1, gw := [], skips := 0 } })).me.lanes.length = 16 := by decide +kernel
/-- Block 1 with 8 slots: 0 a count one arrival short, 1 bytes, 2 chunks, 3 a ring with a place of each kind, 4 off, 5 a full ring, 6 a count with its phase passed. -/
def slotted (x : W64) : State :=
  { launched (fun l => { l with hdr := { l.hdr with slots := 8 } }) (teamed (fun t => t.setReg 6 x)) with
    slots := [(64, .count 2 1 false), (65, .bytes 5), (66, .chunks 6), (67, .ring 4 1 1 1 1 2 3), (69, .ring 4 0 0 0 0 0 0), (70, .count 2 0 true)] }
theorem witness_sync :
    let s := slotted 1
    s.hasSlot 7 ∧ (s.teams.get? s.cur).isSome = true ∧ s.me.sywb = none ∧ s.issues { reads := [6] } ∧ s.issues { writes := [5] } ∧ s.issues { reads := [6], writes := [5] } ∧ s.issues {}
    ∧ slotConfig 0x00020001 ≠ none ∧ scalarStalls s s.path = false ∧ s.mySlot 0 = .count 2 1 false ∧ s.noWatch 0 true (2 ≤ 1 + 1) (arrived 2 1 false)
    ∧ (1 : Int) ≤ 2 + (s.me.reg 6).toInt ∧ (2 : Int) + (s.me.reg 6).toInt ≤ 65535 ∧ s.noWatch 0 false false (.count 3 1 false)
    ∧ s.mySlot 6 = .count 2 0 true ∧ (s.me.reg 6).toNat < 2 ∧ s.mySlot 1 = .bytes 5 ∧ s.mySlot 2 = .chunks 6 ∧ (6 : W64) &&& 2 = 2 ∧ s.mySlot 3 = .ring 4 1 1 1 1 2 3 := by decide +kernel
theorem witness_syncTraps :
    let s := slotted (-2)
    s.me.canTrap ∧ s.issues { writes := [5] } ∧ s.issues {} ∧ ¬s.hasSlot 8 ∧ s.hasSlot 4 ∧ s.mySlot 4 = .off
    ∧ s.mySlot 0 = .count 2 1 false ∧ (2 : Int) + (s.me.reg 6).toInt < 1 ∧ 65535 < (2 : Int) + ((slotted 65534).me.reg 6).toInt ∧ 2 ≤ ((slotted 2).me.reg 6).toNat
    ∧ s.mySlot 3 = .ring 4 1 1 1 1 2 3 ∧ s.mySlot 5 = .ring 4 0 0 0 0 0 0 := by decide +kernel
theorem witness_fences :
    paged.hist = [] ∧ paged.issues {} ∧ classL 1 = true ∧ scalarStalls paged paged.path = false ∧ paged.me.canTrap ∧ paged.issues { spec := true } := by decide +kernel
/-- The firmware team of die 0, whose core is in F-mode. -/
def firmware : State := { paged with cur := 0, teams := paged.teams.put 0 { paged.me with blk := 0, thandler := 0x1000 } }
theorem witness_csrs :
    readCsr paged paged.cur 0x001 = some 32 ∧ fModeCsr 0x001 = false ∧ (readCsr firmware firmware.cur 0x800).isSome = true ∧ fModeCsr 0x800 = true ∧ firmware.inFMode
    ∧ paged.issues { writes := [5], spec := true } ∧ paged.issues { reads := [6], writes := [5] } ∧ firmware.issues { reads := [6], writes := [5] } := by decide +kernel
theorem witness_privilege :
    paged.me.canTrap ∧ paged.issues { writes := [5] } ∧ paged.issues {} ∧ ¬paged.inFMode ∧ fModeCsr 0x800 = true ∧ readCsr paged paged.cur 0x800 ≠ none
    ∧ readCsr paged paged.cur 0x7FF = none := by decide +kernel
theorem witness_system :
    let s := paged.putCtx 1 (fun c => { c with service := 0x6000 })
    s.issues { writes := [1] } ∧ (s.ctxOf s.cur).service ≠ 0 ∧ (paged.ctxOf paged.cur).service = 0 ∧ paged.me.canTrap ∧ paged.issues { reads := [6] } ∧ paged.issues {}
    ∧ paged.me.lanes = [] ∧ (teamed (fun t => { t with tbatch := 0x40000000 })).me.held = true ∧ pathStalls paged paged.path = false ∧ paged.me.token = none ∧ paged.me.pending = []
    ∧ (teamed (fun t => { t with token := some 5 })).me.token ≠ none ∧ paged.issues { reads := [6, 7] } ∧ (paged.me.reg 6).toNat % 16 = 0 ∧ paged.me.fetchReq = none
    ∧ okAnd (localPlan paged (paged.spaceOf hostTeam) (paged.blockOf hostTeam) .write (paged.me.reg 6) 16) (fun _ => true) = true
    ∧ okAnd (localPlan paged (paged.spaceOf hostTeam) (paged.blockOf hostTeam) .write (paged.me.reg 6 + 8) 4) (fun q => decide (paged.calm paged.path) && linesOf q.phys == []) = true
    ∧ firmware.inFMode ∧ firmware.issues {} ∧ firmware.issues { reads := [6, 7] } ∧ drainRuns firmware = false ∧ dieOf (coreOf firmware.cur) < 4
    ∧ (teamed (fun t => { t with first := true, token := some 5 })).me.first = true ∧ widenOk (paged.launchOf paged.cur).hdr.ardel 64 = true
    ∧ widenOk (paged.launchOf paged.cur).hdr.ardel 33 = false := by decide +kernel
theorem witness_traps :
    let w : SywbWait := { d := 5, slot := 0, phase := false, got := none }
    let s := teamed (fun t => { t with pending := [{ code := 3, val := 0, lane := false }, { code := 2, val := 9, lane := false }] })
    paged.me.exited = false ∧ paged.me.thandler ≠ 0 ∧ paged.me.tcause = 0 ∧ paged.me.suspended = none ∧ paged.me.stopped = false ∧ paged.me.spec = none
    ∧ (teamed (fun t => { t with sywb := some w })).me.sywb = some w ∧ (teamed (fun t => { t with sywb := some { w with got := some true } })).me.sywb = some { w with got := some true }
    ∧ (teamed (fun t => { t with tcause := 3 })).me.tcause ≠ 0 ∧ (teamed (fun t => { t with suspended := some { raddr := 0 } })).me.suspended ≠ none ∧ (teamed (fun t => { t with stopped := true })).me.stopped = true
    ∧ ({ code := 2, val := 9, lane := false } : PendCause) ∈ s.me.pending ∧ (∀ x ∈ s.me.pending, 2 ≤ x.code) ∧ (∀ x ∈ s.me.pending, x.code = 2 → x = { code := 2, val := 9, lane := false }) := by decide +kernel
/-- The small state with a batch at its cursor: one performed batch before it, two instructions left, lane l's register 4 at `f l`, register 5 zero, g as given. -/
def batch (n : Nat) (q0 : W64) : Batch :=
  { order := 0, base := 0, skips := 0, lx := 0x40, idx := 3, left := List.replicate n (.not lane0), q := #v[q0, 0, 0, 0], m := 0xF, gw := [(5, 9)] }
def laned (f : Nat → Nat) (b : Batch) (s : State) : State :=
  s.putTeam hostTeam (fun t => { t with v := (List.range 4).foldl (fun v l => Sparse.set v (4096 + l) (BitVec.ofNat 32 (f l))) [], lanes := [{ b with left := [] }, b] })
/-- An i32 lane memory instruction: register 2, addresses from register 4, offset 0. -/
def mem0 : LaneOps := { lane0 with ty := 0, vd := 2, va := 4, vb := 5, vc := 5 }
/-- Block 1 with tiles, a range of its operand buffer and a small page of memory. -/
def stocked (s : State) : State :=
  { launched (fun l => { l with hdr := { l.hdr with tiles := 4, obkb := 10, slots := 8 } }) s with
    blocks := s.blocks.put 1 { s.block 1 with ranges := [(0, 0x0020000000010009)], panels := [(0, 0x0001000001000004)], obtab := List.range 10, ttab := [0, 1, 2, 3] } }
/-- Waiting results: one past its window, one in it; and LACHECK off. -/
def pends : List PendLane := [⟨0, 0, 2, 2, [2], [(2048, 77), (2051, 78)], [], 0⟩, ⟨1, 1, 3, 0, [5], [(5122, 7)], [], 0⟩]
theorem witness_lanes :
    let b := batch 2 0x5000
    let s := laned (8 * ·) b paged
    s.lanePerforms 0x001 lane0 b ∧ s.me.canTrap ∧ s.me.suspended = none ∧ s.me.stopped = false ∧ activeLanes s.me b lane0 = [0, 1, 2, 3]
    ∧ (let t := s.putTeam hostTeam (fun t => { t with lacheck := 1, pend := pends })
       t.lanePerforms 0x001 { lane0 with vd := 3 } b ∧ ¬t.lanePerforms 0x001 { lane0 with vd := 5 } b) := by decide +kernel
theorem witness_laneWriteBack :
    let b := batch 1 0
    let s := paged.putTeam hostTeam (fun t => { t with lanes := [b, batch 2 0], pend := pends })
    let r : LaneOut := { regs := [(2048, 5), (2050, 6)], pred := some (1, [(0, true), (3, false)]), g := some (5, 7) }
    (Instr.iadd { lane0 with vd := 2 }).laneOp = some (0x001, { lane0 with vd := 2 }) ∧ s.me.lanes = [b, batch 2 0] ∧ b.left ≠ [] ∧ (r.regs.map Prod.fst).Nodup
    ∧ ({ lane0 with vd := 2, look := 2 } : LaneOps).look ≠ 0 ∧ lane0.look = 0 ∧ ({} : LaneOut).pred = none ∧ r.pred = some (1, [(0, true), (3, false)])
    ∧ (s.settledFor 0x001 { lane0 with vd := 2 }).me.pend ≠ [] := by decide +kernel
/-- Lane loads and stores of global and local memory and of the operand buffer that are performed, and addresses that are misaligned and not canonical. -/
theorem witness_laneMemory :
    let b := batch 2 0
    let s := fun (f : Nat → Nat) => owning [0x50] (laned f b (stocked paged))
    let g := s (0x5000 + 4 * ·)
    let l := s (4 * ·)
    let run := fun (s : State) (op : Nat) => s.laneRun op mem0 b
    g.lanePerforms 0x180 mem0 b ∧ l.lanePerforms 0x185 mem0 b ∧ g.calm g.path ∧ pathDie g g.path = 0
    ∧ okAnd (globalLanes (g.settledFor 0x180 mem0) (run g 0x180).lanes .read (globalLane (run g 0x180) mem0 false) 4)
        (fun ps => ps.length == 4 && !planStalls g g.path g.me.blk (wholePlan ps) && owns g 0 (missing g g.path (wholePlan ps).phys)) = true
    ∧ okAnd (globalLanes (g.settledFor 0x181 mem0) (run g 0x181).lanes .write (globalLane (run g 0x181) mem0 false) 4) (fun ps => owns g 0 (linesOf (wholePlan ps).phys)) = true
    ∧ okAnd (localLanes (l.settledFor 0x182 mem0) (run l 0x182).lanes .write (shortLane (run l 0x182) mem0) 4) (fun ps => ps.length == 4) = true
    ∧ okAnd (obLanes (l.settledFor 0x184 mem0) (run l 0x184).lanes mem0 (shortLane (run l 0x184) mem0) 4) (fun ps => ps.length == 4) = true := by decide +kernel
theorem witness_laneAddresses :
    let b := batch 2 0
    let s := laned (4 * · + 1) b paged
    let t := (laned (4 * ·) b paged).putTeam hostTeam (fun t => { t with v := Sparse.set t.v 5122 0x01000000 })
    let addr := fun (s : State) => globalLane (s.laneRun 0x180 mem0 b) mem0 false
    s.lanePerforms 0x180 mem0 b ∧ t.lanePerforms 0x180 mem0 b ∧ (s.laneRun 0x180 mem0 b).lanes.find? (fun l => (addr s l).toNat % 4 != 0) = some 0
    ∧ (t.laneRun 0x180 mem0 b).lanes.find? (fun l => (addr t l).toNat % 4 != 0) = none ∧ (t.laneRun 0x180 mem0 b).lanes.find? (fun l => !canonicalRun (addr t l) 4) = some 2 := by decide +kernel
theorem witness_laneAtomics :
    let b := batch 2 0
    let s := fun (f : Nat → Nat) => owning [0x50] (laned f b (stocked paged))
    let g := s (0x5000 + 4 * ·)
    let l := s (4 * ·)
    let o := { mem0 with mode := 1 }
    let run := fun (s : State) (op : Nat) => s.laneRun op o b
    l.lanePerforms 0x189 mem0 b ∧ (∀ i ∈ (run l 0x189).lanes, ((run l 0x189).t.vreg 4 i).toNat < 65536 ∧ tileOf mem0 ((run l 0x189).t.vreg 4 i) < (l.launchOf l.cur).hdr.tiles)
    ∧ (l.core (coreOf l.cur)).queue = [] ∧ g.lanePerforms 0x186 o b ∧ l.lanePerforms 0x187 o b ∧ g.calm g.path ∧ pathDie g g.path = 0
    ∧ okAnd (globalLanes (g.settledFor 0x186 o) (run g 0x186).lanes .write (globalLane (run g 0x186) o true) 4) (fun ps => ps.length == 4 && owns g 0 (linesOf (wholePlan ps).phys)) = true
    ∧ okAnd (localLanes (l.settledFor 0x187 o) (run l 0x187).lanes .write (shortLane (run l 0x187) o) 4) (fun ps => ps.length == 4) = true := by decide +kernel
theorem witness_completion :
    let s := paged.putTeam hostTeam (fun t => { t with lanes := [batch 0 0, batch 2 0], pend := pends, await := [6] })
    let c := cored (fun c => { c with slots := c.slots.set 0 { overlay 0 with base := 0x40 } }) paged
    let r := launched (fun l => { l with ovs := [⟨0x5000, 3, 1⟩] }) (teamed (fun t => { t with pc := 0x5004 }))
    s.me.lanes = [batch 0 0, batch 2 0] ∧ (batch 0 0).left = [] ∧ laneStalls s (.team hostTeam) 0 = false ∧ (s.teams.get? hostTeam).isSome = true
    ∧ s.me.pend[0]? = some ⟨0, 0, 2, 2, [2], [(2048, 77), (2051, 78)], [], 0⟩ ∧ ([2048, 2051] : List Nat).Nodup
    ∧ pcMatched c.me = none ∧ slotOf? c hostTeam c.me.pc = some 0 ∧ ((c.core 1).slots[0]?).isSome = true
    ∧ (reloadSlot r hostTeam).isSome = true ∧ (r.core 1).slots.length = 4 ∧ (r.core 1).slots[0]? = some State.emptyOverlay
    ∧ okAnd (xlate r (r.spaceOf hostTeam) .exec (pagesOf (overlay0 r hostTeam).base (overlaySize (overlay0 r hostTeam)))) (fun x => x.parts.length == 1) = true := by decide +kernel
/-- A block with reserved ranges 0 (i8) and 2 (e4m3), panels, and its core's matrix queue as given; register 6 holds x. -/
def rr (rows len b fmt : Nat) : W64 := BitVec.ofNat 64 (rows * 2 ^ 52 + len * 2 ^ 15 + b * 2 ^ 6 + fmt)
def panel0 : W64 := BitVec.ofNat 64 (64 * 2 ^ 42 + 4 * 2 ^ 22 + 4)
def matrixed (x : W64) (q : List MatrixEntry) : State :=
  let s := stocked (teamed (fun t => t.setReg 6 x))
  { s with
    blocks := s.blocks.put 1 { s.block 1 with ranges := [(0, rr 1 2 0 4), (2, rr 1 2 2 8)], panels := [(0, panel0)] }
    cores := s.cores.put 1 { s.core 1 with queue := q } }
def entry (op : MatrixOp) : MatrixEntry := newEntry hostTeam 0 0 op false
/-- MMA of 3 rows and depth 64 into tile 1, by column group 0. -/
def dims0 : W64 := 0x0000000100030040
def mma0 : MatrixOp := .mma 1 0 0 1 dims0 (rr 1 2 0 4) panel0
def begun (n : Nat) : MatrixEntry := { entry mma0 with started := true, next := n :: List.replicate 31 0, steps := List.replicate 32 2 }
def drain0 (amax : Nat) : List Byte := leBytes 8 0x6000 ++ leBytes 4 (2 * 2 ^ 16 + 9) ++ leBytes 4 512 ++ leBytes 8 amax ++ leBytes 8 0
/-- A speculation on g5 = g6, predicted to hold, that has written nothing or a panel. -/
def spec0 : Spec :=
  { pc := 0x30, g := Vector.replicate 64 3, q := Vector.replicate 4 1, cond := .eq, a := 5, b := 6, hint := true, other := 0x34, count := 0, events := [], terms := [0, 0, 0]
    panels := [], tiles := [], full := false }
def specced (p : Spec) (s : State) : State := s.putTeam hostTeam (fun t => { t with spec := some p })
/-- Records that are valid, of no row, past OBKB, over another range; an MMA that captured range 0; panels valid and not. -/
theorem witness_ranges :
    let ok := rr 5 2 6 8
    let s := matrixed ok []
    let other := matrixed (rr 5 2 2 8) []
    let far := matrixed (rr 5 11 0 8) []
    s.issues { reads := [6] } ∧ s.me.canTrap ∧ s.me.reg 6 = ok ∧ 0 < ok.toNat / 2 ^ 52 ∧ rrLen ok = 2 ∧ ok.toNat % 16 = 8 ∧ ok.toNat / 16 % 4 = 0 ∧ ok.toNat / 2 ^ 24 % 2 ^ 18 = 0 ∧ ok.toNat / 2 ^ 42 % 2 ^ 10 = 0
    ∧ rrBase ok + rrLen ok ≤ (s.launchOf s.cur).hdr.obkb ∧ (∀ e ∈ (s.blockOf s.cur).ranges, rrBase e.2 + rrLen e.2 ≤ rrBase ok) ∧ captures s s.me.blk 4 = false
    ∧ rr 0 2 0 8 / 2 ^ 52 = 0 ∧ rrLen (rr 5 11 0 8) = 11 ∧ (far.launchOf far.cur).hdr.obkb < 11
    ∧ (∃ e ∈ (other.blockOf other.cur).ranges, e.1 ≠ 4 ∧ ¬rrBase e.2 + rrLen e.2 ≤ rrBase (other.me.reg 6) ∧ ¬rrBase (other.me.reg 6) + rrLen (other.me.reg 6) ≤ rrBase e.2)
    ∧ (s.blockOf s.cur).ranges.get? 0 ≠ none ∧ captures s s.me.blk 0 = false ∧ (s.blockOf s.cur).ranges.get? 4 = none ∧ captures (matrixed ok [entry mma0]) s.me.blk 0 = true
    ∧ s.issues {} ∧ s.issues { reads := [6], spec := true } ∧ panValid panel0 = true ∧ (matrixed panel0 []).me.reg 6 = panel0 ∧ panValid 0 = false ∧ s.me.spec = none
    ∧ (specced spec0 (matrixed panel0 [])).issues { reads := [6], spec := true } ∧ (specced spec0 (matrixed panel0 [])).me.spec ≠ none := by decide +kernel
/-- MZERO, MMA and MDRAIN that join, that find no entry or no proof tile, and whose operands are out of range. -/
theorem witness_matrixIssue :
    let s := matrixed dims0 []
    let d := fun (x : W64) => { matrixed x [] with blocks := s.blocks.put 1 { s.block 1 with loc := Sparse.setRun [] 0x400 (drain0 0) } }
    s.issues { spec := true } ∧ s.issues { reads := [6], spec := true } ∧ s.issues { reads := [6] } ∧ s.me.captured = none ∧ s.me.canTrap
    ∧ (s.putTeam hostTeam (fun t => { t with captured := some mma0 })).me.captured = some mma0
    ∧ queueFull s hostTeam = false ∧ queueFull (matrixed dims0 (List.replicate 16 (entry mma0))) hostTeam = true ∧ 4 ≤ 3 + (1 : BitVec 2).toNat
    ∧ lacksProofs (specced { spec0 with tiles := (List.range 8).map (fun n => (n, [])) } s) hostTeam mma0.proofs = false
    ∧ lacksProofs (specced { spec0 with tiles := (List.range 8).map (fun n => (n + 2, [])) } s) hostTeam mma0.proofs = true
    ∧ (s.blockOf s.cur).panels.get? 0 = some panel0 ∧ (s.blockOf s.cur).ranges.get? 0 = some (rr 1 2 0 4) ∧ (s.blockOf s.cur).ranges.get? 1 = none
    ∧ dims0.toNat / 2 ^ 24 % 2 ^ 8 = 0 ∧ dims0.toNat % 2 ^ 16 = 64 ∧ dims0.toNat / 2 ^ 16 % 2 ^ 8 = 3 ∧ combination (recFmt (rr 1 2 0 4)) (recFmt panel0) 1 = true ∧ (s.launchOf s.cur).hdr.tiles = 4
    ∧ aEnd (rr 1 2 0 4) dims0 ≤ 2 * 1024 ∧ (s.blockOf s.cur).panels.get? 1 = none
    ∧ okAnd (localPlan (d 0x400) (s.spaceOf hostTeam) ((d 0x400).blockOf hostTeam) .read 0x400 32) (fun p =>
        !planStalls (d 0x400) s.path s.me.blk p && missing (d 0x400) s.path p.phys == [] && planBytes (d 0x400) s.path s.me.blk p == drain0 0) = true
    ∧ Drain.valid (drain0 0) = true ∧ drainCheck (d 0x400) s.me.blk (drain0 0) none = none ∧ okAnd (drainPlans (d 0x400) hostTeam (drain0 0) none) (fun p => p.1.pieces.length == 2) = true
    ∧ (Drain.addr (drain0 0)).toNat / 2 ^ 20 = 0 ∧ (0x401 : W64).toNat % 16 ≠ 0 ∧ drainCheck (d 0x400) s.me.blk (drain0 0) (some (rr 1 2 0 4)) = none := by decide +kernel
theorem witness_groups :
    let s := matrixed 0 [{ entry mma0 with group := some 0 }]
    s.issues { writes := [5] } ∧ s.issues { reads := [6] } ∧ (matrixed 0 []).issues { reads := [6] } ∧ ((matrixed 0 []).core 1).queue = [] ∧ (s.teams.get? hostTeam).isSome = true
    ∧ (∃ e ∈ (s.core 1).queue, e.team = s.cur ∧ e.group = some 0) ∧ (s.me.ticket - (s.me.reg 6).setWidth 32).toNat < 2 ^ 31 := by decide +kernel
/-- Entries at the head and behind it, that start, step a chunk and complete, and a column of slices to reload. -/
theorem witness_engine :
    let q := fun (e : MatrixEntry) => matrixed 0 [e, entry (.mzero 1 1)]
    let r := { q (begun 0) with cores := (matrixed 0 []).cores.put 1 { (matrixed 0 []).core 1 with sources := [(3, [(⟨0, 2, 0x7000, 1⟩ : SourceRec)])] } }
    let lost := fun (s : State) => { s with mem := [] }
    ((q (entry mma0)).core 1).queue[0]? = some (entry mma0) ∧ (entry mma0).spec = false ∧ isHead (q (entry mma0)) 1 0 = true ∧ isHead (q (entry mma0)) 1 1 = false
    ∧ isHead (q (entry (.mzero 1 1))) 1 0 = true ∧ dims0.toNat / 2 ^ 32 ≠ 0 ∧ (entry mma0).next = [] ∧ (0x30040 : W64).toNat / 2 ^ 32 = 0
    ∧ isHead (q (entry (.mma 1 0 0 1 0x30040 0 0))) 1 0 = true
    ∧ isHead (q (entry (.mdrain 0 (drain0 0) 0))) 1 0 = true ∧ okAnd (drainPlans (q (entry (.mdrain 0 (drain0 0) 0))) hostTeam (drain0 0) (some 0)) (fun _ => true) = true
    ∧ (begun 0).started = true ∧ blockRuns (q (begun 0)) hostTeam = true ∧ canWrite (begun 0) dims0 0 = true ∧ mma0.reloading ((q (begun 0)).core 1) = false
    ∧ chunks dims0 ≤ (begun 1).next.getD 0 0 ∧ dims0.getLsbD 32 = true ∧ (∀ g, g < 32 → dims0.getLsbD (32 + g) = true → g = 0) ∧ (begun 1).overlap = false
    ∧ (r.core 1).reloads.get? 3 = none ∧ (r.core 1).sources.get? 3 = some [⟨0, 2, 0x7000, 1⟩]
    ∧ okAnd (globalPlan r (ctxSpace r 1 1) .read 0x7000 64) (fun p => owns (owning [0x70] r) 0 (linesOf p.phys)) = true
    ∧ (match globalPlan (lost r) (ctxSpace (lost r) 1 1) .read 0x7000 64 with | .error (.page _ _) => true | _ => false) = true := by decide +kernel
/-- A started drain whose writes go out, one that has written, and speculations whose prediction holds and does not. -/
theorem witness_drain :
    let plan := match drainPlans (matrixed 0 []) hostTeam (drain0 0x9000) (some 0) with | .ok (x, y) => some (x.pieces, y.pieces) | .error _ => none
    let e := { entry (.mdrain 0 (drain0 0x9000) 0) with started := true, spots := (plan.map Prod.fst).getD [], amaxAt := (plan.map Prod.snd).getD [] }
    let s := owning [0x60, 0x61, 0x62, 0x63, 0x90] (matrixed 0 [e])
    let p := Path.matrix hostTeam
    plan.isSome = true ∧ e.spots ≠ [] ∧ e.amaxAt ≠ [] ∧ (s.core 1).queue[0]? = some e ∧ blockRuns s hostTeam = true ∧ s.calm p ∧ pathDie s p = 0 ∧ e.written = false
    ∧ owns s 0 (linesOf (Plan.phys { pieces := e.spots, used := [] })) = true ∧ owns s 0 (linesOf (Plan.phys { pieces := e.amaxAt, used := [] })) = true
    ∧ ({ e with written := true } : MatrixEntry).written = true ∧ Drain.amax (drain0 0) = 0 ∧ Drain.amax (drain0 0x9000) ≠ 0
    ∧ (specced spec0 s).me.spec = some spec0 ∧ (specced spec0 s).me.awaits 5 6 = false
    ∧ Cond.holds .eq 64 spec0.g[(5 : Fin 64)] spec0.g[(6 : Fin 64)] = spec0.hint ∧ Cond.holds .ne 64 spec0.g[(5 : Fin 64)] spec0.g[(6 : Fin 64)] ≠ spec0.hint := by decide +kernel
/-- Weights and products of each kind (R244, R251). -/
theorem witness_terms :
    Fp.e4m3.decode 0x3B = .fin false 11 (-3) ∧ Fp.bf16.decode 0x8001 = .fin true 1 (-133) ∧ (0x7FFFFFFF : Nat) < 2 ^ 32 ∧ Part.inf false ∉ [Part.nan] ∧ Part.nan ∉ [Part.inf true, Part.inf false]
    ∧ panValid panel0 = true := by decide +kernel
/-- Block 1 with slots of each kind and a ring with two published entries, its turn; memory at 0x5000 holds eight bytes, local memory at 0x200 four. -/
def ringed (f : Ring → Ring) : State :=
  let s := stocked paged
  { s with
    curBlk := 1
    slots := [(64, .count 2 0 false), (65, .bytes 5), (66, .chunks 7), (67, .ring 3 1 0 2 0 2 0), (68, .off), (69, .ring 3 0 0 2 1 2 0)]
    mem := Sparse.setRun s.mem 0x5000 [1, 2, 3, 4, 5, 6, 7, 8]
    blocks := s.blocks.put 1 { s.block 1 with loc := Sparse.setRun [] 0x200 [1, 0, 0, 0], ring := f { (s.block 1).ring with latched := some 0x422, pidx := 3, cons := 1, publishers := [(3, 32)] } } }
/-- COPY of two bf16 elements from memory to local memory, plain; SLOAD of one column; OVL; SEAL. -/
def copyIn : CopyOps := { copy0 with dsp := 1, ssp := 0, sfmt := 9, dfmt := 9, src := 0x5000, dst := 0x100, xext := 2, yext := 1, zext := 1, spitch := 4, w7 := 4 }
def sload0 : CopyOps := { copy0 with dsp := 3, sfmt := 15, dfmt := 15, src := 0x5000, dst := 0x200, xext := 64, yext := 1, zext := 1, spitch := 256 }
def ovl0 : CopyOps := { copy0 with dsp := 3, sfmt := 15, dfmt := 15, src := 0x5000, dst := 2, w7 := 0x20010 }
def seal0 : CopyOps := { copy0 with dsp := 1, sfmt := 15, dfmt := 15, src := 0x5000, dst := 0x100, xext := 32, yext := 1 }
/-- An entry that starts: its checks hold, its place and its pages are there. -/
def starts (s : State) (i : Instr) : Bool :=
  match entryChecks i with
  | some (c, plan) =>
    let p := plan s s.curBlk
    lowest (p.bad ++ slotBad s s.curBlk c) == none && !noPlace s s.curBlk c && p.fault == none && !planStalls s (.copy s.curBlk) s.curBlk p.reads && linesOf p.reads.phys == []
      && (s.block s.curBlk).ring.canTake && engineRuns s s.curBlk && okAnd (localPlan ((noteTlb (engineSpace s s.curBlk) p.reads.used).final s) (engineSpace s s.curBlk) (s.block s.curBlk) .write 8 4) (fun q => linesOf q.phys == [])
  | none => false
/-- One that halts with a reason. -/
def halts (s : State) (i : Instr) (x : Nat) : Bool :=
  match entryChecks i with
  | some (c, plan) => lowest ((plan s s.curBlk).bad ++ slotBad s s.curBlk c) == some x
  | none => false
theorem witness_entries :
    let s := ringed id
    s.ringReady copyIn ∧ starts s (.cNop copy0) = true ∧ starts s (.cCopy { copyIn with kind := 3, slot := 3, order := true }) = true ∧ starts s (.cFill { copyIn with src := 0, kind := 1, slot := 1 }) = true
    ∧ starts s (.cSload sload0) = true ∧ starts s (.cOvl ovl0) = true ∧ starts s (.cSignal copy0) = true ∧ ovlBusy s 1 2 = false
    ∧ halts s (.cNop { copy0 with src := 1 }) 2 = true ∧ halts s (.cSignal { copy0 with slot := 9 }) 8 = true ∧ s.calm (.copy 1) ∧ firings s 1 1 0 true false (s.slot 1 0) (SlotOp.arrive.apply (s.slot 1 0)) = []
    ∧ firings s 1 1 0 true true (s.slot 1 0) (SlotOp.arrive.apply (s.slot 1 0)) = []
    ∧ noPlace s 1 { copyIn with kind := 3, slot := 5 } = true ∧ lowest ((copyPlan false false { copyIn with kind := 3, slot := 5 } s 1).bad ++ slotBad s 1 { copyIn with kind := 3, slot := 5 }) = none
    ∧ (s.block 1).ring.halting = [] ∧ okAnd (localPlan s (engineSpace s 1) (s.block 1) .write 0x10 4) (fun _ => true) = true ∧ (s.team (s.block 1).ring.publisher).canTrap
    ∧ (s.team (s.block 1).ring.publisher).suspended = none ∧ (s.team (s.block 1).ring.publisher).stopped = false := by decide +kernel
/-- A GATHER whose list lies in a page that has gone; WAITY satisfied, held, off its slots and with a bad argument, as it is taken up and as it is held. -/
theorem witness_entryWaits :
    let s := ringed id
    let h := ringed (fun r => { r with waity := some { copy0 with src := 1 } })
    let lost := { s with mem := [], blocks := s.blocks.put 1 { s.block 1 with ltab := [] } }
    let g := copyPlan true false { copyIn with w7 := 0x00400200 } lost 1
    g.fault.isSome = true ∧ lowest (g.bad ++ slotBad lost 1 copyIn) = none ∧ noPlace lost 1 copyIn = false ∧ lost.ringReady copyIn ∧ s.ringReady copy0 ∧ plainBad copy0 true = [] ∧ copy0.slot.toNat < (s.launch 1).hdr.slots
    ∧ (h.block 1).ring.waity = some { copy0 with src := 1 } ∧ engineRuns h 1 = true ∧ (h.block 1).ring.entries = []
    ∧ slotCond (s.slot 1 0) 1 = some (false, 0) ∧ slotCond (s.slot 1 0) 0 = some (true, 0) ∧ (s.slot 1 0).mode = 1 ∧ (s.slot 1 0).mode ≠ 4 ∧ (s.slot 1 3).mode = 4
    ∧ okAnd (localPlan s (engineSpace s 1) (s.block 1) .write 8 4) (fun _ => true) = true := by decide +kernel
/-- A ring told of PIDX p, its header in local memory with this PIDX, CONFIG and STATUS. -/
def told (p config status : Nat) (f : Ring → Ring) : State :=
  let s := ringed (fun r => f { r with told := [(32, p)] })
  { s with blocks := s.blocks.put 1 { s.block 1 with loc := Sparse.setRun (s.block 1).loc 0 (leBytes 4 p ++ leBytes 4 config ++ leBytes 8 0 ++ leBytes 4 status) } }
/-- The words of the header as the engine reads them. -/
def headerSeen (s : State) : Option (Nat × Nat × Nat) :=
  match localPlan s (engineSpace s 1) (s.block 1) .read 0 32 with
  | .ok pl =>
    if planStalls s (.copy 1) 1 pl || pl.phys != [] || field (planBytes ((Upd.hist (releaseTo 1 32)).apply s) (.copy 1) 1 pl) 0x14 12 != 0 then none
    else
      let w := planBytes ((Upd.hist (releaseTo 1 32)).apply s) (.copy 1) 1 pl
      some (field w 0 4, field w 4 4, field w 0x10 4)
  | .error _ => none
theorem witness_publish :
    let first := fun (p config : Nat) => told p config 0 (fun r => { r with latched := none, pidx := 0, cons := 0, publishers := [] })
    let s := first 3 0x422
    (s.block 1).ring.told = [(32, 3)] ∧ (s.block 1).ring.halting = [] ∧ engineRuns s 1 = true ∧ headerSeen s = some (3, 0x422, 0) ∧ (s.block 1).ring.latched = none ∧ (s.block 1).ltab ≠ []
    ∧ (s.launch 1).hdr.lblk = 1 ∧ configOk 0x422 1 = true ∧ configOk 0x432 1 = false ∧ headerSeen (first 3 0x432) = some (3, 0x432, 0) ∧ pathStalls s (.copy 1) = false
    ∧ ((told 5 0x422 0 id).block 1).ring.latched = some 0x422 ∧ headerSeen (told 5 0x422 0 id) = some (5, 0x422, 0) ∧ ahead 1 5 ≤ 2 ^ (0x422 % 16) ∧ 2 ^ (0x422 % 16) < ahead 1 9
    ∧ ((told 5 0x422 0 (fun r => { r with halted := true })).block 1).ring.halted = true
    ∧ headerSeen (told 5 0x422 0x80000D00 (fun r => { r with halted := true })) = some (5, 0x422, 0x80000D00) ∧ (0x80000D00 : Nat).testBit 31 = true
    ∧ 0 < ahead 1 5 ∧ ahead 1 3 < ahead 1 5 := by decide +kernel
/-- An entry in progress. -/
def going (op : Instr) (pos : Nat) : Entry :=
  { idx := 0, op := op, team := 32, ranges := [], pos := pos, subs := 1, done := none, place := none, list := [], record := [], faultAt := none }
def runs (e : Entry) : State := owning [0x50] (ringed (fun r => { r with entries := [e] }))
/-- The plan of an SLOAD's, an OVL's or another entry's reads is clear. -/
def clear (s : State) (q : Plan) : Bool := !planStalls s (.copy 1) 1 q && owns s 0 (linesOf q.phys) && !pathStalls s (.copy 1)
theorem witness_copyProgress :
    let e := going (.cCopy { copyIn with kind := 1, slot := 1 }) 0
    let s := runs e
    (s.block 1).ring.entry? 0 = some e ∧ e.done = none ∧ subRuns s 1 e = true ∧ s.calm (.copy 1) ∧ pathDie s (.copy 1) = 0 ∧ (s.slot 1 1).mode = 2 ∧ (s.slot 1 2).mode = 3
    ∧ (match s.workOf 1 e with | some (c, .ok w) => clear s w.reads && linesOf w.writes.phys == [] && c.kind == 1 && w.bytes == [1, 2, 3, 4] | _ => false) = true
    ∧ (s.block 1).ring.halting = [] ∧ okAnd (localPlan s (engineSpace s 1) (s.block 1) .write 0x10 4) (fun _ => true) = true ∧ (s.team 32).canTrap ∧ (s.team 32).suspended = none
    ∧ okAnd (runPlans s 1 [] 0 0x5000 .read [(0, 64)]) (clear s) = true ∧ okAnd (globalPlan s (engineSpace s 1) .exec 0x5000 (overlaySize (ovlRef ovl0))) (fun q => decide (linesOf q.phys = [0x50])) = true
    ∧ sloadRow sload0 + 2 ≤ 1024 ∧ ((s.core 1).sources.get? (sloadCol sload0)) = none
    ∧ (let t := { s with cores := s.cores.put 1 { s.core 1 with sources := [(sloadCol sload0, List.replicate 4 ⟨1000, 5, 0, 1⟩)] } }
       ¬(((t.core 1).sources.get? (sloadCol sload0)).getD []).length < 4 ∧ sloadRow sload0 + 2 ≤ 1000) ∧ 2 < (s.core 1).slots.length := by decide +kernel
/-- A partial answer that passes a test is one. -/
theorem okAnd_ok {ε α : Type} {x : Except ε α} {p : α → Bool} (h : okAnd x p = true) : ∃ a, x = .ok a ∧ p a = true := by
  cases x with
  | error e => simp [okAnd] at h
  | ok a => exact ⟨a, rfl, h⟩
theorem sealWork_mismatch {c : CopyOps} {s : State} {b : Nat} {e : Entry} {r w : Plan} {bs : List Byte}
    (hr : runPlans s b e.ranges c.ssp c.src .read [(0, c.xext.toNat + 16)] = .ok r) (hw : runPlans s b e.ranges c.dsp c.dst .write [(0, c.xext.toNat)] = .ok w)
    (hb : planBytes s (.copy b) b r = bs)
    (ht : Aes.tag (s.ctx (s.block b).ctx).key (Aes.iv (if c.rm = 1 then 3 else 1) (s.block b).ctx (c.w7 ++ (c.zext ++ c.spitch))) (bs.take c.xext.toNat) ≠ bs.drop c.xext.toNat) :
    sealWork true c s b e = .ok none := by
  simpa [sealWork, hr, hw, hb] using ht
/-- An UNSEAL whose data and tag are zero bytes, but for a last tag byte of t. -/
def unseal0 : CopyOps := { seal0 with dsp := 0, ssp := 1, src := 0x100, dst := 0x6000, xext := 16 }
def sealedWith (t : Byte) : State :=
  let s := runs (going (.cUnseal unseal0) 0)
  { s with blocks := s.blocks.put 1 { s.block 1 with loc := Sparse.set [] 0x11F t } }
/-- Of two tags at most one is right: UNSEAL meets a mismatch. -/
theorem witness_unsealMismatch : ∃ t, sealWork true unseal0 (sealedWith t) 1 (going (.cUnseal unseal0) 0) = .ok none := by
  have h : ∀ t ∈ [(0 : Byte), 1], okAnd (runPlans (sealedWith t) 1 [] 1 0x100 .read [(0, 32)]) (fun r => planBytes (sealedWith t) (.copy 1) 1 r == List.replicate 31 0 ++ [t]) = true
      ∧ okAnd (runPlans (sealedWith t) 1 [] 0 0x6000 .write [(0, 16)]) (fun _ => true) = true ∧ ((sealedWith t).ctx 1).key = (base.ctx 1).key ∧ ((sealedWith t).block 1).ctx = 1 := by decide +kernel
  by_cases ht : Aes.tag (base.ctx 1).key (Aes.iv 1 1 (unseal0.w7 ++ (unseal0.zext ++ unseal0.spitch))) (List.replicate 16 0) = List.replicate 16 0
  · obtain ⟨h1, h2, h3, h4⟩ := h 1 (by simp)
    obtain ⟨r, hr, hb⟩ := okAnd_ok h1
    obtain ⟨w, hw, -⟩ := okAnd_ok h2
    refine ⟨1, sealWork_mismatch hr hw (by simpa using hb) ?_⟩
    rw [h4, h3]
    exact fun hx => absurd (ht.symm.trans hx) (by decide)
  · obtain ⟨h1, h2, h3, h4⟩ := h 0 (by simp)
    obtain ⟨r, hr, hb⟩ := okAnd_ok h1
    obtain ⟨w, hw, -⟩ := okAnd_ok h2
    refine ⟨0, sealWork_mismatch hr hw (by simpa using hb) ?_⟩
    rw [h4, h3]
    exact ht
/-- Finished entries: plain, with NOTIFY, and of a ring place that is the next, or not, to fill. -/
theorem witness_entryEnds :
    let e := { going (.cCopy { copyIn with kind := 3, slot := 3 }) 1 with place := some 1 }
    let s := { runs e with slots := [(67, .ring 3 1 1 1 0 2 0)] }
    engineRuns s 1 = true ∧ e.subs ≤ e.pos ∧ e.ops = some { copyIn with kind := 3, slot := 3 } ∧ (going (.cNop copy0) 1).ops = some copy0 ∧ (going (.cNop { copy0 with notify := true }) 1).ops = some { copy0 with notify := true }
    ∧ okAnd (localPlan s (engineSpace s 1) (s.block 1) .write 0xC 4) (fun _ => true) = true ∧ s.slot 1 3 = .ring 3 1 1 1 0 2 0 ∧ 0 + 1 ≤ (2 + 3 - 1 - 1) % 3 + 1 ∧ (2 + 3 - 1 - 1) % 3 + 1 < 1 + 1 := by decide +kernel
/-- A queue descriptor of 64 bytes, a kernel header and a launch record (R27, R12, R32). -/
def desc64 (pidx cidx base : Nat) : List Byte := leBytes 8 pidx ++ leBytes 8 cidx ++ leBytes 8 base ++ leBytes 4 4 ++ List.replicate 36 0
def header64 : List Byte :=
  leBytes 4 0x484B5A50 ++ leBytes 4 0x02000000 ++ leBytes 4 0 ++ leBytes 4 (32 + 8 * 2 ^ 16) ++ leBytes 4 1 ++ leBytes 4 0 ++ leBytes 4 1 ++ leBytes 4 0 ++ leBytes 8 0x130100 ++ List.replicate 24 0
def record128 (ctl : Nat) : List Byte :=
  leBytes 4 ctl ++ leBytes 4 0 ++ leBytes 8 0x130000 ++ leBytes 8 0x7000 ++ leBytes 4 0 ++ leBytes 4 0 ++ leBytes 2 1 ++ leBytes 2 1 ++ leBytes 2 1 ++ List.replicate 90 0
/-- Queue 0 of context 1 with one published record, a notification queue, and memory that holds them all; the descriptor's WRIDX reads w. -/
def queue0 : QueueCtx :=
  { ctx := 1, desc := 0x110000, base := 0x111000, log2n := 4, prio := 2, nq := 0x120000, state := .active, reason := 0, kill := false, ctrlSeen := 0, wridx := 1, rdidx := 0, endval := 0 }
def queued (w ctl : Nat) (f : QueueCtx → QueueCtx) : State :=
  let s := owning [0x1100, 0x1110, 0x1200, 0x1210, 0x1300, 0x1301, 0x90, 0xA0, 0x1410, 0x1500, 0x1510] (stocked paged)
  { s with
    queues := [(0, f queue0)]
    mem := [(0x110000, leBytes 8 w), (0x111000, record128 ctl), (0x120000, desc64 0 0 0x121000), (0x130000, header64), (0x130100, leBytes 8 0x131000 ++ leBytes 4 4 ++ leBytes 4 0)].foldl (fun m x => Sparse.setRun m x.1 x.2) s.mem }
/-- A store to CTRL by a host hart. -/
def ctrled (v : Nat) (s : State) : State := (Upd.store (.host 1) .phys 0 [] false none 0x110008 (leBytes 4 v)).apply s
/-- A store of the front end that is performed. -/
def stores (s : State) (x : Nat) (a : W64) (n pa : Nat) : Bool := 
  okAnd (ctxRun s x .write a n) (fun ps => ps == [(pa, n)]) && decide (pa % 256 + n ≤ 256) && !s.late && s.pkg.locks == [] && !pathStalls s (.front x)
    && (linesOf [(pa, n)]).all (fun l => s.coh.has l (pathDie s (.front x)) true)
theorem witness_notifications :
    let s := queued 1 0 id
    let s0 := { s with seq := s.seq + 1 }
    let full := { s with mem := Sparse.setRun s.mem 0x120000 (desc64 16 0 0x121000) }
    let lost := { s with mem := [] }
    (s.queue 0).nq ≠ 0 ∧ (s.queue 1).nq = 0 ∧ okAnd (readDesc s 1 0x120000) (fun d => d.ok && d.pidx == 0 && d.cidx == 0 && d.log2n == 4 && d.slot 32 == 0x121000) = true
    ∧ okAnd (readDesc full 1 0x120000) (fun d => d.ok && d.pidx - d.cidx == 16) = true ∧ (match readDesc lost 1 0x120000 with | .error _ => true | .ok _ => false) = true
    ∧ stores s0 1 0x121000 32 0x121000 = true ∧ stores (s0.stored 1 false 0x121000 (noteBytes 0 1 0 0 0 0)) 1 0x120000 8 0x120000 = true ∧ stores s0 1 0x12001C 4 0x12001C = true
    ∧ (match ctxRun lost 1 .write 0x12001C 4 with | .error _ => true | .ok _ => false) = true
    ∧ 3 < (s.launch 1).fev.length ∧ (s.launch 1).fev.getD 3 0 = 0 ∧ (s.launch 1).thr.getD 3 0 = 0 ∧ (s.launch 1).posted = []
    ∧ (let t := launched (fun l => { l with thr := List.replicate 28 2 }) s
       (t.launch 1).thr.getD 3 0 ≠ 0 ∧ 2 ≤ min (0 + 2) (2 ^ 64 - 1) ∧ min (0 + 1) (2 ^ 64 - 1) < 2 ∧ 3 ∉ (t.launch 1).posted ∧ (t.queue (t.launch 1).queue).nq ≠ 0) := by decide +kernel
/-- A queue whose WRIDX is in range and beyond the ring, a record that keeps every check and one that does not, and no record to take. -/
theorem witness_records :
    let s := queued 1 0 id
    let far := queued 17 0 (fun k => { k with wridx := 0 })
    bound s 0 = true ∧ (s.queue 0).state = .active ∧ okAnd (ctxNat s 1 0x110000 8) (· == 1) = true ∧ okAnd (ctxNat far 1 0x110000 8) (· == 17) = true ∧ 2 ^ (s.queue 0).log2n < 17
    ∧ mayTake s 0 = true ∧ okAnd (readRecord s 0) (fun l => l.hdr.width == 32) = true ∧ mayTake (queued 1 32 id) 0 = true ∧ (match readRecord (queued 1 32 id) 0 with | .error (r, _) => r == 0x13 | .ok _ => false) = true
    ∧ mayTake far 0 = false := by decide +kernel
/-- A dependence whose line has been stored to, reached and not reached, one that no store has reached, one whose page is gone, and one that is held. -/
theorem witness_dependences :
    let l := fun (a : W64) (st : Nat) (y : Launch) => { y with next := 0, gx := 2, deps := [(a, 5)], depRead := [(0, (0x90, st))] }
    let s := fun (a : W64) (st : Nat) => (Upd.store (.host 1) .phys 0 [] false none 0x9000 (leBytes 8 5)).apply (launched (l a st) (queued 1 0 id))
    let t := s 0x9000 0
    (t.launches.get? 1).isSome = true ∧ (t.launch 1).unplaced = true ∧ 0 ∉ (t.launch 1).met ∧ (t.launch 1).queue = 0 ∧ (t.launch 1).deps[0]? = some (0x9000, 5) ∧ (t.launch 1).depRead.get? 0 = some (0x90, 0)
    ∧ lineStored t (0x90, 0) = true ∧ lineStored t (0x90, 9) = false ∧ okAnd (ctxNat t 1 0x9000 8) (· == 5) = true ∧ okAnd (ctxNat t 1 0x9008 8) (· == 0) = true
    ∧ (match ctxNat (s 0x0100000000000000 0) 1 0x0100000000000000 8 with | .error _ => true | .ok _ => false) = true
    ∧ 0 ∉ (t.launch 1).depHeld ∧ (t.queue 0).state = .active ∧ ((queued 1 0 (fun k => { k with state := .faulted })).queue 0).state ≠ .active := by decide +kernel
/-- No store to CTRL, stores that resume, destroy with and without KILL, and are written over, and a destroy that may end. -/
theorem witness_ctrl :
    let f := queued 1 0 (fun k => { k with state := .faulted, reason := 0x13 })
    let s := queued 1 0 id
    let d := queued 1 0 (fun k => { k with state := .destroying })
    ctrlStore s 0 = none ∧ bound s 0 = true ∧ (ctrlStore (ctrled 0 f) 0).map Prod.snd = some 0 ∧ (ctrlStore (ctrled 2 s) 0).map Prod.snd = some 2 ∧ (ctrlStore (ctrled 6 f) 0).map Prod.snd = some 6
    ∧ (ctrlStore (ctrled 1 s) 0).map Prod.snd = some 1 ∧ (f.queue 0).state = .faulted ∧ (s.queue 0).state = .active ∧ (∀ l ∈ queueLaunches f 0, l.2.depHeld = []) ∧ stores f 1 0x110008 4 0x110008 = true
    ∧ okAnd (ctxNat (ctrled 0 f) 1 0x110000 8) (· == 1) = true ∧ (s.blocks.get? 1).isSome = true ∧ (s.launch (s.block 1).launch).queue = 0 ∧ (s.launch 1).call = none
    ∧ (d.queue 0).state = .destroying ∧ queueHasBlocks { d with blocks := [] } 0 = false ∧ (d.ctx 1).resetCode = 0 ∧ (∀ l ∈ queueLaunches { d with blocks := [] } 0, l.2.ending = false) := by decide +kernel
/-- A finished launch without blocks: with and without a completion store, one that faults, killed, and of a host call. -/
theorem witness_launchEnds :
    let s := { launched (fun l => { l with retired := 1, caddr := 0xA000, cval := 7 }) (queued 1 0 (fun k => { k with nq := 0 })) with blocks := [] }
    (s.launches.get? 1).isSome = true ∧ (s.launch 1).completed = false ∧ (s.launch 1).killed = false ∧ (s.ctx 1).resetCode = 0 ∧ (s.launch 1).retired = (s.launch 1).total ∧ (s.launch 1).call = none
    ∧ (s.ctx 1).profBlock = 0 ∧ stores s 1 0xA000 8 0xA000 = true ∧ stores (s.stored 1 true 0xA000 (leBytes 8 (2 ^ 64 - 2))) 1 0x110008 4 0x110008 = true ∧ (s.queue 0).nq = 0 ∧ ((queued 1 0 id).queue 0).nq ≠ 0
    ∧ (match ctxRun s 1 .write 0x0100000000000000 8 with | .error _ => true | .ok _ => false) = true ∧ hostSlotFree s 1 = true
    ∧ ((launched (fun l => { l with retired := 0 }) s).launch 1).retired ≠ 1 := by decide +kernel
/-- Half-die 0 up and in partition 0, the other half-dies in partition 1; launch 2 waits with two blocks. -/
def waiting2 (f : Launch → Launch) : State :=
  let s := queued 1 0 id
  { s with
    dies := [(0, { s.die 0 with on := true })]
    pkg := { s.pkg with parts := [0, 1, 1, 1, 1, 1, 1, 1], nextBlock := 2, nextLaunch := 3 }
    launches := s.launches.put 2 (f { s.launch 1 with ready := some 0, next := 0, gx := 2, blks := [], kdesc := 0x130000 }) }
def wait0 : Waiting := { prio := 0, class' := 1, order := 0, launch := 2, blk := none }
theorem witness_placement :
    let s := waiting2 id
    let w : Waiting := { wait0 with prio := (s.launch 2).prio }
    (s.launches.get? 2).isSome = true ∧ launchWaits s (s.launch 2) = true ∧ turnOf s w = true
    ∧ (match waitFit s w with
       | some f => okAnd (xlate s (ctxSpace s 1 f.core) .write (spillFills (s.launch 2) f)) (fun r => r.parts.all (fun p => (lockedTo s p.1).isNone)) && placeFor s (s.launch 2) false == some f
       | none => false) = true
    ∧ (s.launch 2).call = none ∧ ((waiting2 (fun l => { l with call := some (0x5000, [1, 2]), widened := true })).launch 2).call = some (0x5000, [1, 2])
    ∧ ((waiting2 (fun l => { l with hdr := { l.hdr with zero := true } })).launch 2).hdr.zero = true := by decide +kernel
/-- A head that fits and one that does not; a team ready; FETCHWORK served, done and refused; a block that may retire and one that may not. -/
theorem witness_distributor :
    let s := waiting2 id
    let big := waiting2 (fun l => { l with hdr := { l.hdr with lblk := 33 } })
    let w : Waiting := { wait0 with prio := (s.launch 2).prio }
    let f := fun (sel : W64) (s : State) => s.putTeam hostTeam (fun t => { t with fetchReq := some { addr := 0x100, sel := sel } })
    let done := { s.putTeam hostTeam (fun t => { t with exited := true }) with slots := [] }
    headOf s (partOf s 2) = some w ∧ (waitFit s w).isSome = true ∧ headOf big (partOf big 2) = some w ∧ waitFit big w = none ∧ ready s hostTeam = true ∧ (s.teams.get? hostTeam).isSome = true
    ∧ ((f 0 s).team hostTeam).fetchReq = some { addr := 0x100, sel := 0 } ∧ ((f 0 s).blockOf hostTeam).phase = .placed ∧ (s.launch 1).unplaced = false
    ∧ okAnd (localPlan (f 0 s) (engineSpace (f 0 s) 1) ((f 0 s).blockOf hostTeam) .write 0x100 16) (fun p => p.pieces.length == 1 && !planStalls (f 0 s) (.team hostTeam) 1 p) = true
    ∧ (let h := { s with launches := [], blocks := (s.blocks.put 2 { s.block 1 with launch := 1, phase := .saved }) }
       (headOf h (partOf h 1)).map Waiting.blk = some (some 2) ∧ (headOf h (partOf h 1)).map Waiting.launch = some 1 ∧ waitFit h ((headOf h (partOf h 1)).getD wait0) = none)
    ∧ workTarget s 1 5 = none ∧ (5 : W64).toNat ≤ 15
    ∧ s.pkg.locks = [] ∧ pathStalls s (.mail 1) = false ∧ (workAnswer s 1 0).1 = 0xFFFFFFFF ∧ 15 < (16 : W64).toNat
    ∧ (workAnswer (launched (fun l => { l with ready := some 1, gx := 3 }) s) 1 0).2 = some (1, 1)
    ∧ mayRetire done 1 = true ∧ mayRetire s 1 = false := by decide +kernel
/-- Every core of half-die 0 but one block each of low priority, and a launch of high priority that fits nowhere. -/
def crowded : State :=
  let s := waiting2 (fun l => { l with prio := 0, hdr := { l.hdr with lblk := 32 } })
  { s with
    launches := s.launches.put 1 { s.launch 1 with prio := 3 }
    blocks := (halfDieCores 0).map (fun c => (10 + c, { s.block 1 with core := c, teams := [32 * c + 2], order := c })) }
theorem witness_preempt :
    let w : Waiting := { wait0 with prio := 0 }
    headOf crowded (partOf crowded 2) = some w ∧ waitFit crowded w = none ∧ victimPlan crowded w ≠ none ∧ (∀ e ∈ crowded.blocks, e.2.phase ≠ .stopping ∧ e.2.phase ≠ .stopped) := by decide +kernel
/-- Block 1 in each phase of a kill, a stop, a save and a restore; a reset context; firmware events. -/
theorem witness_interruption :
    let s := fun (p : BlockPhase) => { waiting2 id with blocks := (waiting2 id).blocks.put 1 { (waiting2 id).block 1 with phase := p, savedMatrix := [] } }
    let saved := { s .saved with
      teams := [(savedKey 1 0, (s .stopped).team hostTeam)]
      blocks := ((s .saved).blocks.put 1 { (s .saved).block 1 with teams := [savedKey 1 0] }) }
    let prot := { saved with ctxs := saved.ctxs.put 1 { saved.ctx 1 with prot := true } }
    let w : Waiting := { prio := blockPrio saved (saved.block 1), class' := 0, order := (saved.block 1).order, launch := 1, blk := some 1 }
    let dead := { (s .placed).putCtx 1 (fun c => { c with resetCode := 3 }) with blocks := [] }
    let ev := cored (fun c => c) { s .placed with cores := [(0, { (s .placed).core 0 with events := [(2, 7)] })] }
    ((s (.killed false)).blocks.get? 1).isSome = true ∧ ((s (.killed false)).block 1).phase = .killed false ∧ killWaits (s (.killed false)) 1 = false ∧ ((s (.killed true)).block 1).phase = .killed true ∧ (∀ k ∈ ((s (.killed false)).block 1).teams, ((s (.killed false)).team k).blk = 1)
    ∧ (dead.ctxs.get? 1).isSome = true ∧ (dead.ctx 1).resetCode = 3
    ∧ (ev.core (96 * 0)).events = [(2, 7)] ∧ (ev.core 0).inEvent = false ∧ (ev.team (firmwareTeam 0)).sywb = none ∧ (ev.team (firmwareTeam 0)).faultAt = none
    ∧ ((s .stopping).block 1).phase = .stopping ∧ mustEnd (s .stopping) 1 = false ∧ blockStalls (s .stopping) 1 = false ∧ (∀ k ∈ ((s .stopping).block 1).teams, specWaits (s .stopping) k = false)
    ∧ ((s .stopping).team hostTeam).spec = none ∧ ((s .stopping).team hostTeam).sywb = none
    ∧ ((s .stopped).block 1).phase = .stopped ∧ partStopped (s .stopped) ((s .stopped).ctx 1).part = true ∧ ((s .stopped).block 1).teams.length ≤ 32 ∧ (∀ k ∈ ((s .stopped).block 1).teams, k < 2 ^ 24) ∧ ((s .stopped).ctx 1).prot = false
    ∧ (prot.ctx 1).prot = true ∧ (prot.ctx 1).counter + 1 < 2 ^ 48 - 1
    ∧ (saved.block 1).isSaved = true ∧ ctxIdle saved 1 = false ∧ turnOf saved w = true ∧ (match restoreFit saved [] (saved.block 1) with | some f => decide f.slots.Nodup | none => false) = true
    ∧ (∀ k ∈ (saved.block 1).teams, 32 * (saved.block 1).core + 31 < k) ∧ sealGood prot 1 = false ∧ (prot.ctx 1).resetCode = 0 ∧ ctxIdle prot 1 = false ∧ turnOf prot w = true := by decide +kernel
theorem witness_eventHeld : ({ paged with cores := [(0, { paged.core 0 with events := [(2, 7)], inEvent := true })] }.core 0).inEvent = true := by decide +kernel
/-- The small state with a message in flight, and with these lines in die 1's and die 0's L2. -/
def flying (ms : List (MsgKind × Packet)) (f : Coh → Coh) : State := { paged with coh := f { paged.coh with net := ms } }
def holding (x1 x0 : Option (LineState × BitVec 4)) (c : Coh) : Coh :=
  { c with l2 := (match x0 with | some x => [(0, x)] | none => []) ++ (match x1 with | some x => [(1, x)] | none => []) }
/-- Line 0, at home on die 0: a message from die 1 and one to it. -/
def from1 : Packet := Coh.packet 0 1 0
def to1 : Packet := { Coh.packet 0 0 1 with req := 2 }
theorem witness_requestsSent :
    let s := fun (x : Option (LineState × BitVec 4)) => flying [] (holding x none)
    lineHome 0 = 0 ∧ from1.dst = lineHome 0 ∧ from1.src ≤ 4 ∧ (s none).coh.asking 0 1 = none ∧ (s none).coh.hasRoom 0 1 = true ∧ ((s none).coh.makeRoom 0 1).hasRoom 0 1 = true ∧ (s none).coh.nextOf .rds from1 = none ∧ (s none).coh.held 0 1 = none
    ∧ (s (some (.s, 0))).coh.held 0 1 = some (.s, 0) ∧ (s (some (.o, 1))).coh.held 0 1 = some (.o, 1) ∧ (s (some (.m, 3))).coh.held 0 1 = some (.m, 3) ∧ (s (some (.e, 0))).coh.held 0 1 = some (.e, 0)
    ∧ (flying [] (holding none (some (.m, 3)))).coh.held 0 0 = some (.m, 3)
    ∧ (let full := (flying [] (fun c => { c with l2 := (List.range 16).map (fun i => (8 * (24576 * (i + 1)) + 1, (LineState.s, (0 : BitVec 4)))) })).coh
       full.hasRoom 0 1 = false ∧ (full.setLines 0 1).find? (fun l => l != 0 && (full.asking l 1).isNone && !full.lineBusy l) = some 24576) := by decide +kernel
/-- Forwards, invalidations and evictions that reach a holder of each state, a die that waits for an upgrade, and one that holds nothing. -/
theorem witness_forwards :
    let s := fun (k : MsgKind) (x : Option (LineState × BitVec 4)) => flying [(k, to1)] (holding x none)
    (∀ k ∈ [MsgKind.fwds, .fwdx, .inv, .binv], (s k none).coh.nextOf k to1 = some to1)
    ∧ (s .fwds (some (.e, 0))).coh.held 0 1 = some (.e, 0) ∧ (s .fwds (some (.m, 3))).coh.held 0 1 = some (.m, 3) ∧ (s .fwds (some (.o, 3))).coh.held 0 1 = some (.o, 3) ∧ (s .fwds none).coh.held 0 1 = none
    ∧ (s .inv (some (.s, 0))).coh.asking 0 1 = none ∧ (flying [(.inv, to1)] (fun c => (holding (some (.s, 0)) none c).setAsking 0 1 (some 2))).coh.asking 0 1 = some 2
    ∧ (flying [(.inv, to1)] (fun c => (holding (some (.s, 0)) none c).setAsking 0 1 (some 2))).coh.held 0 1 = some (.s, 0) := by decide +kernel
/-- Data and grants that reach a requester, before and after each other. -/
theorem witness_grants :
    let s := fun (k : MsgKind) (g : Grant) (n : Nat) => flying [(k, { to1 with grant := g })] (fun c => (holding (some (.s, 0)) none c).setAsking 0 1 (some n))
    (∀ n ∈ [0, 1, 2, 5, 9], (s .data .e n).coh.asking 0 1 = some n) ∧ (∀ g ∈ [Grant.e, .s, .m, .none], (s .data g 1).coh.nextOf .data { to1 with grant := g } = some { to1 with grant := g })
    ∧ (s .gnt .none 2).coh.nextOf .gnt { to1 with grant := .none } = some { to1 with grant := .none } ∧ (s .gnt .none 2).coh.held 0 1 = some (.s, 0) ∧ (s .gnt .none 2).pkg.stalled = [] := by decide +kernel
/-- Requests at the home: queued behind a busy line, of a line that nobody else, sharers, or an owner holds, and a sharer's upgrade. -/
theorem witness_requestsServed :
    let s := fun (k : MsgKind) (f : Coh → Coh) => (flying [(k, from1)] (fun c => f { c with filter := [0] })).coh
    let t : Transaction := { line := 0, req := 2, kind := 0, waits := [], fwd := none, granted := false, mask := 0, evict := none, shared := false }
    (∀ k ∈ [MsgKind.rds, .rdx, .upg], (s k id).nextOf k from1 = some from1)
    ∧ (s .rds (fun c => { c with busy := [t] })).mustQueue 0 0 = true ∧ (s .rds id).mustQueue 0 0 = false ∧ (s .upg id).mustQueue 0 2 = false ∧ 0 ∈ (s .rds id).filter
    ∧ (s .rds id).holders 0 = [] ∧ (s .rds id).owner.get? 0 = none
    ∧ (s .rdx (fun c => { c with sharers := [(0, [2, 3])] })).holders 0 = [2, 3] ∧ (s .rdx (fun c => { c with owner := [(0, 2)], sharers := [(0, [3])] })).holders 0 = [2, 3]
    ∧ (s .rdx (fun c => { c with owner := [(0, 2)] })).owner.get? 0 = some 2 ∧ from1.src ∈ (s .upg (fun c => { c with sharers := [(0, [1, 3])] })).holders 0
    ∧ (s .upg (fun c => { c with sharers := [(0, [1])] })).holders 0 = [1] := by decide +kernel
/-- Replies at the home to a transaction in progress, its end, a writeback, and a store to a line that its die may write. -/
theorem witness_replies :
    let t : Transaction := { line := 0, req := 1, kind := 0, waits := [1, 3], fwd := none, granted := false, mask := 0, evict := none, shared := true }
    let s := fun (k : MsgKind) (t : Transaction) => (flying [(k, from1)] (fun c => { c with busy := [t] })).coh
    (∀ k ∈ [MsgKind.iack, .biack, .gone, .done, .wb, .evc], (s k t).nextOf k from1 = some from1) ∧ (∀ e ∈ (s .iack t).busy, e.evict = none) ∧ (s .iack t).busy.find? (fun t => t.line == from1.line) = some t
    ∧ (∀ e ∈ (s .iack t).busy, e.line = from1.line → e = t) ∧ t.fwd ≠ some from1.src ∧ ({ t with fwd := some 1 } : Transaction).fwd = some from1.src ∧ t.req = from1.src ∧ (s .done t).queued = [] ∧ from1.req = 0
    ∧ ({ t with kind := 1 } : Transaction).kind = 1 ∧ t.shared = true
    ∧ pathDie paged (.host 0) = 0 ∧ (flying [] (holding none (some (.m, 0)))).coh.held (0x40 / 256) 0 = some (.m, 0) ∧ 0x40 % 64 + 4 ≤ 64 := by decide +kernel
/-- Context 1 with its landing queues, the host's holding p records of kind `kh` and the device's one of `kd`; die 0 holds their lines. -/
def landing (p kh kd : Nat) (token target raddr : W64) (f : Team → Team) : State :=
  let s := (queued 1 0 id).putTeam hostTeam f
  let s := s.putCtx 1 (fun c => { c with hostLanding := 0x140000, devLanding := 0x150000, threads := 1, profile := 0x130000, profileWord := 0x110000 })
  owning [0x1400, 0x1410, 0x1411, 0x1412, 0x1500, 0x1510, 0x1511, 0x1512, 0x1513, 0x1514, 0x1515, 0x90] { s with
    mem := [(0x140000, desc64 p 0 0x141000), (0x150000, desc64 1 0 0x151000), (0x141000, leBytes 4 kh ++ leBytes 12 0 ++ leBytes 8 token.toNat),
      (0x151000, leBytes 4 kd ++ leBytes 12 0 ++ leBytes 8 token.toNat ++ leBytes 8 target.toNat ++ leBytes 8 raddr.toNat)].foldl (fun m x => Sparse.setRun m x.1 x.2) s.mem }
def call0 : Migration := { kind := 1, target := 0x6000, link := some 1 }
/-- Posts of a call, a system call and a return, to a queue with room and to a full one. -/
theorem witness_posts :
    let s := fun (p k : Nat) => landing p 1 2 0 0 0 (fun t => { t with migr := some { call0 with kind := k } })
    let plan := fun (p : Nat) => globalPlan (s p 1) ((s p 1).spaceOf hostTeam) .read 0x140000 64
    ((s 0 1).team hostTeam).migr = some call0 ∧ mayPost (s 0 1) hostTeam ((s 0 1).team hostTeam) call0 = true ∧ ((s 0 4).team hostTeam).pending = [] ∧ mayPost (s 0 4) hostTeam ((s 0 4).team hostTeam) { call0 with kind := 4 } = true
    ∧ ((s 0 1).ctxOf hostTeam).hostLanding = 0x140000 ∧ (s 0 1).pkg.locks = [] ∧ pathDie (s 0 1) (.team hostTeam) = 0
    ∧ okAnd (plan 0) (fun p =>
        let d := descOf 32 (p.phys.flatMap (fun r => readBytes (s 0 1) r.1 r.2))
        let s1 := (noteTlb ((s 0 1).spaceOf hostTeam) p.used).final (s 0 1)
        d.ok && d.pidx == 0 && d.log2n == 4 && okAnd (globalPlan s1 (s1.spaceOf hostTeam) .write (d.record d.pidx) 0x300) (fun w =>
          !anyStalls (s 0 1) (p.phys ++ w.phys) && owns (s 0 1) 0 (linesOf (p.phys ++ w.phys))
            && okAnd (globalPlan ((noteTlb (s1.spaceOf hostTeam) w.used).final s1) (s1.spaceOf hostTeam) .write 0x140000 8) (fun _ => true))) = true
    ∧ okAnd (plan 16) (fun p => (descOf 32 (p.phys.flatMap (fun r => readBytes (s 16 1) r.1 r.2))).pidx == 16) = true := by decide +kernel
/-- Records at the device: a RETURN that fits its team, one that does not, one for no team, an unknown kind, and an HCALL whose header stands and does not. -/
theorem witness_returns :
    let s := fun (kd : Nat) (raddr : W64) => landing 0 1 kd (((queued 1 0 id).team hostTeam).teamid.setWidth 64) 0x44 raddr (fun t => { t with suspended := some { raddr := 0x44 } })
    let rec' := fun (s : State) => match oldestRecord s 1 (s.ctx 1).devLanding with | some x => x.2 | none => []
    let t := s 2 0x44
    (oldestRecord t 1 (t.ctx 1).devLanding).isSome = true ∧ (t.ctx 1).dead = false ∧ field (rec' t) 0 4 = 2 ∧ recordReserved (rec' t) = true ∧ returnTeam t 1 (rec' t) = some (hostTeam, t.me) ∧ returnMatches t.me (rec' t) = true
    ∧ blockRuns t hostTeam = true ∧ returnMatches (s 2 0x48).me (rec' (s 2 0x48)) = false ∧ field (rec' (s 9 0x44)) 0 4 = 9 ∧ stores t 1 0x150008 8 0x150008 = true
    ∧ blockRuns { t with blocks := t.blocks.put 1 { t.block 1 with phase := .stopped } } hostTeam = false ∧ returnTeam { t with teams := [] } 1 (rec' t) = none
    ∧ field (rec' (s 3 0)) 0 4 = 3 ∧ (s 3 0).pkg.microcode = [] ∧ ((s 3 0).ctx 1).teardown = false ∧ hasProfile ((s 3 0).ctx 1) = true ∧ recordReserved (rec' (s 3 0)) = true
    ∧ okAnd (readHeader (s 3 0) 1 0x130000) (fun x => !x.1.spill) = true ∧ hasProfile (paged.ctx 1) = false
    ∧ (match readHeader { s 3 0 with mem := Sparse.setRun (s 3 0).mem 0x130000 [0] } 1 0x130000 with | .error _ => true | .ok _ => false) = true
    ∧ hostSlotFree (s 3 0) 1 = true := by decide +kernel
/-- A landing thread that takes a return and a call; and harts that fetch from a Darion page, back to a call's return address and as a call of their own. -/
theorem witness_harts :
    let s := landing 1 4 2 7 0 0 id
    let f : HartFetch := { ctx := 1, hart := 1, thread := 0, target := 0x5000, regs := [] }
    let c := landing 1 1 2 7 0 0 id
    let tokened := s.putCtx 1 (fun c => { c with tokens := [(0, [(7, 0x5000)])] })
    (oldestRecord s 1 (s.ctx 1).hostLanding).isSome = true ∧ pathStalls s (hartPath 1) = false ∧ descQuiet s 1 0x140000 = true ∧ (match oldestRecord s 1 0x140000 with | some x => field x.2 0 4 == 4 | none => false) = true
    ∧ (match oldestRecord c 1 0x140000 with | some x => field x.2 0 4 == 1 | none => false) = true ∧ landingThread (c.ctx 1) = some 0 ∧ landingThread (paged.ctx 1) = none
    ∧ okAnd (ctxRun s 1 .write 0x140008 8) (fun ps => ps == [(0x140008, 8)]) = true ∧ s.calm (hartPath 1) ∧ owns s 0 (linesOf [(0x140008, 8)]) = true ∧ pathDie s (hartPath 1) = 0
    ∧ (s.ctx 1).dead = false ∧ (s.ctx 1).calls.get? 0 = none ∧ hartFinds s 1 f.target = true ∧ ((tokened.ctx 1).tokens.get? 0).getD [] = [(7, f.target)] ∧ (s.ctx 1).tokens.get? 0 = none ∧ hasProfile (s.ctx 1) = true
    ∧ okAnd (readDesc s 1 0x150000) (fun d => d.ok && d.pidx == 1 && d.cidx == 0 && d.log2n == 4 && okAnd (ctxRun s 1 .write (d.record d.pidx) 0x300) (fun w => owns s 0 (linesOf w) && w == [(0x151300, 0x300)])) = true
    ∧ descQuiet s 1 0x150000 = true ∧ okAnd (ctxRun s 1 .write 0x150000 8) (fun w => owns s 0 (linesOf w)) = true := by decide +kernel
/-- Inbound messages to no context, too long, to a context in teardown, without a queue, with room and with none. -/
theorem witness_inbound :
    let s := fun (p : Nat) => let q := (queued 1 0 id).putCtx 1 (fun c => { c with inbound := 0x150000 })
      { q with mem := Sparse.setRun q.mem 0x150000 (leBytes 8 p ++ leBytes 8 0 ++ leBytes 8 0x151000 ++ leBytes 4 4 ++ leBytes 4 0 ++ leBytes 8 0 ++ List.replicate 24 0) }
    let i : Inbound := { ctx := 1, seq := 0, sender := 0, payload := [1] }
    let acked := fun (p : Nat) => (s p).putPkg (fun g => { g with nack := false })
    (s 0).ctxs.get? 9 = none ∧ 48 < (List.replicate 49 (0 : Byte)).length ∧ (s 0).ctxs.get? 1 ≠ none ∧ i.payload.length ≤ 48 ∧ ((s 0).ctx 1).teardown = false ∧ ((s 0).ctx 1).dead = false ∧ ((s 0).ctx 1).inbound ≠ 0
    ∧ (((s 0).putCtx 1 (fun c => { c with teardown := true })).ctx 1).teardown = true ∧ (paged.ctx 1).inbound = 0
    ∧ okAnd (readDesc (s 0) 1 0x150000 40) (fun d => d.ok && d.pidx == 0 && d.log2n == 4 && d.slot 64 == 0x151000) = true ∧ okAnd (readDesc (s 16) 1 0x150000 40) (fun d => d.ok && d.pidx == 16) = true
    ∧ stores (acked 0) 1 0x151000 64 0x151000 = true ∧ stores ((acked 0).stored 1 false 0x151000 (messageBytes i)) 1 0x150000 8 0x150000 = true
    ∧ stores (s 16) 1 0x150020 8 0x150020 = true ∧ okAnd (ctxNat (s 16) 1 0x150020 8) (· == 0) = true := by decide +kernel
/-- Accesses of a hart and of a peer inside a shared range, each with its lines in M; a peer's outside it; and a protected context. -/
theorem witness_outer :
    let s := owning [0x2000] ((queued 1 0 id).putCtx 1 (fun c => { c with shared := [(0x200000, 0x200000)] }))
    let a : OuterAccess := { agent := 1, ctx := 1, addr := 0x200000, op := .write [1, 2, 3, 4], acquire := false, release := false }
    s.ctxs.get? 1 ≠ none ∧ a.atomicOk = true ∧ okAnd (ctxRun s 1 a.need a.addr a.size) (fun ps => ps == [(0x200000, 4)] && !ps.any (fun r => barred s none r.1) && owns s 0 (linesOf ps) && owns s 4 (linesOf ps)) = true
    ∧ s.calm (hartPath 1) ∧ s.calm (.peer 1) ∧ pathDie s (hartPath 1) = 0 ∧ pathDie s (.peer 1) = 4 ∧ s.pkg.outers = [] ∧ inShared (s.ctx 1) a = true ∧ hartOnly a.op = false
    ∧ (∀ o ∈ [OuterOp.read 4, .atomic 0 false 7, .lr false, .sc false 5], ({ a with op := o } : OuterAccess).atomicOk = true ∧ okAnd (ctxRun s 1 ({ a with op := o } : OuterAccess).need a.addr ({ a with op := o } : OuterAccess).size) (fun ps => ps == [(0x200000, 4)]) = true)
    ∧ inShared (s.ctx 1) { a with addr := 0x400000 } = false ∧ hartOnly (.lr false) = true ∧ s.ctxs.get? 9 = none
    ∧ ({ a with op := .lr false, addr := 0x200001 } : OuterAccess).atomicOk = false ∧ (match ctxRun { s with mem := [] } 1 a.need a.addr a.size with | .error e => e == a.addr | .ok _ => false) = true := by decide +kernel
/-- An access to a page of a protected context: whether it is one of its device pages is Config's to say (R340). -/
theorem witness_barred : let s := (queued 1 0 id).putCtx 1 (fun c => { c with prot := true })
    barred s none 0x200000 = Config.devicePage 1 0x200 ∧ barred s (some 1) 0x200000 = false := by
  intro s
  have h : s.ctxs.map (fun c => (c.1, c.2.prot, c.2.dead)) = [(1, true, false)] := by decide +kernel
  have k : ∀ x pa, barred s x pa = (s.ctxs.map (fun c => (c.1, c.2.prot, c.2.dead))).any (fun c => c.2.1 && !c.2.2 && some c.1 != x && Config.devicePage c.1 (pa / 4096)) := by
    intro x pa; simp [barred, List.any_map, Function.comp_def]
  rw [k, k, h]; simp
/-- A fault of another context on such a page (R340). -/
theorem witness_refusedPage :
    let s := ((queued 1 0 id).putCtx 1 (fun c => { c with prot := true })).putCtx 2 (fun _ => (queued 1 0 id).ctx 1)
    refusedPage s { ctx := 2, page := 0x200, kind := 0, addr := 0x200000, queue := 0, teamid := 0 } = Config.devicePage 1 0x200 := by
  intro s
  have h : s.ctxs.map (fun c => (c.1, c.2.prot, c.2.dead)) = [(1, true, false), (2, false, false)] := by decide +kernel
  have k : ∀ x pa, barred s x pa = (s.ctxs.map (fun c => (c.1, c.2.prot, c.2.dead))).any (fun c => c.2.1 && !c.2.2 && some c.1 != x && Config.devicePage c.1 (pa / 4096)) := by
    intro x pa; simp [barred, List.any_map, Function.comp_def]
  have w : (walk s (s.ctx 2).asid (s.ctx 2).root 0x200000).map (fun e => e.pa + (0x200000 - e.page)) = some 0x200000 := by decide +kernel
  obtain ⟨e, he, ha⟩ := Option.map_eq_some_iff.mp w
  have ha' : e.pa + ((0x200000 : W64).toNat - e.page) = 0x200000 := ha
  simp only [refusedPage, he, ha', k, h]; simp
/-- A migration that may end, and one that waits; microcode that may be installed; errors of each place. -/
theorem witness_repairs :
    let e : Stalled := { path := .team hostTeam, blk := 1, slots := [], role := false, lane := none, place := .phys, pa := 0x5010, bytes := [1, 2], rmw := false }
    let s := (queued 1 0 id).putPkg (fun g => { g with locks := [(5, 9)], stalled := [e], microcode := [0x5000] })
    let m := matrixed 0 [{ begun 0 with fails := [(1, 2)] }]
    s.pkg.locks.find? (fun l => l.1 == 5) = some (5, 9) ∧ drainRuns s = false ∧ s.coh.pageBusy 5 = false ∧ s.pkg.stalled = [e] ∧ e.pa / 4096 = 5 ∧ s.coh.busy = [] ∧ s.coh.queued = [] ∧ underReset s e = false ∧ s.pkg.locks.find? (fun l => l.1 == 6) = none
    ∧ s.pkg.microcode = [0x5000] ∧ (∃ b ∈ s.blocks, b.2.resident = true) ∧ ({ s with blocks := [] } : State).blocks = []
    ∧ (s.core 1).slots[0]? = some State.emptyOverlay ∧ (s.ctxs.get? 1).isSome = true ∧ (s.ctx 1).resetCode = 0 ∧ (s.ctx 1).dead = false
    ∧ (entryAt m 1 0).isSome = true ∧ (((begun 0).fails.get? 0).getD 0 < 2) ∧ (({ begun 0 with fails := [(1, 2)] } : MatrixEntry).fails.get? 1).getD 0 = 2 ∧ 1 ∈ ctxsMapping s 5 := by decide +kernel
/-- The firmware queue with one request. -/
def asked (code ctx rsv : Nat) (args : List Nat) : State :=
  let s := owning [0x1000, 0x1010] (waiting2 id)
  { s with
    pkg := { s.pkg with bootcode := 2, fwq := 0x100000, fwqLatched := true }
    mem := Sparse.setRun (Sparse.setRun s.mem 0x100000 (desc64 1 0 0x101000)) 0x101000 (leBytes 2 code ++ leBytes 2 rsv ++ leBytes 4 0 ++ leBytes 4 ctx ++ leBytes 4 0 ++ (args ++ List.replicate (6 - args.length) 0).flatMap (leBytes 8)) }
/-- A request that is served, of a code and context and with these arguments. -/
def serve (code ctx : Nat) (args : List Nat) (p : State → Request → Bool) : Bool :=
  match nextRequest (asked code ctx 0 args) with
  | some r => r.code == code && r.ctx == ctx && !r.bad && (List.range args.length).all (fun i => r.arg i == BitVec.ofNat 64 (args.getD i 0)) && r.slot == 0x101000 && p (asked code ctx 0 args) r
  | none => false
theorem witness_requests :
    let s := asked 1 9 0 []
    lockedTo s 0x101004 = none ∧ lockedTo s 0x100008 = none ∧ 0x101004 % 256 + 4 ≤ 256 ∧ 0x100008 % 256 + 8 ≤ 256 ∧ s.late = false ∧ pathStalls s firmwarePath = false ∧ s.pkg.fwq = 0x100000 ∧ s.holds firmwarePath .write (linesOf [(0x101004, 4), (0x100008, 8)])
    ∧ (match nextRequest (asked 1 9 1 []) with | some r => r.bad | none => false) = true ∧ serve 99 0 [] (fun _ _ => true) = true
    ∧ serve 1 9 [0, 0x2000, 7] (fun s r => (s.ctxs.get? r.ctx).isNone && s.pkg.parts.contains 0 && decide ((runningCtxs s 0).length < 64)) = true ∧ serve 1 1 [0, 0x2000, 7] (fun s r => (s.ctxs.get? r.ctx).isSome && !(s.ctx r.ctx).dead) = true
    ∧ serve 1 9 [8, 0x2000, 7] (fun _ _ => true) = true ∧ serve 2 1 [] (fun s r => liveCtx s r.ctx) = true ∧ serve 2 9 [] (fun s r => !liveCtx s r.ctx) = true := by decide +kernel
theorem witness_registrations :
    let bind := fun (s : State) => { s with mem := Sparse.setRun s.mem 0x160000 (leBytes 8 0 ++ List.replicate 64 0 ++ leBytes 8 0x161000 ++ leBytes 8 4 ++ leBytes 8 0) }
    (match nextRequest (bind (asked 3 1 0 [0x160000])) with
      | some r => r.code == 3 && goodAddr (r.arg 0) 256 && okAnd (ctxBytes (bind (asked 3 1 0 [0x160000])) 1 (r.arg 0) 128) descriptorOk && freeQueue (bind (asked 3 1 0 [0x160000])) 1 == some 1
          && (ctxQueues (bind (asked 3 1 0 [0x160000])) 1).all (fun k => k.2.desc != r.arg 0)
      | none => false) = true
    ∧ serve 4 1 [0x160000] (fun _ r => zeroOr 256 (r.arg 0)) = true
    ∧ serve 5 1 [0x140000, 0x150000, 2, 0x6000, 0x130000, 0x110001] (fun s r =>
        zeroOr 64 (r.arg 0) && zeroOr 64 (r.arg 1) && canonical (r.arg 3) && zeroOr 64 (r.arg 4) && (r.arg 5).toNat / 4 % 2 == 0 && (r.arg 5).toNat / 16 % 16 == 0
          && (ctxQueues s 1).any (fun q => q.2.desc == r.arg 5 &&& ~~~(0xFF : W64)) && r.arg 0 != 0) = true
    ∧ serve 6 1 [0x160000, 0, 0, 0] (fun _ r => zeroOr 64 (r.arg 0) && zeroOr 64 (r.arg 1) && canonical (r.arg 2)) = true ∧ serve 7 1 [0x160000] (fun _ r => zeroOr 64 (r.arg 0)) = true
    ∧ serve 8 1 [0x200000, 0x200000] (fun _ r => goodAddr (r.arg 0) (2 ^ 21) && (r.arg 1).toNat % 2 ^ 21 == 0) = true ∧ serve 8 1 [0x200000, 1] (fun _ r => (r.arg 1).toNat % 2 ^ 21 != 0) = true := by decide +kernel
theorem witness_repairRequests :
    let h : FaultHandle := { ctx := 1, page := 5, kind := 0, addr := 0x5000, queue := 0, teamid := 0 }
    let open' := fun (s : State) => { s with dies := s.dies.put 0 { s.die 0 with handles := [(3, h)] } }
    handleOf (open' (asked 9 1 0 [3, 0])) 3 = some h ∧ serve 9 1 [3, 0] (fun s r => handleOf s 3 == none && r.arg 1 == 0) = true ∧ serve 9 1 [3, 1] (fun _ r => r.arg 1 == 1) = true ∧ serve 9 1 [3, 2] (fun _ r => r.arg 1 == 2) = true
    ∧ serve 9 1 [1024, 0] (fun _ _ => true) = true ∧ ((refuseWaiters 3 h).final (open' (asked 9 1 0 [3, 1]))).pkg.locks = [] ∧ ((refuseWaiters 3 h).final (open' (asked 9 1 0 [3, 1]))).late = false
    ∧ ((refuseWaiters 3 h).final (open' (asked 9 1 0 [3, 1]))).holds firmwarePath .write (linesOf [(0x101004, 4), (0x100008, 8)])
    ∧ serve 10 0 [0x5000, 0] (fun s _ => !drainRuns s && !writesDue s) = true
    ∧ serve 11 0 [0x5000, 0x8000] (fun s _ => (homeDie s 0x5000).isSome && (homeDie s 0x8000).isSome && s.pkg.locks == [] && !s.coh.pageBusy 5 && !s.coh.pageBusy 8) = true
    ∧ ({ asked 11 0 0 [0x5000, 0x8000] with pkg := { (asked 11 0 0 [0x5000, 0x8000]).pkg with locks := [(5, 9)] } } : State).pkg.locks = [(5, 9)]
    ∧ serve 12 1 [] (fun s r => liveCtx s r.ctx && !(s.ctx 1).swapped && ((s.putCtx 1 (fun c => { c with swapped := true })).ctx 1).swapped) = true
    ∧ decide ((runningCtxs ((asked 12 1 0 []).putCtx 1 (fun c => { c with swapped := true })) 0).length < 64) = true := by decide +kernel
theorem witness_partitionRequests :
    serve 13 0 [0, 0] (fun s r => (partMap r).all (· < 8) && (carveMap r).all (· ≤ 20) && s.ctxs.all (fun c => (partMap r).contains c.2.part) && pathDie (s.putPkg (fun g => { g with parts := partMap r })) firmwarePath == pathDie s firmwarePath) = true
    ∧ serve 13 0 [0x0101010101010101, 0] (fun s r => (partMap r).all (· < 8) && s.ctxs.any (fun c => !c.2.dead && !(partMap r).contains c.2.part)) = true
    ∧ serve 13 0 [0, 1] (fun s r => s.blocks.any (fun b => b.2.resident && (affected s r).contains (s.ctx b.2.ctx).part)) = true ∧ ({ asked 13 0 0 [0, 0] with blocks := [] } : State).blocks = []
    ∧ (let id := ((asked 14 1 0 []).team hostTeam).teamid.toNat
       serve 14 1 [2, id, 0, 0] (fun s r => teamNamed s 1 (r.arg 1) == some hostTeam) = true ∧ serve 14 1 [4, id, 2, 0x8100000000000044] (fun s r => teamNamed s 1 (r.arg 1) == some hostTeam) = true
       ∧ serve 14 1 [0, id, 0, 0] (fun s r => teamNamed s 1 (r.arg 1) == some hostTeam && !(s.team hostTeam).exited) = true ∧ serve 14 1 [2, 0, 0, 0] (fun s r => (teamNamed s 1 (r.arg 1)).isNone) = true)
    ∧ serve 15 0 [0x5000] (fun _ _ => true) = true ∧ serve 16 1 [1, 2, 3, 4, 0x6000] (fun s r => okAnd (ctxRun s 1 .write (r.arg 4) 4096) (fun ps => ps == [(0x6000, 4096)]) && (lockedTo s 0x6000).isNone) = true
    ∧ ((List.range 16).all (fun i => (owning ((List.range 16).map (0x60 + ·)) (asked 16 1 0 [])).coh.has (0x60 + i) 0 true)) = true
    ∧ serve 16 9 [] (fun s r => (s.ctxs.get? r.ctx).isNone) = true := by decide +kernel
/-- A package that is down, not booted, booting, booted and running; cores and dies that may change their power state.  What firmware's checks answer is a free value of Config: either branch of `boots` may be the machine's. -/
theorem witness_package :
    let s := asked 1 9 0 []
    let g := fun (f : Pkg → Pkg) => (s.putPkg f).pkg
    (g (fun g => { g with down := true })).down = true ∧ State.reset.pkg.bootcode = 0 ∧ State.reset.pkg.halted = false ∧ s.pkg.down = false ∧ s.pkg.bootcode = 2 ∧ (g (fun g => { g with bootcode := 1 })).bootcode = 1
    ∧ (g (fun g => { g with fwqLatched := false })).fwqLatched = false ∧ s.pkg.fwqLatched = true
    ∧ (let c := cored (fun c => { c with power := .active }) { s with blocks := [] }
       (c.cores.get? 1).isSome = true ∧ c.corePower 1 = .active ∧ fMode 1 = false ∧ c.blocks = [])
    ∧ (s.die 0).on = true ∧ dieUsed { s with ctxs := [] } 0 = false ∧ s.coh.asksNone 0 = true ∧ s.pkg.halted = false ∧ ({ s with dies := [(3, { s.die 0 with on := false })] }.die 3).on = false := by decide +kernel
/-- Turns of each kind: a scalar word that decodes and one that does not, a lane instruction, a copy entry, a request, an event and a delayed write. -/
theorem witness_steps :
    let s := State.reset.withFetchWord 32 0x04618540
    let bad := State.reset.withFetchWord 32 0
    let l := State.reset.withFetchWord 96 0x05040400
    let c := State.reset.withFetchWord 256 0x0A000000
    let r := { asked 1 9 0 [] with agenda := [.request] }
    dead s = false ∧ turnOf? s = some (.scalar hostTeam) ∧ mayIssue s.tickOn hostTeam = true ∧ (s.team hostTeam).pending = [] ∧ pcMatched (s.team hostTeam) = none ∧ wordAt s.tickOn hostTeam = some 0x04618540
    ∧ wordAt bad.tickOn hostTeam = some 0 ∧ (s.team hostTeam).ahead = [] ∧ (slotOf? s hostTeam (s.team hostTeam).pc).isSome = true
    ∧ turnOf? l = some (.lanes hostTeam) ∧ lanesRun l.tickOn hostTeam = true ∧ (nextLane (l.team hostTeam)).isSome = true
    ∧ turnOf? c = some (.ring 1) ∧ (c.block 1).ring.halting = [] ∧ (c.block 1).ring.faulted = false ∧ (c.block 1).ring.canTake = true ∧ engineRuns c.tickOn 1 = true
    ∧ okAnd (localPlan c.tickOn (engineSpace c.tickOn 1) (c.block 1) .read (BitVec.ofNat 64 (c.block 1).ring.entryAddr) 32) (fun p => !planStalls c.tickOn (.copy 1) 1 p && missing c.tickOn (.copy 1) p.phys == []
        && okAnd (decodeCopy (BitVec.ofNat 256 (leNat (planBytes c.tickOn (.copy 1) 1 p)))) (fun i => i == .cSignal copy0)) = true
    ∧ turnOf? r = some .request ∧ (nextRequest r.tickOn).isSome = true ∧ turnOf? { r with agenda := [.ev .syscall] } = some (.ev .syscall) ∧ turnOf? { r with agenda := [.late .request] } = some (.late .request)
    ∧ dead { r with pkg := { r.pkg with down := true } } = true ∧ wakes { r with pkg := { r.pkg with down := true } } .request = false := by decide +kernel
/-- The invariants hold at reset, and the machine steps from there. -/
theorem witness_invariants : State.reset.memWf = true ∧ State.reset.slotsOk = true ∧ (match step State.reset with | .next t => t.memWf && t.slotsOk && t.tick == 1 | _ => false) = true := by decide +kernel

/-! ## Witnesses: the further clauses -/

/-- A load, an aligned LD.ACQ and a store whose lines the die holds. -/
theorem witness_accesses :
    let s := owning [0] paged
    okAnd (accessPlan s s.cur false .read (memAddress s.me 0 .i32 4) 4) (fun p => decide (s.loads s.path s.me.blk p) && !planStalls s s.path s.me.blk p && decide (s.holds s.path .sync (linesOf p.phys))) = true
    ∧ okAnd (accessPlan s s.cur false .write (memAddress s.me 0 .i32 4) 4) (fun p => decide (s.writesTo s.path p)) = true
    ∧ s.me.partDone = { lanes := [], regs := [], events := [] } ∧ s.hist = [] := by decide +kernel
/-- In a speculation: a transfer to a RISC-V page; and a BSPEC predicted to hold whose target would not do. -/
theorem witness_speculativeTransfers :
    let s := { specced spec0 (paged.putCtx 1 (fun c => { c with threads := 1 })) with mem := Sparse.setRun [] 0x2000 (leBytes 8 0x00400000000000DF) }
    let b := base.putTeam hostTeam (fun t => { t with await := [6] })
    (slotOf? s hostTeam 0x5000).isSome = false ∧ loadingHit s hostTeam 0x5000 = false ∧ inOverlay0 s hostTeam 0x5000 = false ∧ pageTag s (s.spaceOf hostTeam) 0x5000 = some 1
    ∧ (s.ctxOf s.cur).threads ≠ 0 ∧ s.me.spec ≠ none
    ∧ b.issues { spec := true } ∧ b.me.awaits 5 6 = true ∧ b.me.spec = none ∧ checkTarget b b.cur (b.me.pc + 8) ≠ .good := by decide +kernel
/-- An LX of two instructions with an empty mask and nothing outstanding: RCP with a window and an addition that reads its result, with the lookahead checker off and on. -/
theorem witness_laneIssueAtOnce :
    let rcp : LaneOps := { lane0 with ty := 8, vd := 2, look := 1 }
    let add : LaneOps := { lane0 with ty := 0, vd := 3, va := 2 }
    let o : Overlay := { overlay 0 with lcount := 2, words := ((encode (.rcp rcp) ++ encode (.iadd add)).zipIdx).map (fun x => (4 + x.2, x.1)) }
    let s := fun (n : W32) => cored (fun c => { c with slots := c.slots.set 0 o }) (teamed (fun t => { t with pc := 0, m := 0, lacheck := n }))
    (s 0).issues {} ∧ (s 0).me.lanes = [] ∧ (s 0).me.pend = [] ∧ (s 0).me.m = 0 ∧ slotOf? (s 0) hostTeam 0 = some 0 ∧ sameOverlay (s 0).me o = true
    ∧ okAnd (decodeRun (laneEnv (s 0) hostTeam) o 0 2) (fun xs => xs == [.rcp rcp, .iadd add] && !((s 0).me.lacheck.getLsbD 0 && willViolate [] (s 0).me xs) && ((s 1).me.lacheck.getLsbD 0 && willViolate [] (s 1).me xs)) = true
    ∧ ((s 0).die (dieOf (coreOf (s 0).cur))).ops = [] ∧ (s 0).me.laneAcqs = [] := by decide +kernel
/-- A slot that is off; a SYWB whose phase has completed; invalid words for SYINIT; waits of SYW, RPUT and RGET. -/
theorem witness_syncWaits :
    let s := slotted 9
    let w := s.putTeam hostTeam (fun t => { t with sywb := some { d := 5, slot := 0, phase := false, got := some true } })
    s.issues { writes := [5] } ∧ s.issues {} ∧ s.hasSlot 4 ∧ s.mySlot 4 = .off ∧ s.me.sywb = none ∧ w.me.sywb = some { d := 5, slot := (0 : BitVec 6).toNat, phase := false, got := some true } ∧ w.issues { writes := [5] }
    ∧ (∀ x ∈ [2 ^ 32, 8, 5, 2 ^ 16, 1], x / 2 ^ 32 ≠ 0 ∨ x / 8 % 2 ^ 13 ≠ 0 ∨ 4 < x % 8 ∨ (x % 8 ∈ [0, 2, 3] ∧ x / 2 ^ 16 % 2 ^ 16 ≠ 0) ∨ (x % 8 ∈ [1, 4] ∧ x / 2 ^ 16 % 2 ^ 16 = 0))
    ∧ s.hasSlot 1 ∧ s.mySlot 1 = .bytes 5 ∧ 5 < (s.me.reg 6).toNat ∧ (6 : GReg) ≠ 0 ∧ s.hasSlot 2 ∧ s.mySlot 2 = .chunks 6 ∧ (6 : W64) &&& s.me.reg 6 ≠ s.me.reg 6
    ∧ s.hasSlot 0 ∧ s.mySlot 0 = .count 2 1 false ∧ ((slotted 1).me.reg 6).toNat = 1 ∧ s.hasSlot 5 ∧ s.mySlot 5 = .ring 4 0 0 0 0 0 0 := by decide +kernel
/-- TLBINV with no write on its way, CFLUSH with and without a request of its die on its way, ERET. -/
theorem witness_firmwareSystem :
    let f := { firmware with coh := firmware.coh.setAsking 0 0 (some 0) }
    writesDue firmware = false ∧ drainRuns firmware = false ∧ firmware.coh.asksNone (dieOf (coreOf firmware.cur)) = true ∧ f.coh.asksNone (dieOf (coreOf f.cur)) = false ∧ f.inFMode ∧ f.issues {} := by decide +kernel
/-- A PC-match register that matches the PC, and watchpoints on slot 0 with ACTION 0 and ACTION 2. -/
theorem witness_watches :
    let p := teamed (fun t => { t with pcmatch := t.pcmatch.set 0 0x8000000000000040 })
    let w := fun (act : Nat) => cored (fun c => { c with watch := c.watch.set 0 (BitVec.ofNat _ (2 ^ 31 + act * 2 ^ 26)) }) (slotted 1)
    let fs := fun (act : Nat) => (firings (w act) 1 1 0 true true ((w act).mySlot 0) (arrived 2 1 false)).map (fun f => (f.1, f.2.1))
    (p.teams.get? hostTeam).isSome = true ∧ p.me.canTrap ∧ p.me.pending = [] ∧ p.me.pcmatch[(0 : Fin 4)].getLsbD 63 = true ∧ p.me.pcmatch[(0 : Fin 4)].extractLsb' 2 55 = p.me.pc.extractLsb' 2 55 ∧ p.me.fired ≠ some (0, p.me.pc, 0)
    ∧ (w 0).hasSlot 0 ∧ (w 0).issues { writes := [5] } ∧ scalarStalls (w 0) (w 0).path = false ∧ (w 0).mySlot 0 = .count 2 1 false ∧ ((w 0).teams.get? (w 0).cur).isSome = true
    ∧ fs 0 = [(0, 0)] ∧ fs 2 = [(0, 2)] ∧ (w 0).me.canTrap ∧ (w 0).me.suspended = none ∧ (w 0).me.stopped = false := by decide +kernel
/-- Lane loads and stores whose lines the die holds; a fetch with no cause pending. -/
theorem witness_laneLines :
    let b := batch 2 0
    let g := owning [0x50] (laned (0x5000 + 4 * ·) b (stocked paged))
    okAnd (globalLanes (g.settledFor 0x180 mem0) (g.laneRun 0x180 mem0 b).lanes .read (globalLane (g.laneRun 0x180 mem0 b) mem0 false) 4) (fun ps => decide (g.loads g.path g.me.blk (wholePlan ps))) = true
    ∧ okAnd (globalLanes (g.settledFor 0x181 mem0) (g.laneRun 0x181 mem0 b).lanes .write (globalLane (g.laneRun 0x181 mem0 b) mem0 false) 4) (fun ps => decide (g.writesTo g.path (wholePlan ps))) = true
    ∧ g.me.pending = [] ∧ g.me.partDone = { lanes := [], regs := [], events := [] } ∧ g.hist = [] := by decide +kernel
/-- Entries that the engine goes on with, with no older one that owes their tiles; and a speculation with a panel and a proof tile. -/
theorem witness_engineEnds :
    let s := matrixed 0 [begun 0]
    let z := { entry (.mzero 1 1) with started := true }
    let p : Spec := { spec0 with panels := [(0, panel0)], tiles := [(1, [(5, 7)])] }
    engineEnds s (begun 0) = true ∧ olderWritten s 1 (begun 0) (some 0) = true ∧ engineEnds (matrixed 0 [z]) z = true ∧ olderWritten (matrixed 0 [z]) 1 z none = true ∧ ((matrixed 0 [z]).core 1).queue[0]? = some z
    ∧ (specced p s).me.spec = some p ∧ (specced p s).me.awaits p.a p.b = false ∧ Cond.holds p.cond 64 p.g[(5 : Fin 64)] p.g[(6 : Fin 64)] = p.hint
    ∧ (p.tiles.map Prod.fst).Nodup ∧ (∀ e ∈ p.tiles, (e.2.map Prod.fst).Nodup) := by decide +kernel
/-- A ring whose page has gone waits, one whose reads are there does not; reserved bytes of the header; PIDX beyond, equal to and below the earlier ones; an entry behind one that waits on a fault. -/
theorem witness_ringClauses :
    let s := ringed id
    let t := told 5 0x422 0 id
    let r := { t with blocks := t.blocks.put 1 { t.block 1 with loc := Sparse.set (t.block 1).loc 0x14 1 } }
    let e := going (.cCopy copyIn) 1
    let f := runs e
    (s.block 1).ring.faulted = false ∧ (t.block 1).ring.faulted = false ∧ (∀ e ∈ (s.block 1).ring.entries, e.faultAt = none) ∧ (t.block 1).ring.halted = false
    ∧ headerSeen r = none ∧ okAnd (localPlan r (engineSpace r 1) (r.block 1) .read 0 32) (fun p => !planStalls r (.copy 1) 1 p && p.phys == [] && field (planBytes ((Upd.hist (releaseTo 1 32)).apply r) (.copy 1) 1 p) 0x14 12 == 1) = true
    ∧ 0 < ahead 1 5 ∧ (∀ p ∈ [(3, 32)], ahead 1 p.1 < ahead 1 5) ∧ (∃ p ∈ [(3, 32), (5, 33)], ahead 1 p.1 = ahead 1 5) ∧ (∀ p ∈ [(3, 32), (5, 33)], ahead 1 p.1 ≤ ahead 1 5)
    ∧ [(3, 32), (7, 33)] = [(3, 32)] ++ ((7, 33) :: []) ∧ ahead 1 5 < ahead 1 7
    ∧ (f.block 1).ring.goesOn 0 = true ∧ ((ringed (fun r => { r with entries := [{ e with idx := 7, faultAt := some 1 }, e] })).block 1).ring.goesOn 0 = false := by decide +kernel
/-- The front end's reads whose lines its die holds: WRIDX, a record, a dependence, CTRL. -/
theorem witness_frontLines :
    let s := queued 1 0 id
    let l := launched (fun y => { y with next := 0, gx := 2, deps := [(0x9000, 5)], depRead := [(0, (0x90, 0))] }) s
    (s.queue 0).state ≠ .destroying ∧ s.frontReads 1 [((s.queue 0).desc, 8)] ∧ s.frontReads 1 (recordWords s 0) ∧ takeStalls s 0 = false ∧ ctxStalls l 1 0x9000 8 = false ∧ l.frontReads 1 [(0x9000, 8)]
    ∧ s.frontReads 1 [((s.queue 0).desc + 8, 4)] ∧ (s.launch 1).profBlock = 0 := by decide +kernel
/-- A block's placement and a mailbox write that no message of a line holds back. -/
theorem witness_placementLines :
    let s := waiting2 id
    let w : Waiting := { wait0 with prio := (s.launch 2).prio }
    (match waitFit s w with
      | some f => okAnd (xlate s (ctxSpace s 1 f.core) .write (spillFills (s.launch 2) f)) (fun r => !(linesOf r.parts).any s.coh.lineBusy)
      | none => false) = true
    ∧ okAnd (localPlan s (engineSpace s 1) (s.block 1) .write 0x100 16) (fun p => decide (s.holds (.mail 1) .write (linesOf p.phys))) = true := by decide +kernel

end Sys2Proof.Tests
end

section
/-! SUPPORT. Laws of the scalar integer instructions with an immediate and of CMP (R95 to R99): what they complete with, their values as integers, and their words. -/

namespace Sys2Proof.Machine

/-! ## Instructions that complete with one register written -/

/-- What an instruction completes with rests on its update's value at the current team alone. -/
theorem State.completed_congr {s : State} (u : Use) {f g : Team → Team} (h : f s.me = g s.me) : s.completed u f = s.completed u g := by
  simp only [State.me] at h
  simp only [State.completed, State.putTeam, h]

/-- A scalar instruction that issues and writes one register completes with the value that it computes from its team. -/
theorem scalar_setReg_run {s : State} {u : Use} (h : s.issues u) (d : GReg) {f : Team → W64} {r : W64} (hr : f s.me = r) :
    (scalar u fun _ => finish u (fun t => t.setReg d (f t))).run s = .next (s.completed u (fun t => t.setReg d r)) := by
  subst hr
  rw [Prog.run_eq, scalar_final h, finish_final]
  exact congrArg _ (State.completed_congr u rfl)

theorem unaryOp_run {s : State} {d a : GReg} (h : s.issues (use1 d a)) {f : W64 → W64} {r : W64} (hr : f (s.me.reg a) = r) :
    (unaryOp d a f).run s = .next (s.completed (use1 d a) (fun t => t.setReg d r)) :=
  scalar_setReg_run h d (f := fun t => f (t.reg a)) hr

/-- Whether an instruction issues does not rest on the registers that it reads (R86). -/
theorem issues_use1_iff (s : State) (d a b : GReg) : s.issues (use1 d a) ↔ s.issues (use1 d b) := Iff.rfl

/-! ## The low bits of a register (R93) -/

theorem widthOf_pos (w : Bool) : 0 < widthOf w := by cases w <;> decide

theorem natOf_eq_toNat (n : Nat) (x : W64) : natOf n x = (x.setWidth n).toNat := (BitVec.toNat_setWidth n x).symm

theorem intOfLow_eq_toInt {n : Nat} (hn : 0 < n) (x : W64) : intOfLow n x = (x.setWidth n).toInt := by
  have hp : 2 ^ n = 2 * 2 ^ (n - 1) := by rw [← Nat.pow_succ', Nat.succ_eq_add_one, Nat.sub_add_cancel hn]
  have hc : x.toNat % 2 ^ n < 2 ^ (n - 1) ↔ 2 * (x.toNat % 2 ^ n) < 2 ^ n := by omega
  simp only [intOfLow, signedOf, BitVec.toInt_eq_toNat_cond, BitVec.toNat_setWidth, hc, Nat.cast_pow, Nat.cast_ofNat]

/-- A one-operand result at the width w is that width's integer, narrowed. -/
theorem atWidth1_eq_narrow {w : Bool} {f : (n : Nat) → BitVec n → BitVec n} {x : W64} {r : Int}
    (h : f (widthOf w) (x.setWidth (widthOf w)) = BitVec.ofInt (widthOf w) r) : atWidth1 w f x = narrow (widthOf w) r := by
  rw [narrow, ← h]
  cases w with
  | false => rfl
  | true => simp [atWidth1, widthOf]

/-! ## Shifts as products and quotients (R96) -/

theorem shiftLeft_eq_ofInt {n : Nat} (x : BitVec n) (k : Nat) : x <<< k = BitVec.ofInt n (x.toNat * 2 ^ k) := by
  apply BitVec.eq_of_toNat_eq
  rw [BitVec.toNat_shiftLeft, Nat.shiftLeft_eq, BitVec.toNat_ofInt]
  norm_cast

theorem ushiftRight_eq_ofInt {n : Nat} (x : BitVec n) (k : Nat) : x >>> k = BitVec.ofInt n (x.toNat / 2 ^ k) := by
  apply BitVec.eq_of_toNat_eq
  rw [BitVec.toNat_ushiftRight, Nat.shiftRight_eq_div_pow, BitVec.toNat_ofInt]
  norm_cast
  exact (Nat.mod_eq_of_lt ((Nat.div_le_self _ _).trans_lt x.isLt)).symm

theorem sshiftRight_eq_ofInt {n : Nat} (x : BitVec n) (k : Nat) : x.sshiftRight k = BitVec.ofInt n (x.toInt / 2 ^ k) := by
  rw [BitVec.sshiftRight, Int.shiftRight_eq_div_pow]
  norm_cast

/-! ## The immediate instructions (R95 to R98) -/

section Immediates
variable {s : State} {d a : GReg} (h : s.issues (use1 d a))
include h

theorem exec_addi (i : BitVec 14) :
    exec (.addi d a i) s = .next (s.completed (use1 d a) (fun t => t.setReg d (BitVec.ofInt 64 ((s.me.reg a).toNat + i.toInt)))) :=
  unaryOp_run h (by rw [BitVec.ofInt_add]; simp [BitVec.signExtend])

theorem exec_andi (i : BitVec 14) :
    exec (.andi d a i) s = .next (s.completed (use1 d a) (fun t => t.setReg d (BitVec.ofNat 64 ((s.me.reg a).toNat &&& i.toNat)))) :=
  unaryOp_run h (by simp [BitVec.ofNat_and])

theorem exec_ori (i : BitVec 14) :
    exec (.ori d a i) s = .next (s.completed (use1 d a) (fun t => t.setReg d (BitVec.ofNat 64 ((s.me.reg a).toNat ||| i.toNat)))) :=
  unaryOp_run h (by simp [BitVec.ofNat_or])

theorem exec_xori (i : BitVec 14) :
    exec (.xori d a i) s = .next (s.completed (use1 d a) (fun t => t.setReg d (BitVec.ofNat 64 ((s.me.reg a).toNat ^^^ i.toNat)))) :=
  unaryOp_run h (by simp [BitVec.ofNat_xor])

theorem exec_shli (w : Bool) (k : BitVec 6) :
    exec (.shli d a w k) s = .next (s.completed (use1 d a) (fun t =>
      t.setReg d (narrow (widthOf !w) (natOf (widthOf !w) (s.me.reg a) * 2 ^ (k.toNat % widthOf !w))))) :=
  unaryOp_run h (atWidth1_eq_narrow (by rw [natOf_eq_toNat, shiftLeft_eq_ofInt]))

theorem exec_shri (w : Bool) (k : BitVec 6) :
    exec (.shri d a w k) s = .next (s.completed (use1 d a) (fun t =>
      t.setReg d (narrow (widthOf !w) (natOf (widthOf !w) (s.me.reg a) / 2 ^ (k.toNat % widthOf !w))))) :=
  unaryOp_run h (atWidth1_eq_narrow (by rw [natOf_eq_toNat, ushiftRight_eq_ofInt]))

theorem exec_srai (w : Bool) (k : BitVec 6) :
    exec (.srai d a w k) s = .next (s.completed (use1 d a) (fun t =>
      t.setReg d (narrow (widthOf !w) (intOfLow (widthOf !w) (s.me.reg a) / 2 ^ (k.toNat % widthOf !w))))) :=
  unaryOp_run h (atWidth1_eq_narrow (by rw [intOfLow_eq_toInt (widthOf_pos _), sshiftRight_eq_ofInt]))

theorem exec_lih (j : BitVec 20) :
    exec (.lih d j) s = .next (s.completed (use1 d 0) (fun t => t.setReg d (narrow 32 (j.toNat * 2 ^ 12)))) := by
  have hv : j ++ (0 : BitVec 12) = BitVec.ofInt 32 (j.toNat * 2 ^ 12) := by
    apply BitVec.eq_of_toNat_eq
    rw [BitVec.toNat_append, Nat.shiftLeft_eq, BitVec.toNat_ofInt]
    simp
    omega
  exact unaryOp_run ((issues_use1_iff s d a 0).mp h) (congrArg (BitVec.signExtend 64) hv)

theorem exec_lix (j : BitVec 20) :
    exec (.lix d j) s = .next (s.completed (use1 d d) (fun t => t.setReg d (BitVec.ofNat 64 ((s.me.reg d).toNat * 2 ^ 20 + j.toNat)))) := by
  have hv : (s.me.reg d <<< 20) ||| j.setWidth 64 = BitVec.ofNat 64 ((s.me.reg d).toNat * 2 ^ 20 + j.toNat) := by
    rw [← Nat.shiftLeft_eq, Nat.shiftLeft_add_eq_or_of_lt j.isLt, BitVec.ofNat_or, BitVec.ofNat_toNat]
    rfl
  exact unaryOp_run ((issues_use1_iff s d a d).mp h) hv

end Immediates

/-! ## CMP (R99) -/

theorem beq_setWidth (n : Nat) (x y : W64) : (x.setWidth n == y.setWidth n) = (natOf n x == natOf n y) := by
  rw [natOf_eq_toNat, natOf_eq_toNat, Bool.eq_iff_iff, beq_iff_eq, beq_iff_eq, BitVec.toNat_inj]

theorem ult_setWidth (n : Nat) (x y : W64) : (x.setWidth n).ult (y.setWidth n) = decide (natOf n x < natOf n y) := by
  rw [natOf_eq_toNat, natOf_eq_toNat, BitVec.ult_eq_decide]

theorem slt_setWidth {n : Nat} (hn : 0 < n) (x y : W64) : (x.setWidth n).slt (y.setWidth n) = decide (intOfLow n x < intOfLow n y) := by
  rw [intOfLow_eq_toInt hn, intOfLow_eq_toInt hn, BitVec.slt_eq_decide]

theorem cmpResult_eq (w : Bool) (c : Cond) (x y : W64) :
    cmpResult w c x y = if Cond.holds c (widthOf w) (x.setWidth (widthOf w)) (y.setWidth (widthOf w)) then 1 else 0 := by
  cases w with
  | false => rfl
  | true => simp [cmpResult, widthOf]

theorem exec_cmp {s : State} {d a b : GReg} (h : s.issues (use2 d a b)) (w : Bool) (c : Cond) {p : Bool}
    (hp : Cond.holds c (widthOf w) ((s.me.reg a).setWidth (widthOf w)) ((s.me.reg b).setWidth (widthOf w)) = p) :
    exec (.cmp d a b w c) s = .next (s.completed (use2 d a b) (fun t => t.setReg d (if p then 1 else 0))) :=
  scalar_setReg_run h d (f := fun t => cmpResult w c (t.reg a) (t.reg b)) (by rw [cmpResult_eq, hp])

/-! ## Words that decode to nothing (R72) -/

theorem instrOf_of_error {w : W32} {r : Reject} (h : decodeScalar w = .error r) : instrOf w = .illegalInstruction := by
  simp only [instrOf, h]

/-- ILLEGAL of a word that decodes to nothing, for a team that can take it. -/
theorem exec_illegalInstruction {s : State} (h : s.me.canTrap) : exec .illegalInstruction s = .next (s.traps 0x01 s.me.pc) := by
  have hspec : (s.team s.cur).spec = none := by obtain ⟨-, -, -, hspec, -⟩ := h; exact hspec
  rw [← illegal_final h]
  simp [exec, execIllegalInstruction, onTeam, hspec]

/-- A word that decodes to nothing is the illegal instruction, and traps as such. -/
theorem illegal_of_error {w : W32} {r : Reject} (h : decodeScalar w = .error r) (s : State) :
    instrOf w = .illegalInstruction ∧ (s.me.canTrap → exec (instrOf w) s = .next (s.traps 0x01 s.me.pc)) := by
  rw [instrOf_of_error h]
  exact ⟨rfl, exec_illegalInstruction⟩

end Sys2Proof.Machine

namespace Sys2Proof

/-! ## Fields of a scalar word (R71) -/

theorem fld_append_fld {w : Nat} (x : BitVec w) {lo k : Nat} (n : Nat) {hi : Nat} (h : hi = lo + k) : fld x hi n ++ fld x lo k = fld x lo (n + k) :=
  BitVec.extractLsb'_append_extractLsb'_eq_extractLsb' h

theorem fld_fld {w : Nat} (x : BitVec w) (lo : Nat) {n lo' n' : Nat} (h : lo' + n' ≤ n) : fld (fld x lo n) lo' n' = fld x (lo + lo') n' := by
  ext i hi
  simp only [fld, BitVec.getElem_extractLsb', BitVec.getLsbD_extractLsb', Nat.add_assoc]
  simp [show lo' + i < n by omega]

@[simp] theorem Sr.of_maj (w : W32) : (Sr.of w).maj = fld w 26 6 := rfl
@[simp] theorem Sr.of_d (w : W32) : (Sr.of w).d = fld w 20 6 := rfl
@[simp] theorem Sr.of_a (w : W32) : (Sr.of w).a = fld w 14 6 := rfl
@[simp] theorem Sr.of_b (w : W32) : (Sr.of w).b = fld w 8 6 := rfl
@[simp] theorem Sr.of_fn (w : W32) : (Sr.of w).fn = fld w 0 8 := rfl

@[simp] theorem Sr.of_imm14 (w : W32) : (Sr.of w).imm14 = fld w 0 14 := fld_append_fld w 6 rfl

@[simp] theorem Sr.of_imm20 (w : W32) : (Sr.of w).imm20 = fld w 0 20 :=
  (congrArg (· ++ fld w 0 8) (fld_append_fld w 6 rfl)).trans (fld_append_fld w 12 rfl)

/-! ## Words of the immediate instructions -/

section Immediates
variable {w : W32}

theorem decodeScalar_addi (h : (fld w 26 6).toNat = 2) : decodeScalar w = .ok (.addi (fld w 20 6) (fld w 14 6) (fld w 0 14)) := by
  simp [decodeScalar, h]

theorem decodeScalar_andi (h : (fld w 26 6).toNat = 3) : decodeScalar w = .ok (.andi (fld w 20 6) (fld w 14 6) (fld w 0 14)) := by
  simp [decodeScalar, h]

theorem decodeScalar_ori (h : (fld w 26 6).toNat = 4) : decodeScalar w = .ok (.ori (fld w 20 6) (fld w 14 6) (fld w 0 14)) := by
  simp [decodeScalar, h]

theorem decodeScalar_xori (h : (fld w 26 6).toNat = 5) : decodeScalar w = .ok (.xori (fld w 20 6) (fld w 14 6) (fld w 0 14)) := by
  simp [decodeScalar, h]

theorem decodeScalar_shi (h : (fld w 26 6).toNat = 6) : decodeScalar w = decodeShi (Sr.of w) := by
  simp [decodeScalar, h]

theorem decodeScalar_lih (h : (fld w 26 6).toNat = 7) : decodeScalar w = .ok (.lih (fld w 20 6) (fld w 0 20)) := by
  simp [decodeScalar, h]

theorem decodeScalar_lix (h : (fld w 26 6).toNat = 8) : decodeScalar w = .ok (.lix (fld w 20 6) (fld w 0 20)) := by
  simp [decodeScalar, h]

theorem decodeShi_shli (h : fld w 6 5 = 0) (hop : fld w 12 2 = 0) :
    decodeShi (Sr.of w) = .ok (.shli (fld w 20 6) (fld w 14 6) (fld w 11 1 == 1) (fld w 0 6)) := by
  simp [decodeShi, fld_fld, need, h, hop]

theorem decodeShi_shri (h : fld w 6 5 = 0) (hop : fld w 12 2 = 1) :
    decodeShi (Sr.of w) = .ok (.shri (fld w 20 6) (fld w 14 6) (fld w 11 1 == 1) (fld w 0 6)) := by
  simp [decodeShi, fld_fld, need, h, hop]

theorem decodeShi_srai (h : fld w 6 5 = 0) (hop : fld w 12 2 = 2) :
    decodeShi (Sr.of w) = .ok (.srai (fld w 20 6) (fld w 14 6) (fld w 11 1 == 1) (fld w 0 6)) := by
  simp [decodeShi, fld_fld, need, h, hop]

/-- A SHI of operation 3 is no instruction (R96). -/
theorem decodeShi_function (hop : fld w 12 2 = 3) : decodeShi (Sr.of w) = .error .function := by
  simp [decodeShi, fld_fld, hop]

/-- A SHI with a bit of imm14[10:6] set is no instruction, whatever its operation (R73). -/
theorem decodeShi_unused (h : fld w 6 5 ≠ 0) : ∃ r, decodeShi (Sr.of w) = .error r := by
  have hneed (i : Instr) : need (fld (fld w 0 14) 6 5 == 0) i = .error .unused := by
    rw [fld_fld w 0 (by decide)]
    simp [need, show ¬fld w 6 5 = 0#5 from h]
  simp only [decodeShi, Sr.of_imm14, hneed]
  split <;> exact ⟨_, rfl⟩

theorem decodeShi_illegal (h : fld w 12 2 = 3 ∨ fld w 6 5 ≠ 0) : ∃ r, decodeShi (Sr.of w) = .error r := by
  obtain hop | hunused := h
  · exact ⟨_, decodeShi_function hop⟩
  · exact decodeShi_unused hunused

end Immediates

/-! ## Words of CMP (R75) -/

theorem Cond.ofCode_code (c : Cond) : Cond.ofCode c.code = some c := by cases c <;> rfl

theorem Cond.ofCode_eq_none {k : Nat} (h : 6 ≤ k) : Cond.ofCode k = none := by
  obtain ⟨j, rfl⟩ := Nat.exists_eq_add_of_le' h
  rfl

section Compare
variable {w : W32} (hmaj : (fld w 26 6).toNat = 0x0A)
include hmaj

theorem decodeScalar_cmp {c : Cond} (h7 : fld w 7 1 = 0) (hc : (fld w 0 6).toNat = c.code) :
    decodeScalar w = .ok (.cmp (fld w 20 6) (fld w 14 6) (fld w 8 6) (fld w 6 1 == 1) c) := by
  simp [decodeScalar, hmaj, fld_fld, h7, hc, Cond.ofCode_code]

/-- A CMP with fn[7] set or an unlisted condition is no instruction (R75). -/
theorem decodeScalar_cmp_illegal (h : fld w 7 1 = 1 ∨ 6 ≤ (fld w 0 6).toNat) : decodeScalar w = .error .function := by
  obtain h7 | hc := h
  · simp [decodeScalar, hmaj, fld_fld, h7]
  · simp [decodeScalar, hmaj, fld_fld, Cond.ofCode_eq_none hc]

end Compare

end Sys2Proof
end

section
/-! PROOF. The immediate instructions and CMP (R95 to R99). -/

namespace Sys2Proof.Machine

/-- Settles O5: each instruction by its own rule, each word by the decoder's equation for its major. -/
theorem immediateResults : Obligations.ImmediateResults := by
  unfold Obligations.ImmediateResults
  refine ⟨fun s d a w i k j h => ?_, fun w s => ?_⟩
  · exact ⟨exec_addi h i, exec_andi h i, exec_ori h i, exec_xori h i, exec_shli h w k, exec_shri h w k, exec_srai h w k, exec_lih h j, exec_lix h j⟩
  · refine ⟨decodeScalar_addi, decodeScalar_andi, decodeScalar_ori, decodeScalar_xori, fun hmaj hzero => ?shifts, fun hmaj hbad => ?illegal,
      decodeScalar_lih, decodeScalar_lix⟩
    case shifts =>
      rw [decodeScalar_shi hmaj]
      exact ⟨decodeShi_shli hzero, decodeShi_shri hzero, decodeShi_srai hzero⟩
    case illegal =>
      obtain ⟨r, hr⟩ := decodeShi_illegal hbad
      exact illegal_of_error ((decodeScalar_shi hmaj).trans hr) s

/-- Settles O6: each condition by what it says of the low bits as integers, each word by the decoder's equations for major 0x0A. -/
theorem compareResults : Obligations.CompareResults := by
  unfold Obligations.CompareResults
  refine ⟨fun s d a b w c h => exec_cmp h w c ?_, fun w s hmaj =>
    ⟨fun c => decodeScalar_cmp hmaj, fun hbad => illegal_of_error (decodeScalar_cmp_illegal hmaj hbad) s⟩⟩
  cases c with
  | eq => exact beq_setWidth _ _ _
  | ne => exact congrArg (!·) (beq_setWidth _ _ _)
  | lt => exact slt_setWidth (widthOf_pos w) _ _
  | ge => simp only [Cond.holds, slt_setWidth (widthOf_pos w), ← decide_not, not_lt]
  | ltn => exact ult_setWidth _ _ _
  | gen => simp only [Cond.holds, ult_setWidth, ← decide_not, not_lt]

end Sys2Proof.Machine
end

section
/-! SUPPORT. Laws of the recoding of weights (R244 to R246): the non-adjacent form of a number, the terms of a value and of a scaled value, and the significand and quantum that an encoding holds. -/

namespace Sys2Proof.Fp.Fmt

/-- The quantum of an encoding's lowest bit; a subnormal has that of exponent field 1 (R119). -/
def quantum (f : Fmt) (x : Nat) : Int := (max (f.expField x) 1 : Nat) - (f.bias : Int) - f.fbits

/-- An encoding's significand with its implicit bit, a subnormal's fraction for a subnormal (R119). -/
def significand (f : Fmt) (x : Nat) : Nat := if f.expField x = 0 then f.frac x else 2 ^ f.fbits + f.frac x

theorem quantum_of_subnormal {f : Fmt} {x : Nat} (h : f.expField x = 0) : f.quantum x = f.minExp := by
  simp [quantum, minExp, h]

theorem quantum_of_normal {f : Fmt} {x : Nat} (h : f.expField x ≠ 0) : f.quantum x = f.minExp + f.expField x - 1 := by
  rw [quantum, minExp, max_eq_left (Nat.one_le_iff_ne_zero.mpr h)]
  ring

theorem decode_of_subnormal {f : Fmt} {x : Nat} (h : f.expField x = 0) : f.decode x = .fin (f.signBit x) (f.significand x) (f.quantum x) := by
  rw [quantum_of_subnormal h, significand, if_pos h]
  exact if_pos h

/-- What an encoding with a non-zero exponent field holds; e4m3, whose decoding writes out its implicit bit, has 3 fraction bits. -/
theorem decode_of_normal {f : Fmt} (hbits : f.code = 12 → f.fbits = 3) {x : Nat} (h : f.expField x ≠ 0) :
    f.decode x = .fin (f.signBit x) (f.significand x) (f.quantum x) ∨ (∃ neg, f.decode x = .inf neg) ∨ ∃ signalling, f.decode x = .nan signalling := by
  rw [quantum_of_normal h, significand, if_neg h, Nat.add_comm]
  simp only [decode, h, if_false]
  by_cases h12 : f.code = 12
  · rw [hbits h12, if_pos h12]
    split
    · exact .inr (.inr ⟨_, rfl⟩)
    · exact .inl rfl
  rw [if_neg h12]
  by_cases h14 : f.code = 14
  · exact .inl (if_pos h14)
  rw [if_neg h14]
  by_cases htop : f.expField x = 2 ^ f.ebits - 1
  · rw [if_pos htop]
    split
    · exact .inr (.inl ⟨_, rfl⟩)
    · exact .inr (.inr ⟨_, rfl⟩)
  · exact .inl (if_neg htop)

theorem decode_eq_fin {f : Fmt} (hbits : f.code = 12 → f.fbits = 3) {x : Nat} {neg : Bool} {n : Nat} {q : Int} (h : f.decode x = .fin neg n q) :
    neg = f.signBit x ∧ n = f.significand x ∧ q = f.quantum x := by
  have hfin : f.decode x = .fin (f.signBit x) (f.significand x) (f.quantum x) := by
    by_cases he : f.expField x = 0
    · exact decode_of_subnormal he
    · obtain hfin | ⟨_, hinf⟩ | ⟨_, hnan⟩ := decode_of_normal hbits he
      · exact hfin
      · cases h.symm.trans hinf
      · cases h.symm.trans hnan
  exact Num.fin.inj (h.symm.trans hfin)

end Sys2Proof.Fp.Fmt

namespace Sys2Proof.Machine

/-! ## The non-adjacent form (R244) -/

/-- The integer that signed binary places stand for. -/
def placesSum (ds : List (Bool × Nat)) : Int := (ds.map (fun d => (if d.1 then (-1 : Int) else 1) * 2 ^ d.2)).sum

@[simp] theorem placesSum_nil : placesSum [] = 0 := rfl

@[simp] theorem placesSum_cons (d : Bool × Nat) (ds : List (Bool × Nat)) :
    placesSum (d :: ds) = (if d.1 then -1 else 1) * 2 ^ d.2 + placesSum ds := by
  simp [placesSum]

@[simp] theorem naf_zero (fuel p : Nat) : naf fuel 0 p = [] := by cases fuel <;> rfl

theorem naf_of_even {n : Nat} (h : n % 2 = 0) (fuel p : Nat) : naf (fuel + 1) n p = naf fuel (n / 2) (p + 1) := by
  by_cases hn : n = 0
  · simp [hn]
  · simp [naf, hn, h]

theorem naf_of_mod_four_one {n : Nat} (h : n % 4 = 1) (fuel p : Nat) : naf (fuel + 1) n p = (false, p) :: naf fuel (n / 2) (p + 1) := by
  simp [naf, h, show n ≠ 0 by omega, show n % 2 ≠ 0 by omega]

theorem naf_of_mod_four_three {n : Nat} (h : n % 4 = 3) (fuel p : Nat) : naf (fuel + 1) n p = (true, p) :: naf fuel (n / 2 + 1) (p + 1) := by
  simp [naf, h, show n ≠ 0 by omega, show n % 2 ≠ 0 by omega]

/-- The three ways in which a digit is taken from a number. -/
theorem mod_four_cases (n : Nat) : n % 2 = 0 ∨ n % 4 = 1 ∨ n % 4 = 3 := by omega

/-- No place lies below the place counted from. -/
theorem le_of_mem_naf {fuel n p : Nat} {d : Bool × Nat} (hd : d ∈ naf fuel n p) : p ≤ d.2 := by
  induction fuel generalizing n p with
  | zero => simp [naf] at hd
  | succ fuel ih =>
    obtain h | h | h := mod_four_cases n
    · rw [naf_of_even h] at hd
      exact Nat.le_of_succ_le (ih hd)
    · rw [naf_of_mod_four_one h, List.mem_cons] at hd
      obtain rfl | hd := hd
      · exact le_rfl
      · exact Nat.le_of_succ_le (ih hd)
    · rw [naf_of_mod_four_three h, List.mem_cons] at hd
      obtain rfl | hd := hd
      · exact le_rfl
      · exact Nat.le_of_succ_le (ih hd)

/-- An even number has no digit at the first place. -/
theorem lt_of_mem_naf_of_even {fuel n p : Nat} {d : Bool × Nat} (hn : n % 2 = 0) (hd : d ∈ naf fuel n p) : p < d.2 := by
  cases fuel with
  | zero => simp [naf] at hd
  | succ fuel => exact le_of_mem_naf (naf_of_even hn fuel p ▸ hd)

/-- No two digits stand at adjacent places: what is left after a digit is even. -/
theorem naf_pairwise (fuel n p : Nat) : (naf fuel n p).Pairwise (fun x y => x.2 + 2 ≤ y.2) := by
  induction fuel generalizing n p with
  | zero => exact .nil
  | succ fuel ih =>
    obtain h | h | h := mod_four_cases n
    · rw [naf_of_even h]
      exact ih _ _
    · rw [naf_of_mod_four_one h]
      exact .cons (fun d hd => lt_of_mem_naf_of_even (by omega) hd) (ih _ _)
    · rw [naf_of_mod_four_three h]
      exact .cons (fun d hd => lt_of_mem_naf_of_even (by omega) hd) (ih _ _)

/-- The digits sum to the number where the fuel covers it; a negative digit carries, so the bound leaves room for one place above the number's bits. -/
theorem placesSum_naf {fuel n : Nat} (hn : 2 * n ≤ 2 ^ fuel) (p : Nat) : placesSum (naf fuel n p) = n * 2 ^ p := by
  induction fuel generalizing n p with
  | zero => simp [show n = 0 by omega]
  | succ fuel ih =>
    rw [pow_succ] at hn
    obtain h | h | h := mod_four_cases n
    · have hhalf : (n : Int) = 2 * (n / 2 : Nat) := by omega
      rw [naf_of_even h, ih (by omega), hhalf]
      ring
    · have hhalf : (n : Int) = 2 * (n / 2 : Nat) + 1 := by omega
      rw [naf_of_mod_four_one h, placesSum_cons, ih (by omega), hhalf]
      simp only [Bool.false_eq_true, if_false]
      ring
    · have hhalf : (n : Int) = 2 * (n / 2 + 1 : Nat) - 1 := by omega
      have hroom : n + 1 ≤ 2 ^ fuel := by
        cases fuel with
        | zero => omega
        | succ fuel => rw [pow_succ] at hn ⊢; omega
      rw [naf_of_mod_four_three h, placesSum_cons, ih (by omega), hhalf]
      simp only [if_true]
      ring

/-! ## The terms of a value (R244, R245) -/

/-- The terms of a finite value: the digits of its significand's non-adjacent form with the value's sign, from its quantum up. -/
def termsOf (neg : Bool) (n : Nat) (q : Int) : List (Bool × Int) := (naf (n.log2 + 2) n 0).map (fun d => (neg != d.1, q + d.2))

theorem recode_zero (neg : Bool) (q : Int) : recode (.fin neg 0 q) = .zero := rfl

theorem recode_of_pos {n : Nat} (hn : 0 < n) (neg : Bool) (q : Int) : recode (.fin neg n q) = .terms (termsOf neg n q) :=
  if_neg hn.ne'

theorem termsOf_pairwise (neg : Bool) (n : Nat) (q : Int) : (termsOf neg n q).Pairwise (fun x y => x.2 + 2 ≤ y.2) :=
  (naf_pairwise _ n 0).map _ (fun x y h => by dsimp only; omega)

theorem le_of_mem_termsOf {neg : Bool} {n : Nat} {q : Int} {t : Bool × Int} (ht : t ∈ termsOf neg n q) : q ≤ t.2 := by
  obtain ⟨d, -, rfl⟩ := List.mem_map.mp ht
  exact Int.le_add_of_nonneg_right (Int.natCast_nonneg d.2)

/-- The sum of terms in units of the quantum q. -/
def termsSum (q : Int) (ts : List (Bool × Int)) : Int := (ts.map (fun t => (if t.1 then (-1 : Int) else 1) * 2 ^ (t.2 - q).toNat)).sum

/-- Signing the digits and counting their places from the quantum signs their sum. -/
theorem termsSum_map (neg : Bool) (q : Int) (ds : List (Bool × Nat)) :
    termsSum q (ds.map (fun d => (neg != d.1, q + d.2))) = (if neg then -1 else 1) * placesSum ds := by
  simp only [termsSum, placesSum, List.map_map, ← List.sum_map_mul_left]
  congr 2
  funext ⟨sign, place⟩
  cases neg <;> cases sign <;> simp

theorem termsSum_termsOf (neg : Bool) (n : Nat) (q : Int) : termsSum q (termsOf neg n q) = if neg then -(n : Int) else n := by
  have hfuel : 2 * n ≤ 2 ^ (n.log2 + 2) := by
    have := Nat.lt_log2_self (n := n)
    rw [pow_succ]
    omega
  rw [termsOf, termsSum_map, placesSum_naf hfuel]
  cases neg <;> simp

/-! ## Scaled elements (R246) -/

/-- A weight times 2^k: the scale folds into each term and leaves a marker as it is. -/
def Weight.scale (k : Int) : Weight → Weight
  | .terms ts => .terms (ts.map (fun t => (t.1, t.2 + k)))
  | w => w

/-- Recoding a scaled value folds the scale into its terms: its significand, and so its non-adjacent form, stay the same. -/
theorem recode_scaleDown (k : Int) (v : Fp.Num) : recode (scaleDown k v) = (recode v).scale (-k) := by
  match v with
  | .nan _ => rfl
  | .inf _ => rfl
  | .fin neg n q =>
    obtain rfl | hn := Nat.eq_zero_or_pos n
    · rfl
    · simp only [scaleDown, recode_of_pos hn, Weight.scale, termsOf, List.map_map]
      congr 2
      funext d
      simp only [Function.comp_apply, Prod.mk.injEq, true_and]
      ring

/-- The unscaled value of an e2m1x code under a side word's EXTRA byte x (R125). -/
def elementOf (x c : Nat) : Fp.Num :=
  if c = 8 then (if x % 128 = 0 then .fin false 0 0 else Fp.e4m3.decode x) else Fp.e2m1.decode c

theorem elemValue_block {e x : Nat} (he : e < 255) (hx : x < 256) (c : Nat) :
    elemValue 14 (256 * e + x) c = scaleDown (127 - (e : Int)) (elementOf x c) := by
  have hscale : (256 * e + x) / 256 % 256 = e := by omega
  have hextra : (256 * e + x) % 256 = x := by omega
  simp [elemValue, blockValue, elementOf, hscale, hextra, he.ne]

/-- Scale byte 255 makes the whole block NaN (R125). -/
theorem elemValue_nanBlock {x : Nat} (hx : x < 256) (c : Nat) : elemValue 14 (256 * 255 + x) c = .nan false := by
  have hscale : (256 * 255 + x) / 256 % 256 = 255 := by omega
  simp [elemValue, blockValue, hscale]

theorem recode_elemValue_block {e x : Nat} (he : e < 255) (hx : x < 256) (c : Nat) :
    recode (elemValue 14 (256 * e + x) c) = (recode (elementOf x c)).scale ((e : Int) - 127) := by
  rw [elemValue_block he hx, recode_scaleDown, neg_sub]

/-- The terms of the element 1.5, which R246 works out. -/
theorem recode_elementOf_three (x : Nat) : recode (elementOf x 3) = .terms [(true, -1), (false, 1)] := by
  have h : recode (Fp.e2m1.decode 3) = .terms [(true, -1), (false, 1)] := by decide
  exact h

end Sys2Proof.Machine
end

section
/-! PROOF. The recoding of weights (R244 to R246). -/

namespace Sys2Proof.Machine

/-- Settles O38: the terms by the laws of the non-adjacent form, the significand by the decoding of each format, a scaled element by folding the scale into its terms. -/
theorem termRecoding : Obligations.TermRecoding := by
  unfold Obligations.TermRecoding
  refine ⟨fun neg n q => ⟨recode_zero neg q, fun hn => ?terms⟩, fun f hf x neg n q h => ?significand, fun x => rfl,
    fun e x c hx _ => ⟨fun he => ?scaled, fun he => ?oneAndHalf, ?nanBlock⟩⟩
  case terms =>
    rw [recode_of_pos hn]
    exact ⟨_, rfl, termsOf_pairwise neg n q, fun _ => le_of_mem_termsOf, termsSum_termsOf neg n q, rfl⟩
  case significand =>
    have hbits : ∀ f ∈ [Fp.e4m3, Fp.e5m2, Fp.f16, Fp.bf16], f.code = 12 → f.fbits = 3 := by decide
    exact Fp.Fmt.decode_eq_fin (hbits f hf) h
  case scaled =>
    rw [recode_elemValue_block he hx]
    unfold elementOf
    generalize recode _ = w
    cases w <;> rfl
  case oneAndHalf =>
    rw [recode_elemValue_block he hx, recode_elementOf_three]
    simp only [Weight.scale, List.map_cons, List.map_nil, Weight.terms.injEq, List.cons.injEq, Prod.mk.injEq, true_and, and_true]
    omega
  case nanBlock =>
    rw [elemValue_nanBlock hx]
    rfl

end Sys2Proof.Machine
end
